-- ==== Sys2Proof/Word.lean ====
section
/-! DEFINITION. The word and byte of the ARM7 (`00_scope.md` R4) and their plainest arithmetic (R7). -/

namespace Sys2Proof

/-- A byte, 8 bits. -/
abbrev Byte := BitVec 8

/-- A word, 32 bits: a register, an address, an instruction. -/
abbrev Word := BitVec 32

/-- The low byte of a word. -/
def Word.lowByte (w : Word) : Byte := w.setWidth 8

/-- `zext_32` of a byte (`00_scope.md` R7). -/
def Byte.extend (b : Byte) : Word := b.setWidth 32

end Sys2Proof
end

