-- ==== Sys2Proof/Syntax.lean ====
section
/-! DEFINITION. The instructions of the ARM7: one constructor for each row of the opcode table
(`30_encoding.md` R121 to R123, R150). The machine never sees raw encodings. -/

namespace Sys2Proof

/-- A general register number, 0 to 15 (`30_encoding.md` R122). -/
abbrev Reg := Fin 16

/-- The condition field (`40_condition_execution.md` R171), in the order of its codes. -/
inductive Cond
  | eq | ne | cs | cc | mi | pl | vs | vc | hi | ls | ge | lt | gt | le | al | nv
deriving DecidableEq, Repr

/-- The shift types (`30_encoding.md` R132), in the order of their codes. -/
inductive Shift
  | lsl | lsr | asr | ror
deriving DecidableEq, Repr

/-- The sixteen data processing operations (`42_data_processing.md` R200), in the order of their codes. -/
inductive AluOp
  | and | eor | sub | rsb | add | adc | sbc | rsc | tst | teq | cmp | cmn | orr | mov | bic | mvn
deriving DecidableEq, Repr

/-- The four test operations, which write no result (`42_data_processing.md` R200). -/
def AluOp.isTest : AluOp → Bool
  | .tst | .teq | .cmp | .cmn => true
  | .and | .eor | .sub | .rsb | .add | .adc | .sbc | .rsc | .orr | .mov | .bic | .mvn => false

/-- The logical operations (`42_data_processing.md` R208); the others are arithmetic (R209). -/
def AluOp.isLogical : AluOp → Bool
  | .and | .eor | .tst | .teq | .orr | .mov | .bic | .mvn => true
  | .sub | .rsb | .add | .adc | .sbc | .rsc | .cmp | .cmn => false

/-- An instruction. `c` is the condition, `sf` the S bit, `rn rd rs rm` register numbers, `rot imm` a rotated
immediate (R133), `amt ty` a shift amount and type (R131), `p u w` the addressing bits (R122), `sb` the S bit of
a block transfer, `spsr` the PSR selected (R139). The form `Imm` has an immediate operand 2, `Reg` a register
shifted by an immediate, `Rsr` a register shifted by a register. -/
inductive Instr
  | andImm (c : Cond) (sf : Bool) (rn rd : Reg) (rot : BitVec 4) (imm : Byte)
  | andReg (c : Cond) (sf : Bool) (rn rd : Reg) (amt : BitVec 5) (ty : Shift) (rm : Reg)
  | andRsr (c : Cond) (sf : Bool) (rn rd rs : Reg) (ty : Shift) (rm : Reg)
  | eorImm (c : Cond) (sf : Bool) (rn rd : Reg) (rot : BitVec 4) (imm : Byte)
  | eorReg (c : Cond) (sf : Bool) (rn rd : Reg) (amt : BitVec 5) (ty : Shift) (rm : Reg)
  | eorRsr (c : Cond) (sf : Bool) (rn rd rs : Reg) (ty : Shift) (rm : Reg)
  | subImm (c : Cond) (sf : Bool) (rn rd : Reg) (rot : BitVec 4) (imm : Byte)
  | subReg (c : Cond) (sf : Bool) (rn rd : Reg) (amt : BitVec 5) (ty : Shift) (rm : Reg)
  | subRsr (c : Cond) (sf : Bool) (rn rd rs : Reg) (ty : Shift) (rm : Reg)
  | rsbImm (c : Cond) (sf : Bool) (rn rd : Reg) (rot : BitVec 4) (imm : Byte)
  | rsbReg (c : Cond) (sf : Bool) (rn rd : Reg) (amt : BitVec 5) (ty : Shift) (rm : Reg)
  | rsbRsr (c : Cond) (sf : Bool) (rn rd rs : Reg) (ty : Shift) (rm : Reg)
  | addImm (c : Cond) (sf : Bool) (rn rd : Reg) (rot : BitVec 4) (imm : Byte)
  | addReg (c : Cond) (sf : Bool) (rn rd : Reg) (amt : BitVec 5) (ty : Shift) (rm : Reg)
  | addRsr (c : Cond) (sf : Bool) (rn rd rs : Reg) (ty : Shift) (rm : Reg)
  | adcImm (c : Cond) (sf : Bool) (rn rd : Reg) (rot : BitVec 4) (imm : Byte)
  | adcReg (c : Cond) (sf : Bool) (rn rd : Reg) (amt : BitVec 5) (ty : Shift) (rm : Reg)
  | adcRsr (c : Cond) (sf : Bool) (rn rd rs : Reg) (ty : Shift) (rm : Reg)
  | sbcImm (c : Cond) (sf : Bool) (rn rd : Reg) (rot : BitVec 4) (imm : Byte)
  | sbcReg (c : Cond) (sf : Bool) (rn rd : Reg) (amt : BitVec 5) (ty : Shift) (rm : Reg)
  | sbcRsr (c : Cond) (sf : Bool) (rn rd rs : Reg) (ty : Shift) (rm : Reg)
  | rscImm (c : Cond) (sf : Bool) (rn rd : Reg) (rot : BitVec 4) (imm : Byte)
  | rscReg (c : Cond) (sf : Bool) (rn rd : Reg) (amt : BitVec 5) (ty : Shift) (rm : Reg)
  | rscRsr (c : Cond) (sf : Bool) (rn rd rs : Reg) (ty : Shift) (rm : Reg)
  | tstImm (c : Cond) (rn rd : Reg) (rot : BitVec 4) (imm : Byte)
  | tstReg (c : Cond) (rn rd : Reg) (amt : BitVec 5) (ty : Shift) (rm : Reg)
  | tstRsr (c : Cond) (rn rd rs : Reg) (ty : Shift) (rm : Reg)
  | teqImm (c : Cond) (rn rd : Reg) (rot : BitVec 4) (imm : Byte)
  | teqReg (c : Cond) (rn rd : Reg) (amt : BitVec 5) (ty : Shift) (rm : Reg)
  | teqRsr (c : Cond) (rn rd rs : Reg) (ty : Shift) (rm : Reg)
  | cmpImm (c : Cond) (rn rd : Reg) (rot : BitVec 4) (imm : Byte)
  | cmpReg (c : Cond) (rn rd : Reg) (amt : BitVec 5) (ty : Shift) (rm : Reg)
  | cmpRsr (c : Cond) (rn rd rs : Reg) (ty : Shift) (rm : Reg)
  | cmnImm (c : Cond) (rn rd : Reg) (rot : BitVec 4) (imm : Byte)
  | cmnReg (c : Cond) (rn rd : Reg) (amt : BitVec 5) (ty : Shift) (rm : Reg)
  | cmnRsr (c : Cond) (rn rd rs : Reg) (ty : Shift) (rm : Reg)
  | orrImm (c : Cond) (sf : Bool) (rn rd : Reg) (rot : BitVec 4) (imm : Byte)
  | orrReg (c : Cond) (sf : Bool) (rn rd : Reg) (amt : BitVec 5) (ty : Shift) (rm : Reg)
  | orrRsr (c : Cond) (sf : Bool) (rn rd rs : Reg) (ty : Shift) (rm : Reg)
  | movImm (c : Cond) (sf : Bool) (rn rd : Reg) (rot : BitVec 4) (imm : Byte)
  | movReg (c : Cond) (sf : Bool) (rn rd : Reg) (amt : BitVec 5) (ty : Shift) (rm : Reg)
  | movRsr (c : Cond) (sf : Bool) (rn rd rs : Reg) (ty : Shift) (rm : Reg)
  | bicImm (c : Cond) (sf : Bool) (rn rd : Reg) (rot : BitVec 4) (imm : Byte)
  | bicReg (c : Cond) (sf : Bool) (rn rd : Reg) (amt : BitVec 5) (ty : Shift) (rm : Reg)
  | bicRsr (c : Cond) (sf : Bool) (rn rd rs : Reg) (ty : Shift) (rm : Reg)
  | mvnImm (c : Cond) (sf : Bool) (rn rd : Reg) (rot : BitVec 4) (imm : Byte)
  | mvnReg (c : Cond) (sf : Bool) (rn rd : Reg) (amt : BitVec 5) (ty : Shift) (rm : Reg)
  | mvnRsr (c : Cond) (sf : Bool) (rn rd rs : Reg) (ty : Shift) (rm : Reg)
  | mrs (c : Cond) (spsr : Bool) (rd : Reg)
  | msrAll (c : Cond) (spsr : Bool) (rm : Reg)
  | msrFlags (c : Cond) (spsr : Bool) (rm : Reg)
  | msrFlagsImm (c : Cond) (spsr : Bool) (rot : BitVec 4) (imm : Byte)
  | mul (c : Cond) (sf : Bool) (rd rn rs rm : Reg)
  | mla (c : Cond) (sf : Bool) (rd rn rs rm : Reg)
  | ldrImm (c : Cond) (p u w : Bool) (rn rd : Reg) (off : BitVec 12)
  | ldrReg (c : Cond) (p u w : Bool) (rn rd : Reg) (amt : BitVec 5) (ty : Shift) (rm : Reg)
  | ldrbImm (c : Cond) (p u w : Bool) (rn rd : Reg) (off : BitVec 12)
  | ldrbReg (c : Cond) (p u w : Bool) (rn rd : Reg) (amt : BitVec 5) (ty : Shift) (rm : Reg)
  | strImm (c : Cond) (p u w : Bool) (rn rd : Reg) (off : BitVec 12)
  | strReg (c : Cond) (p u w : Bool) (rn rd : Reg) (amt : BitVec 5) (ty : Shift) (rm : Reg)
  | strbImm (c : Cond) (p u w : Bool) (rn rd : Reg) (off : BitVec 12)
  | strbReg (c : Cond) (p u w : Bool) (rn rd : Reg) (amt : BitVec 5) (ty : Shift) (rm : Reg)
  | undefined (c : Cond) (hi : BitVec 20) (lo : BitVec 4)
  | ldm (c : Cond) (p u sb w : Bool) (rn : Reg) (list : BitVec 16)
  | stm (c : Cond) (p u sb w : Bool) (rn : Reg) (list : BitVec 16)
  | b (c : Cond) (off : BitVec 24)
  | bl (c : Cond) (off : BitVec 24)
  | swp (c : Cond) (rn rd rm : Reg)
  | swpb (c : Cond) (rn rd rm : Reg)
  | swi (c : Cond) (comment : BitVec 24)
  | cdp (c : Cond) (opc crn crd cp : BitVec 4) (info : BitVec 3) (crm : BitVec 4)
  | ldc (c : Cond) (p u n w : Bool) (rn : Reg) (crd cp : BitVec 4) (off : Byte)
  | stc (c : Cond) (p u n w : Bool) (rn : Reg) (crd cp : BitVec 4) (off : Byte)
  | mrc (c : Cond) (opc : BitVec 3) (crn : BitVec 4) (rd : Reg) (cp : BitVec 4) (info : BitVec 3) (crm : BitVec 4)
  | mcr (c : Cond) (opc : BitVec 3) (crn : BitVec 4) (rd : Reg) (cp : BitVec 4) (info : BitVec 3) (crm : BitVec 4)
deriving DecidableEq, Repr

/-- The data processing instruction of an operation with a rotated immediate; a test operation has no S bit to choose. -/
def Instr.dataImm (op : AluOp) (c : Cond) (sf : Bool) (rn rd : Reg) (rot : BitVec 4) (imm : Byte) : Instr :=
  match op with
  | .and => .andImm c sf rn rd rot imm
  | .eor => .eorImm c sf rn rd rot imm
  | .sub => .subImm c sf rn rd rot imm
  | .rsb => .rsbImm c sf rn rd rot imm
  | .add => .addImm c sf rn rd rot imm
  | .adc => .adcImm c sf rn rd rot imm
  | .sbc => .sbcImm c sf rn rd rot imm
  | .rsc => .rscImm c sf rn rd rot imm
  | .tst => .tstImm c rn rd rot imm
  | .teq => .teqImm c rn rd rot imm
  | .cmp => .cmpImm c rn rd rot imm
  | .cmn => .cmnImm c rn rd rot imm
  | .orr => .orrImm c sf rn rd rot imm
  | .mov => .movImm c sf rn rd rot imm
  | .bic => .bicImm c sf rn rd rot imm
  | .mvn => .mvnImm c sf rn rd rot imm

/-- The data processing instruction of an operation with a register shifted by an immediate; a test operation has no S bit to choose. -/
def Instr.dataReg (op : AluOp) (c : Cond) (sf : Bool) (rn rd : Reg) (amt : BitVec 5) (ty : Shift) (rm : Reg) : Instr :=
  match op with
  | .and => .andReg c sf rn rd amt ty rm
  | .eor => .eorReg c sf rn rd amt ty rm
  | .sub => .subReg c sf rn rd amt ty rm
  | .rsb => .rsbReg c sf rn rd amt ty rm
  | .add => .addReg c sf rn rd amt ty rm
  | .adc => .adcReg c sf rn rd amt ty rm
  | .sbc => .sbcReg c sf rn rd amt ty rm
  | .rsc => .rscReg c sf rn rd amt ty rm
  | .tst => .tstReg c rn rd amt ty rm
  | .teq => .teqReg c rn rd amt ty rm
  | .cmp => .cmpReg c rn rd amt ty rm
  | .cmn => .cmnReg c rn rd amt ty rm
  | .orr => .orrReg c sf rn rd amt ty rm
  | .mov => .movReg c sf rn rd amt ty rm
  | .bic => .bicReg c sf rn rd amt ty rm
  | .mvn => .mvnReg c sf rn rd amt ty rm

/-- The data processing instruction of an operation with a register shifted by a register; a test operation has no S bit to choose. -/
def Instr.dataRsr (op : AluOp) (c : Cond) (sf : Bool) (rn rd rs : Reg) (ty : Shift) (rm : Reg) : Instr :=
  match op with
  | .and => .andRsr c sf rn rd rs ty rm
  | .eor => .eorRsr c sf rn rd rs ty rm
  | .sub => .subRsr c sf rn rd rs ty rm
  | .rsb => .rsbRsr c sf rn rd rs ty rm
  | .add => .addRsr c sf rn rd rs ty rm
  | .adc => .adcRsr c sf rn rd rs ty rm
  | .sbc => .sbcRsr c sf rn rd rs ty rm
  | .rsc => .rscRsr c sf rn rd rs ty rm
  | .tst => .tstRsr c rn rd rs ty rm
  | .teq => .teqRsr c rn rd rs ty rm
  | .cmp => .cmpRsr c rn rd rs ty rm
  | .cmn => .cmnRsr c rn rd rs ty rm
  | .orr => .orrRsr c sf rn rd rs ty rm
  | .mov => .movRsr c sf rn rd rs ty rm
  | .bic => .bicRsr c sf rn rd rs ty rm
  | .mvn => .mvnRsr c sf rn rd rs ty rm

/-- The single data transfer with an immediate offset, chosen by its L and B bits. -/
def Instr.transferImm (load byte : Bool) (c : Cond) (p u w : Bool) (rn rd : Reg) (off : BitVec 12) : Instr :=
  match load, byte with
  | true, false => .ldrImm c p u w rn rd off
  | true, true => .ldrbImm c p u w rn rd off
  | false, false => .strImm c p u w rn rd off
  | false, true => .strbImm c p u w rn rd off

/-- The single data transfer with a register offset, chosen by its L and B bits. -/
def Instr.transferReg (load byte : Bool) (c : Cond) (p u w : Bool) (rn rd : Reg) (amt : BitVec 5) (ty : Shift)
    (rm : Reg) : Instr :=
  match load, byte with
  | true, false => .ldrReg c p u w rn rd amt ty rm
  | true, true => .ldrbReg c p u w rn rd amt ty rm
  | false, false => .strReg c p u w rn rd amt ty rm
  | false, true => .strbReg c p u w rn rd amt ty rm

end Sys2Proof
end

