-- ==== Sys2Proof/WellFormed.lean ====
section
/-! DEFINITION. The restrictions the spec puts on the fields of an instruction alone
(`93_implementation_defined.md` section 1; those that depend on the mode are in the meanings). -/

namespace Sys2Proof

/-- Whether a single data transfer writes its base back (`45_single_data_transfer.md` R282). -/
def writesBack (p w : Bool) : Bool := !p || w

/-- U8: no write-back to R15 (`45_single_data_transfer.md` R299). -/
def baseOk (p w : Bool) (rn : Reg) : Bool := rn != 15 || !writesBack p w

/-- U9: a store does not write back the register it stores (`45_single_data_transfer.md` R299). -/
def storeOk (p w : Bool) (rn rd : Reg) : Bool := rd != rn || !writesBack p w

/-- U11, U12, U14: a block transfer has a list, a base other than R15, and no write-back from the User bank
(`46_block_data_transfer.md` R324). -/
def blockOk (userBank w : Bool) (rn : Reg) (list : BitVec 16) : Bool :=
  list != 0 && rn != 15 && !(userBank && w)

/-- The instruction breaks no restriction on its fields. -/
def Instr.wellFormed : Instr → Bool
  | .andImm _ _ _ _ _ _ => true
  | .andReg _ _ _ _ _ _ _ => true
  | .andRsr _ _ _ _ rs _ _ => rs != 15
  | .eorImm _ _ _ _ _ _ => true
  | .eorReg _ _ _ _ _ _ _ => true
  | .eorRsr _ _ _ _ rs _ _ => rs != 15
  | .subImm _ _ _ _ _ _ => true
  | .subReg _ _ _ _ _ _ _ => true
  | .subRsr _ _ _ _ rs _ _ => rs != 15
  | .rsbImm _ _ _ _ _ _ => true
  | .rsbReg _ _ _ _ _ _ _ => true
  | .rsbRsr _ _ _ _ rs _ _ => rs != 15
  | .addImm _ _ _ _ _ _ => true
  | .addReg _ _ _ _ _ _ _ => true
  | .addRsr _ _ _ _ rs _ _ => rs != 15
  | .adcImm _ _ _ _ _ _ => true
  | .adcReg _ _ _ _ _ _ _ => true
  | .adcRsr _ _ _ _ rs _ _ => rs != 15
  | .sbcImm _ _ _ _ _ _ => true
  | .sbcReg _ _ _ _ _ _ _ => true
  | .sbcRsr _ _ _ _ rs _ _ => rs != 15
  | .rscImm _ _ _ _ _ _ => true
  | .rscReg _ _ _ _ _ _ _ => true
  | .rscRsr _ _ _ _ rs _ _ => rs != 15
  | .tstImm _ _ _ _ _ => true
  | .tstReg _ _ _ _ _ _ => true
  | .tstRsr _ _ _ rs _ _ => rs != 15
  | .teqImm _ _ _ _ _ => true
  | .teqReg _ _ _ _ _ _ => true
  | .teqRsr _ _ _ rs _ _ => rs != 15
  | .cmpImm _ _ _ _ _ => true
  | .cmpReg _ _ _ _ _ _ => true
  | .cmpRsr _ _ _ rs _ _ => rs != 15
  | .cmnImm _ _ _ _ _ => true
  | .cmnReg _ _ _ _ _ _ => true
  | .cmnRsr _ _ _ rs _ _ => rs != 15
  | .orrImm _ _ _ _ _ _ => true
  | .orrReg _ _ _ _ _ _ _ => true
  | .orrRsr _ _ _ _ rs _ _ => rs != 15
  | .movImm _ _ _ _ _ _ => true
  | .movReg _ _ _ _ _ _ _ => true
  | .movRsr _ _ _ _ rs _ _ => rs != 15
  | .bicImm _ _ _ _ _ _ => true
  | .bicReg _ _ _ _ _ _ _ => true
  | .bicRsr _ _ _ _ rs _ _ => rs != 15
  | .mvnImm _ _ _ _ _ _ => true
  | .mvnReg _ _ _ _ _ _ _ => true
  | .mvnRsr _ _ _ _ rs _ _ => rs != 15
  | .mrs _ _ rd => rd != 15
  | .msrAll _ _ rm => rm != 15
  | .msrFlags _ _ rm => rm != 15
  | .msrFlagsImm _ _ _ _ => true
  | .mul _ _ rd _ rs rm => rd != 15 && rs != 15 && rm != 15
  | .mla _ _ rd rn rs rm => rd != 15 && rn != 15 && rs != 15 && rm != 15
  | .ldrImm _ p _ w rn _ _ => baseOk p w rn
  | .ldrReg _ p _ w rn _ _ _ rm => baseOk p w rn && rm != 15
  | .ldrbImm _ p _ w rn rd _ => baseOk p w rn && rd != 15
  | .ldrbReg _ p _ w rn rd _ _ rm => baseOk p w rn && rd != 15 && rm != 15
  | .strImm _ p _ w rn rd _ => baseOk p w rn && storeOk p w rn rd
  | .strReg _ p _ w rn rd _ _ rm => baseOk p w rn && storeOk p w rn rd && rm != 15
  | .strbImm _ p _ w rn rd _ => baseOk p w rn && storeOk p w rn rd
  | .strbReg _ p _ w rn rd _ _ rm => baseOk p w rn && storeOk p w rn rd && rm != 15
  | .undefined _ _ _ => true
  | .ldm _ _ _ sb w rn list => blockOk (sb && !list.getLsbD 15) w rn list
  | .stm _ _ _ sb w rn list => blockOk sb w rn list
  | .b _ _ => true
  | .bl _ _ => true
  | .swp _ rn rd rm => rn != 15 && rd != 15 && rm != 15
  | .swpb _ rn rd rm => rn != 15 && rd != 15 && rm != 15
  | .swi _ _ => true
  | .cdp _ _ _ _ _ _ _ => true
  | .ldc _ _ _ _ w rn _ _ _ => rn != 15 || !w
  | .stc _ _ _ _ w rn _ _ _ => rn != 15 || !w
  | .mrc _ _ _ _ _ _ _ => true
  | .mcr _ _ _ _ _ _ _ => true

end Sys2Proof
end

