-- ==== Sys2Proof/Decode.lean ====
section
/-! DEFINITION. Decoding and encoding of instruction words (`30_encoding.md` R120 to R139), and the byte order
of a word (`20_memory.md` R71 to R74). -/

namespace Sys2Proof

/-- The field of `n` bits whose lowest bit is `lo` (`00_scope.md` R6). -/
def field {a : Nat} (v : BitVec a) (lo n : Nat) : BitVec n := v.extractLsb' lo n

/-- `x : y`, with `x` the more significant part (`00_scope.md` R7), as `w` bits in all. -/
def cat (w : Nat) {a b : Nat} (x : BitVec a) (y : BitVec b) : BitVec w := (x ++ y).setWidth w

/-- The word of four bytes, lowest address first: little-endian (`20_memory.md` R71) or big-endian (R72). -/
def assembleWord (big : Bool) (b0 b1 b2 b3 : Byte) : Word :=
  if big then cat 32 b0 (cat 24 b1 (cat 16 b2 b3)) else cat 32 b3 (cat 24 b2 (cat 16 b1 b0))

/-- The byte of a word that lies at offset `k` from the word's address (`20_memory.md` R71, R72). -/
def byteOf (big : Bool) (w : Word) (k : Nat) : Byte := field w (if big then 24 - 8 * k else 8 * k) 8

/-- The bits of a register number. -/
def Reg.bits (r : Reg) : BitVec 4 := BitVec.ofFin r

/-- The register number of a four-bit field (`30_encoding.md` R122). -/
def Reg.ofBits (b : BitVec 4) : Reg := b.toFin

/-- The code of a condition (`40_condition_execution.md` R171). -/
def Cond.bits : Cond → BitVec 4
  | .eq => 0b0000#4
  | .ne => 0b0001#4
  | .cs => 0b0010#4
  | .cc => 0b0011#4
  | .mi => 0b0100#4
  | .pl => 0b0101#4
  | .vs => 0b0110#4
  | .vc => 0b0111#4
  | .hi => 0b1000#4
  | .ls => 0b1001#4
  | .ge => 0b1010#4
  | .lt => 0b1011#4
  | .gt => 0b1100#4
  | .le => 0b1101#4
  | .al => 0b1110#4
  | .nv => 0b1111#4

/-- The condition of a code (`40_condition_execution.md` R171). -/
def Cond.ofBits (b : BitVec 4) : Cond :=
  match b.toNat with
  | 0 => .eq
  | 1 => .ne
  | 2 => .cs
  | 3 => .cc
  | 4 => .mi
  | 5 => .pl
  | 6 => .vs
  | 7 => .vc
  | 8 => .hi
  | 9 => .ls
  | 10 => .ge
  | 11 => .lt
  | 12 => .gt
  | 13 => .le
  | 14 => .al
  | _ => .nv

/-- The code of a shift type (`30_encoding.md` R132). -/
def Shift.bits : Shift → BitVec 2
  | .lsl => 0b00#2
  | .lsr => 0b01#2
  | .asr => 0b10#2
  | .ror => 0b11#2

/-- The shift type of a code (`30_encoding.md` R132). -/
def Shift.ofBits (b : BitVec 2) : Shift :=
  match b.toNat with
  | 0 => .lsl
  | 1 => .lsr
  | 2 => .asr
  | _ => .ror

/-- The opcode of an operation (`42_data_processing.md` R200). -/
def AluOp.bits : AluOp → BitVec 4
  | .and => 0b0000#4
  | .eor => 0b0001#4
  | .sub => 0b0010#4
  | .rsb => 0b0011#4
  | .add => 0b0100#4
  | .adc => 0b0101#4
  | .sbc => 0b0110#4
  | .rsc => 0b0111#4
  | .tst => 0b1000#4
  | .teq => 0b1001#4
  | .cmp => 0b1010#4
  | .cmn => 0b1011#4
  | .orr => 0b1100#4
  | .mov => 0b1101#4
  | .bic => 0b1110#4
  | .mvn => 0b1111#4

/-- The operation of an opcode (`42_data_processing.md` R200). -/
def AluOp.ofBits (b : BitVec 4) : AluOp :=
  match b.toNat with
  | 0 => .and
  | 1 => .eor
  | 2 => .sub
  | 3 => .rsb
  | 4 => .add
  | 5 => .adc
  | 6 => .sbc
  | 7 => .rsc
  | 8 => .tst
  | 9 => .teq
  | 10 => .cmp
  | 11 => .cmn
  | 12 => .orr
  | 13 => .mov
  | 14 => .bic
  | _ => .mvn

/-- Why a word or a list of bytes is no instruction. -/
inductive DecodeError
  /-- Fewer than four bytes. -/
  | truncated
  /-- Row U1 of `30_encoding.md` R125: multiply-like with bit 6 or 5 set. -/
  | unallocatedU1
  /-- Row U2 of `30_encoding.md` R125: bits 7 to 4 are 1001, neither a multiply nor a swap. -/
  | unallocatedU2
  /-- Row U3 of `30_encoding.md` R125: a test opcode without S that is no MRS and no MSR. -/
  | unallocatedU3
deriving DecidableEq, Repr

/-- The register field whose lowest bit is `lo`. -/
def regAt (w : Word) (lo : Nat) : Reg := Reg.ofBits (field w lo 4)

/-- The condition of a word (`30_encoding.md` R120). -/
def condOf (w : Word) : Cond := Cond.ofBits (field w 28 4)

/-- The operation of a data processing word. -/
def opOf (w : Word) : AluOp := AluOp.ofBits (field w 21 4)

/-- The shift type field. -/
def shiftOf (w : Word) : Shift := Shift.ofBits (field w 5 2)

/-- The PSR transfer space (`30_encoding.md` R123): a test opcode without S. -/
def psrSpace (w : Word) : Bool := field w 23 2 == 0b10#2 && !w.getLsbD 20

/-- Words with bits 27 to 25 = 000, bit 7 = 1 and bit 4 = 1 (`30_encoding.md` R123, R126). -/
def decodeMultiplySwap (w : Word) : Except DecodeError Instr :=
  if field w 5 2 != 0 then .error .unallocatedU1
  else if field w 22 6 == 0 then
    if w.getLsbD 21 then
      .ok (.mla (condOf w) (w.getLsbD 20) (regAt w 16) (regAt w 12) (regAt w 8) (regAt w 0))
    else .ok (.mul (condOf w) (w.getLsbD 20) (regAt w 16) (regAt w 12) (regAt w 8) (regAt w 0))
  else if field w 23 5 == 0b00010#5 && field w 20 2 == 0 && field w 8 4 == 0 then
    if w.getLsbD 22 then .ok (.swpb (condOf w) (regAt w 16) (regAt w 12) (regAt w 0))
    else .ok (.swp (condOf w) (regAt w 16) (regAt w 12) (regAt w 0))
  else .error .unallocatedU2

/-- The PSR transfer space with a register operand (`30_encoding.md` R139). -/
def decodePsrRegister (w : Word) : Except DecodeError Instr :=
  if field w 16 6 == 0b001111#6 && field w 0 12 == 0 then .ok (.mrs (condOf w) (w.getLsbD 22) (regAt w 12))
  else if field w 12 10 == 0b1010011111#10 && field w 4 8 == 0 then
    .ok (.msrAll (condOf w) (w.getLsbD 22) (regAt w 0))
  else if field w 12 10 == 0b1010001111#10 && field w 4 8 == 0 then
    .ok (.msrFlags (condOf w) (w.getLsbD 22) (regAt w 0))
  else .error .unallocatedU3

/-- The PSR transfer space with an immediate operand (`30_encoding.md` R139). -/
def decodePsrImmediate (w : Word) : Except DecodeError Instr :=
  if field w 12 10 == 0b1010001111#10 then
    .ok (.msrFlagsImm (condOf w) (w.getLsbD 22) (field w 8 4) (field w 0 8))
  else .error .unallocatedU3

/-- Words with bits 27 to 25 = 000 (`30_encoding.md` R123, R131). -/
def decodeRegisterForms (w : Word) : Except DecodeError Instr :=
  if w.getLsbD 4 && w.getLsbD 7 then decodeMultiplySwap w
  else if psrSpace w then decodePsrRegister w
  else if w.getLsbD 4 then
    .ok (.dataRsr (opOf w) (condOf w) (w.getLsbD 20) (regAt w 16) (regAt w 12) (regAt w 8) (shiftOf w) (regAt w 0))
  else
    .ok (.dataReg (opOf w) (condOf w) (w.getLsbD 20) (regAt w 16) (regAt w 12) (field w 7 5) (shiftOf w) (regAt w 0))

/-- Words with bits 27 to 25 = 001 (`30_encoding.md` R123, R131). -/
def decodeImmediateForms (w : Word) : Except DecodeError Instr :=
  if psrSpace w then decodePsrImmediate w
  else .ok (.dataImm (opOf w) (condOf w) (w.getLsbD 20) (regAt w 16) (regAt w 12) (field w 8 4) (field w 0 8))

/-- Words with bits 27 to 25 = 011 (`30_encoding.md` R123, R134): bit 4 tells the undefined class. -/
def decodeRegisterTransfer (w : Word) : Instr :=
  if w.getLsbD 4 then .undefined (condOf w) (field w 5 20) (field w 0 4)
  else .transferReg (w.getLsbD 20) (w.getLsbD 22) (condOf w) (w.getLsbD 24) (w.getLsbD 23) (w.getLsbD 21)
    (regAt w 16) (regAt w 12) (field w 7 5) (shiftOf w) (regAt w 0)

/-- Words with bits 27 to 25 = 100 (`30_encoding.md` R121, R135). -/
def decodeBlock (w : Word) : Instr :=
  if w.getLsbD 20 then
    .ldm (condOf w) (w.getLsbD 24) (w.getLsbD 23) (w.getLsbD 22) (w.getLsbD 21) (regAt w 16) (field w 0 16)
  else .stm (condOf w) (w.getLsbD 24) (w.getLsbD 23) (w.getLsbD 22) (w.getLsbD 21) (regAt w 16) (field w 0 16)

/-- Words with bits 27 to 25 = 110 (`30_encoding.md` R121, R136). -/
def decodeCoprocTransfer (w : Word) : Instr :=
  if w.getLsbD 20 then
    .ldc (condOf w) (w.getLsbD 24) (w.getLsbD 23) (w.getLsbD 22) (w.getLsbD 21) (regAt w 16) (field w 12 4)
      (field w 8 4) (field w 0 8)
  else
    .stc (condOf w) (w.getLsbD 24) (w.getLsbD 23) (w.getLsbD 22) (w.getLsbD 21) (regAt w 16) (field w 12 4)
      (field w 8 4) (field w 0 8)

/-- Words with bits 27 to 25 = 111 (`30_encoding.md` R121, R137, R138). -/
def decodeCoprocOrSwi (w : Word) : Instr :=
  if w.getLsbD 24 then .swi (condOf w) (field w 0 24)
  else if !w.getLsbD 4 then
    .cdp (condOf w) (field w 20 4) (field w 16 4) (field w 12 4) (field w 8 4) (field w 5 3) (field w 0 4)
  else if w.getLsbD 20 then
    .mrc (condOf w) (field w 21 3) (field w 16 4) (regAt w 12) (field w 8 4) (field w 5 3) (field w 0 4)
  else .mcr (condOf w) (field w 21 3) (field w 16 4) (regAt w 12) (field w 8 4) (field w 5 3) (field w 0 4)

/-- The instruction of a word, or why it has none (`30_encoding.md` R123, R125). -/
def decode (w : Word) : Except DecodeError Instr :=
  match (field w 25 3).toNat with
  | 0 => decodeRegisterForms w
  | 1 => decodeImmediateForms w
  | 2 => .ok (.transferImm (w.getLsbD 20) (w.getLsbD 22) (condOf w) (w.getLsbD 24) (w.getLsbD 23) (w.getLsbD 21)
      (regAt w 16) (regAt w 12) (field w 0 12))
  | 3 => .ok (decodeRegisterTransfer w)
  | 4 => .ok (decodeBlock w)
  | 5 => .ok (if w.getLsbD 24 then .bl (condOf w) (field w 0 24) else .b (condOf w) (field w 0 24))
  | 6 => .ok (decodeCoprocTransfer w)
  | _ => .ok (decodeCoprocOrSwi w)

/-- The instruction of the first four bytes of a list, with the bytes after it (`30_encoding.md` R120, R129;
`20_memory.md` R74). -/
def decodeBytes (big : Bool) : List Byte → Except DecodeError (Instr × List Byte)
  | b0 :: b1 :: b2 :: b3 :: rest => (decode (assembleWord big b0 b1 b2 b3)).map (·, rest)
  | _ => .error .truncated

/-- The instruction the decoder reads from an opcode table word of `nbits` bits: the word is laid out in memory
in little-endian order and decoded from its bytes. -/
def decodeTableWord (nbits w : Nat) : Option Instr :=
  let v : Word := BitVec.ofNat 32 (w % 2 ^ nbits)
  match decodeBytes false [byteOf false v 0, byteOf false v 1, byteOf false v 2, byteOf false v 3] with
  | .ok (i, _) => some i
  | .error _ => none

/-! The encoder, from the rows of `30_encoding.md` R121, R131, R139. -/

/-- A flag as a one-bit field. -/
def bit (x : Bool) : BitVec 1 := BitVec.ofBool x

/-- Data processing with a rotated immediate (`30_encoding.md` R121, R131). -/
def encodeDataImm (op : AluOp) (c : Cond) (sf : Bool) (rn rd : Reg) (rot : BitVec 4) (imm : Byte) : Word :=
  cat 32 c.bits <| cat 28 0b001#3 <| cat 25 op.bits <| cat 21 (bit sf) <| cat 20 rn.bits <| cat 16 rd.bits <|
    cat 12 rot imm

/-- Data processing with a register shifted by an immediate (`30_encoding.md` R121, R131). -/
def encodeDataReg (op : AluOp) (c : Cond) (sf : Bool) (rn rd : Reg) (amt : BitVec 5) (ty : Shift) (rm : Reg) : Word :=
  cat 32 c.bits <| cat 28 0b000#3 <| cat 25 op.bits <| cat 21 (bit sf) <| cat 20 rn.bits <| cat 16 rd.bits <|
    cat 12 amt <| cat 7 ty.bits <| cat 5 0b0#1 rm.bits

/-- Data processing with a register shifted by a register (`30_encoding.md` R121, R131). -/
def encodeDataRsr (op : AluOp) (c : Cond) (sf : Bool) (rn rd rs : Reg) (ty : Shift) (rm : Reg) : Word :=
  cat 32 c.bits <| cat 28 0b000#3 <| cat 25 op.bits <| cat 21 (bit sf) <| cat 20 rn.bits <| cat 16 rd.bits <|
    cat 12 rs.bits <| cat 8 0b0#1 <| cat 7 ty.bits <| cat 5 0b1#1 rm.bits

/-- The multiply row (`30_encoding.md` R121). -/
def encodeMultiply (acc : Bool) (c : Cond) (sf : Bool) (rd rn rs rm : Reg) : Word :=
  cat 32 c.bits <| cat 28 0b000000#6 <| cat 22 (bit acc) <| cat 21 (bit sf) <| cat 20 rd.bits <| cat 16 rn.bits <|
    cat 12 rs.bits <| cat 8 0b1001#4 rm.bits

/-- The single data transfer row with an immediate offset (`30_encoding.md` R121, R134). -/
def encodeTransferImm (load byte : Bool) (c : Cond) (p u w : Bool) (rn rd : Reg) (off : BitVec 12) : Word :=
  cat 32 c.bits <| cat 28 0b010#3 <| cat 25 (bit p) <| cat 24 (bit u) <| cat 23 (bit byte) <| cat 22 (bit w) <|
    cat 21 (bit load) <| cat 20 rn.bits <| cat 16 rd.bits off

/-- The single data transfer row with a register offset (`30_encoding.md` R121, R134). -/
def encodeTransferReg (load byte : Bool) (c : Cond) (p u w : Bool) (rn rd : Reg) (amt : BitVec 5) (ty : Shift)
    (rm : Reg) : Word :=
  cat 32 c.bits <| cat 28 0b011#3 <| cat 25 (bit p) <| cat 24 (bit u) <| cat 23 (bit byte) <| cat 22 (bit w) <|
    cat 21 (bit load) <| cat 20 rn.bits <| cat 16 rd.bits <| cat 12 amt <| cat 7 ty.bits <| cat 5 0b0#1 rm.bits

/-- The block data transfer row (`30_encoding.md` R121). -/
def encodeBlock (load : Bool) (c : Cond) (p u sb w : Bool) (rn : Reg) (list : BitVec 16) : Word :=
  cat 32 c.bits <| cat 28 0b100#3 <| cat 25 (bit p) <| cat 24 (bit u) <| cat 23 (bit sb) <| cat 22 (bit w) <|
    cat 21 (bit load) <| cat 20 rn.bits list

/-- The single data swap row (`30_encoding.md` R121). -/
def encodeSwap (byte : Bool) (c : Cond) (rn rd rm : Reg) : Word :=
  cat 32 c.bits <| cat 28 (if byte then 0b000101#6 else 0b000100#6) <| cat 22 0b00#2 <| cat 20 rn.bits <| cat 16 rd.bits <|
    cat 12 0b0000#4 <| cat 8 0b1001#4 rm.bits

/-- The coprocessor data transfer row (`30_encoding.md` R121). -/
def encodeCoprocTransfer (load : Bool) (c : Cond) (p u n w : Bool) (rn : Reg) (crd cp : BitVec 4) (off : Byte) :
    Word :=
  cat 32 c.bits <| cat 28 0b110#3 <| cat 25 (bit p) <| cat 24 (bit u) <| cat 23 (bit n) <| cat 22 (bit w) <|
    cat 21 (bit load) <| cat 20 rn.bits <| cat 16 crd <| cat 12 cp off

/-- The coprocessor register transfer row (`30_encoding.md` R121). -/
def encodeCoprocRegister (load : Bool) (c : Cond) (opc : BitVec 3) (crn : BitVec 4) (rd : Reg) (cp : BitVec 4)
    (info : BitVec 3) (crm : BitVec 4) : Word :=
  cat 32 c.bits <| cat 28 0b1110#4 <| cat 24 opc <| cat 21 (bit load) <| cat 20 crn <| cat 16 rd.bits <|
    cat 12 cp <| cat 8 info <| cat 5 0b1#1 crm

/-- MSR with a register operand, the whole PSR or its flags (`30_encoding.md` R139). -/
def encodeMsr (flagsOnly : Bool) (c : Cond) (spsr : Bool) (rm : Reg) : Word :=
  cat 32 c.bits <| cat 28 0b00010#5 <| cat 23 (bit spsr) <|
    cat 22 (if flagsOnly then 0b1010001111#10 else 0b1010011111#10) <| cat 12 0b00000000#8 rm.bits

/-- The word of an instruction (`30_encoding.md` R121, R131, R139). -/
def encode : Instr → Word
  | .andImm c sf rn rd rot imm => encodeDataImm .and c sf rn rd rot imm
  | .andReg c sf rn rd amt ty rm => encodeDataReg .and c sf rn rd amt ty rm
  | .andRsr c sf rn rd rs ty rm => encodeDataRsr .and c sf rn rd rs ty rm
  | .eorImm c sf rn rd rot imm => encodeDataImm .eor c sf rn rd rot imm
  | .eorReg c sf rn rd amt ty rm => encodeDataReg .eor c sf rn rd amt ty rm
  | .eorRsr c sf rn rd rs ty rm => encodeDataRsr .eor c sf rn rd rs ty rm
  | .subImm c sf rn rd rot imm => encodeDataImm .sub c sf rn rd rot imm
  | .subReg c sf rn rd amt ty rm => encodeDataReg .sub c sf rn rd amt ty rm
  | .subRsr c sf rn rd rs ty rm => encodeDataRsr .sub c sf rn rd rs ty rm
  | .rsbImm c sf rn rd rot imm => encodeDataImm .rsb c sf rn rd rot imm
  | .rsbReg c sf rn rd amt ty rm => encodeDataReg .rsb c sf rn rd amt ty rm
  | .rsbRsr c sf rn rd rs ty rm => encodeDataRsr .rsb c sf rn rd rs ty rm
  | .addImm c sf rn rd rot imm => encodeDataImm .add c sf rn rd rot imm
  | .addReg c sf rn rd amt ty rm => encodeDataReg .add c sf rn rd amt ty rm
  | .addRsr c sf rn rd rs ty rm => encodeDataRsr .add c sf rn rd rs ty rm
  | .adcImm c sf rn rd rot imm => encodeDataImm .adc c sf rn rd rot imm
  | .adcReg c sf rn rd amt ty rm => encodeDataReg .adc c sf rn rd amt ty rm
  | .adcRsr c sf rn rd rs ty rm => encodeDataRsr .adc c sf rn rd rs ty rm
  | .sbcImm c sf rn rd rot imm => encodeDataImm .sbc c sf rn rd rot imm
  | .sbcReg c sf rn rd amt ty rm => encodeDataReg .sbc c sf rn rd amt ty rm
  | .sbcRsr c sf rn rd rs ty rm => encodeDataRsr .sbc c sf rn rd rs ty rm
  | .rscImm c sf rn rd rot imm => encodeDataImm .rsc c sf rn rd rot imm
  | .rscReg c sf rn rd amt ty rm => encodeDataReg .rsc c sf rn rd amt ty rm
  | .rscRsr c sf rn rd rs ty rm => encodeDataRsr .rsc c sf rn rd rs ty rm
  | .tstImm c rn rd rot imm => encodeDataImm .tst c true rn rd rot imm
  | .tstReg c rn rd amt ty rm => encodeDataReg .tst c true rn rd amt ty rm
  | .tstRsr c rn rd rs ty rm => encodeDataRsr .tst c true rn rd rs ty rm
  | .teqImm c rn rd rot imm => encodeDataImm .teq c true rn rd rot imm
  | .teqReg c rn rd amt ty rm => encodeDataReg .teq c true rn rd amt ty rm
  | .teqRsr c rn rd rs ty rm => encodeDataRsr .teq c true rn rd rs ty rm
  | .cmpImm c rn rd rot imm => encodeDataImm .cmp c true rn rd rot imm
  | .cmpReg c rn rd amt ty rm => encodeDataReg .cmp c true rn rd amt ty rm
  | .cmpRsr c rn rd rs ty rm => encodeDataRsr .cmp c true rn rd rs ty rm
  | .cmnImm c rn rd rot imm => encodeDataImm .cmn c true rn rd rot imm
  | .cmnReg c rn rd amt ty rm => encodeDataReg .cmn c true rn rd amt ty rm
  | .cmnRsr c rn rd rs ty rm => encodeDataRsr .cmn c true rn rd rs ty rm
  | .orrImm c sf rn rd rot imm => encodeDataImm .orr c sf rn rd rot imm
  | .orrReg c sf rn rd amt ty rm => encodeDataReg .orr c sf rn rd amt ty rm
  | .orrRsr c sf rn rd rs ty rm => encodeDataRsr .orr c sf rn rd rs ty rm
  | .movImm c sf rn rd rot imm => encodeDataImm .mov c sf rn rd rot imm
  | .movReg c sf rn rd amt ty rm => encodeDataReg .mov c sf rn rd amt ty rm
  | .movRsr c sf rn rd rs ty rm => encodeDataRsr .mov c sf rn rd rs ty rm
  | .bicImm c sf rn rd rot imm => encodeDataImm .bic c sf rn rd rot imm
  | .bicReg c sf rn rd amt ty rm => encodeDataReg .bic c sf rn rd amt ty rm
  | .bicRsr c sf rn rd rs ty rm => encodeDataRsr .bic c sf rn rd rs ty rm
  | .mvnImm c sf rn rd rot imm => encodeDataImm .mvn c sf rn rd rot imm
  | .mvnReg c sf rn rd amt ty rm => encodeDataReg .mvn c sf rn rd amt ty rm
  | .mvnRsr c sf rn rd rs ty rm => encodeDataRsr .mvn c sf rn rd rs ty rm
  | .mrs c spsr rd =>
    cat 32 c.bits <| cat 28 0b00010#5 <| cat 23 (bit spsr) <| cat 22 0b001111#6 <| cat 16 rd.bits 0b000000000000#12
  | .msrAll c spsr rm => encodeMsr false c spsr rm
  | .msrFlags c spsr rm => encodeMsr true c spsr rm
  | .msrFlagsImm c spsr rot imm =>
    cat 32 c.bits <| cat 28 0b00110#5 <| cat 23 (bit spsr) <| cat 22 0b1010001111#10 <| cat 12 rot imm
  | .mul c sf rd rn rs rm => encodeMultiply false c sf rd rn rs rm
  | .mla c sf rd rn rs rm => encodeMultiply true c sf rd rn rs rm
  | .ldrImm c p u w rn rd off => encodeTransferImm true false c p u w rn rd off
  | .ldrReg c p u w rn rd amt ty rm => encodeTransferReg true false c p u w rn rd amt ty rm
  | .ldrbImm c p u w rn rd off => encodeTransferImm true true c p u w rn rd off
  | .ldrbReg c p u w rn rd amt ty rm => encodeTransferReg true true c p u w rn rd amt ty rm
  | .strImm c p u w rn rd off => encodeTransferImm false false c p u w rn rd off
  | .strReg c p u w rn rd amt ty rm => encodeTransferReg false false c p u w rn rd amt ty rm
  | .strbImm c p u w rn rd off => encodeTransferImm false true c p u w rn rd off
  | .strbReg c p u w rn rd amt ty rm => encodeTransferReg false true c p u w rn rd amt ty rm
  | .undefined c hi lo => cat 32 c.bits <| cat 28 0b011#3 <| cat 25 hi <| cat 5 0b1#1 lo
  | .ldm c p u sb w rn list => encodeBlock true c p u sb w rn list
  | .stm c p u sb w rn list => encodeBlock false c p u sb w rn list
  | .b c off => cat 32 c.bits <| cat 28 0b1010#4 off
  | .bl c off => cat 32 c.bits <| cat 28 0b1011#4 off
  | .swp c rn rd rm => encodeSwap false c rn rd rm
  | .swpb c rn rd rm => encodeSwap true c rn rd rm
  | .swi c comment => cat 32 c.bits <| cat 28 0b1111#4 comment
  | .cdp c opc crn crd cp info crm =>
    cat 32 c.bits <| cat 28 0b1110#4 <| cat 24 opc <| cat 20 crn <| cat 16 crd <| cat 12 cp <| cat 8 info <|
      cat 5 0b0#1 crm
  | .ldc c p u n w rn crd cp off => encodeCoprocTransfer true c p u n w rn crd cp off
  | .stc c p u n w rn crd cp off => encodeCoprocTransfer false c p u n w rn crd cp off
  | .mrc c opc crn rd cp info crm => encodeCoprocRegister true c opc crn rd cp info crm
  | .mcr c opc crn rd cp info crm => encodeCoprocRegister false c opc crn rd cp info crm

end Sys2Proof
end

