-- ==== Sys2Proof/Config.lean ====
section
/-! DEFINITION. The values the spec leaves open (`00_scope.md` R9, `93_implementation_defined.md` section 2).
Each is an opaque constant applied to the number of the step in which it is drawn (`State.drawIndex`), so that
nothing can be proved of it. -/

namespace Sys2Proof

/-- The operand place through which an instruction reads a register; a drawn value may differ from one place
to another. -/
inductive Port
  | rn | rm | rs | rd
deriving DecidableEq, Repr

/-- V1: the C flag after MUL or MLA with S = 1 (`44_multiply.md` R273). DESIGN CHOICE, log entry 11, safe. -/
opaque Config.mulCarry : Nat → Bool

/-- V4: the reserved bits of a PSR as MRS reads them (`10_state.md` R39). DESIGN CHOICE, log entry 12, safe. -/
opaque Config.psrReserved : Nat → Word

/-- V5: whether a test operation with Rd = R15 keeps the flags in User mode (`42_data_processing.md` R214).
DESIGN CHOICE, log entry 13, safe. -/
opaque Config.testKeepsFlags : Nat → Bool

/-- V6: a banked register read right after a user-bank LDM (`70_reset_and_hazards.md` R470). DESIGN CHOICE, log
entry 14, safe. -/
opaque Config.hazardRead : Nat → Port → Reg → Word

/-- V6: a banked register after the instruction that follows a user-bank LDM wrote it
(`70_reset_and_hazards.md` R470). DESIGN CHOICE, log entry 15, unsafe. -/
opaque Config.hazardWrite : Nat → Reg → Word

/-- V7: whether a swap whose read aborted drives its write (`47_swap.md` R344). DESIGN CHOICE, log entry 16,
safe. -/
opaque Config.swapWritten : Nat → Bool

/-- V2, V3: a general register after a reset, by its physical place (`10_state.md` R50). DESIGN CHOICE, log entry
17, safe. -/
opaque Config.resetReg : Nat → Fin 30 → Word

/-- V3: the flags N, Z, C, V after a reset (`10_state.md` R50). DESIGN CHOICE, log entry 17, safe. -/
opaque Config.resetFlag : Nat → Fin 4 → Bool

/-- V2, V3: the SPSRs after a reset, in the order fiq, svc, abt, irq, und (`10_state.md` R50). DESIGN CHOICE, log
entry 17, safe. -/
opaque Config.resetSpsr : Nat → Fin 5 → Word

/-- V9: A[1:0] during the fetch at this place of the trace (`20_memory.md` R77, `10_state.md` R32). DESIGN CHOICE,
log entry 45, safe. -/
opaque Config.fetchLow : Nat → Nat → BitVec 2

/-- P5: what a read finds at an address outside the storage that the environment gives no answer for (`20_memory.md`
R90, R91, D20). DESIGN CHOICE, log entry 46, unsafe. -/
opaque Config.externalByte : Nat → Word → Byte

/-- V8: whether the write at this place of the trace of the instruction a reset cuts short was made
(`70_reset_and_hazards.md` R462). DESIGN CHOICE, log entry 18, safe. -/
opaque Config.resetKeepsWrite : Nat → Nat → Bool

end Sys2Proof
end

