-- ==== Sys2Proof/Machine/State.lean ====
section
/-! DEFINITION. The state of the machine (`10_state.md`), its faults and refusals, and reset. -/

namespace Sys2Proof.Machine

/-- The six modes of Table 2 (`10_state.md` R38). -/
inductive Mode
  | usr | fiq | irq | svc | abt | und
deriving DecidableEq, Repr

/-- The current program status register, its defined bits (`10_state.md` R35). A mode outside Table 2 cannot be
held (R43; DESIGN CHOICE, log entry 23, safe). -/
structure Psr where
  n : Bool
  z : Bool
  c : Bool
  v : Bool
  i : Bool
  f : Bool
  mode : Mode
deriving DecidableEq, Repr

/-- A saved program status register, its defined bits (`10_state.md` R40); `m` is M[4:0] as it is stored. -/
structure SavedPsr where
  n : Bool
  z : Bool
  c : Bool
  v : Bool
  i : Bool
  f : Bool
  m : BitVec 5
deriving DecidableEq, Repr

/-- The five saved program status registers (`10_state.md` R40). -/
structure SavedPsrs where
  fiq : SavedPsr
  svc : SavedPsr
  abt : SavedPsr
  irq : SavedPsr
  und : SavedPsr
deriving DecidableEq, Repr

/-- A word of the prefetch pipeline with its abort mark (`10_state.md` R47). -/
structure Fetched where
  word : Word
  aborted : Bool
deriving DecidableEq, Repr

/-- The width of an access, signal `nBW` (`20_memory.md` R76). -/
inductive Size
  | byte | word
deriving DecidableEq, Repr

/-- A memory access with the attributes of `20_memory.md` R76: `write` is `nRW`, `opcode` is `nOPC` low,
`privileged` is `nTRANS`, `mode` is `nM` inverted, `lock` is `LOCK`. -/
structure Access where
  addr : Word
  size : Size
  write : Bool
  opcode : Bool
  privileged : Bool
  mode : Mode
  lock : Bool
deriving DecidableEq, Repr

/-- Accesses the memory system refuses (`20_memory.md` R86): those with an address from `lo` to `hi` whose other
attributes are the given ones; `none` is any. DESIGN CHOICE, log entry 8, safe. -/
structure AbortRule where
  lo : Word
  hi : Word
  size : Option Size
  write : Option Bool
  opcode : Option Bool
  privileged : Option Bool
  mode : Option Mode
  lock : Option Bool
deriving DecidableEq, Repr

/-- What a coprocessor that is ready gives (`49_coprocessor.md` R361): one word more than `loadExtra` is how many
words an LDC moves, `storeFirst` and `storeRest` are the words of an STC, `result` is the word of an MRC. -/
structure CoprocData where
  loadExtra : Nat
  storeFirst : Word
  storeRest : List Word
  result : Word
deriving DecidableEq, Repr

/-- The answer of a coprocessor to an instruction offered (`49_coprocessor.md` R361, R363, R364). -/
inductive Response
  | absent
  | busy
  | ready (data : CoprocData)
deriving DecidableEq, Repr

/-- One answer of a coprocessor: to the instructions that agree with `value` in the bits of `mask`, in the given
privilege and mode; `none` is any (`49_coprocessor.md` R361, R383). DESIGN CHOICE, log entry 9, safe. -/
structure CoprocRule where
  cp : BitVec 4
  mask : Word
  value : Word
  privileged : Option Bool
  mode : Option Mode
  response : Response
deriving DecidableEq, Repr

/-- What lies at an address (`MemoryMap`, `93_implementation_defined.md` P5): read-write storage, storage that a write
does not change, or what the environment answers for: a device, memory another bus master writes, nothing at all.
DESIGN CHOICE, log entry 46, unsafe. -/
inductive RegionKind
  | storage
  | readOnly
  | external
deriving DecidableEq, Repr

/-- One region of the memory map: the addresses from `lo` to `hi` (`20_memory.md` R91). -/
structure Region where
  lo : Word
  hi : Word
  kind : RegionKind
deriving DecidableEq, Repr

/-- What a read of an external byte finds in one step (`20_memory.md` R90, `70_reset_and_hazards.md` R491: device
behaviour of non-RAM addresses). DESIGN CHOICE, log entry 46, unsafe. -/
structure Answer where
  addr : Word
  data : Byte
deriving DecidableEq, Repr

/-- The inputs of one step (`70_reset_and_hazards.md` R491): `nRESET` low, FIQ pending, IRQ pending, what aborts,
what the coprocessors answer and what reads of external addresses find. -/
structure Inputs where
  resetLow : Bool
  fiq : Bool
  irq : Bool
  aborts : List AbortRule
  coprocs : List CoprocRule
  answers : List Answer
deriving DecidableEq, Repr

/-- One event of the trace of a step (`70_reset_and_hazards.md` R491). -/
inductive BusEvent
  /-- A memory access with the address on the bus, the data read or driven (`none` for an aborted read), and what a
  read of the place before it finds. -/
  | access (acc : Access) (data : Option Word) (before : Word) (aborted : Bool)
  /-- `nCPI` low: an instruction offered to the coprocessors (`49_coprocessor.md` R363). -/
  | offer (word : Word) (privileged : Bool) (mode : Mode)
  /-- A CDP committed (`49_coprocessor.md` R368). -/
  | coprocOperation (cp : BitVec 4) (word : Word)
  /-- Word `index` of an LDC reaches the coprocessor (`49_coprocessor.md` R373). -/
  | coprocLoad (cp : BitVec 4) (index : Nat) (data : Word)
  /-- The word of an MRC (`49_coprocessor.md` R378). -/
  | coprocRead (cp : BitVec 4) (data : Word)
  /-- The word of an MCR (`49_coprocessor.md` R379). -/
  | coprocWrite (cp : BitVec 4) (data : Word)
deriving DecidableEq, Repr

/-- Cycle counts by type (`20_memory.md` R103, `70_reset_and_hazards.md` R485). -/
structure Cycles where
  n : Nat
  s : Nat
  i : Nat
  c : Nat
deriving DecidableEq, Repr

/-- The state of the machine. `regs` holds the thirty physical registers other than R15 (`10_state.md` R23),
`pc` the address of the instruction executed (R30), `memoryMap` what lies at each address, constant over a run
(`00_scope.md` R5, the first region that holds an address counting and unlisted addresses being storage), `mem` the
bytes of the storage, `pipe` the words already fetched from `pc` on (R47),
`hazard` whether the last instruction was a user-bank LDM (`70_reset_and_hazards.md` R470), `resetCycles` for how
many steps `nRESET` has been low (R460), `inputs` and `schedule` the inputs of this step and of the later ones
(R491), `bus` the trace of the last step, `cycles` the cycle totals, `drawIndex` the number of the step, to which
free values are applied (the model's own field). -/
structure State where
  regs : Vector Word 30
  pc : Word
  cpsr : Psr
  spsr : SavedPsrs
  mem : List Host.Cell
  memoryMap : List Region
  bigend : Bool
  pipe : List Fetched
  hazard : Bool
  resetCycles : Nat
  inputs : Inputs
  schedule : List Inputs
  bus : List BusEvent
  cycles : Cycles
  drawIndex : Nat
deriving DecidableEq, Repr

/-- Why the machine stops. -/
inductive Fault
  /-- Raised by a step whose `nRESET` has gone high after fewer than two cycles low, which
  `70_reset_and_hazards.md` R461 calls outside the contract. Safe: the machine stops where the hardware would
  do something the spec does not give. -/
  | resetPulseTooShort
deriving DecidableEq, Repr

/-- Why the model gives no meaning. Each is safe: the machine stops where the spec gives no effect. -/
inductive Refusal
  /-- Raised by no meaning; kept for an arm of exec without one. Safe. -/
  | notModelled (mnemonic : String)
  /-- Raised by a step at a word of no row of the table whose condition passes (`30_encoding.md` R125; U18).
  Safe. -/
  | unallocated
  /-- Raised by a data processing instruction whose shift amount is in R15 (U1, `42_data_processing.md` R210).
  Safe. -/
  | shiftByR15
  /-- Raised by a data processing instruction with S = 1 and Rd = R15 in User mode (U2, `42_data_processing.md`
  R207). Safe. -/
  | restoreInUserMode
  /-- Raised by a write of a mode outside Table 2 to a PSR (U3, `10_state.md` R43). Safe. -/
  | illegalMode
  /-- Raised by MRS and MSR with R15 as the register (U4, `43_psr_transfer.md` R251). Safe. -/
  | psrTransferR15
  /-- Raised by MRS and MSR of an SPSR in User mode (U5, `43_psr_transfer.md` R251). Safe. -/
  | spsrInUserMode
  /-- Raised by MUL and MLA with R15 as an operand or destination (U6, `44_multiply.md` R272). Safe. -/
  | multiplyR15
  /-- Raised by a single data transfer whose offset register is R15 (U7, `45_single_data_transfer.md` R299).
  Safe. -/
  | offsetR15
  /-- Raised by a transfer with write-back to R15 (U8, U16; `45_single_data_transfer.md` R299,
  `49_coprocessor.md` R371). Safe. -/
  | writeBackToR15
  /-- Raised by STR and STRB that write back the register they store (U9, `45_single_data_transfer.md` R299).
  Safe. -/
  | storeOfWrittenBase
  /-- Raised by LDRB with Rd = R15 (U10, `45_single_data_transfer.md` R299). Safe. -/
  | loadByteToR15
  /-- Raised by LDM and STM with an empty list (U11, `46_block_data_transfer.md` R324). Safe. -/
  | emptyRegisterList
  /-- Raised by LDM and STM with base R15 (U12, `46_block_data_transfer.md` R324). Safe. -/
  | blockBaseR15
  /-- Raised by LDM and STM with the S bit in User mode (U13, `46_block_data_transfer.md` R324). Safe. -/
  | userBankInUserMode
  /-- Raised by a user-bank LDM or STM with write-back (U14, `46_block_data_transfer.md` R324). Safe. -/
  | userBankWriteBack
  /-- Raised by SWP and SWPB with R15 as an operand (U15, `47_swap.md` R341). Safe. -/
  | swapR15
deriving DecidableEq, Repr

/-- The outcome of an instruction or a step. -/
abbrev Outcome := Host.Outcome State Fault Refusal

/-- A saved program status register with every bit 0. -/
def SavedPsr.zero : SavedPsr := ⟨false, false, false, false, false, false, 0⟩

/-- No reset, no interrupt, nothing aborts, no coprocessor, no answer (`93_implementation_defined.md` P2 to P5). -/
def Inputs.idle : Inputs := ⟨false, false, false, [], [], []⟩

/-- The machine right after reset (`10_state.md` R50): pc 0, Supervisor mode, I and F set, the pipeline empty.
The registers, the flags and the SPSRs, which R50 leaves unspecified, are 0 (DESIGN CHOICE, log entries 4, 5, 6,
unsafe); BIGEND is 0 (log entry 2); memory lists nothing (log entry 3) and every address is storage, the spec's default
(`92_eei_decisions.md` D20); the inputs are idle (log entry 7). -/
def State.reset : State where
  regs := Vector.replicate 30 0
  pc := 0
  cpsr := ⟨false, false, false, false, true, true, .svc⟩
  spsr := ⟨.zero, .zero, .zero, .zero, .zero⟩
  mem := []
  memoryMap := []
  bigend := false
  pipe := []
  hazard := false
  resetCycles := 0
  inputs := .idle
  schedule := []
  bus := []
  cycles := ⟨0, 0, 0, 0⟩
  drawIndex := 0

end Sys2Proof.Machine
end

