-- ==== Sys2Proof/Machine/Flags.lean ====
section
/-! DEFINITION. The condition test (`40_condition_execution.md` R171) and the results and flags of the ALU
(`42_data_processing.md` R200, R208, R209). -/

namespace Sys2Proof.Machine

/-- `ConditionPassed` on the flags of a CPSR (`40_condition_execution.md` R171, R173). PRESUMED, log entry 29,
unsafe: the spec takes the table from general knowledge. -/
def condHolds (c : Cond) (p : Psr) : Bool :=
  match c with
  | .eq => p.z
  | .ne => !p.z
  | .cs => p.c
  | .cc => !p.c
  | .mi => p.n
  | .pl => !p.n
  | .vs => p.v
  | .vc => !p.v
  | .hi => p.c && !p.z
  | .ls => !p.c || p.z
  | .ge => p.n == p.v
  | .lt => p.n != p.v
  | .gt => !p.z && p.n == p.v
  | .le => p.z || p.n != p.v
  | .al => true
  | .nv => false

/-- A result with the flags it gives. -/
structure AluOut where
  result : Word
  n : Bool
  z : Bool
  c : Bool
  v : Bool
deriving DecidableEq, Repr

/-- A result whose N is bit 31 and whose Z is set exactly for zero, with the given C and V. -/
def AluOut.of (result : Word) (c v : Bool) : AluOut := ⟨result, result.msb, result == 0, c, v⟩

/-- `AddWithCarry` (`42_data_processing.md` R209): the sum is taken exactly, then narrowed. -/
def addWithCarry (x y : Word) (c : Bool) : AluOut :=
  let exact := x.toNat + y.toNat + c.toNat
  let result : Word := BitVec.ofNat 32 exact
  .of result (decide (2 ^ 32 ≤ exact)) (x.msb == y.msb && result.msb != x.msb)

/-- The result and flags of an operation (`42_data_processing.md` R200, R208, R209, R220 to R235): `a` and `b` are
the operands, `c` and `v` the flags before, `sc` the shifter carry. -/
def alu (op : AluOp) (a b : Word) (c sc v : Bool) : AluOut :=
  match op with
  | .and => .of (a &&& b) sc v
  | .eor => .of (a ^^^ b) sc v
  | .sub => addWithCarry a (~~~b) true
  | .rsb => addWithCarry b (~~~a) true
  | .add => addWithCarry a b false
  | .adc => addWithCarry a b c
  | .sbc => addWithCarry a (~~~b) c
  | .rsc => addWithCarry b (~~~a) c
  | .tst => .of (a &&& b) sc v
  | .teq => .of (a ^^^ b) sc v
  | .cmp => addWithCarry a (~~~b) true
  | .cmn => addWithCarry a b false
  | .orr => .of (a ||| b) sc v
  | .mov => .of b sc v
  | .bic => .of (a &&& ~~~b) sc v
  | .mvn => .of (~~~b) sc v

/-- A CPSR with new flags; the control bits stay (`10_state.md` R36). -/
def Psr.withFlags (p : Psr) (n z c v : Bool) : Psr := { p with n := n, z := z, c := c, v := v }

/-- A saved PSR with new flags. -/
def SavedPsr.withFlags (p : SavedPsr) (n z c v : Bool) : SavedPsr := { p with n := n, z := z, c := c, v := v }

/-- A CPSR with the flags of a result (`42_data_processing.md` R201). -/
def Psr.withAlu (p : Psr) (r : AluOut) : Psr := p.withFlags r.n r.z r.c r.v

/-- A CPSR with the top four bits of a word as its flags (`43_psr_transfer.md` R254, `49_coprocessor.md` R376). -/
def Psr.withTop (p : Psr) (w : Word) : Psr :=
  p.withFlags (w.getLsbD 31) (w.getLsbD 30) (w.getLsbD 29) (w.getLsbD 28)

/-- A saved PSR with the top four bits of a word as its flags (`43_psr_transfer.md` R254). -/
def SavedPsr.withTop (p : SavedPsr) (w : Word) : SavedPsr :=
  p.withFlags (w.getLsbD 31) (w.getLsbD 30) (w.getLsbD 29) (w.getLsbD 28)

/-- The flags after a multiply with S = 1 (`44_multiply.md` R273): N and Z of the result, C the given free value, V
as before. -/
def Psr.withMultiply (p : Psr) (result : Word) (freeC : Bool) : Psr :=
  p.withFlags result.msb (result == 0) freeC p.v

end Sys2Proof.Machine
end

