-- ==== Sys2Proof/Machine/Ops.lean ====
section
/-! DEFINITION. The operations every instruction shares: registers (`10_state.md`), memory (`20_memory.md`), the
program counter, the status registers, taking an exception and returning from one (`60_exceptions.md`). -/

namespace Sys2Proof.Machine

/-! ### Modes and status registers -/

/-- The code of a mode (`10_state.md` R38). -/
def Mode.bits : Mode → BitVec 5
  | .usr => 0b10000#5
  | .fiq => 0b10001#5
  | .irq => 0b10010#5
  | .svc => 0b10011#5
  | .abt => 0b10111#5
  | .und => 0b11011#5

/-- The mode of a code, if Table 2 has it (`10_state.md` R38, R43). -/
def Mode.ofBits (m : BitVec 5) : Option Mode :=
  if m = 0b10000#5 then some .usr
  else if m = 0b10001#5 then some .fiq
  else if m = 0b10010#5 then some .irq
  else if m = 0b10011#5 then some .svc
  else if m = 0b10111#5 then some .abt
  else if m = 0b11011#5 then some .und
  else none

/-- `Privileged()` (`10_state.md` R42). -/
def State.privileged (s : State) : Bool := s.cpsr.mode != .usr

/-- The reserved bits of a PSR (`10_state.md` R39). -/
def reservedMask : Word := 0x0FFFFF20#32

/-- The word of PSR fields (`10_state.md` R35), its reserved bits taken from `reserved`. -/
def psrWord (n z c v i f : Bool) (m : BitVec 5) (reserved : Word) : Word :=
  cat 32 (bit n) (cat 31 (bit z) (cat 30 (bit c) (cat 29 (bit v) (cat 28 0#20 (cat 8 (bit i) (cat 7 (bit f)
    (cat 6 0#1 m))))))) ||| (reserved &&& reservedMask)

/-- The word MRS reads from the CPSR (`43_psr_transfer.md` R252). -/
def Psr.word (p : Psr) (reserved : Word) : Word := psrWord p.n p.z p.c p.v p.i p.f p.mode.bits reserved

/-- The word MRS reads from an SPSR (`43_psr_transfer.md` R252). -/
def SavedPsr.word (p : SavedPsr) (reserved : Word) : Word := psrWord p.n p.z p.c p.v p.i p.f p.m reserved

/-- The saved PSR of a word; the reserved bits are dropped (`43_psr_transfer.md` R253, `10_state.md` R39). -/
def SavedPsr.ofWord (w : Word) : SavedPsr :=
  ⟨w.getLsbD 31, w.getLsbD 30, w.getLsbD 29, w.getLsbD 28, w.getLsbD 7, w.getLsbD 6, field w 0 5⟩

/-- The CPSR as an exception saves it (`60_exceptions.md` R405). -/
def Psr.save (p : Psr) : SavedPsr := ⟨p.n, p.z, p.c, p.v, p.i, p.f, p.mode.bits⟩

/-- The CPSR a saved PSR restores, unless its mode is outside Table 2 (`42_data_processing.md` R207, `10_state.md`
R43). -/
def SavedPsr.toPsr (p : SavedPsr) : Option Psr :=
  (Mode.ofBits p.m).map fun m => ⟨p.n, p.z, p.c, p.v, p.i, p.f, m⟩

/-- The SPSR of a mode; User mode has none (`10_state.md` R40). -/
def State.savedOf (s : State) : Mode → Option SavedPsr
  | .usr => none
  | .fiq => some s.spsr.fiq
  | .irq => some s.spsr.irq
  | .svc => some s.spsr.svc
  | .abt => some s.spsr.abt
  | .und => some s.spsr.und

/-- The SPSRs with the one of a mode replaced; for User mode nothing changes (`10_state.md` R40). -/
def SavedPsrs.set (q : SavedPsrs) (m : Mode) (p : SavedPsr) : SavedPsrs :=
  match m with
  | .usr => q
  | .fiq => { q with fiq := p }
  | .irq => { q with irq := p }
  | .svc => { q with svc := p }
  | .abt => { q with abt := p }
  | .und => { q with und := p }

/-- The state with the SPSR of a mode replaced. -/
def State.setSaved (s : State) (m : Mode) (p : SavedPsr) : State := { s with spsr := s.spsr.set m p }

/-- The state with another CPSR. -/
def State.setPsr (s : State) (p : Psr) : State := { s with cpsr := p }

/-- The CPSR that the SPSR of the current mode restores (`42_data_processing.md` R207): none in User mode, none if
the saved mode is outside Table 2. -/
def State.restored (s : State) : Except Refusal Psr :=
  match s.savedOf s.cpsr.mode with
  | none => .error .restoreInUserMode
  | some p =>
    match p.toPsr with
    | none => .error .illegalMode
    | some q => .ok q

/-! ### General registers -/

/-- The place of `Rbank(m)[r]` among the physical registers (`10_state.md` R24); R15 has its place in `pc` and is
never looked up here. -/
def slot (m : Mode) (r : Reg) : Fin 30 :=
  if r.val < 8 then Fin.ofNat 30 r.val
  else
    match m with
    | .fiq => Fin.ofNat 30 (r.val + 7)
    | .usr => Fin.ofNat 30 r.val
    | .svc => if r.val < 13 then Fin.ofNat 30 r.val else Fin.ofNat 30 (r.val + 9)
    | .abt => if r.val < 13 then Fin.ofNat 30 r.val else Fin.ofNat 30 (r.val + 11)
    | .irq => if r.val < 13 then Fin.ofNat 30 r.val else Fin.ofNat 30 (r.val + 13)
    | .und => if r.val < 13 then Fin.ofNat 30 r.val else Fin.ofNat 30 (r.val + 15)

/-- `Rbank(m)[r]` for a register other than R15 (`10_state.md` R24). -/
def State.bankReg (s : State) (m : Mode) (r : Reg) : Word := s.regs.get (slot m r)

/-- `Rbank(m)[r] <- v` for a register other than R15 (`10_state.md` R24). -/
def State.setBank (s : State) (m : Mode) (r : Reg) (v : Word) : State :=
  { s with regs := s.regs.set (slot m r).val v (slot m r).isLt }

/-- Whether a register is one of the banked registers of a mode (`70_reset_and_hazards.md` R470): R13 and R14, and
in FIQ mode R8 to R12. -/
def banked (m : Mode) (r : Reg) : Bool :=
  match m with
  | .usr => false
  | .fiq => decide (8 ≤ r.val ∧ r.val ≤ 14)
  | .svc | .abt | .irq | .und => decide (13 ≤ r.val ∧ r.val ≤ 14)

/-- Whether a register stands under the hazard of `70_reset_and_hazards.md` R470. -/
def State.inHazard (s : State) (r : Reg) : Bool := s.hazard && banked s.cpsr.mode r

/-- `R[r]` as an operand read at a place (`10_state.md` R24, R31): R15 reads `ahead` bytes past the instruction; a
banked register under the hazard is a free value (R470). -/
def State.readReg (s : State) (port : Port) (ahead : Word) (r : Reg) : Word :=
  if r = 15 then s.pc + ahead
  else if s.inHazard r then Config.hazardRead s.drawIndex port r
  else s.bankReg s.cpsr.mode r

/-- An address with its low two bits zero (`10_state.md` R32, `20_memory.md` R75). -/
def wordAddr (a : Word) : Word := a &&& 0xFFFFFFFC#32

/-- `R[r] <- v` (`10_state.md` R24, R32): a write of R15 goes to the pc and empties the pipeline; a banked register
under the hazard takes a free value (`70_reset_and_hazards.md` R470). -/
def State.writeReg (s : State) (r : Reg) (v : Word) : State :=
  if r = 15 then { s with pc := wordAddr v, pipe := [] }
  else s.setBank s.cpsr.mode r (if s.inHazard r then Config.hazardWrite s.drawIndex r else v)

/-! ### The program counter and the cycle totals -/

/-- The sum of two cycle counts. -/
def Cycles.add (x y : Cycles) : Cycles := ⟨x.n + y.n, x.s + y.s, x.i + y.i, x.c + y.c⟩

/-- Cycles pass. -/
def State.spend (s : State) (t : Cycles) : State := { s with cycles := s.cycles.add t }

/-- `pc <- pc + 4` (`10_state.md` R33): the pipeline moves up by one word. -/
def State.advance (s : State) (t : Cycles) : State :=
  { s with pc := s.pc + 4, pipe := s.pipe.tail, hazard := false, cycles := s.cycles.add t }

/-- `pc <- target` (`10_state.md` R32): the low two bits are dropped and the pipeline is emptied. -/
def State.jump (s : State) (target : Word) (t : Cycles) : State :=
  { s with pc := wordAddr target, pipe := [], hazard := false, cycles := s.cycles.add t }

/-- An instruction under its condition (`40_condition_execution.md` R172): when it fails, one S cycle and the next
instruction. -/
def conditionally (c : Cond) (s : State) (body : Outcome) : Outcome :=
  if condHolds c s.cpsr then body else .next (s.advance ⟨0, 1, 0, 0⟩)

/-- A restricted form is refused (`00_scope.md` R9); every other form goes on. -/
def refuseIf (restricted : Bool) (r : Refusal) (o : Outcome) : Outcome := if restricted then .refused r else o

/-! ### Memory -/

/-- Memory: pairs of an address and a byte, in canonical form (`Memory.wf`). -/
abbrev Memory := List Host.Cell

/-- What an address that is not listed reads as (DESIGN CHOICE, log entry 3, unsafe). -/
def unlistedByte : Byte := 0

/-- One byte of memory (`10_state.md` R46). -/
def Memory.read : Memory → Nat → Byte
  | [], _ => unlistedByte
  | (k, b) :: m, a => if k = a then b else Memory.read m a

/-- One byte of memory replaced, in canonical form. -/
def Memory.write : Memory → Nat → Byte → Memory
  | [], a, v => if v = unlistedByte then [] else [(a, v)]
  | (k, b) :: m, a, v =>
    if a < k then (if v = unlistedByte then (k, b) :: m else (a, v) :: (k, b) :: m)
    else if a = k then (if v = unlistedByte then m else (a, v) :: m)
    else (k, b) :: Memory.write m a v

/-- Addresses strictly rising from `lo` on and below 2^32, no byte equal to the unlisted one. -/
def Memory.wfFrom : Nat → Memory → Bool
  | _, [] => true
  | lo, (k, b) :: m => decide (lo ≤ k) && decide (k < 2 ^ 32) && b != unlistedByte && Memory.wfFrom (k + 1) m

/-- The canonical form of memory. -/
def Memory.wf (m : Memory) : Bool := Memory.wfFrom 0 m

/-- The byte of the storage at an address. -/
def State.byteAt (s : State) (a : Word) : Byte := Memory.read s.mem a.toNat

/-- Whether a region of the memory map holds an address. -/
def Region.holds (r : Region) (a : Word) : Bool := decide (r.lo ≤ a) && decide (a ≤ r.hi)

/-- What lies at an address (`00_scope.md` R5, `20_memory.md` R91): storage, where no region says otherwise
(`92_eei_decisions.md` D20). -/
def State.kindAt (s : State) (a : Word) : RegionKind :=
  match s.memoryMap.find? fun r => r.holds a with
  | none => .storage
  | some r => r.kind

/-- What a read of a byte finds (`20_memory.md` R79, R90): the byte of the storage; at an external address what the
environment answers in this step, or a free value (log entry 46). -/
def State.readByte (s : State) (a : Word) : Byte :=
  match s.kindAt a with
  | .storage | .readOnly => s.byteAt a
  | .external =>
    match s.inputs.answers.find? fun x => x.addr == a with
    | none => Config.externalByte s.drawIndex a
    | some x => x.data

/-- Whether a write changes the storage at an address (`20_memory.md` R90, R91). -/
def State.writable (s : State) (a : Word) : Bool := s.kindAt a == .storage

/-- `Word(a AND 0xFFFFFFFC)` (`20_memory.md` R71 to R73, R78). -/
def State.wordAt (s : State) (a : Word) : Word :=
  assembleWord s.bigend (s.readByte (wordAddr a)) (s.readByte (wordAddr a + 1)) (s.readByte (wordAddr a + 2))
    (s.readByte (wordAddr a + 3))

/-- One byte replaced where `may` allows it. -/
def Memory.put (may : Word → Bool) (m : Memory) (a : Word) (v : Byte) : Memory :=
  if may a then Memory.write m a.toNat v else m

/-- The four bytes of the aligned word that contains `a` replaced where `may` allows it (`20_memory.md` R80). -/
def Memory.putWord (may : Word → Bool) (big : Bool) (m : Memory) (a v : Word) : Memory :=
  let b := wordAddr a
  Memory.put may (Memory.put may (Memory.put may (Memory.put may m b (byteOf big v 0)) (b + 1) (byteOf big v 1))
    (b + 2) (byteOf big v 2)) (b + 3) (byteOf big v 3)

/-- The bytes of the aligned word at an address as the environment answers them, at the addresses outside the
storage. -/
def State.wordAnswers (s : State) (a v : Word) : List Answer :=
  ((List.range 4).map fun k => ⟨wordAddr a + BitVec.ofNat 32 k, byteOf s.bigend v k⟩).filter fun x =>
    s.kindAt x.addr == .external

/-- Whether an optional attribute pattern admits a value. -/
def admits {α : Type} [BEq α] (pattern : Option α) (x : α) : Bool :=
  match pattern with
  | none => true
  | some y => y == x

/-- Whether a rule covers an access (`20_memory.md` R76, R86). -/
def AbortRule.covers (r : AbortRule) (acc : Access) : Bool :=
  decide (r.lo ≤ acc.addr) && decide (acc.addr ≤ r.hi) && admits r.size acc.size && admits r.write acc.write &&
    admits r.opcode acc.opcode && admits r.privileged acc.privileged && admits r.mode acc.mode &&
    admits r.lock acc.lock

/-- `Abort(access)` in the current step (`20_memory.md` R86). -/
def State.aborts (s : State) (acc : Access) : Bool := s.inputs.aborts.any fun r => r.covers acc

/-- A data access of the current mode (`20_memory.md` R76, R78). -/
def State.dataAccess (s : State) (addr : Word) (size : Size) (write : Bool) : Access :=
  ⟨addr, size, write, false, s.privileged, s.cpsr.mode, false⟩

/-- The fetch of an instruction (`20_memory.md` R77). -/
def State.fetchAccess (s : State) (addr : Word) : Access :=
  ⟨addr, .word, false, true, s.privileged, s.cpsr.mode, false⟩

/-- What an access finds at its address: the aligned word, or the byte extended (`20_memory.md` R78, R79). -/
def State.found (s : State) (acc : Access) : Word :=
  match acc.size with
  | .word => s.wordAt acc.addr
  | .byte => (s.readByte acc.addr).extend

/-- An event is added to the trace. -/
def State.log (s : State) (e : BusEvent) : State := { s with bus := s.bus ++ [e] }

/-- The state after a read: only the trace grows (`20_memory.md` R78, R87). -/
def State.load (s : State) (acc : Access) : State :=
  s.log (.access acc (if s.aborts acc then none else some (s.found acc)) (s.found acc) (s.aborts acc))

/-- The address on the bus in the fetch of the instruction at an address: A[1:0] are free (V9, `10_state.md` R32,
`20_memory.md` R77; log entry 45). -/
def State.fetchAddr (s : State) (addr : Word) : Word :=
  wordAddr addr ||| (Config.fetchLow s.drawIndex s.bus.length).setWidth 32

/-- The state after the fetch of an instruction: only the trace grows. The memory ignores A[1:0] (`20_memory.md`
R77). -/
def State.fetch (s : State) (addr : Word) : State :=
  let acc := s.fetchAccess addr
  s.log (.access { acc with addr := s.fetchAddr addr } (if s.aborts acc then none else some (s.found acc)) (s.found acc)
    (s.aborts acc))

/-- What the data bus carries in a write: a byte is repeated four times (`20_memory.md` R80, R81). -/
def driven (size : Size) (v : Word) : Word :=
  match size with
  | .word => v
  | .byte => cat 32 v.lowByte (cat 24 v.lowByte (cat 16 v.lowByte v.lowByte))

/-- The storage with the word or the byte of an access replaced, where it can be written (`20_memory.md` R80, R81). -/
def State.memWith (s : State) (acc : Access) (v : Word) : Memory :=
  match acc.size with
  | .word => Memory.putWord s.writable s.bigend s.mem acc.addr v
  | .byte => Memory.put s.writable s.mem acc.addr v.lowByte

/-- The state after a write (`20_memory.md` R80, R81, R87): an aborted one leaves memory as it is. -/
def State.store (s : State) (acc : Access) (v : Word) : State :=
  { s with
    mem := if s.aborts acc then s.mem else s.memWith acc v
    bus := s.bus ++ [.access acc (some (driven acc.size v)) (s.found acc) (s.aborts acc)] }

/-- Words written one after another, 4 bytes apart (`20_memory.md` R88). -/
def State.storeWords (s : State) (addr : Word) : List Word → State
  | [] => s
  | v :: vs => (s.store (s.dataAccess addr .word true) v).storeWords (addr + 4) vs

/-- Whether one of `n` word accesses, 4 bytes apart, aborts. -/
def State.anyAborts (s : State) (write : Bool) : Nat → Word → Bool
  | 0, _ => false
  | n + 1, addr => s.aborts (s.dataAccess addr .word write) || s.anyAborts write n (addr + 4)

/-! ### Exceptions -/

/-- The seven exceptions (`60_exceptions.md` R404). -/
inductive Exception
  | reset | undefined | swi | prefetchAbort | dataAbort | irq | fiq
deriving DecidableEq, Repr

/-- The mode an exception enters (`60_exceptions.md` R405). -/
def Exception.mode : Exception → Mode
  | .reset => .svc
  | .undefined => .und
  | .swi => .svc
  | .prefetchAbort => .abt
  | .dataAbort => .abt
  | .irq => .irq
  | .fiq => .fiq

/-- The vector of an exception (`20_memory.md` R91, `60_exceptions.md` R405). -/
def Exception.vector : Exception → Word
  | .reset => 0x00
  | .undefined => 0x04
  | .swi => 0x08
  | .prefetchAbort => 0x0C
  | .dataAbort => 0x10
  | .irq => 0x18
  | .fiq => 0x1C

/-- Whether an exception sets F (`60_exceptions.md` R405). -/
def Exception.setsF : Exception → Bool
  | .reset => true
  | .fiq => true
  | .undefined => false
  | .swi => false
  | .prefetchAbort => false
  | .dataAbort => false
  | .irq => false

/-- How far past `pc` the saved address lies (`60_exceptions.md` R405). -/
def Exception.returnOffset : Exception → Word
  | .dataAbort => 8
  | .reset => 4
  | .undefined => 4
  | .swi => 4
  | .prefetchAbort => 4
  | .irq => 4
  | .fiq => 4

/-- The cycles of an entry (`70_reset_and_hazards.md` R486, `48_swi_undefined.md` R354, R356). -/
def Exception.cycles : Exception → Cycles
  | .undefined => ⟨1, 2, 1, 0⟩
  | .reset => ⟨1, 2, 0, 0⟩
  | .swi => ⟨1, 2, 0, 0⟩
  | .prefetchAbort => ⟨1, 2, 0, 0⟩
  | .dataAbort => ⟨1, 2, 0, 0⟩
  | .irq => ⟨1, 2, 0, 0⟩
  | .fiq => ⟨1, 2, 0, 0⟩

/-- The CPSR after an entry (`60_exceptions.md` R405): the mode and I change, F for FIQ and Reset. -/
def Psr.entered (p : Psr) (x : Exception) : Psr := { p with mode := x.mode, i := true, f := p.f || x.setsF }

/-- `Enter(x)` (`60_exceptions.md` R405), with `ret` the value of R14 of the mode entered. -/
def State.enter (s : State) (x : Exception) (ret : Word) : State :=
  { s with
    regs := (s.setBank x.mode 14 ret).regs
    spsr := s.spsr.set x.mode s.cpsr.save
    cpsr := s.cpsr.entered x
    pc := x.vector
    pipe := []
    hazard := false
    cycles := s.cycles.add x.cycles }

/-- `raise x` at the instruction at `pc` (`60_exceptions.md` R405). -/
def State.raise (s : State) (x : Exception) : State := s.enter x (s.pc + x.returnOffset)

/-- A data abort at the instruction at `pc`: in the old mode the word at `pc + 12` is fetched, 8 past the instruction
that follows (Table 15, cycle 1, `48_swi_undefined.md` R354), then the exception is entered. For the other exceptions
that word stands in the pipeline already (log entry 10). -/
def State.raiseDataAbort (s : State) : State := (s.fetch (s.pc + 12)).raise .dataAbort

/-- The return from an exception (`42_data_processing.md` R207, `60_exceptions.md` R440): the pc and the CPSR change
in one step; refused where there is no SPSR or its mode is outside Table 2. -/
def State.returnTo (s : State) (target : Word) (t : Cycles) : Outcome :=
  match s.restored with
  | .error r => .refused r
  | .ok p => .next ((s.jump target t).setPsr p)

end Sys2Proof.Machine
end

