-- ==== Sys2Proof/Machine/Operands.lean ====
section
/-! DEFINITION. Operand 2 and the barrel shifter (`42_data_processing.md` R191 to R199), and the addresses of
transfers (`45_single_data_transfer.md` R281, `46_block_data_transfer.md` R312, `49_coprocessor.md` R370). -/

namespace Sys2Proof.Machine

/-- Operand 2 with the shifter carry (`42_data_processing.md` R191). -/
structure Operand2 where
  value : Word
  carry : Bool
deriving DecidableEq, Repr

/-- A shift by 1 to 31 (`42_data_processing.md` R193 to R196). -/
def shiftBy (ty : Shift) (m : Word) (n : Nat) : Operand2 :=
  match ty with
  | .lsl => ⟨m <<< n, m.getLsbD (32 - n)⟩
  | .lsr => ⟨m >>> n, m.getLsbD (n - 1)⟩
  | .asr => ⟨m.sshiftRight n, m.getLsbD (n - 1)⟩
  | .ror => ⟨m.rotateRight n, m.getLsbD (n - 1)⟩

/-- Every bit equal to bit 31 (`42_data_processing.md` R195). -/
def signFill (m : Word) : Word := if m.msb then 0xFFFFFFFF#32 else 0

/-- RRX (`42_data_processing.md` R197): one place to the right, C coming in at the top. PRESUMED, log entry 29,
unsafe. -/
def rotateExtended (c : Bool) (m : Word) : Operand2 := ⟨cat 32 (bit c) (field m 1 31), m.getLsbD 0⟩

/-- A register shifted by an amount in the instruction (`42_data_processing.md` R192 to R197). -/
def shiftByImmediate (c : Bool) (ty : Shift) (amt : BitVec 5) (m : Word) : Operand2 :=
  if amt = 0 then
    match ty with
    | .lsl => ⟨m, c⟩
    | .lsr => ⟨0, m.msb⟩
    | .asr => ⟨signFill m, m.msb⟩
    | .ror => rotateExtended c m
  else shiftBy ty m amt.toNat

/-- A register shifted by an amount of 32 or more (`42_data_processing.md` R198). -/
def shiftLong (ty : Shift) (m : Word) (n : Nat) : Operand2 :=
  match ty with
  | .lsl => ⟨0, n == 32 && m.getLsbD 0⟩
  | .lsr => ⟨0, n == 32 && m.msb⟩
  | .asr => ⟨signFill m, m.msb⟩
  | .ror => if n % 32 = 0 then ⟨m, m.msb⟩ else shiftBy .ror m (n % 32)

/-- A register shifted by an amount in the low byte of a register (`42_data_processing.md` R198). -/
def shiftByRegister (c : Bool) (ty : Shift) (amount : Byte) (m : Word) : Operand2 :=
  if amount = 0 then ⟨m, c⟩
  else if amount.toNat < 32 then shiftBy ty m amount.toNat
  else shiftLong ty m amount.toNat

/-- A rotated immediate (`42_data_processing.md` R199, `30_encoding.md` R133). PRESUMED, log entry 29, unsafe. -/
def rotatedImmediate (c : Bool) (rot : BitVec 4) (imm : Byte) : Operand2 :=
  let v := imm.extend.rotateRight (2 * rot.toNat)
  ⟨v, if rot = 0 then c else v.msb⟩

/-- Base plus or minus offset (`45_single_data_transfer.md` R281). -/
def offsetBase (u : Bool) (base offset : Word) : Word := if u then base + offset else base - offset

/-- The transfer address (`45_single_data_transfer.md` R281). -/
def transferAddress (p u : Bool) (base offset : Word) : Word := if p then offsetBase u base offset else base

/-- The word LDR delivers from an address (`45_single_data_transfer.md` R289). -/
def rotatedWord (a w : Word) : Word := w.rotateRight (8 * (field a 0 2).toNat)

/-- The sixteen register numbers in ascending order. -/
def allRegs : List Reg := [0, 1, 2, 3, 4, 5, 6, 7, 8, 9, 10, 11, 12, 13, 14, 15]

/-- The registers of a list, lowest first (`46_block_data_transfer.md` R311, R312). -/
def regsOf (list : BitVec 16) : List Reg := allRegs.filter fun r => list.getLsbD r.val

/-- How many registers a list has (`46_block_data_transfer.md` R311). -/
def countOf (list : BitVec 16) : Nat := (regsOf list).length

/-- Four times a count, as an address difference. -/
def wordBytes (n : Nat) : Word := BitVec.ofNat 32 (4 * n)

/-- The address of the lowest register of a block transfer (`46_block_data_transfer.md` R312). -/
def blockStart (p u : Bool) (base : Word) (n : Nat) : Word :=
  if u then (if p then base + 4 else base)
  else if p then base - wordBytes n else base - wordBytes n + 4

/-- The address a block transfer writes back (`46_block_data_transfer.md` R312). -/
def blockFinal (u : Bool) (base : Word) (n : Nat) : Word :=
  if u then base + wordBytes n else base - wordBytes n

/-- The byte offset of a coprocessor data transfer (`30_encoding.md` R136). -/
def coprocOffset (off : Byte) : Word := cat 32 0#22 (cat 10 off 0b00#2)

/-- The displacement of a branch (`30_encoding.md` R130). -/
def branchOffset (off : BitVec 24) : Word := (cat 26 off 0b00#2).signExtend 32

end Sys2Proof.Machine
end

