-- ==== Sys2Proof/Machine/Boundary.lean ====
section
/-! DEFINITION. What happens between instructions (`00_scope.md` R10, `60_exceptions.md` R415): reset, the prefetch,
interrupts, the prefetch abort, the decoding of the next word, and the inputs of the next step. -/

namespace Sys2Proof.Machine

/-- One more word enters the pipeline (`10_state.md` R47, `20_memory.md` R77). -/
def State.fetchNext (s : State) : State :=
  let addr := s.pc + wordBytes s.pipe.length
  { s.fetch addr with pipe := s.pipe ++ [⟨s.wordAt addr, s.aborts (s.fetchAccess addr)⟩] }

/-- `n` more words enter the pipeline. -/
def State.fetchMany (s : State) : Nat → State
  | 0 => s
  | n + 1 => s.fetchNext.fetchMany n

/-- The pipeline is filled to three words before an instruction executes (`20_memory.md` R96). -/
def State.prefetch (s : State) : State := s.fetchMany (3 - s.pipe.length)

/-- A write that a reset may have cut short is undone where the free value says so (`70_reset_and_hazards.md`
R462). -/
def State.undoWrite (s : State) (place : Nat) (e : BusEvent) : State :=
  match e with
  | .access acc _ before aborted =>
    if acc.write && !aborted && !Config.resetKeepsWrite s.drawIndex place then
      { s with mem := s.memWith acc before }
    else s
  | .offer _ _ _ | .coprocOperation _ _ | .coprocLoad _ _ _ | .coprocRead _ _ | .coprocWrite _ _ => s

/-- The writes of the last instruction before a reset, from a place of its trace on. -/
def State.undoWrites (s : State) (place : Nat) : List BusEvent → State
  | [] => s
  | e :: es => (s.undoWrite place e).undoWrites (place + 1) es

/-- The word address after those already fetched: where the next dummy fetch of a reset reads. R460 and R461
(`70_reset_and_hazards.md`) say "from the point where reset was activated" and "continues"; that this is the word after
those in the pipeline is the model's choice (DESIGN CHOICE, log entry 44, unsafe). -/
def State.dummyAddr (s : State) : Word := s.pc + wordBytes s.pipe.length

/-- One cycle with `nRESET` low (`70_reset_and_hazards.md` R460, R461): a dummy fetch from the next word address, the
data read being discarded. Which address the first one reads is the model's choice (`State.dummyAddr`, log entry
44). -/
def State.resetCycle (s : State) : State :=
  let t := if s.resetCycles = 0 then s.undoWrites 0 s.bus else s
  let u := ({ t with bus := [] }).fetch s.dummyAddr
  { u with
    pc := s.dummyAddr + 4
    pipe := []
    hazard := false
    resetCycles := u.resetCycles + 1
    cycles := u.cycles.add ⟨0, 1, 0, 0⟩ }

/-- The free values of a reset (`10_state.md` R50): every general register, every SPSR and the flags. -/
def State.drawAll (s : State) : State :=
  { s with
    regs := Vector.ofFn fun k => Config.resetReg s.drawIndex k
    cpsr := s.cpsr.withFlags (Config.resetFlag s.drawIndex 0) (Config.resetFlag s.drawIndex 1)
      (Config.resetFlag s.drawIndex 2) (Config.resetFlag s.drawIndex 3)
    spsr := ⟨.ofWord (Config.resetSpsr s.drawIndex 0), .ofWord (Config.resetSpsr s.drawIndex 1),
      .ofWord (Config.resetSpsr s.drawIndex 2), .ofWord (Config.resetSpsr s.drawIndex 3),
      .ofWord (Config.resetSpsr s.drawIndex 4)⟩ }

/-- `Enter(Reset)` (`70_reset_and_hazards.md` R460, `60_exceptions.md` R405, `10_state.md` R50). Cycle 1 of Table 15 is
a fetch in the old mode (`48_swi_undefined.md` R354), which goes on after the dummy fetches (log entry 44). -/
def State.enterReset (s : State) : State :=
  { ((({ s with bus := [] }).fetch s.dummyAddr).raise .reset).drawAll with resetCycles := 0 }

/-- The inputs of the next step take effect and the next free values are drawn from a new index
(`70_reset_and_hazards.md` R491). -/
def State.settle (s : State) : State :=
  match s.schedule with
  | [] => { s with drawIndex := s.drawIndex + 1 }
  | x :: xs => { s with inputs := x, schedule := xs, drawIndex := s.drawIndex + 1 }

/-- The outcome of a step with the next inputs in place. -/
def settled (o : Outcome) : Outcome :=
  match o with
  | .next s => .next s.settle
  | .fault e => .fault e
  | .refused r => .refused r

/-- What a step comes to: it is over, or an instruction is executed. -/
inductive Boundary
  | over (o : Outcome)
  | run (i : Instr) (s : State)

/-- The word at the head of the pipeline; an empty pipeline, which a step never meets here, gives an aborted word. -/
def State.head (s : State) : Fetched := s.pipe.headD ⟨0, true⟩

/-- The next word: a prefetch abort, an instruction, or an unallocated code, which is skipped when its condition fails
(`60_exceptions.md` R425, `30_encoding.md` R125, `40_condition_execution.md` R172). -/
def dispatchWord (s : State) : Boundary :=
  if s.head.aborted then .over (.next (s.raise .prefetchAbort))
  else
    match decode s.head.word with
    | .ok i => .run i s
    | .error _ => .over (conditionally (condOf s.head.word) s (.refused .unallocated))

/-- The tests of a step out of reset, in the order of priority (`00_scope.md` R10, `60_exceptions.md` R415, R420 to
R422). -/
def interruptsThenWord (s : State) : Boundary :=
  if s.inputs.fiq && !s.cpsr.f then .over (.next (s.raise .fiq))
  else if s.inputs.irq && !s.cpsr.i then .over (.next (s.raise .irq))
  else dispatchWord s

/-- The trace of the last step is dropped and the pipeline filled. -/
def State.begin (s : State) : State := ({ s with bus := [] }).prefetch

/-- What a step comes to (`00_scope.md` R10): reset first. -/
def boundary (s : State) : Boundary :=
  if s.inputs.resetLow then .over (.next s.resetCycle)
  else if s.resetCycles = 0 then interruptsThenWord s.begin
  else if s.resetCycles < 2 then .over (.fault .resetPulseTooShort)
  else .over (.next s.enterReset)

end Sys2Proof.Machine
end

