-- ==== Sys2Proof/Machine/SingleTransfer.lean ====
section
/-! DEFINITION. Single data transfer: LDR, LDRB, STR, STRB and the T forms (`45_single_data_transfer.md`). -/

namespace Sys2Proof.Machine

/-- The data access of a single data transfer (`45_single_data_transfer.md` R286): the T forms are made as from User
mode. -/
def State.transferAccess (s : State) (p w : Bool) (addr : Word) (size : Size) (write : Bool) : Access :=
  { s.dataAccess addr size write with privileged := s.privileged && (p || !w) }

/-- The base written back, if the form does so (`45_single_data_transfer.md` R282). -/
def State.writeBase (s : State) (writes : Bool) (rn : Reg) (v : Word) : State :=
  if writes then s.writeReg rn v else s

/-- The offset of a register form (`45_single_data_transfer.md` R283). -/
def State.registerOffset (s : State) (amt : BitVec 5) (ty : Shift) (rm : Reg) : Word :=
  (shiftByImmediate s.cpsr.c ty amt (s.readReg .rm 8 rm)).value

/-- The data of a load, rotated for a word (`45_single_data_transfer.md` R289 to R291). -/
def State.loaded (s : State) (acc : Access) : Word :=
  match acc.size with
  | .word => rotatedWord acc.addr (s.found acc)
  | .byte => s.found acc

/-- LDR and LDRB after their restrictions (`45_single_data_transfer.md` section 3): the base is written back before
the data lands (R284), and also when the access aborts (R285). -/
def loadSingle (size : Size) (p u w : Bool) (rn rd : Reg) (offset : Word) (s : State) : Outcome :=
  let base := s.readReg .rn 8 rn
  let acc := s.transferAccess p w (transferAddress p u base offset) size false
  let t := (s.load acc).writeBase (writesBack p w) rn (offsetBase u base offset)
  if s.aborts acc then .next ((t.spend ⟨1, 1, 1, 0⟩).raiseDataAbort)
  else if rd = 15 then .next (t.jump (s.loaded acc) ⟨2, 2, 1, 0⟩)
  else .next ((t.writeReg rd (s.loaded acc)).advance ⟨1, 1, 1, 0⟩)

/-- STR and STRB after their restrictions (`45_single_data_transfer.md` section 3, R284, R285, R287). -/
def storeSingle (size : Size) (p u w : Bool) (rn rd : Reg) (offset : Word) (s : State) : Outcome :=
  let base := s.readReg .rn 8 rn
  let acc := s.transferAccess p w (transferAddress p u base offset) size true
  let t := (s.store acc (s.readReg .rd 12 rd)).writeBase (writesBack p w) rn (offsetBase u base offset)
  if s.aborts acc then .next ((t.spend ⟨2, 0, 0, 0⟩).raiseDataAbort)
  else .next (t.advance ⟨2, 0, 0, 0⟩)

/-- LDR with an immediate offset (`45_single_data_transfer.md` R290, R299). -/
def execLdrImm (c : Cond) (p u w : Bool) (rn rd : Reg) (off : BitVec 12) (s : State) : Outcome :=
  conditionally c s <|
    refuseIf (!baseOk p w rn) .writeBackToR15 <|
      loadSingle .word p u w rn rd (off.setWidth 32) s

/-- LDR with a register offset (`45_single_data_transfer.md` R290, R299). -/
def execLdrReg (c : Cond) (p u w : Bool) (rn rd : Reg) (amt : BitVec 5) (ty : Shift) (rm : Reg) (s : State) :
    Outcome :=
  conditionally c s <|
    refuseIf (rm == 15) .offsetR15 <|
    refuseIf (!baseOk p w rn) .writeBackToR15 <|
      loadSingle .word p u w rn rd (s.registerOffset amt ty rm) s

/-- LDRB with an immediate offset (`45_single_data_transfer.md` R291, R299). -/
def execLdrbImm (c : Cond) (p u w : Bool) (rn rd : Reg) (off : BitVec 12) (s : State) : Outcome :=
  conditionally c s <|
    refuseIf (!baseOk p w rn) .writeBackToR15 <|
      refuseIf (rd == 15) .loadByteToR15 <|
      loadSingle .byte p u w rn rd (off.setWidth 32) s

/-- LDRB with a register offset (`45_single_data_transfer.md` R291, R299). -/
def execLdrbReg (c : Cond) (p u w : Bool) (rn rd : Reg) (amt : BitVec 5) (ty : Shift) (rm : Reg) (s : State) :
    Outcome :=
  conditionally c s <|
    refuseIf (rm == 15) .offsetR15 <|
    refuseIf (!baseOk p w rn) .writeBackToR15 <|
      refuseIf (rd == 15) .loadByteToR15 <|
      loadSingle .byte p u w rn rd (s.registerOffset amt ty rm) s

/-- STR with an immediate offset (`45_single_data_transfer.md` R292, R299). -/
def execStrImm (c : Cond) (p u w : Bool) (rn rd : Reg) (off : BitVec 12) (s : State) : Outcome :=
  conditionally c s <|
    refuseIf (!baseOk p w rn) .writeBackToR15 <|
      refuseIf (!storeOk p w rn rd) .storeOfWrittenBase <|
      storeSingle .word p u w rn rd (off.setWidth 32) s

/-- STR with a register offset (`45_single_data_transfer.md` R292, R299). -/
def execStrReg (c : Cond) (p u w : Bool) (rn rd : Reg) (amt : BitVec 5) (ty : Shift) (rm : Reg) (s : State) :
    Outcome :=
  conditionally c s <|
    refuseIf (rm == 15) .offsetR15 <|
    refuseIf (!baseOk p w rn) .writeBackToR15 <|
      refuseIf (!storeOk p w rn rd) .storeOfWrittenBase <|
      storeSingle .word p u w rn rd (s.registerOffset amt ty rm) s

/-- STRB with an immediate offset (`45_single_data_transfer.md` R293, R299). -/
def execStrbImm (c : Cond) (p u w : Bool) (rn rd : Reg) (off : BitVec 12) (s : State) : Outcome :=
  conditionally c s <|
    refuseIf (!baseOk p w rn) .writeBackToR15 <|
      refuseIf (!storeOk p w rn rd) .storeOfWrittenBase <|
      storeSingle .byte p u w rn rd (off.setWidth 32) s

/-- STRB with a register offset (`45_single_data_transfer.md` R293, R299). -/
def execStrbReg (c : Cond) (p u w : Bool) (rn rd : Reg) (amt : BitVec 5) (ty : Shift) (rm : Reg) (s : State) :
    Outcome :=
  conditionally c s <|
    refuseIf (rm == 15) .offsetR15 <|
    refuseIf (!baseOk p w rn) .writeBackToR15 <|
      refuseIf (!storeOk p w rn rd) .storeOfWrittenBase <|
      storeSingle .byte p u w rn rd (s.registerOffset amt ty rm) s

end Sys2Proof.Machine
end

