-- ==== Sys2Proof/Machine/BlockTransfer.lean ====
section
/-! DEFINITION. Block data transfer: LDM and STM (`46_block_data_transfer.md`). -/

namespace Sys2Proof.Machine

/-- A loaded word lands in its register: of the User bank in a user bank transfer, else of the current mode
(`46_block_data_transfer.md` R318). -/
def State.landIn (s : State) (userBank : Bool) (r : Reg) (v : Word) : State :=
  if userBank then s.setBank .usr r v else s.writeReg r v

/-- The reads of an LDM, lowest register first (`46_block_data_transfer.md` R312, R322, R325): every read is made;
after the first that aborts no register is written; R15 is left to the end of the instruction. -/
def State.loadRegs (s : State) (userBank : Bool) (aborted : Bool) (addr : Word) : List Reg → State
  | [] => s
  | r :: rs =>
    let acc := s.dataAccess addr .word false
    let t := s.load acc
    let stop := aborted || s.aborts acc
    State.loadRegs (if stop || r = 15 then t else t.landIn userBank r (s.wordAt addr)) userBank stop (addr + 4) rs

/-- The base register after an LDM that aborted (`46_block_data_transfer.md` R325): the modified base if write-back
was asked for, else what it held before. -/
def State.restoreBase (s : State) (w : Bool) (rn : Reg) (final old : Word) : State :=
  if w then s.writeReg rn final else s.setBank s.cpsr.mode rn old

/-- The cycles of an LDM (`46_block_data_transfer.md` R327). -/
def ldmCycles (n : Nat) (loadsPc : Bool) : Cycles := if loadsPc then ⟨2, n + 1, 1, 0⟩ else ⟨1, n, 1, 0⟩

/-- The word an LDM loads for R15, the last one (`46_block_data_transfer.md` R320). -/
def State.lastWord (s : State) (start : Word) (n : Nat) : Word := s.wordAt (start + wordBytes (n - 1))

/-- LDM after its restrictions (`46_block_data_transfer.md` R322). -/
def loadBlock (p u sb w : Bool) (rn : Reg) (list : BitVec 16) (s : State) : Outcome :=
  let base := s.readReg .rn 8 rn
  let n := countOf list
  let start := blockStart p u base n
  let final := blockFinal u base n
  let loadsPc := list.getLsbD 15
  let userBank := sb && !loadsPc
  let t := (s.writeBase w rn final).loadRegs userBank false start (regsOf list)
  if s.anyAborts false n start then
    .next (((t.restoreBase w rn final (s.bankReg s.cpsr.mode rn)).spend (ldmCycles n false)).raiseDataAbort)
  else if loadsPc then
    if sb then t.returnTo (s.lastWord start n) (ldmCycles n true)
    else .next (t.jump (s.lastWord start n) (ldmCycles n true))
  else .next { t.advance (ldmCycles n false) with hazard := userBank }

/-- The value an STM stores for a register of its list (`46_block_data_transfer.md` R316, R318, R321). -/
def State.storedFor (s : State) (userBank w : Bool) (rn : Reg) (base final : Word) (list : List Reg) (r : Reg) :
    Word :=
  if r = 15 then s.pc + 12
  else if userBank then s.bankReg .usr r
  else if r = rn then (if w && list.head? != some r then final else base)
  else s.readReg .rd 12 r

/-- STM after its restrictions (`46_block_data_transfer.md` R323, R326). -/
def storeBlock (p u sb w : Bool) (rn : Reg) (list : BitVec 16) (s : State) : Outcome :=
  let base := s.readReg .rn 8 rn
  let n := countOf list
  let start := blockStart p u base n
  let final := blockFinal u base n
  let values := (regsOf list).map (s.storedFor sb w rn base final (regsOf list))
  let t := (s.storeWords start values).writeBase w rn final
  if s.anyAborts true n start then .next ((t.spend ⟨2, n - 1, 0, 0⟩).raiseDataAbort)
  else .next (t.advance ⟨2, n - 1, 0, 0⟩)

/-- The restrictions of LDM and STM (`46_block_data_transfer.md` R324). -/
def blockGuard (sb userBank w : Bool) (rn : Reg) (list : BitVec 16) (s : State) (o : Outcome) : Outcome :=
  refuseIf (list == 0) .emptyRegisterList <|
    refuseIf (rn == 15) .blockBaseR15 <|
    refuseIf (sb && !s.privileged) .userBankInUserMode <|
    refuseIf (userBank && w) .userBankWriteBack o

/-- LDM (`46_block_data_transfer.md` R322). -/
def execLdm (c : Cond) (p u sb w : Bool) (rn : Reg) (list : BitVec 16) (s : State) : Outcome :=
  conditionally c s
    (blockGuard sb (sb && !list.getLsbD 15) w rn list s (loadBlock p u sb w rn list s))

/-- STM (`46_block_data_transfer.md` R323). -/
def execStm (c : Cond) (p u sb w : Bool) (rn : Reg) (list : BitVec 16) (s : State) : Outcome :=
  conditionally c s (blockGuard sb sb w rn list s (storeBlock p u sb w rn list s))

end Sys2Proof.Machine
end

