-- ==== Sys2Proof/Machine/Branch.lean ====
section
/-! DEFINITION. Branch and branch with link (`41_branch.md`). -/

namespace Sys2Proof.Machine

/-- The target of a branch (`41_branch.md` R180, `30_encoding.md` R130). -/
def State.branchTarget (s : State) (off : BitVec 24) : Word := s.pc + 8 + branchOffset off

/-- B (`41_branch.md` R181). -/
def execB (c : Cond) (off : BitVec 24) (s : State) : Outcome :=
  conditionally c s (.next (s.jump (s.branchTarget off) ⟨1, 2, 0, 0⟩))

/-- BL (`41_branch.md` R182). -/
def execBl (c : Cond) (off : BitVec 24) (s : State) : Outcome :=
  conditionally c s (.next ((s.writeReg 14 (s.pc + 4)).jump (s.branchTarget off) ⟨1, 2, 0, 0⟩))

end Sys2Proof.Machine
end

