-- ==== Sys2Proof/Machine/Trap.lean ====
section
/-! DEFINITION. Software interrupt and the undefined instruction (`48_swi_undefined.md`). -/

namespace Sys2Proof.Machine

/-- The undefined instruction trap (`48_swi_undefined.md` R355, `49_coprocessor.md` R363): the word has been offered to
the coprocessors and none took it. -/
def State.trapUndefined (s : State) (word : Word) : State :=
  (s.log (.offer word s.privileged s.cpsr.mode)).raise .undefined

/-- SWI (`48_swi_undefined.md` R351); the comment is ignored (R353). -/
def execSwi (c : Cond) (_comment : BitVec 24) (s : State) : Outcome := conditionally c s (.next (s.raise .swi))

/-- The undefined class (`48_swi_undefined.md` R355): no coprocessor answers it. -/
def execUndefined (c : Cond) (hi : BitVec 20) (lo : BitVec 4) (s : State) : Outcome :=
  conditionally c s (.next (s.trapUndefined (encode (.undefined c hi lo))))

end Sys2Proof.Machine
end

