-- ==== Sys2Proof/Machine/Coprocessor.lean ====
section
/-! DEFINITION. The coprocessor instructions CDP, LDC, STC, MRC, MCR and the handshake (`49_coprocessor.md`). -/

namespace Sys2Proof.Machine

/-- Whether a rule answers an instruction for a coprocessor (`49_coprocessor.md` R361, R383). -/
def CoprocRule.answers (r : CoprocRule) (cp : BitVec 4) (word : Word) (s : State) : Bool :=
  r.cp == cp && (word &&& r.mask) == (r.value &&& r.mask) && admits r.privileged s.privileged &&
    admits r.mode s.cpsr.mode

/-- The answer to an instruction in the current step (`49_coprocessor.md` R361, R363): the first rule that answers,
else no coprocessor is there. -/
def State.response (s : State) (cp : BitVec 4) (word : Word) : Response :=
  match s.inputs.coprocs.find? fun r => r.answers cp word s with
  | none => .absent
  | some r => r.response

/-- The handshake (`49_coprocessor.md` R363, R364, R366): absent takes the undefined instruction trap; busy lets one
internal cycle pass, after which the next step looks at the interrupts and offers the instruction again; ready
commits. -/
def handshake (cp : BitVec 4) (word : Word) (s : State) (commit : CoprocData → State → Outcome) : Outcome :=
  match s.response cp word with
  | .absent => .next (s.trapUndefined word)
  | .busy => .next ((s.log (.offer word s.privileged s.cpsr.mode)).spend ⟨0, 0, 1, 0⟩)
  | .ready d => commit d (s.log (.offer word s.privileged s.cpsr.mode))

/-- CDP (`49_coprocessor.md` R368). -/
def execCdp (c : Cond) (opc crn crd cp : BitVec 4) (info : BitVec 3) (crm : BitVec 4) (s : State) : Outcome :=
  conditionally c s <|
    handshake cp (encode (.cdp c opc crn crd cp info crm)) s fun _ t =>
      .next ((t.log (.coprocOperation cp (encode (.cdp c opc crn crd cp info crm)))).advance ⟨0, 1, 0, 0⟩)

/-- The reads of an LDC (`49_coprocessor.md` R373): a word whose read did not abort goes to the coprocessor. -/
def State.loadCoproc (s : State) (cp : BitVec 4) : Nat → Nat → Word → State
  | 0, _, _ => s
  | n + 1, index, addr =>
    let acc := s.dataAccess addr .word false
    let t := s.load acc
    (if s.aborts acc then t else t.log (.coprocLoad cp index (s.wordAt addr))).loadCoproc cp n (index + 1) (addr + 4)

/-- LDC once the coprocessor is ready (`49_coprocessor.md` R370, R373, R375). -/
def loadToCoproc (p u w : Bool) (rn : Reg) (cp : BitVec 4) (off : Byte) (d : CoprocData) (s : State) : Outcome :=
  let base := s.readReg .rn 8 rn
  let addr := transferAddress p u base (coprocOffset off)
  let n := d.loadExtra + 1
  let t := (s.loadCoproc cp n 0 addr).writeBase w rn (offsetBase u base (coprocOffset off))
  if s.anyAborts false n addr then .next ((t.spend ⟨2, n - 1, 0, 0⟩).raiseDataAbort)
  else .next (t.advance ⟨2, n - 1, 0, 0⟩)

/-- STC once the coprocessor is ready (`49_coprocessor.md` R370, R374, R375). -/
def storeFromCoproc (p u w : Bool) (rn : Reg) (off : Byte) (d : CoprocData) (s : State) : Outcome :=
  let base := s.readReg .rn 8 rn
  let addr := transferAddress p u base (coprocOffset off)
  let words := d.storeFirst :: d.storeRest
  let t := (s.storeWords addr words).writeBase w rn (offsetBase u base (coprocOffset off))
  if s.anyAborts true words.length addr then .next ((t.spend ⟨2, words.length - 1, 0, 0⟩).raiseDataAbort)
  else .next (t.advance ⟨2, words.length - 1, 0, 0⟩)

/-- LDC (`49_coprocessor.md` R373, R371). -/
def execLdc (c : Cond) (p u n w : Bool) (rn : Reg) (crd cp : BitVec 4) (off : Byte) (s : State) : Outcome :=
  conditionally c s <|
    refuseIf (rn == 15 && w) .writeBackToR15 <|
      handshake cp (encode (.ldc c p u n w rn crd cp off)) s (loadToCoproc p u w rn cp off)

/-- STC (`49_coprocessor.md` R374, R371). -/
def execStc (c : Cond) (p u n w : Bool) (rn : Reg) (crd cp : BitVec 4) (off : Byte) (s : State) : Outcome :=
  conditionally c s <|
    refuseIf (rn == 15 && w) .writeBackToR15 <|
      handshake cp (encode (.stc c p u n w rn crd cp off)) s (storeFromCoproc p u w rn off)

/-- MRC once the coprocessor is ready (`49_coprocessor.md` R376, R378): to R15 it sets the flags only. -/
def readFromCoproc (rd : Reg) (cp : BitVec 4) (d : CoprocData) (s : State) : Outcome :=
  let t := s.log (.coprocRead cp d.result)
  if rd = 15 then .next ((t.advance ⟨0, 1, 1, 1⟩).setPsr (s.cpsr.withTop d.result))
  else .next ((t.writeReg rd d.result).advance ⟨0, 1, 1, 1⟩)

/-- MRC (`49_coprocessor.md` R378). -/
def execMrc (c : Cond) (opc : BitVec 3) (crn : BitVec 4) (rd : Reg) (cp : BitVec 4) (info : BitVec 3)
    (crm : BitVec 4) (s : State) : Outcome :=
  conditionally c s <|
    handshake cp (encode (.mrc c opc crn rd cp info crm)) s (readFromCoproc rd cp)

/-- MCR (`49_coprocessor.md` R377, R379). -/
def execMcr (c : Cond) (opc : BitVec 3) (crn : BitVec 4) (rd : Reg) (cp : BitVec 4) (info : BitVec 3)
    (crm : BitVec 4) (s : State) : Outcome :=
  conditionally c s <|
    handshake cp (encode (.mcr c opc crn rd cp info crm)) s fun _ t =>
      .next ((t.log (.coprocWrite cp (s.readReg .rd 12 rd))).advance ⟨1, 0, 0, 1⟩)

end Sys2Proof.Machine
end

