-- ==== Sys2Proof/Machine/DataProcessing.lean ====
section
/-! DEFINITION. Data processing (`42_data_processing.md`): the template of R201 once, and the three forms of the
sixteen operations over it. -/

namespace Sys2Proof.Machine

/-- A test operation with Rd = R15 (`42_data_processing.md` R214): the SPSR is moved to the CPSR in a privileged
mode; in User mode the flags are free between the old ones and those of the test. -/
def testToPsr (r : AluOut) (internal : Nat) (s : State) : Outcome :=
  if s.privileged then
    match s.restored with
    | .error e => .refused e
    | .ok p => .next ((s.advance ⟨0, 1, internal, 0⟩).setPsr p)
  else if Config.testKeepsFlags s.drawIndex then .next (s.advance ⟨0, 1, internal, 0⟩)
  else .next ((s.advance ⟨0, 1, internal, 0⟩).setPsr (s.cpsr.withAlu r))

/-- The result of an operation goes to Rd and the CPSR (`42_data_processing.md` R201, R206, R207, R211). -/
def finishAlu (op : AluOp) (sf : Bool) (rd : Reg) (r : AluOut) (internal : Nat) (s : State) : Outcome :=
  if op.isTest then
    if rd = 15 then testToPsr r internal s
    else .next ((s.advance ⟨0, 1, internal, 0⟩).setPsr (s.cpsr.withAlu r))
  else if rd = 15 then
    if sf then s.returnTo r.result ⟨1, 2, internal, 0⟩ else .next (s.jump r.result ⟨1, 2, internal, 0⟩)
  else
    .next (((s.writeReg rd r.result).advance ⟨0, 1, internal, 0⟩).setPsr (if sf then s.cpsr.withAlu r else s.cpsr))

/-- The result and flags of an operation in a state (`42_data_processing.md` R201). -/
def State.aluOut (s : State) (op : AluOp) (a : Word) (b : Operand2) : AluOut :=
  alu op a b.value s.cpsr.c b.carry s.cpsr.v

/-- An operation with a rotated immediate (`42_data_processing.md` R199, R205). -/
def dataImm (op : AluOp) (c : Cond) (sf : Bool) (rn rd : Reg) (rot : BitVec 4) (imm : Byte) (s : State) : Outcome :=
  conditionally c s
    (finishAlu op sf rd (s.aluOut op (s.readReg .rn 8 rn) (rotatedImmediate s.cpsr.c rot imm)) 0 s)

/-- An operation with a register shifted by an immediate (`42_data_processing.md` R192 to R197, R205). -/
def dataReg (op : AluOp) (c : Cond) (sf : Bool) (rn rd : Reg) (amt : BitVec 5) (ty : Shift) (rm : Reg) (s : State) :
    Outcome :=
  conditionally c s
    (finishAlu op sf rd
      (s.aluOut op (s.readReg .rn 8 rn) (shiftByImmediate s.cpsr.c ty amt (s.readReg .rm 8 rm))) 0 s)

/-- Operand 2 of an operation with a register shifted by a register (`42_data_processing.md` R198, R205). -/
def State.shiftedByReg (s : State) (rs : Reg) (ty : Shift) (rm : Reg) : Operand2 :=
  shiftByRegister s.cpsr.c ty (s.readReg .rs 12 rs).lowByte (s.readReg .rm 12 rm)

/-- An operation with a register shifted by a register (`42_data_processing.md` R198, R205, R210). -/
def dataRsr (op : AluOp) (c : Cond) (sf : Bool) (rn rd rs : Reg) (ty : Shift) (rm : Reg) (s : State) : Outcome :=
  conditionally c s
    (refuseIf (rs == 15) .shiftByR15
      (finishAlu op sf rd (s.aluOut op (s.readReg .rn 12 rn) (s.shiftedByReg rs ty rm)) 1 s))

/-- AND with a rotated immediate (`42_data_processing.md` R220). -/
def execAndImm (c : Cond) (sf : Bool) (rn rd : Reg) (rot : BitVec 4) (imm : Byte) (s : State) : Outcome :=
  dataImm .and c sf rn rd rot imm s

/-- AND with a register shifted by an immediate (`42_data_processing.md` R220). -/
def execAndReg (c : Cond) (sf : Bool) (rn rd : Reg) (amt : BitVec 5) (ty : Shift) (rm : Reg) (s : State) : Outcome :=
  dataReg .and c sf rn rd amt ty rm s

/-- AND with a register shifted by a register (`42_data_processing.md` R220). -/
def execAndRsr (c : Cond) (sf : Bool) (rn rd rs : Reg) (ty : Shift) (rm : Reg) (s : State) : Outcome :=
  dataRsr .and c sf rn rd rs ty rm s

/-- EOR with a rotated immediate (`42_data_processing.md` R221). -/
def execEorImm (c : Cond) (sf : Bool) (rn rd : Reg) (rot : BitVec 4) (imm : Byte) (s : State) : Outcome :=
  dataImm .eor c sf rn rd rot imm s

/-- EOR with a register shifted by an immediate (`42_data_processing.md` R221). -/
def execEorReg (c : Cond) (sf : Bool) (rn rd : Reg) (amt : BitVec 5) (ty : Shift) (rm : Reg) (s : State) : Outcome :=
  dataReg .eor c sf rn rd amt ty rm s

/-- EOR with a register shifted by a register (`42_data_processing.md` R221). -/
def execEorRsr (c : Cond) (sf : Bool) (rn rd rs : Reg) (ty : Shift) (rm : Reg) (s : State) : Outcome :=
  dataRsr .eor c sf rn rd rs ty rm s

/-- SUB with a rotated immediate (`42_data_processing.md` R222). -/
def execSubImm (c : Cond) (sf : Bool) (rn rd : Reg) (rot : BitVec 4) (imm : Byte) (s : State) : Outcome :=
  dataImm .sub c sf rn rd rot imm s

/-- SUB with a register shifted by an immediate (`42_data_processing.md` R222). -/
def execSubReg (c : Cond) (sf : Bool) (rn rd : Reg) (amt : BitVec 5) (ty : Shift) (rm : Reg) (s : State) : Outcome :=
  dataReg .sub c sf rn rd amt ty rm s

/-- SUB with a register shifted by a register (`42_data_processing.md` R222). -/
def execSubRsr (c : Cond) (sf : Bool) (rn rd rs : Reg) (ty : Shift) (rm : Reg) (s : State) : Outcome :=
  dataRsr .sub c sf rn rd rs ty rm s

/-- RSB with a rotated immediate (`42_data_processing.md` R223). -/
def execRsbImm (c : Cond) (sf : Bool) (rn rd : Reg) (rot : BitVec 4) (imm : Byte) (s : State) : Outcome :=
  dataImm .rsb c sf rn rd rot imm s

/-- RSB with a register shifted by an immediate (`42_data_processing.md` R223). -/
def execRsbReg (c : Cond) (sf : Bool) (rn rd : Reg) (amt : BitVec 5) (ty : Shift) (rm : Reg) (s : State) : Outcome :=
  dataReg .rsb c sf rn rd amt ty rm s

/-- RSB with a register shifted by a register (`42_data_processing.md` R223). -/
def execRsbRsr (c : Cond) (sf : Bool) (rn rd rs : Reg) (ty : Shift) (rm : Reg) (s : State) : Outcome :=
  dataRsr .rsb c sf rn rd rs ty rm s

/-- ADD with a rotated immediate (`42_data_processing.md` R224). -/
def execAddImm (c : Cond) (sf : Bool) (rn rd : Reg) (rot : BitVec 4) (imm : Byte) (s : State) : Outcome :=
  dataImm .add c sf rn rd rot imm s

/-- ADD with a register shifted by an immediate (`42_data_processing.md` R224). -/
def execAddReg (c : Cond) (sf : Bool) (rn rd : Reg) (amt : BitVec 5) (ty : Shift) (rm : Reg) (s : State) : Outcome :=
  dataReg .add c sf rn rd amt ty rm s

/-- ADD with a register shifted by a register (`42_data_processing.md` R224). -/
def execAddRsr (c : Cond) (sf : Bool) (rn rd rs : Reg) (ty : Shift) (rm : Reg) (s : State) : Outcome :=
  dataRsr .add c sf rn rd rs ty rm s

/-- ADC with a rotated immediate (`42_data_processing.md` R225). -/
def execAdcImm (c : Cond) (sf : Bool) (rn rd : Reg) (rot : BitVec 4) (imm : Byte) (s : State) : Outcome :=
  dataImm .adc c sf rn rd rot imm s

/-- ADC with a register shifted by an immediate (`42_data_processing.md` R225). -/
def execAdcReg (c : Cond) (sf : Bool) (rn rd : Reg) (amt : BitVec 5) (ty : Shift) (rm : Reg) (s : State) : Outcome :=
  dataReg .adc c sf rn rd amt ty rm s

/-- ADC with a register shifted by a register (`42_data_processing.md` R225). -/
def execAdcRsr (c : Cond) (sf : Bool) (rn rd rs : Reg) (ty : Shift) (rm : Reg) (s : State) : Outcome :=
  dataRsr .adc c sf rn rd rs ty rm s

/-- SBC with a rotated immediate (`42_data_processing.md` R226). -/
def execSbcImm (c : Cond) (sf : Bool) (rn rd : Reg) (rot : BitVec 4) (imm : Byte) (s : State) : Outcome :=
  dataImm .sbc c sf rn rd rot imm s

/-- SBC with a register shifted by an immediate (`42_data_processing.md` R226). -/
def execSbcReg (c : Cond) (sf : Bool) (rn rd : Reg) (amt : BitVec 5) (ty : Shift) (rm : Reg) (s : State) : Outcome :=
  dataReg .sbc c sf rn rd amt ty rm s

/-- SBC with a register shifted by a register (`42_data_processing.md` R226). -/
def execSbcRsr (c : Cond) (sf : Bool) (rn rd rs : Reg) (ty : Shift) (rm : Reg) (s : State) : Outcome :=
  dataRsr .sbc c sf rn rd rs ty rm s

/-- RSC with a rotated immediate (`42_data_processing.md` R227). -/
def execRscImm (c : Cond) (sf : Bool) (rn rd : Reg) (rot : BitVec 4) (imm : Byte) (s : State) : Outcome :=
  dataImm .rsc c sf rn rd rot imm s

/-- RSC with a register shifted by an immediate (`42_data_processing.md` R227). -/
def execRscReg (c : Cond) (sf : Bool) (rn rd : Reg) (amt : BitVec 5) (ty : Shift) (rm : Reg) (s : State) : Outcome :=
  dataReg .rsc c sf rn rd amt ty rm s

/-- RSC with a register shifted by a register (`42_data_processing.md` R227). -/
def execRscRsr (c : Cond) (sf : Bool) (rn rd rs : Reg) (ty : Shift) (rm : Reg) (s : State) : Outcome :=
  dataRsr .rsc c sf rn rd rs ty rm s

/-- TST with a rotated immediate (`42_data_processing.md` R228). -/
def execTstImm (c : Cond) (rn rd : Reg) (rot : BitVec 4) (imm : Byte) (s : State) : Outcome :=
  dataImm .tst c true rn rd rot imm s

/-- TST with a register shifted by an immediate (`42_data_processing.md` R228). -/
def execTstReg (c : Cond) (rn rd : Reg) (amt : BitVec 5) (ty : Shift) (rm : Reg) (s : State) : Outcome :=
  dataReg .tst c true rn rd amt ty rm s

/-- TST with a register shifted by a register (`42_data_processing.md` R228). -/
def execTstRsr (c : Cond) (rn rd rs : Reg) (ty : Shift) (rm : Reg) (s : State) : Outcome :=
  dataRsr .tst c true rn rd rs ty rm s

/-- TEQ with a rotated immediate (`42_data_processing.md` R229). -/
def execTeqImm (c : Cond) (rn rd : Reg) (rot : BitVec 4) (imm : Byte) (s : State) : Outcome :=
  dataImm .teq c true rn rd rot imm s

/-- TEQ with a register shifted by an immediate (`42_data_processing.md` R229). -/
def execTeqReg (c : Cond) (rn rd : Reg) (amt : BitVec 5) (ty : Shift) (rm : Reg) (s : State) : Outcome :=
  dataReg .teq c true rn rd amt ty rm s

/-- TEQ with a register shifted by a register (`42_data_processing.md` R229). -/
def execTeqRsr (c : Cond) (rn rd rs : Reg) (ty : Shift) (rm : Reg) (s : State) : Outcome :=
  dataRsr .teq c true rn rd rs ty rm s

/-- CMP with a rotated immediate (`42_data_processing.md` R230). -/
def execCmpImm (c : Cond) (rn rd : Reg) (rot : BitVec 4) (imm : Byte) (s : State) : Outcome :=
  dataImm .cmp c true rn rd rot imm s

/-- CMP with a register shifted by an immediate (`42_data_processing.md` R230). -/
def execCmpReg (c : Cond) (rn rd : Reg) (amt : BitVec 5) (ty : Shift) (rm : Reg) (s : State) : Outcome :=
  dataReg .cmp c true rn rd amt ty rm s

/-- CMP with a register shifted by a register (`42_data_processing.md` R230). -/
def execCmpRsr (c : Cond) (rn rd rs : Reg) (ty : Shift) (rm : Reg) (s : State) : Outcome :=
  dataRsr .cmp c true rn rd rs ty rm s

/-- CMN with a rotated immediate (`42_data_processing.md` R231). -/
def execCmnImm (c : Cond) (rn rd : Reg) (rot : BitVec 4) (imm : Byte) (s : State) : Outcome :=
  dataImm .cmn c true rn rd rot imm s

/-- CMN with a register shifted by an immediate (`42_data_processing.md` R231). -/
def execCmnReg (c : Cond) (rn rd : Reg) (amt : BitVec 5) (ty : Shift) (rm : Reg) (s : State) : Outcome :=
  dataReg .cmn c true rn rd amt ty rm s

/-- CMN with a register shifted by a register (`42_data_processing.md` R231). -/
def execCmnRsr (c : Cond) (rn rd rs : Reg) (ty : Shift) (rm : Reg) (s : State) : Outcome :=
  dataRsr .cmn c true rn rd rs ty rm s

/-- ORR with a rotated immediate (`42_data_processing.md` R232). -/
def execOrrImm (c : Cond) (sf : Bool) (rn rd : Reg) (rot : BitVec 4) (imm : Byte) (s : State) : Outcome :=
  dataImm .orr c sf rn rd rot imm s

/-- ORR with a register shifted by an immediate (`42_data_processing.md` R232). -/
def execOrrReg (c : Cond) (sf : Bool) (rn rd : Reg) (amt : BitVec 5) (ty : Shift) (rm : Reg) (s : State) : Outcome :=
  dataReg .orr c sf rn rd amt ty rm s

/-- ORR with a register shifted by a register (`42_data_processing.md` R232). -/
def execOrrRsr (c : Cond) (sf : Bool) (rn rd rs : Reg) (ty : Shift) (rm : Reg) (s : State) : Outcome :=
  dataRsr .orr c sf rn rd rs ty rm s

/-- MOV with a rotated immediate (`42_data_processing.md` R233). -/
def execMovImm (c : Cond) (sf : Bool) (rn rd : Reg) (rot : BitVec 4) (imm : Byte) (s : State) : Outcome :=
  dataImm .mov c sf rn rd rot imm s

/-- MOV with a register shifted by an immediate (`42_data_processing.md` R233). -/
def execMovReg (c : Cond) (sf : Bool) (rn rd : Reg) (amt : BitVec 5) (ty : Shift) (rm : Reg) (s : State) : Outcome :=
  dataReg .mov c sf rn rd amt ty rm s

/-- MOV with a register shifted by a register (`42_data_processing.md` R233). -/
def execMovRsr (c : Cond) (sf : Bool) (rn rd rs : Reg) (ty : Shift) (rm : Reg) (s : State) : Outcome :=
  dataRsr .mov c sf rn rd rs ty rm s

/-- BIC with a rotated immediate (`42_data_processing.md` R234). -/
def execBicImm (c : Cond) (sf : Bool) (rn rd : Reg) (rot : BitVec 4) (imm : Byte) (s : State) : Outcome :=
  dataImm .bic c sf rn rd rot imm s

/-- BIC with a register shifted by an immediate (`42_data_processing.md` R234). -/
def execBicReg (c : Cond) (sf : Bool) (rn rd : Reg) (amt : BitVec 5) (ty : Shift) (rm : Reg) (s : State) : Outcome :=
  dataReg .bic c sf rn rd amt ty rm s

/-- BIC with a register shifted by a register (`42_data_processing.md` R234). -/
def execBicRsr (c : Cond) (sf : Bool) (rn rd rs : Reg) (ty : Shift) (rm : Reg) (s : State) : Outcome :=
  dataRsr .bic c sf rn rd rs ty rm s

/-- MVN with a rotated immediate (`42_data_processing.md` R235). -/
def execMvnImm (c : Cond) (sf : Bool) (rn rd : Reg) (rot : BitVec 4) (imm : Byte) (s : State) : Outcome :=
  dataImm .mvn c sf rn rd rot imm s

/-- MVN with a register shifted by an immediate (`42_data_processing.md` R235). -/
def execMvnReg (c : Cond) (sf : Bool) (rn rd : Reg) (amt : BitVec 5) (ty : Shift) (rm : Reg) (s : State) : Outcome :=
  dataReg .mvn c sf rn rd amt ty rm s

/-- MVN with a register shifted by a register (`42_data_processing.md` R235). -/
def execMvnRsr (c : Cond) (sf : Bool) (rn rd rs : Reg) (ty : Shift) (rm : Reg) (s : State) : Outcome :=
  dataRsr .mvn c sf rn rd rs ty rm s

end Sys2Proof.Machine
end

