-- ==== Sys2Proof/Machine/Multiply.lean ====
section
/-! DEFINITION. Multiply and multiply-accumulate (`44_multiply.md`). -/

namespace Sys2Proof.Machine

/-- The least `m` of 2 or more, at most 16, with `v < 2 ^ (2 m - 1)`, searched from `16 - fuel` on. -/
def multiplyCyclesFrom (v : Nat) : Nat → Nat
  | 0 => 16
  | fuel + 1 => if v < 2 ^ (2 * (16 - (fuel + 1)) - 1) then 16 - (fuel + 1) else multiplyCyclesFrom v fuel

/-- How many internal cycles a multiply takes, by the value of Rs (`44_multiply.md` R276). -/
def multiplyCycles (rs : Word) : Nat := if rs.toNat ≤ 1 then 1 else multiplyCyclesFrom rs.toNat 14

/-- The product goes to Rd, and with S = 1 to the flags (`44_multiply.md` R273): C is a free value. -/
def finishMultiply (sf : Bool) (rd : Reg) (result : Word) (m : Nat) (s : State) : Outcome :=
  .next (((s.writeReg rd result).advance ⟨0, 1, m, 0⟩).setPsr
    (if sf then s.cpsr.withMultiply result (Config.mulCarry s.drawIndex) else s.cpsr))

/-- MUL (`44_multiply.md` R274); the Rn field is ignored (R271). -/
def execMul (c : Cond) (sf : Bool) (rd _rn rs rm : Reg) (s : State) : Outcome :=
  conditionally c s
    (refuseIf (rd == 15 || rs == 15 || rm == 15) .multiplyR15
      (finishMultiply sf rd (s.readReg .rm 8 rm * s.readReg .rs 8 rs) (multiplyCycles (s.readReg .rs 8 rs)) s))

/-- MLA (`44_multiply.md` R275). -/
def execMla (c : Cond) (sf : Bool) (rd rn rs rm : Reg) (s : State) : Outcome :=
  conditionally c s
    (refuseIf (rd == 15 || rn == 15 || rs == 15 || rm == 15) .multiplyR15
      (finishMultiply sf rd (s.readReg .rm 8 rm * s.readReg .rs 8 rs + s.readReg .rn 8 rn)
        (multiplyCycles (s.readReg .rs 8 rs)) s))

end Sys2Proof.Machine
end

