-- ==== Sys2Proof/Machine/PsrTransfer.lean ====
section
/-! DEFINITION. PSR transfer: MRS and MSR (`43_psr_transfer.md`). -/

namespace Sys2Proof.Machine

/-- MSR of flags to the CPSR or the SPSR of the current mode (`43_psr_transfer.md` R254, R255). -/
def writePsrFlags (spsr : Bool) (v : Word) (s : State) : Outcome :=
  if spsr then
    match s.savedOf s.cpsr.mode with
    | none => .refused .spsrInUserMode
    | some p => .next ((s.advance ⟨0, 1, 0, 0⟩).setSaved s.cpsr.mode (p.withTop v))
  else .next ((s.advance ⟨0, 1, 0, 0⟩).setPsr (s.cpsr.withTop v))

/-- MSR of a whole word to the CPSR (`43_psr_transfer.md` R253, R256): in User mode the flags only. -/
def writeWholeCpsr (v : Word) (s : State) : Outcome :=
  if s.privileged then
    match (SavedPsr.ofWord v).toPsr with
    | none => .refused .illegalMode
    | some p => .next ((s.advance ⟨0, 1, 0, 0⟩).setPsr p)
  else .next ((s.advance ⟨0, 1, 0, 0⟩).setPsr (s.cpsr.withTop v))

/-- MSR of a whole word to the SPSR of the current mode (`43_psr_transfer.md` R253, `10_state.md` R43). -/
def writeWholeSpsr (v : Word) (s : State) : Outcome :=
  if s.privileged then
    match (SavedPsr.ofWord v).toPsr with
    | none => .refused .illegalMode
    | some _ => .next ((s.advance ⟨0, 1, 0, 0⟩).setSaved s.cpsr.mode (SavedPsr.ofWord v))
  else .refused .spsrInUserMode

/-- The word MRS reads (`43_psr_transfer.md` R252): the CPSR, or the SPSR of the current mode. -/
def State.psrValue (s : State) (spsr : Bool) : Option Word :=
  if spsr then (s.savedOf s.cpsr.mode).map fun p => p.word (Config.psrReserved s.drawIndex)
  else some (s.cpsr.word (Config.psrReserved s.drawIndex))

/-- MRS (`43_psr_transfer.md` R252). -/
def execMrs (c : Cond) (spsr : Bool) (rd : Reg) (s : State) : Outcome :=
  conditionally c s
    (refuseIf (rd == 15) .psrTransferR15
      (match s.psrValue spsr with
      | none => .refused .spsrInUserMode
      | some v => .next ((s.writeReg rd v).advance ⟨0, 1, 0, 0⟩)))

/-- MSR, register to whole PSR (`43_psr_transfer.md` R253). -/
def execMsrAll (c : Cond) (spsr : Bool) (rm : Reg) (s : State) : Outcome :=
  conditionally c s
    (refuseIf (rm == 15) .psrTransferR15
      (if spsr then writeWholeSpsr (s.readReg .rm 8 rm) s else writeWholeCpsr (s.readReg .rm 8 rm) s))

/-- MSR, register to PSR flags (`43_psr_transfer.md` R254). -/
def execMsrFlags (c : Cond) (spsr : Bool) (rm : Reg) (s : State) : Outcome :=
  conditionally c s
    (refuseIf (rm == 15) .psrTransferR15 (writePsrFlags spsr (s.readReg .rm 8 rm) s))

/-- MSR, immediate to PSR flags (`43_psr_transfer.md` R255). -/
def execMsrFlagsImm (c : Cond) (spsr : Bool) (rot : BitVec 4) (imm : Byte) (s : State) : Outcome :=
  conditionally c s (writePsrFlags spsr (rotatedImmediate s.cpsr.c rot imm).value s)

end Sys2Proof.Machine
end

