-- ==== Sys2Proof/Machine/Swap.lean ====
section
/-! DEFINITION. Single data swap: SWP and SWPB (`47_swap.md`). -/

namespace Sys2Proof.Machine

/-- An access of a swap, locked (`47_swap.md` R342, R345). -/
def State.swapAccess (s : State) (addr : Word) (size : Size) (write : Bool) : Access :=
  { s.dataAccess addr size write with lock := true }

/-- SWP and SWPB after their restrictions (`47_swap.md` R342 to R344): a read, then a write, with no register written
if either aborts; whether an aborted read is followed by the write is free. -/
def swapSingle (size : Size) (rn rd rm : Reg) (s : State) : Outcome :=
  let addr := s.readReg .rn 8 rn
  let source := s.readReg .rm 8 rm
  let reading := s.swapAccess addr size false
  let writing := s.swapAccess addr size true
  let t := s.load reading
  if s.aborts reading then
    .next (((if Config.swapWritten s.drawIndex then t.store writing source else t).spend
      ⟨2, 1, 1, 0⟩).raiseDataAbort)
  else if s.aborts writing then .next (((t.store writing source).spend ⟨2, 1, 1, 0⟩).raiseDataAbort)
  else .next (((t.store writing source).writeReg rd (s.loaded reading)).advance ⟨2, 1, 1, 0⟩)

/-- SWP (`47_swap.md` R342, R341). -/
def execSwp (c : Cond) (rn rd rm : Reg) (s : State) : Outcome :=
  conditionally c s (refuseIf (rn == 15 || rd == 15 || rm == 15) .swapR15 (swapSingle .word rn rd rm s))

/-- SWPB (`47_swap.md` R343, R341). -/
def execSwpb (c : Cond) (rn rd rm : Reg) (s : State) : Outcome :=
  conditionally c s (refuseIf (rn == 15 || rd == 15 || rm == 15) .swapR15 (swapSingle .byte rn rd rm s))

end Sys2Proof.Machine
end

