-- ==== Sys2Proof/Machine/Dispatch.lean ====
section
/-! DEFINITION. The dispatch: one direct call for each constructor of `Instr`. -/

namespace Sys2Proof.Machine

def exec (i : Instr) (s : State) : Host.Outcome State Fault Refusal :=
  match i with
  | .andImm c sf rn rd rot imm => Sys2Proof.Machine.execAndImm c sf rn rd rot imm s
  | .andReg c sf rn rd amt ty rm => Sys2Proof.Machine.execAndReg c sf rn rd amt ty rm s
  | .andRsr c sf rn rd rs ty rm => Sys2Proof.Machine.execAndRsr c sf rn rd rs ty rm s
  | .eorImm c sf rn rd rot imm => Sys2Proof.Machine.execEorImm c sf rn rd rot imm s
  | .eorReg c sf rn rd amt ty rm => Sys2Proof.Machine.execEorReg c sf rn rd amt ty rm s
  | .eorRsr c sf rn rd rs ty rm => Sys2Proof.Machine.execEorRsr c sf rn rd rs ty rm s
  | .subImm c sf rn rd rot imm => Sys2Proof.Machine.execSubImm c sf rn rd rot imm s
  | .subReg c sf rn rd amt ty rm => Sys2Proof.Machine.execSubReg c sf rn rd amt ty rm s
  | .subRsr c sf rn rd rs ty rm => Sys2Proof.Machine.execSubRsr c sf rn rd rs ty rm s
  | .rsbImm c sf rn rd rot imm => Sys2Proof.Machine.execRsbImm c sf rn rd rot imm s
  | .rsbReg c sf rn rd amt ty rm => Sys2Proof.Machine.execRsbReg c sf rn rd amt ty rm s
  | .rsbRsr c sf rn rd rs ty rm => Sys2Proof.Machine.execRsbRsr c sf rn rd rs ty rm s
  | .addImm c sf rn rd rot imm => Sys2Proof.Machine.execAddImm c sf rn rd rot imm s
  | .addReg c sf rn rd amt ty rm => Sys2Proof.Machine.execAddReg c sf rn rd amt ty rm s
  | .addRsr c sf rn rd rs ty rm => Sys2Proof.Machine.execAddRsr c sf rn rd rs ty rm s
  | .adcImm c sf rn rd rot imm => Sys2Proof.Machine.execAdcImm c sf rn rd rot imm s
  | .adcReg c sf rn rd amt ty rm => Sys2Proof.Machine.execAdcReg c sf rn rd amt ty rm s
  | .adcRsr c sf rn rd rs ty rm => Sys2Proof.Machine.execAdcRsr c sf rn rd rs ty rm s
  | .sbcImm c sf rn rd rot imm => Sys2Proof.Machine.execSbcImm c sf rn rd rot imm s
  | .sbcReg c sf rn rd amt ty rm => Sys2Proof.Machine.execSbcReg c sf rn rd amt ty rm s
  | .sbcRsr c sf rn rd rs ty rm => Sys2Proof.Machine.execSbcRsr c sf rn rd rs ty rm s
  | .rscImm c sf rn rd rot imm => Sys2Proof.Machine.execRscImm c sf rn rd rot imm s
  | .rscReg c sf rn rd amt ty rm => Sys2Proof.Machine.execRscReg c sf rn rd amt ty rm s
  | .rscRsr c sf rn rd rs ty rm => Sys2Proof.Machine.execRscRsr c sf rn rd rs ty rm s
  | .tstImm c rn rd rot imm => Sys2Proof.Machine.execTstImm c rn rd rot imm s
  | .tstReg c rn rd amt ty rm => Sys2Proof.Machine.execTstReg c rn rd amt ty rm s
  | .tstRsr c rn rd rs ty rm => Sys2Proof.Machine.execTstRsr c rn rd rs ty rm s
  | .teqImm c rn rd rot imm => Sys2Proof.Machine.execTeqImm c rn rd rot imm s
  | .teqReg c rn rd amt ty rm => Sys2Proof.Machine.execTeqReg c rn rd amt ty rm s
  | .teqRsr c rn rd rs ty rm => Sys2Proof.Machine.execTeqRsr c rn rd rs ty rm s
  | .cmpImm c rn rd rot imm => Sys2Proof.Machine.execCmpImm c rn rd rot imm s
  | .cmpReg c rn rd amt ty rm => Sys2Proof.Machine.execCmpReg c rn rd amt ty rm s
  | .cmpRsr c rn rd rs ty rm => Sys2Proof.Machine.execCmpRsr c rn rd rs ty rm s
  | .cmnImm c rn rd rot imm => Sys2Proof.Machine.execCmnImm c rn rd rot imm s
  | .cmnReg c rn rd amt ty rm => Sys2Proof.Machine.execCmnReg c rn rd amt ty rm s
  | .cmnRsr c rn rd rs ty rm => Sys2Proof.Machine.execCmnRsr c rn rd rs ty rm s
  | .orrImm c sf rn rd rot imm => Sys2Proof.Machine.execOrrImm c sf rn rd rot imm s
  | .orrReg c sf rn rd amt ty rm => Sys2Proof.Machine.execOrrReg c sf rn rd amt ty rm s
  | .orrRsr c sf rn rd rs ty rm => Sys2Proof.Machine.execOrrRsr c sf rn rd rs ty rm s
  | .movImm c sf rn rd rot imm => Sys2Proof.Machine.execMovImm c sf rn rd rot imm s
  | .movReg c sf rn rd amt ty rm => Sys2Proof.Machine.execMovReg c sf rn rd amt ty rm s
  | .movRsr c sf rn rd rs ty rm => Sys2Proof.Machine.execMovRsr c sf rn rd rs ty rm s
  | .bicImm c sf rn rd rot imm => Sys2Proof.Machine.execBicImm c sf rn rd rot imm s
  | .bicReg c sf rn rd amt ty rm => Sys2Proof.Machine.execBicReg c sf rn rd amt ty rm s
  | .bicRsr c sf rn rd rs ty rm => Sys2Proof.Machine.execBicRsr c sf rn rd rs ty rm s
  | .mvnImm c sf rn rd rot imm => Sys2Proof.Machine.execMvnImm c sf rn rd rot imm s
  | .mvnReg c sf rn rd amt ty rm => Sys2Proof.Machine.execMvnReg c sf rn rd amt ty rm s
  | .mvnRsr c sf rn rd rs ty rm => Sys2Proof.Machine.execMvnRsr c sf rn rd rs ty rm s
  | .mrs c spsr rd => Sys2Proof.Machine.execMrs c spsr rd s
  | .msrAll c spsr rm => Sys2Proof.Machine.execMsrAll c spsr rm s
  | .msrFlags c spsr rm => Sys2Proof.Machine.execMsrFlags c spsr rm s
  | .msrFlagsImm c spsr rot imm => Sys2Proof.Machine.execMsrFlagsImm c spsr rot imm s
  | .mul c sf rd rn rs rm => Sys2Proof.Machine.execMul c sf rd rn rs rm s
  | .mla c sf rd rn rs rm => Sys2Proof.Machine.execMla c sf rd rn rs rm s
  | .ldrImm c p u w rn rd off => Sys2Proof.Machine.execLdrImm c p u w rn rd off s
  | .ldrReg c p u w rn rd amt ty rm => Sys2Proof.Machine.execLdrReg c p u w rn rd amt ty rm s
  | .ldrbImm c p u w rn rd off => Sys2Proof.Machine.execLdrbImm c p u w rn rd off s
  | .ldrbReg c p u w rn rd amt ty rm => Sys2Proof.Machine.execLdrbReg c p u w rn rd amt ty rm s
  | .strImm c p u w rn rd off => Sys2Proof.Machine.execStrImm c p u w rn rd off s
  | .strReg c p u w rn rd amt ty rm => Sys2Proof.Machine.execStrReg c p u w rn rd amt ty rm s
  | .strbImm c p u w rn rd off => Sys2Proof.Machine.execStrbImm c p u w rn rd off s
  | .strbReg c p u w rn rd amt ty rm => Sys2Proof.Machine.execStrbReg c p u w rn rd amt ty rm s
  | .undefined c hi lo => Sys2Proof.Machine.execUndefined c hi lo s
  | .ldm c p u sb w rn list => Sys2Proof.Machine.execLdm c p u sb w rn list s
  | .stm c p u sb w rn list => Sys2Proof.Machine.execStm c p u sb w rn list s
  | .b c off => Sys2Proof.Machine.execB c off s
  | .bl c off => Sys2Proof.Machine.execBl c off s
  | .swp c rn rd rm => Sys2Proof.Machine.execSwp c rn rd rm s
  | .swpb c rn rd rm => Sys2Proof.Machine.execSwpb c rn rd rm s
  | .swi c comment => Sys2Proof.Machine.execSwi c comment s
  | .cdp c opc crn crd cp info crm => Sys2Proof.Machine.execCdp c opc crn crd cp info crm s
  | .ldc c p u n w rn crd cp off => Sys2Proof.Machine.execLdc c p u n w rn crd cp off s
  | .stc c p u n w rn crd cp off => Sys2Proof.Machine.execStc c p u n w rn crd cp off s
  | .mrc c opc crn rd cp info crm => Sys2Proof.Machine.execMrc c opc crn rd cp info crm s
  | .mcr c opc crn rd cp info crm => Sys2Proof.Machine.execMcr c opc crn rd cp info crm s

end Sys2Proof.Machine
end

