-- ==== Sys2Proof/Machine/Step.lean ====
section
/-! DEFINITION. One step of the machine (`00_scope.md` R10), and an instruction placed where the next step fetches. -/

namespace Sys2Proof.Machine

/-- One step: what the boundary comes to, with the instruction it finds executed, and the inputs of the next step. -/
def step (s : State) : Host.Outcome State Fault Refusal :=
  match boundary s with
  | .over o => settled o
  | .run i t => settled (exec i t)

/-- The state with a word at `pc`, in the byte order of the state, whatever lies there, and nothing in the way of the
next step fetching and executing it: the pipeline empty, `nRESET` high, no interrupt pending, the fetch not aborted. A
word of 32 bits is the longest instruction (log entry 38). -/
def State.withFetchWord (s : State) (nbits w : Nat) : State :=
  { s with
    mem := Memory.putWord (fun _ => true) s.bigend s.mem s.pc (BitVec.ofNat 32 (w % 2 ^ nbits))
    pipe := []
    resetCycles := 0
    inputs := { s.inputs with
      resetLow := false
      fiq := false
      irq := false
      answers := s.wordAnswers s.pc (BitVec.ofNat 32 (w % 2 ^ nbits)) ++ s.inputs.answers
      aborts := s.inputs.aborts.filter fun r => !r.covers (s.fetchAccess s.pc) } }

end Sys2Proof.Machine
end

