-- ==== Sys2Proof/Safety.lean ====
section
/-! DEFINITION. What counts as a safe step, and when a run has ended (`70_reset_and_hazards.md` R490). -/

namespace Sys2Proof.Machine

/-- The step gives a next state: no fault, no refusal. -/
def StepsSafely (s : State) : Prop := ∃ t, step s = .next t

/-- Two states agree in what the processor holds (`10_state.md`): registers, pc, CPSR, SPSRs and memory, with the
pipeline (R47), the hazard mark and the reset count. -/
def SameArchitecture (s t : State) : Prop :=
  t.regs = s.regs ∧ t.pc = s.pc ∧ t.cpsr = s.cpsr ∧ t.spsr = s.spsr ∧ t.mem = s.mem ∧ t.pipe = s.pipe ∧
    t.hazard = s.hazard ∧ t.resetCycles = s.resetCycles

/-- The state after `n` steps, if each of them gives a next state (`70_reset_and_hazards.md` R490: the run). -/
def runFor : Nat → State → Option State
  | 0, s => some s
  | n + 1, s =>
    match step s with
    | .next t => runFor n t
    | .fault _ => none
    | .refused _ => none

/-- A run has ended (`70_reset_and_hazards.md` R490): under the inputs its schedule still offers, every later state
agrees with this one in what the processor holds. A step that merely changes nothing while a later one does (a
coprocessor that is busy, a branch whose word in memory is no longer the one fetched) does not end a run. -/
def Ended (s : State) : Prop := ∀ n, ∃ t, runFor n s = some t ∧ SameArchitecture s t

/-- Whether an access reaches the byte at an address (`20_memory.md` R78 to R81): a word access its aligned word. -/
def Access.reaches (acc : Access) (a : Word) : Bool :=
  match acc.size with
  | .word => wordAddr a == wordAddr acc.addr
  | .byte => a == acc.addr

/-- The byte a store of `v` leaves at an address it reaches, if it can be written there (`20_memory.md` R80, R81). -/
def storedByte (big : Bool) (acc : Access) (v a : Word) : Byte :=
  match acc.size with
  | .word => byteOf big v (field a 0 2).toNat
  | .byte => v.lowByte

/-- Every general register but R15 is kept, save the registers `rs` of the bank of mode `m`. -/
def KeepsRegs (s t : State) (m : Mode) (rs : List Reg) : Prop :=
  ∀ n q, q ≠ 15 → (∀ r ∈ rs, slot n q ≠ slot m r) → t.bankReg n q = s.bankReg n q

/-- Every byte of the storage is kept. -/
def KeepsMemory (s t : State) : Prop := ∀ a, t.byteAt a = s.byteAt a

/-- Every byte of the storage is kept, save those the access reaches. -/
def KeepsMemoryBut (s t : State) (acc : Access) : Prop := ∀ a, acc.reaches a = false → t.byteAt a = s.byteAt a

/-- Every byte the access reaches takes its byte of `v`, where the memory map lets it be written (`20_memory.md` R80,
R81, R91). -/
def Stored (s t : State) (acc : Access) (v : Word) : Prop :=
  ∀ a, acc.reaches a = true → t.byteAt a = if s.writable a then storedByte s.bigend acc v a else s.byteAt a

/-- The byte order, the memory map, the inputs, the reset count and the number of the step are kept, so that a read of a
byte finds what it found wherever the storage is kept. -/
def KeepsOutside (s t : State) : Prop :=
  t.bigend = s.bigend ∧ t.memoryMap = s.memoryMap ∧ t.inputs = s.inputs ∧ t.schedule = s.schedule ∧
    t.resetCycles = s.resetCycles ∧ t.drawIndex = s.drawIndex

/-- The instruction ends with the next one in order, having taken the cycles `k` (`10_state.md` R33). -/
def GoesOn (s t : State) (k : Cycles) : Prop :=
  t.pc = s.pc + 4 ∧ t.pipe = s.pipe.tail ∧ t.hazard = false ∧ t.cycles = s.cycles.add k ∧ KeepsOutside s t

/-- The instruction ends with a write of R15, having taken the cycles `k` (`10_state.md` R32). -/
def GoesTo (s t : State) (target : Word) (k : Cycles) : Prop :=
  t.pc = target &&& 0xFFFFFFFC#32 ∧ t.pipe = [] ∧ t.hazard = false ∧ t.cycles = s.cycles.add k ∧ KeepsOutside s t

/-- `t` is `s` with the exception `x` entered and `ret` saved (`60_exceptions.md` R405). -/
def Entered (x : Exception) (ret : Word) (s t : State) : Prop :=
  t.bankReg x.mode 14 = ret ∧ t.savedOf x.mode = some s.cpsr.save ∧
    t.cpsr = { s.cpsr with mode := x.mode, i := true, f := s.cpsr.f || x.setsF } ∧ t.pc = x.vector ∧ t.pipe = [] ∧
    t.hazard = false ∧ KeepsRegs s t x.mode [14] ∧ (∀ m, m ≠ x.mode → t.savedOf m = s.savedOf m) ∧
    KeepsMemory s t ∧ t.bigend = s.bigend ∧ t.memoryMap = s.memoryMap ∧ t.resetCycles = s.resetCycles

/-- `nRESET` is high and has been so since the last reset, and no enabled interrupt is pending (`00_scope.md` R10). -/
def Undisturbed (s : State) : Prop :=
  s.inputs.resetLow = false ∧ s.resetCycles = 0 ∧ (s.inputs.fiq && !s.cpsr.f) = false ∧
    (s.inputs.irq && !s.cpsr.i) = false

/-- `f` is the word the next step examines: the head of the pipeline, or, when it is empty, the word at `pc`
(`10_state.md` R47, `20_memory.md` R77). -/
def NextWord (s : State) (f : Fetched) : Prop :=
  (s.pipe = [] ∧ f = ⟨s.wordAt s.pc, s.aborts (s.fetchAccess s.pc)⟩) ∨ ∃ rest, s.pipe = f :: rest

/-- What holds in every state a run reaches: memory in its canonical form, the pc a multiple of 4 (`10_state.md` R30),
at most three words fetched (R47), and the hazard mark only in a privileged mode (`46_block_data_transfer.md`
R318). -/
def Invariant (s : State) : Prop :=
  Memory.wf s.mem = true ∧ field s.pc 0 2 = 0 ∧ s.pipe.length ≤ 3 ∧ (s.hazard = true → s.cpsr.mode ≠ .usr)

/-! ### Words the claims share -/

/-- What a write of `v` to the register `r` of the current mode leaves there (`10_state.md` R24): `v`, or a free value
under the hazard of `70_reset_and_hazards.md` R470 (log entry 15). -/
def Landed (s t : State) (r : Reg) (v : Word) : Prop :=
  t.bankReg s.cpsr.mode r = if s.inHazard r then Config.hazardWrite s.drawIndex r else v

/-- Every SPSR and every general register is kept, save the registers `rs` of the current mode. -/
def OnlyRegs (s t : State) (rs : List Reg) : Prop := KeepsRegs s t s.cpsr.mode rs ∧ t.spsr = s.spsr

/-- No data access: memory and the trace are kept. -/
def NoAccess (s t : State) : Prop := KeepsMemory s t ∧ t.bus = s.bus

/-- `t` is `s` with the exception `x` entered and `ret` saved, after the registers `rs` of the bank of mode `b` may have
changed; nothing is said of memory (`60_exceptions.md` R405). -/
def Trapped (x : Exception) (ret : Word) (s t : State) (b : Mode) (rs : List Reg) : Prop :=
  t.bankReg x.mode 14 = ret ∧ t.savedOf x.mode = some s.cpsr.save ∧
    t.cpsr = { s.cpsr with mode := x.mode, i := true, f := s.cpsr.f || x.setsF } ∧ t.pc = x.vector ∧ t.pipe = [] ∧
    t.hazard = false ∧
    (∀ n q, q ≠ 15 → slot n q ≠ slot x.mode 14 → (∀ r ∈ rs, slot n q ≠ slot b r) →
      t.bankReg n q = s.bankReg n q) ∧
    (∀ m, m ≠ x.mode → t.savedOf m = s.savedOf m) ∧ KeepsOutside s t

/-- The memory access of an event, if it is one; of the address of a fetch, whose A[1:0] are free (log entry 45), the
word. -/
def BusEvent.made : BusEvent → Option Access
  | .access acc _ _ _ => some { acc with addr := if acc.opcode then wordAddr acc.addr else acc.addr }
  | .offer _ _ _ => none
  | .coprocOperation _ _ => none
  | .coprocLoad _ _ _ => none
  | .coprocRead _ _ => none
  | .coprocWrite _ _ => none

/-- The trace has grown by events whose memory accesses are the given ones, in order (`20_memory.md` R88). -/
def Made (s t : State) (accs : List Access) : Prop :=
  ∃ es, t.bus = s.bus ++ es ∧ es.filterMap BusEvent.made = accs

/-- The fetch in the old mode that a data abort begins with (Table 15, cycle 1, `48_swi_undefined.md` R354). -/
def State.abortFetch (s : State) : Access := s.fetchAccess (wordAddr (s.pc + 12))

/-- The three forms of operand 2 (`42_data_processing.md` R191, R198, R199). -/
inductive OperandForm
  | imm (rot : BitVec 4) (imm : Byte)
  | reg (amt : BitVec 5) (ty : Shift) (rm : Reg)
  | rsr (rs : Reg) (ty : Shift) (rm : Reg)
deriving DecidableEq, Repr

/-- The data processing instruction with an operand 2: one of the 48 constructors. -/
def OperandForm.instr (op : AluOp) (c : Cond) (sf : Bool) (rn rd : Reg) : OperandForm → Instr
  | .imm rot v => .dataImm op c sf rn rd rot v
  | .reg amt ty rm => .dataReg op c sf rn rd amt ty rm
  | .rsr rs ty rm => .dataRsr op c sf rn rd rs ty rm

/-- The shift amount is not in R15 (`42_data_processing.md` R210). -/
def OperandForm.legal : OperandForm → Bool
  | .imm _ _ => true
  | .reg _ _ _ => true
  | .rsr rs _ _ => rs != 15

/-- How far past the instruction R15 reads (`42_data_processing.md` R205). -/
def OperandForm.ahead : OperandForm → Word
  | .imm _ _ => 8
  | .reg _ _ _ => 8
  | .rsr _ _ _ => 12

/-- The internal cycles of the form (`42_data_processing.md` R211). -/
def OperandForm.internal : OperandForm → Nat
  | .imm _ _ => 0
  | .reg _ _ _ => 0
  | .rsr _ _ _ => 1

/-- Operand 2 and the shifter carry (`42_data_processing.md` R191 to R199). -/
def OperandForm.second (s : State) : OperandForm → Operand2
  | .imm rot v => rotatedImmediate s.cpsr.c rot v
  | .reg amt ty rm => shiftByImmediate s.cpsr.c ty amt (s.readReg .rm 8 rm)
  | .rsr rs ty rm => shiftByRegister s.cpsr.c ty (s.readReg .rs 12 rs).lowByte (s.readReg .rm 12 rm)

/-- The result and flags of a data processing instruction (`42_data_processing.md` R201). -/
def OperandForm.outcome (o : OperandForm) (op : AluOp) (rn : Reg) (s : State) : AluOut :=
  alu op (s.readReg .rn o.ahead rn) (o.second s).value s.cpsr.c (o.second s).carry s.cpsr.v

/-- The two forms of the offset of a single data transfer (`45_single_data_transfer.md` R281). -/
inductive OffsetForm
  | imm (off : BitVec 12)
  | reg (amt : BitVec 5) (ty : Shift) (rm : Reg)
deriving DecidableEq, Repr

/-- The single data transfer with an offset: one of the eight constructors. -/
def OffsetForm.instr (load byte : Bool) (c : Cond) (p u w : Bool) (rn rd : Reg) : OffsetForm → Instr
  | .imm off => .transferImm load byte c p u w rn rd off
  | .reg amt ty rm => .transferReg load byte c p u w rn rd amt ty rm

/-- The offset register is not R15 (`45_single_data_transfer.md` R299). -/
def OffsetForm.legal : OffsetForm → Bool
  | .imm _ => true
  | .reg _ _ rm => rm != 15

/-- The offset (`45_single_data_transfer.md` R281, R283). -/
def OffsetForm.value (s : State) : OffsetForm → Word
  | .imm off => off.setWidth 32
  | .reg amt ty rm => (shiftByImmediate s.cpsr.c ty amt (s.readReg .rm 8 rm)).value

/-- The width of a transfer by its B bit. -/
def widthOf (byte : Bool) : Size := if byte then .byte else .word

/-- The access of a single data transfer (`45_single_data_transfer.md` R281, R286). -/
def OffsetForm.access (o : OffsetForm) (load byte p u w : Bool) (rn : Reg) (s : State) : Access :=
  ⟨transferAddress p u (s.readReg .rn 8 rn) (o.value s), widthOf byte, !load, false, s.privileged && (p || !w),
    s.cpsr.mode, false⟩

/-- The base as the transfer modifies it (`45_single_data_transfer.md` R281). -/
def OffsetForm.modified (o : OffsetForm) (u : Bool) (rn : Reg) (s : State) : Word :=
  if u then s.readReg .rn 8 rn + o.value s else s.readReg .rn 8 rn - o.value s

/-- The register that a write-back changes, if there is one. -/
def baseList (writes : Bool) (rn : Reg) : List Reg := if writes then [rn] else []

/-- The address of the `k`-th word of a transfer of words (`46_block_data_transfer.md` R312, `49_coprocessor.md`
R370). -/
def wordPlace (start : Word) (k : Nat) : Word := start + wordBytes k

/-- The word access of the current mode at an address (`20_memory.md` R78, R80). -/
def State.wordAccess (s : State) (addr : Word) (write : Bool) : Access :=
  ⟨addr, .word, write, false, s.privileged, s.cpsr.mode, false⟩

/-- The first address of a block transfer in a state (`46_block_data_transfer.md` R312). -/
def State.blockAt (s : State) (p u : Bool) (rn : Reg) (list : BitVec 16) : Word :=
  blockStart p u (s.readReg .rn 8 rn) (countOf list)

/-- The base after a block transfer with write-back (`46_block_data_transfer.md` R312). -/
def State.blockEnd (s : State) (u : Bool) (rn : Reg) (list : BitVec 16) : Word :=
  if u then s.readReg .rn 8 rn + wordBytes (countOf list) else s.readReg .rn 8 rn - wordBytes (countOf list)

/-- `n` word accesses from `start` on, 4 bytes apart (`20_memory.md` R88). -/
def State.wordAccesses (s : State) (start : Word) (n : Nat) (write : Bool) : List Access :=
  (List.range n).map fun k => s.wordAccess (wordPlace start k) write

/-- The registers of a list but R15. -/
def listed (list : BitVec 16) : List Reg := (regsOf list).filter fun r => r != 15

/-- None of `n` word accesses from `start` on aborts. -/
def NoneAborts (s : State) (write : Bool) (n : Nat) (start : Word) : Prop :=
  ∀ k < n, s.aborts (s.wordAccess (wordPlace start k) write) = false

/-- Memory after `n` word writes from `start` on, the `k`-th of `v k`: each word that did not abort is written where the
memory map lets it be, every other byte is kept (`20_memory.md` R80, R87). -/
def WordsStored (s t : State) (start : Word) (n : Nat) (v : Nat → Word) : Prop :=
  (∀ k < n, ∀ a, wordAddr a = wordAddr (wordPlace start k) →
    t.byteAt a =
      if s.aborts (s.wordAccess (wordPlace start k) true) = true ∨ s.writable a = false then s.byteAt a
      else byteOf s.bigend (v k) (field a 0 2).toNat) ∧
  ∀ a, (∀ k < n, wordAddr a ≠ wordAddr (wordPlace start k)) → t.byteAt a = s.byteAt a

/-! ### The forms the spec restricts in some states -/

/-- The forms the spec forbids in User mode (`93_implementation_defined.md` U2, U5, U13): a result to R15 with S = 1,
MRS and MSR of an SPSR, LDM and STM with S = 1. -/
def ForbiddenInUserMode (i : Instr) : Prop :=
  (∃ op c rn o, op.isTest = false ∧ i = OperandForm.instr op c true rn 15 o) ∨
  (∃ c rd, i = .mrs c true rd) ∨ (∃ c rm, i = .msrAll c true rm ∨ i = .msrFlags c true rm) ∨
  (∃ c rot imm, i = .msrFlagsImm c true rot imm) ∨
  ∃ c p u w rn list, i = .ldm c p u true w rn list ∨ i = .stm c p u true w rn list

/-- The forms that write the mode of a word to a PSR (`43_psr_transfer.md` R253), the word naming no mode of Table 2
(`93_implementation_defined.md` U3). -/
def WritesIllegalMode (i : Instr) (s : State) : Prop :=
  ∃ c spsr rm, i = .msrAll c spsr rm ∧ Mode.ofBits (field (s.readReg .rm 8 rm) 0 5) = none

/-- The forms that restore the CPSR (`42_data_processing.md` R207, R214, `46_block_data_transfer.md` R319): a result to
R15 with S = 1, a test with Rd = R15, LDM with S = 1 and R15 in the list. -/
def RestoresCpsr (i : Instr) : Prop :=
  (∃ op c sf rn o, (op.isTest = true ∨ sf = true) ∧ i = OperandForm.instr op c sf rn 15 o) ∨
  ∃ c p u w rn list, list.getLsbD 15 = true ∧ i = .ldm c p u true w rn list

/-- The SPSR of the current mode names no mode of Table 2 (`93_implementation_defined.md` U3). -/
def SavesIllegalMode (s : State) : Prop := ∃ p, s.savedOf s.cpsr.mode = some p ∧ Mode.ofBits p.m = none

end Sys2Proof.Machine
end

