-- ==== Sys2Proof/Certificates/Slice0/Obligations.lean ====
section
/-! DEFINITION. The statements for the provers. -/

open Sys2Proof Sys2Proof.Machine

/-- `30_encoding.md` R121, R123: every instruction, with every operand at every value its fields admit, is read back
from its word. -/
def Obligations.DecodeInvertsEncode : Prop :=
  ∀ i : Instr, decode (encode i) = .ok i

/-- `30_encoding.md` R121, R123: a word that decodes is the word of the instruction it decodes to, so no two words are
one instruction and no bit of a word is dropped. -/
def Obligations.EncodeInvertsDecode : Prop :=
  ∀ (w : Word) (i : Instr), decode w = .ok i → encode i = w

/-- `30_encoding.md` R125, R123, R139: the unallocated words are exactly U1, U2 and U3, said in bits. -/
def Obligations.UnallocatedWordsAreU1U2U3 : Prop :=
  ∀ w : Word,
    (decode w = .error .unallocatedU1 ↔
      w &&& 0x0E000090#32 = 0x00000090#32 ∧ w &&& 0x00000060#32 ≠ 0) ∧
    (decode w = .error .unallocatedU2 ↔
      w &&& 0x0E0000F0#32 = 0x00000090#32 ∧ w &&& 0x0FC000F0#32 ≠ 0x00000090#32 ∧
        w &&& 0x0FB00FF0#32 ≠ 0x01000090#32) ∧
    (decode w = .error .unallocatedU3 ↔
      w &&& 0x0D900000#32 = 0x01000000#32 ∧ w &&& 0x0E000090#32 ≠ 0x00000090#32 ∧
        w &&& 0x0FBF0FFF#32 ≠ 0x010F0000#32 ∧ w &&& 0x0FBFFFF0#32 ≠ 0x0129F000#32 ∧
        w &&& 0x0FBFFFF0#32 ≠ 0x0128F000#32 ∧ w &&& 0x0FBFF000#32 ≠ 0x0328F000#32) ∧
    decode w ≠ .error .truncated

/-- `30_encoding.md` R121, `95_test_vectors.md`: words the spec writes out decode to the instructions it gives them. -/
def Obligations.SpecWordsDecode : Prop :=
  decode 0xEAFFFFFE#32 = .ok (.b .al 0xFFFFFE#24) ∧
  decode 0x00842005#32 = .ok (.addReg .eq false 4 2 0 .lsl 5) ∧
  decode 0xE0454237#32 = .ok (.subRsr .al false 5 4 2 .lsr 7) ∧
  decode 0xE3340003#32 = .ok (.teqImm .al 4 0 0 3) ∧
  decode 0xE129F000#32 = .ok (.msrAll .al false 0) ∧
  decode 0x00314392#32 = .ok (.mla .eq true 1 4 3 2) ∧
  decode 0xE7921103#32 = .ok (.ldrReg .al true true false 2 1 2 .lsl 3) ∧
  decode 0xE8BD0007#32 = .ok (.ldm .al false true false true 13 7) ∧
  decode 0xE1020091#32 = .ok (.swp .al 2 0 1) ∧
  decode 0x1F000000#32 = .ok (.swi .ne 0) ∧
  decode 0xE7F000F0#32 = .ok (.undefined .al 0xF8007#20 0) ∧
  decode 0xEEB53216#32 = .ok (.mrc .al 5 5 3 2 0 6)

/-- `00_scope.md` R10: an undisturbed step whose next word did not abort and decodes to `i` executes `i` on the state
with the pipeline filled, and then takes the next inputs. When the pipeline is filled is the model's choice (log
entry 10). -/
def Obligations.StepRunsDecodedInstruction : Prop :=
  ∀ (s : State) (f : Fetched) (i : Instr), Undisturbed s → NextWord s f → f.aborted = false → decode f.word = .ok i →
    ∃ b : State, step s = settled (exec i b) ∧
      b = { s with pipe := b.pipe, bus := b.bus } ∧ b.pipe.head? = some f ∧ s.pipe <+: b.pipe ∧
      (s.pipe.length ≤ 3 → b.pipe.length = 3) ∧ (s.pipe.length = 3 → b.bus = [])

/-- `30_encoding.md` R125, `40_condition_execution.md` R172: an unallocated word is refused when its condition passes
and skipped when it fails. The refusal is the model's rendering of an effect the spec does not give (log entry 20). -/
def Obligations.UnallocatedCodeIsRefused : Prop :=
  ∀ (s : State) (f : Fetched) (e : DecodeError), Undisturbed s → NextWord s f → f.aborted = false →
    decode f.word = .error e →
    if condHolds (condOf f.word) s.cpsr then step s = .refused .unallocated
    else ∃ t, step s = .next t ∧ t.pc = s.pc + 4 ∧ t.regs = s.regs ∧ t.cpsr = s.cpsr ∧ t.spsr = s.spsr ∧ t.mem = s.mem

/-- `60_exceptions.md` R425: a word marked as aborted is not examined; the prefetch abort is entered, whatever its
condition (log entry 27), with the address of the instruction plus 4 in R14_abt. -/
def Obligations.PrefetchAbortIsTaken : Prop :=
  ∀ (s : State) (f : Fetched), Undisturbed s → NextWord s f → f.aborted = true →
    ∃ t, step s = .next t ∧ Entered .prefetchAbort (s.pc + 4) s t

/-- `60_exceptions.md` R404, R405, `20_memory.md` R91: the modes with their codes, the vectors, and which exceptions set
F. -/
def Obligations.ExceptionTable : Prop :=
  ∀ x : Exception, (x.mode, x.mode.bits, x.vector, x.setsF) =
    match x with
    | .reset => (.svc, 0b10011, 0x00, true)
    | .undefined => (.und, 0b11011, 0x04, false)
    | .swi => (.svc, 0b10011, 0x08, false)
    | .prefetchAbort => (.abt, 0b10111, 0x0C, false)
    | .dataAbort => (.abt, 0b10111, 0x10, false)
    | .irq => (.irq, 0b10010, 0x18, false)
    | .fiq => (.fiq, 0b10001, 0x1C, true)

/-- `48_swi_undefined.md` R351, R354: SWI completes by entering Supervisor mode; it makes no access. -/
def Obligations.SwiEntersSupervisor : Prop :=
  ∀ (c : Cond) (comment : BitVec 24) (s : State), condHolds c s.cpsr = true →
    ∃ t, exec (.swi c comment) s = .next t ∧ Entered .swi (s.pc + 4) s t ∧ t.bus = s.bus ∧
      t.cycles = s.cycles.add ⟨1, 2, 0, 0⟩ ∧ KeepsOutside s t

/-- `48_swi_undefined.md` R355, R356: the undefined class completes by the undefined instruction trap, whatever the
coprocessors would answer (the model's choice, log entry 34); the word is offered to them. -/
def Obligations.UndefinedClassTraps : Prop :=
  ∀ (c : Cond) (hi : BitVec 20) (lo : BitVec 4) (s : State), condHolds c s.cpsr = true →
    ∃ t, exec (.undefined c hi lo) s = .next t ∧ Entered .undefined (s.pc + 4) s t ∧
      t.bus = s.bus ++ [.offer (encode (.undefined c hi lo)) s.privileged s.cpsr.mode] ∧
      t.cycles = s.cycles.add ⟨1, 2, 1, 0⟩ ∧ KeepsOutside s t

/-- `60_exceptions.md` R421, R422, R415, R417: an enabled FIQ is taken before an IRQ, a prefetch abort and the next
instruction; an enabled IRQ, with no enabled FIQ pending, before a prefetch abort and the next instruction. When an
input is looked at is the model's choice (log entry 31). -/
def Obligations.InterruptsAreTaken : Prop :=
  ∀ s : State, s.inputs.resetLow = false → s.resetCycles = 0 →
    (s.inputs.fiq = true → s.cpsr.f = false → ∃ t, step s = .next t ∧ Entered .fiq (s.pc + 4) s t) ∧
    ((s.inputs.fiq && !s.cpsr.f) = false → s.inputs.irq = true → s.cpsr.i = false →
      ∃ t, step s = .next t ∧ Entered .irq (s.pc + 4) s t)

/-- `60_exceptions.md` R416: after the entry of a data abort with FIQ pending and enabled, the next step enters FIQ with
no instruction executed, and the abort's saved registers stay. The FIQ is the one that the inputs of that next step
hold (log entry 31). -/
def Obligations.DataAbortThenFiq : Prop :=
  ∀ (s t : State) (a : Word), Entered .dataAbort (a + 8) s t → s.cpsr.f = false → t.inputs.resetLow = false →
    t.resetCycles = 0 → t.inputs.fiq = true →
    ∃ u, step t = .next u ∧ u.bankReg .fiq 14 = 0x14 ∧ u.savedOf .fiq = some t.cpsr.save ∧ u.cpsr.mode = .fiq ∧
      u.cpsr.i = true ∧ u.cpsr.f = true ∧ u.pc = 0x1C ∧ u.bankReg .abt 14 = a + 8 ∧
      u.savedOf .abt = some s.cpsr.save ∧ KeepsMemory s u

/-- `60_exceptions.md` R440: the return instruction of each exception, executed right after its entry, gives back the
CPSR of the interrupted program, and the address the table names: the instruction itself for an abort or an
interrupt, the one after it for SWI and the undefined trap. No register but R14 of the mode entered has changed, nor
memory. -/
def Obligations.ReturnUndoesEntry : Prop :=
  ∀ s : State, field s.pc 0 2 = 0 →
    (∀ x ∈ [Exception.swi, .undefined],
      ∃ u, exec (.movReg .al true 0 15 0 .lsl 14) (s.raise x) = .next u ∧ u.pc = s.pc + 4 ∧ u.cpsr = s.cpsr ∧
        KeepsRegs s u x.mode [14] ∧ KeepsMemory s u) ∧
    (∀ x ∈ [Exception.fiq, .irq, .prefetchAbort],
      ∃ u, exec (.subImm .al true 14 15 0 4) (s.raise x) = .next u ∧ u.pc = s.pc ∧ u.cpsr = s.cpsr ∧
        KeepsRegs s u x.mode [14] ∧ KeepsMemory s u) ∧
    ∃ u, exec (.subImm .al true 14 15 0 8) s.raiseDataAbort = .next u ∧ u.pc = s.pc ∧ u.cpsr = s.cpsr ∧
      KeepsRegs s u .abt [14] ∧ KeepsMemory s u

/-- `70_reset_and_hazards.md` R460: a step with `nRESET` low executes no instruction and takes no exception; it makes
one dummy fetch from the next word address, A[1:0] free (log entry 45). That the next word is the one after those in
the pipeline is the model's choice (log entry 44). Memory is kept where the last step's trace holds no write (log entry
18 has the other case). -/
def Obligations.ResetLowOnlyFetches : Prop :=
  ∀ s : State, s.inputs.resetLow = true →
    let next := wordPlace s.pc s.pipe.length
    ∃ t, step s = .next t ∧ t.pc = next + 4 ∧ t.regs = s.regs ∧ t.cpsr = s.cpsr ∧ t.spsr = s.spsr ∧ t.pipe = [] ∧
      t.resetCycles = s.resetCycles + 1 ∧
      (∃ a d before ab, wordAddr a = wordAddr next ∧
        t.bus = [.access ⟨a, .word, false, true, s.privileged, s.cpsr.mode, false⟩ d before ab]) ∧
      ((s.resetCycles ≠ 0 ∨
        ∀ acc d b ab, BusEvent.access acc d b ab ∈ s.bus → acc.write = false ∨ ab = true) → t.mem = s.mem)

/-- `70_reset_and_hazards.md` R460, R461: when `nRESET` goes high after two cycles or more the machine is in Supervisor
mode with I and F set, about to fetch from address 0, memory untouched; after less than two it stops (log entry 30). The
entry's only access is a fetch in the old mode (`48_swi_undefined.md` R354), whose place is the model's choice (log
entry 44). -/
def Obligations.ResetReleased : Prop :=
  ∀ s : State, s.inputs.resetLow = false →
    (s.resetCycles = 1 → step s = .fault .resetPulseTooShort) ∧
    (2 ≤ s.resetCycles → ∃ t, step s = .next t ∧ t.pc = 0 ∧ t.cpsr.mode = .svc ∧ t.cpsr.i = true ∧ t.cpsr.f = true ∧
      t.pipe = [] ∧ t.mem = s.mem ∧ t.resetCycles = 0 ∧ t.bigend = s.bigend ∧
      ∃ a d before ab, wordAddr a = wordAddr (wordPlace s.pc s.pipe.length) ∧
        t.bus = [.access ⟨a, .word, false, true, s.privileged, s.cpsr.mode, false⟩ d before ab])

/-- `10_state.md` R50: the values the spec gives for reset. -/
def Obligations.ResetStateValues : Prop :=
  State.reset.pc = 0 ∧ State.reset.cpsr.mode = .svc ∧ State.reset.cpsr.i = true ∧ State.reset.cpsr.f = true ∧
    State.reset.pipe = [] ∧ State.reset.readReg .rn 8 15 = 8

/-- `10_state.md` R50, R30, R47: the invariant holds at reset; that memory lists nothing at reset is the model's choice
(log entry 3). -/
def Obligations.InvariantHoldsAtReset : Prop := Invariant State.reset

/-- `10_state.md` R30, R47, `46_block_data_transfer.md` R318: every step keeps the invariant: memory stays in its
canonical form (the model's own, log entry 3), the pc a multiple of 4, at most three words are fetched, and the
hazard mark stands only in a privileged mode. -/
def Obligations.EveryStepKeepsInvariant : Prop :=
  ∀ s t : State, Invariant s → step s = .next t → Invariant t

/-- `70_reset_and_hazards.md` R491, `00_scope.md` R10: every step keeps the byte order and the memory map, takes the
inputs of the next step and draws from a new index. The form of the map, of the inputs and the index are the model's
choice (log entries 7, 19, 46). -/
def Obligations.EveryStepTakesNextInputs : Prop :=
  ∀ s t : State, step s = .next t →
    t.bigend = s.bigend ∧ t.memoryMap = s.memoryMap ∧ t.drawIndex = s.drawIndex + 1 ∧
      (s.schedule = [] → t.inputs = s.inputs ∧ t.schedule = []) ∧
      ∀ x xs, s.schedule = x :: xs → t.inputs = x ∧ t.schedule = xs

/-- `40_condition_execution.md` R172: an instruction whose condition fails changes nothing but the pc, which moves to
the next instruction after one S cycle: no register, flag, PSR or memory location, no access, no exception. All 75
constructors. The condition is the one its top four bits name (R170, R171, R173): the table of the sixteen codes is
the spec's general knowledge (D21, log entry 29), and that NV never holds is its choice (log entry 21). -/
def Obligations.FailedConditionSkips : Prop :=
  (∀ (i : Instr) (s : State), condHolds (condOf (encode i)) s.cpsr = false →
    ∃ t, exec i s = .next t ∧ GoesOn s t ⟨0, 1, 0, 0⟩ ∧ OnlyRegs s t [] ∧ t.cpsr = s.cpsr ∧ NoAccess s t) ∧
  ∀ (w : Word) (p : Psr),
    condHolds (condOf w) p = true ↔
      ((field w 28 4 = 0b0000#4 ∧ p.z = true) ∨ (field w 28 4 = 0b0001#4 ∧ p.z = false) ∨
        (field w 28 4 = 0b0010#4 ∧ p.c = true) ∨ (field w 28 4 = 0b0011#4 ∧ p.c = false) ∨
        (field w 28 4 = 0b0100#4 ∧ p.n = true) ∨ (field w 28 4 = 0b0101#4 ∧ p.n = false) ∨
        (field w 28 4 = 0b0110#4 ∧ p.v = true) ∨ (field w 28 4 = 0b0111#4 ∧ p.v = false) ∨
        (field w 28 4 = 0b1000#4 ∧ p.c = true ∧ p.z = false) ∨
        (field w 28 4 = 0b1001#4 ∧ (p.c = false ∨ p.z = true)) ∨
        (field w 28 4 = 0b1010#4 ∧ p.n = p.v) ∨ (field w 28 4 = 0b1011#4 ∧ p.n ≠ p.v) ∨
        (field w 28 4 = 0b1100#4 ∧ p.z = false ∧ p.n = p.v) ∨
        (field w 28 4 = 0b1101#4 ∧ (p.z = true ∨ p.n ≠ p.v)) ∨ field w 28 4 = 0b1110#4)

/-- `10_state.md` R24, R31, `70_reset_and_hazards.md` R470: which registers of two modes are one physical register, seen
by writing one and reading the other: R0 to R7 are shared by all modes, R8 to R12 by all but FIQ, R13 and R14 by
none. As an operand R15 reads past the instruction; a banked register of the current mode right after a user-bank
LDM is a free value (log entry 14); every other register reads as it stands. -/
def Obligations.RegisterBanks : Prop :=
  (∀ (s : State) (m n : Mode) (r q : Reg) (v : Word), r ≠ 15 → q ≠ 15 →
    (s.setBank m r v).bankReg n q =
      if r = q ∧ (m = n ∨ r.val < 8 ∨ (r.val < 13 ∧ m ≠ .fiq ∧ n ≠ .fiq)) then v else s.bankReg n q) ∧
  ∀ (s : State) (port : Port) (ahead : Word) (r : Reg),
    s.readReg port ahead r =
      if r = 15 then s.pc + ahead
      else if s.hazard = true ∧ banked s.cpsr.mode r = true then Config.hazardRead s.drawIndex port r
      else s.bankReg s.cpsr.mode r

/-- `42_data_processing.md` R200: Table 4: the opcodes, the results and the kinds of the sixteen operations; `carry` is
the C flag before. -/
def Obligations.OperationTable : Prop :=
  ∀ (op : AluOp) (a b : Word) (c sc v : Bool),
    (alu op a b c sc v).result =
      (let carry : Word := if c then 1 else 0
       match op with
       | .and => a &&& b
       | .eor => a ^^^ b
       | .sub => a - b
       | .rsb => b - a
       | .add => a + b
       | .adc => a + b + carry
       | .sbc => a - b + carry - 1
       | .rsc => b - a + carry - 1
       | .tst => a &&& b
       | .teq => a ^^^ b
       | .cmp => a - b
       | .cmn => a + b
       | .orr => a ||| b
       | .mov => b
       | .bic => a &&& ~~~b
       | .mvn => ~~~b) ∧
    (op.isLogical = true ↔ op ∈ [AluOp.and, .eor, .tst, .teq, .orr, .mov, .bic, .mvn]) ∧
    (op.isTest = true ↔ op ∈ [AluOp.tst, .teq, .cmp, .cmn]) ∧
    op.bits =
      match op with
      | .and => 0b0000
      | .eor => 0b0001
      | .sub => 0b0010
      | .rsb => 0b0011
      | .add => 0b0100
      | .adc => 0b0101
      | .sbc => 0b0110
      | .rsc => 0b0111
      | .tst => 0b1000
      | .teq => 0b1001
      | .cmp => 0b1010
      | .cmn => 0b1011
      | .orr => 0b1100
      | .mov => 0b1101
      | .bic => 0b1110
      | .mvn => 0b1111

/-- `42_data_processing.md` R208: the flags of a logical operation. -/
def Obligations.LogicalFlags : Prop :=
  ∀ (op : AluOp) (a b : Word) (c sc v : Bool), op.isLogical = true →
    let r := alu op a b c sc v
    r.n = r.result.getLsbD 31 ∧ (r.z = true ↔ r.result = 0) ∧ r.c = sc ∧ r.v = v

/-- `42_data_processing.md` R209: the flags of an arithmetic operation, said with unbounded integers: N and Z are those
of the result, C is the carry out of bit 31, which after a subtraction means no borrow; V is that the signed result
does not fit. The sense of C after a subtraction is the spec's general knowledge (log entry 29). -/
def Obligations.ArithmeticFlags : Prop :=
  ∀ (op : AluOp) (a b : Word) (c sc v : Bool), op.isLogical = false →
    let r := alu op a b c sc v
    let fits (x : Int) : Prop := -2 ^ 31 ≤ x ∧ x < 2 ^ 31
    let k : Int := c.toNat
    r.n = r.result.getLsbD 31 ∧ (r.z = true ↔ r.result = 0) ∧
    (r.c = true ↔
      match op with
      | .add | .cmn => 2 ^ 32 ≤ a.toNat + b.toNat
      | .adc => 2 ^ 32 ≤ a.toNat + b.toNat + c.toNat
      | .sub | .cmp => b.toNat ≤ a.toNat
      | .rsb => a.toNat ≤ b.toNat
      | .sbc => b.toNat + 1 ≤ a.toNat + c.toNat
      | .rsc => a.toNat + 1 ≤ b.toNat + c.toNat
      | .and | .eor | .tst | .teq | .orr | .mov | .bic | .mvn => False) ∧
    (r.v = true ↔ ¬ fits
      (match op with
      | .add | .cmn => a.toInt + b.toInt
      | .adc => a.toInt + b.toInt + k
      | .sub | .cmp => a.toInt - b.toInt
      | .rsb => b.toInt - a.toInt
      | .sbc => a.toInt - b.toInt + k - 1
      | .rsc => b.toInt - a.toInt + k - 1
      | .and | .eor | .tst | .teq | .orr | .mov | .bic | .mvn => 0))

/-- `42_data_processing.md` R192 to R195: the instruction-specified shifts LSL, LSR and ASR, with LSL #0 the plain
register and LSR #0 and ASR #0 meaning #32. (ROR and RRX are in the next statement.) -/
def Obligations.ShiftByImmediate : Prop :=
  ∀ (c : Bool) (amt : BitVec 5) (m : Word),
    let n := amt.toNat
    (n = 0 → shiftByImmediate c .lsl amt m = ⟨m, c⟩) ∧
    (1 ≤ n → (shiftByImmediate c .lsl amt m).value.toNat = m.toNat * 2 ^ n % 2 ^ 32 ∧
      (shiftByImmediate c .lsl amt m).carry = m.getLsbD (32 - n)) ∧
    (n = 0 → shiftByImmediate c .lsr amt m = ⟨0, m.getLsbD 31⟩) ∧
    (1 ≤ n → (shiftByImmediate c .lsr amt m).value.toNat = m.toNat / 2 ^ n ∧
      (shiftByImmediate c .lsr amt m).carry = m.getLsbD (n - 1)) ∧
    (n = 0 → shiftByImmediate c .asr amt m = ⟨if m.getLsbD 31 then 0xFFFFFFFF#32 else 0, m.getLsbD 31⟩) ∧
    (1 ≤ n → (shiftByImmediate c .asr amt m).value.toInt = m.toInt / 2 ^ n ∧
      (shiftByImmediate c .asr amt m).carry = m.getLsbD (n - 1))

/-- `42_data_processing.md` R196, R197, R199, `30_encoding.md` R133: ROR #1 to #31, rotate right extended, and the
rotated immediate with its carry. The carry of ROR is the spec's own inference (R196: "derived: the carry, from the
LSR sentence and rule R198"); the direction of RRX and the rotated immediate rest on the spec's general knowledge
(log entry 29). -/
def Obligations.RotatedOperands : Prop :=
  (∀ (c : Bool) (amt : BitVec 5) (m : Word), 1 ≤ amt.toNat →
    let x := shiftByImmediate c .ror amt m
    (∀ i < 32, x.value.getLsbD i = m.getLsbD ((i + amt.toNat) % 32)) ∧ x.carry = m.getLsbD (amt.toNat - 1) ∧
      x.carry = x.value.getLsbD 31) ∧
  (∀ (c : Bool) (m : Word),
    let x := shiftByImmediate c .ror 0 m
    x.value.getLsbD 31 = c ∧ (∀ i < 31, x.value.getLsbD i = m.getLsbD (i + 1)) ∧ x.carry = m.getLsbD 0) ∧
  ∀ (c : Bool) (rot : BitVec 4) (imm : Byte),
    let x := rotatedImmediate c rot imm
    (∀ i < 32, x.value.getLsbD i = imm.getLsbD ((i + 2 * rot.toNat) % 32)) ∧
      x.carry = if rot = 0 then c else x.value.getLsbD 31

/-- `42_data_processing.md` R198: a shift by the low byte of a register: 0, 1 to 31, 32 and more. -/
def Obligations.ShiftByRegister : Prop :=
  ∀ (c : Bool) (ty : Shift) (rs m : Word),
    let n := rs.toNat % 256
    let x := shiftByRegister c ty rs.lowByte m
    (n = 0 → x = ⟨m, c⟩) ∧
    (1 ≤ n → n ≤ 31 → x = shiftByImmediate c ty (BitVec.ofNat 5 n) m) ∧
    (n = 32 → x =
      match ty with
      | .lsl => ⟨0, m.getLsbD 0⟩
      | .lsr => ⟨0, m.getLsbD 31⟩
      | .asr => ⟨if m.getLsbD 31 then 0xFFFFFFFF#32 else 0, m.getLsbD 31⟩
      | .ror => ⟨m, m.getLsbD 31⟩) ∧
    (33 ≤ n → x =
      match ty with
      | .lsl => ⟨0, false⟩
      | .lsr => ⟨0, false⟩
      | .asr => ⟨if m.getLsbD 31 then 0xFFFFFFFF#32 else 0, m.getLsbD 31⟩
      | .ror => shiftByRegister c .ror (BitVec.ofNat 8 ((n - 1) % 32 + 1)) m)

/-- `42_data_processing.md` R201, R205, R211: AND, EOR, SUB, RSB, ADD, ADC, SBC, RSC, ORR, MOV, BIC and MVN (36
constructors) complete: Rd other than R15 takes the result, with S = 1 the flags are those of the result, the next
instruction follows; nothing else changes. A banked register written right after a user-bank LDM takes a free value
instead (log entry 15). -/
def Obligations.DataProcessingWritesRd : Prop :=
  ∀ (op : AluOp) (c : Cond) (sf : Bool) (rn rd : Reg) (o : OperandForm) (s : State), op.isTest = false → rd ≠ 15 →
    o.legal = true → condHolds c s.cpsr = true →
    let r := o.outcome op rn s
    ∃ t, exec (o.instr op c sf rn rd) s = .next t ∧ GoesOn s t ⟨0, 1, o.internal, 0⟩ ∧ Landed s t rd r.result ∧
      t.cpsr = (if sf then { s.cpsr with n := r.n, z := r.z, c := r.c, v := r.v } else s.cpsr) ∧ OnlyRegs s t [rd] ∧
      NoAccess s t

/-- `42_data_processing.md` R201, R211: TST, TEQ, CMP and CMN (12 constructors) complete: the flags are those of the
result and nothing else changes; the Rd field, when it is not R15, is ignored. -/
def Obligations.TestsSetFlags : Prop :=
  ∀ (op : AluOp) (c : Cond) (sf : Bool) (rn rd : Reg) (o : OperandForm) (s : State), op.isTest = true → rd ≠ 15 →
    o.legal = true → condHolds c s.cpsr = true →
    let r := o.outcome op rn s
    ∃ t, exec (o.instr op c sf rn rd) s = .next t ∧ GoesOn s t ⟨0, 1, o.internal, 0⟩ ∧
      t.cpsr = { s.cpsr with n := r.n, z := r.z, c := r.c, v := r.v } ∧ OnlyRegs s t [] ∧ NoAccess s t

/-- `42_data_processing.md` R214: a test operation with Rd = R15: in a privileged mode the SPSR is moved to the CPSR
(refused where its mode is outside Table 2, `10_state.md` R43, log entry 23); in User mode the flags are the old
ones or those of the test and the control bits stay. The pc moves on by one word. -/
def Obligations.TestToPsr : Prop :=
  ∀ (op : AluOp) (c : Cond) (sf : Bool) (rn : Reg) (o : OperandForm) (s : State), op.isTest = true →
    o.legal = true → condHolds c s.cpsr = true →
    let r := o.outcome op rn s
    match s.savedOf s.cpsr.mode with
    | some p =>
      match p.toPsr with
      | some q =>
        ∃ t, exec (o.instr op c sf rn 15) s = .next t ∧ GoesOn s t ⟨0, 1, o.internal, 0⟩ ∧ t.cpsr = q ∧
          OnlyRegs s t [] ∧ NoAccess s t
      | none => exec (o.instr op c sf rn 15) s = .refused .illegalMode
    | none =>
      ∃ t, exec (o.instr op c sf rn 15) s = .next t ∧ GoesOn s t ⟨0, 1, o.internal, 0⟩ ∧
        (t.cpsr = s.cpsr ∨ t.cpsr = { s.cpsr with n := r.n, z := r.z, c := r.c, v := r.v }) ∧ OnlyRegs s t [] ∧
        NoAccess s t

/-- `42_data_processing.md` R206, R211: with S = 0 and Rd = R15 the result goes to the pc and the CPSR is unaffected. -/
def Obligations.ResultToPc : Prop :=
  ∀ (op : AluOp) (c : Cond) (rn : Reg) (o : OperandForm) (s : State), op.isTest = false → o.legal = true →
    condHolds c s.cpsr = true →
    ∃ t, exec (o.instr op c false rn 15) s = .next t ∧ GoesTo s t (o.outcome op rn s).result ⟨1, 2, o.internal, 0⟩ ∧
      t.cpsr = s.cpsr ∧ OnlyRegs s t [] ∧ NoAccess s t

/-- `42_data_processing.md` R207, `10_state.md` R43: with S = 1 and Rd = R15 the result goes to the pc and the SPSR of
the current mode to the CPSR; refused, which is the model's rendering of UNPREDICTABLE, in User mode (log entry 22)
and where the saved mode is outside Table 2 (log entry 23). -/
def Obligations.ResultToPcRestoresPsr : Prop :=
  ∀ (op : AluOp) (c : Cond) (rn : Reg) (o : OperandForm) (s : State), op.isTest = false → o.legal = true →
    condHolds c s.cpsr = true →
    match s.savedOf s.cpsr.mode with
    | none => s.cpsr.mode = .usr ∧ exec (o.instr op c true rn 15) s = .refused .restoreInUserMode
    | some p =>
      match p.toPsr with
      | none => exec (o.instr op c true rn 15) s = .refused .illegalMode
      | some q =>
        ∃ t, exec (o.instr op c true rn 15) s = .next t ∧
          GoesTo s t (o.outcome op rn s).result ⟨1, 2, o.internal, 0⟩ ∧ t.cpsr = q ∧ q.mode.bits = p.m ∧
          (q.n, q.z, q.c, q.v, q.i, q.f) = (p.n, p.z, p.c, p.v, p.i, p.f) ∧ OnlyRegs s t [] ∧ NoAccess s t

/-- `93_implementation_defined.md` section 1: a form that breaks a restriction on its fields is refused when its
condition passes, whatever the state; so is in User mode a form the spec forbids there (U2, U5, U13), and in any other
mode MSR of a word with a mode outside Table 2 (U3). That is the model's rendering of UNPREDICTABLE (log entries 22,
23). All 75 constructors. -/
def Obligations.RestrictedFormsAreRefused : Prop :=
  ∀ (i : Instr) (s : State), condHolds (condOf (encode i)) s.cpsr = true →
    (i.wellFormed = false ∨ (s.cpsr.mode = .usr ∧ ForbiddenInUserMode i) ∨
      (s.cpsr.mode ≠ .usr ∧ WritesIllegalMode i s)) →
    ∃ r, exec i s = .refused r

/-- `93_implementation_defined.md` section 1: nothing else is refused: an instruction is refused only when its condition
passes and it breaks a restriction on its fields, or is in User mode a form the spec forbids there (U2, U5, U13: a
result to R15 with S = 1, MRS and MSR of an SPSR, LDM and STM with S = 1), or in another mode is an MSR that writes a
mode outside Table 2, or a form that restores the CPSR from an SPSR with such a mode (U3); no instruction faults. That
these forms are refused is the model's rendering of UNPREDICTABLE (log entries 22, 23). All 75 constructors. -/
def Obligations.OnlyRestrictedFormsAreRefused : Prop :=
  ∀ (i : Instr) (s : State),
    (∀ e, exec i s ≠ .fault e) ∧
    ∀ r, exec i s = .refused r →
      condHolds (condOf (encode i)) s.cpsr = true ∧
        (i.wellFormed = false ∨
          (s.cpsr.mode = .usr ∧ ForbiddenInUserMode i ∧
            r ∈ [Refusal.restoreInUserMode, .spsrInUserMode, .userBankInUserMode]) ∨
          (s.cpsr.mode ≠ .usr ∧ r = .illegalMode ∧ (WritesIllegalMode i s ∨ (RestoresCpsr i ∧ SavesIllegalMode s))))

/-- `43_psr_transfer.md` R252, R259, `10_state.md` R35, R39: MRS completes: Rd takes the CPSR, in every mode, or the
SPSR of the current mode (refused in User mode, log entry 22); the reserved bits are free values (log entry 12). A
banked register written right after a user-bank LDM takes a free value instead (log entry 15). -/
def Obligations.MrsReadsPsr : Prop :=
  ∀ (c : Cond) (rd : Reg) (s : State), condHolds c s.cpsr = true → rd ≠ 15 →
    let reads (i : Instr) (n z cc v ib f : Bool) (m : BitVec 5) : Prop :=
      ∃ t w, exec i s = .next t ∧ GoesOn s t ⟨0, 1, 0, 0⟩ ∧ Landed s t rd w ∧ w.getLsbD 31 = n ∧ w.getLsbD 30 = z ∧
        w.getLsbD 29 = cc ∧ w.getLsbD 28 = v ∧ w.getLsbD 7 = ib ∧ w.getLsbD 6 = f ∧ field w 0 5 = m ∧
        (∀ k, (8 ≤ k ∧ k < 28) ∨ k = 5 → w.getLsbD k = (Config.psrReserved s.drawIndex).getLsbD k) ∧
        t.cpsr = s.cpsr ∧ OnlyRegs s t [rd] ∧ NoAccess s t
    reads (.mrs c false rd) s.cpsr.n s.cpsr.z s.cpsr.c s.cpsr.v s.cpsr.i s.cpsr.f s.cpsr.mode.bits ∧
    match s.savedOf s.cpsr.mode with
    | some p => reads (.mrs c true rd) p.n p.z p.c p.v p.i p.f p.m
    | none => exec (.mrs c true rd) s = .refused .spsrInUserMode

/-- `43_psr_transfer.md` R253, R256, R259: MSR of a whole word completes: in a privileged mode the CPSR or the SPSR of
the mode takes all its defined bits, if they name a mode of Table 2 (`10_state.md` R43; else refused, log entry 23);
in User mode the CPSR takes the flags only, its control bits staying, and an SPSR is refused (log entry 22). -/
def Obligations.MsrWritesWholePsr : Prop :=
  ∀ (c : Cond) (rm : Reg) (s : State), condHolds c s.cpsr = true → rm ≠ 15 →
    let w := s.readReg .rm 8 rm
    let keeps (t : State) : Prop := GoesOn s t ⟨0, 1, 0, 0⟩ ∧ KeepsRegs s t s.cpsr.mode [] ∧ NoAccess s t
    if s.cpsr.mode = .usr then
      (∃ t, exec (.msrAll c false rm) s = .next t ∧ keeps t ∧
        t.cpsr = { s.cpsr with n := w.getLsbD 31, z := w.getLsbD 30, c := w.getLsbD 29, v := w.getLsbD 28 } ∧
        t.spsr = s.spsr) ∧
      exec (.msrAll c true rm) s = .refused .spsrInUserMode
    else
      match Mode.ofBits (field w 0 5) with
      | none =>
        exec (.msrAll c false rm) s = .refused .illegalMode ∧ exec (.msrAll c true rm) s = .refused .illegalMode
      | some m =>
        (∃ t, exec (.msrAll c false rm) s = .next t ∧ keeps t ∧ t.spsr = s.spsr ∧
          t.cpsr = ⟨w.getLsbD 31, w.getLsbD 30, w.getLsbD 29, w.getLsbD 28, w.getLsbD 7, w.getLsbD 6, m⟩) ∧
        ∃ t, exec (.msrAll c true rm) s = .next t ∧ keeps t ∧ t.cpsr = s.cpsr ∧
          t.savedOf s.cpsr.mode = some ⟨w.getLsbD 31, w.getLsbD 30, w.getLsbD 29, w.getLsbD 28, w.getLsbD 7,
            w.getLsbD 6, field w 0 5⟩ ∧
          ∀ n, n ≠ s.cpsr.mode → t.savedOf n = s.savedOf n

/-- `43_psr_transfer.md` R254, R255, R259: MSR of flags, from a register or a rotated immediate, completes: the top four
bits of the word go to N, Z, C and V of the CPSR, or of the SPSR of the current mode (refused in User mode, log
entry 22); no other bit of a PSR changes. -/
def Obligations.MsrWritesFlags : Prop :=
  ∀ (c : Cond) (rm : Reg) (rot : BitVec 4) (imm : Byte) (s : State), condHolds c s.cpsr = true → rm ≠ 15 →
    let writes (i : Bool → Instr) (w : Word) : Prop :=
      (∃ t, exec (i false) s = .next t ∧ GoesOn s t ⟨0, 1, 0, 0⟩ ∧ OnlyRegs s t [] ∧ NoAccess s t ∧
        t.cpsr = { s.cpsr with n := w.getLsbD 31, z := w.getLsbD 30, c := w.getLsbD 29, v := w.getLsbD 28 }) ∧
      match s.savedOf s.cpsr.mode with
      | none => exec (i true) s = .refused .spsrInUserMode
      | some p =>
        ∃ t, exec (i true) s = .next t ∧ GoesOn s t ⟨0, 1, 0, 0⟩ ∧ KeepsRegs s t s.cpsr.mode [] ∧ NoAccess s t ∧
          t.cpsr = s.cpsr ∧
          t.savedOf s.cpsr.mode =
            some { p with n := w.getLsbD 31, z := w.getLsbD 30, c := w.getLsbD 29, v := w.getLsbD 28 } ∧
          ∀ n, n ≠ s.cpsr.mode → t.savedOf n = s.savedOf n
    writes (fun x => .msrFlags c x rm) (s.readReg .rm 8 rm) ∧
    writes (fun x => .msrFlagsImm c x rot imm) (imm.extend.rotateRight (2 * rot.toNat))

/-- `44_multiply.md` R271, R273 to R275: MUL and MLA complete: Rd takes the low 32 bits of the product, for MLA with Rn
added; with S = 1, N and Z are those of the result, V stays and C is a free value (log entry 11). Rn of MUL is
ignored. A banked register written right after a user-bank LDM takes a free value instead (log entry 15). -/
def Obligations.MultiplyWritesRd : Prop :=
  ∀ (c : Cond) (sf : Bool) (rd rn rs rm : Reg) (s : State), condHolds c s.cpsr = true → rd ≠ 15 → rs ≠ 15 → rm ≠ 15 →
    let x := s.readReg .rm 8 rm
    let y := s.readReg .rs 8 rs
    let gives (i : Instr) (n : Nat) : Prop :=
      ∃ t w, exec i s = .next t ∧ w.toNat = n % 2 ^ 32 ∧ GoesOn s t ⟨0, 1, multiplyCycles y, 0⟩ ∧ Landed s t rd w ∧
        (∃ free, t.cpsr =
          if sf then { s.cpsr with n := w.getLsbD 31, z := decide (w = 0), c := free } else s.cpsr) ∧
        OnlyRegs s t [rd] ∧ NoAccess s t
    gives (.mul c sf rd rn rs rm) (x.toNat * y.toNat) ∧
    (rn ≠ 15 → gives (.mla c sf rd rn rs rm) (x.toNat * y.toNat + (s.readReg .rn 8 rn).toNat))

/-- `44_multiply.md` R276: the number of internal cycles of a multiply by the unsigned value of Rs. -/
def Obligations.MultiplyCycleCount : Prop :=
  ∀ v : Word,
    (v.toNat ≤ 1 → multiplyCycles v = 1) ∧ (2 ^ 29 ≤ v.toNat → multiplyCycles v = 16) ∧
    ∀ m, 1 < m → m < 16 → 2 ^ (2 * m - 3) ≤ v.toNat → v.toNat ≤ 2 ^ (2 * m - 1) - 1 → multiplyCycles v = m

/-- `45_single_data_transfer.md` R281 to R284, R286, R289 to R291, R295: LDR and LDRB (4 constructors) complete: one
read of the computed address is made, Rd other than R15 takes the word rotated by its offset or the byte extended,
and a base that is written back and is not Rd takes the modified base. The T forms (P = 0, W = 1) make the access as
from User mode. A banked register written right after a user-bank LDM takes a free value instead (log entry 15). -/
def Obligations.LoadWritesRd : Prop :=
  ∀ (byte : Bool) (c : Cond) (p u w : Bool) (rn rd : Reg) (o : OffsetForm) (s : State), condHolds c s.cpsr = true →
    o.legal = true → baseOk p w rn = true → rd ≠ 15 →
    let acc := o.access true byte p u w rn s
    s.aborts acc = false →
    ∃ t, exec (o.instr true byte c p u w rn rd) s = .next t ∧ GoesOn s t ⟨1, 1, 1, 0⟩ ∧
      Landed s t rd
        (if byte then (s.readByte acc.addr).extend else (s.wordAt acc.addr).rotateRight (8 * (acc.addr.toNat % 4))) ∧
      (writesBack p w = true → rn ≠ rd → Landed s t rn (o.modified u rn s)) ∧ t.cpsr = s.cpsr ∧
      OnlyRegs s t (rd :: baseList (writesBack p w) rn) ∧ KeepsMemory s t ∧ Made s t [acc]

/-- `45_single_data_transfer.md` R288, R295: LDR with Rd = R15: the rotated word goes to the pc, the CPSR is unaffected.
A banked register written right after a user-bank LDM takes a free value instead (log entry 15). -/
def Obligations.LoadToPc : Prop :=
  ∀ (c : Cond) (p u w : Bool) (rn : Reg) (o : OffsetForm) (s : State), condHolds c s.cpsr = true → o.legal = true →
    baseOk p w rn = true →
    let acc := o.access true false p u w rn s
    s.aborts acc = false →
    ∃ t, exec (o.instr true false c p u w rn 15) s = .next t ∧
      GoesTo s t ((s.wordAt acc.addr).rotateRight (8 * (acc.addr.toNat % 4))) ⟨2, 2, 1, 0⟩ ∧
      (writesBack p w = true → Landed s t rn (o.modified u rn s)) ∧ t.cpsr = s.cpsr ∧
      OnlyRegs s t (baseList (writesBack p w) rn) ∧ KeepsMemory s t ∧ Made s t [acc]

/-- `45_single_data_transfer.md` R281, R282, R286, R287, R292, R293, R295: STR and STRB (4 constructors) complete: the
aligned word that holds the computed address takes Rd unrotated, or the byte at it takes the low byte of Rd, R15
reading as the instruction plus 12; every other byte is kept; a base that is written back takes the modified base. A
byte the memory map does not let be written is kept (log entry 46). Memory is taken in canonical form, which every step
keeps. A banked register written right after a user-bank LDM takes a free value instead (log entry 15). -/
def Obligations.StoreWritesMemory : Prop :=
  ∀ (byte : Bool) (c : Cond) (p u w : Bool) (rn rd : Reg) (o : OffsetForm) (s : State), condHolds c s.cpsr = true →
    Memory.wf s.mem = true → o.legal = true → baseOk p w rn = true → storeOk p w rn rd = true →
    let acc := o.access false byte p u w rn s
    s.aborts acc = false →
    ∃ t, exec (o.instr false byte c p u w rn rd) s = .next t ∧ GoesOn s t ⟨2, 0, 0, 0⟩ ∧
      Stored s t acc (s.readReg .rd 12 rd) ∧ KeepsMemoryBut s t acc ∧
      (writesBack p w = true → Landed s t rn (o.modified u rn s)) ∧ t.cpsr = s.cpsr ∧
      OnlyRegs s t (baseList (writesBack p w) rn) ∧ Made s t [acc]

/-- `45_single_data_transfer.md` R285: when the access of LDR, LDRB, STR or STRB aborts, the data abort is entered with
the address of the instruction plus 8 in R14_abt; memory and Rd are kept; the write-back still happens, unless the
base is the very R14_abt. The access is followed by the fetch in the old mode that the entry begins with
(`48_swi_undefined.md` R354). A banked register written right after a user-bank LDM takes a free value instead (log
entry 15). -/
def Obligations.SingleTransferAborts : Prop :=
  ∀ (load byte : Bool) (c : Cond) (p u w : Bool) (rn rd : Reg) (o : OffsetForm) (s : State),
    condHolds c s.cpsr = true → (o.instr load byte c p u w rn rd).wellFormed = true →
    let acc := o.access load byte p u w rn s
    s.aborts acc = true →
    ∃ t, exec (o.instr load byte c p u w rn rd) s = .next t ∧
      Trapped .dataAbort (s.pc + 8) s t s.cpsr.mode (baseList (writesBack p w) rn) ∧ KeepsMemory s t ∧
      (writesBack p w = true → slot s.cpsr.mode rn ≠ slot .abt 14 → Landed s t rn (o.modified u rn s)) ∧
      Made s t [acc, s.abortFetch]

/-- `45_single_data_transfer.md` R289: the word of a load from any address, byte by byte, in both byte orders: the
aligned word that holds the address is rotated so that in little-endian order the addressed byte is lowest. -/
def Obligations.LoadedWordRotates : Prop :=
  ∀ (s : State) (a : Word) (k : Nat), k < 4 →
    let value := (s.wordAt a).rotateRight (8 * (a.toNat % 4))
    (s.bigend = false →
      field value (8 * k) 8 = s.readByte (wordAddr a + BitVec.ofNat 32 ((k + a.toNat % 4) % 4))) ∧
    (s.bigend = true →
      field value (8 * k) 8 = s.readByte (wordAddr a + BitVec.ofNat 32 (3 - (k + a.toNat % 4) % 4)))

/-- `20_memory.md` R80, R81, R87: a write to plain storage: a word lies where it is read back, a byte at its own
address; no other byte changes, and none at all if the access aborts; a byte is driven four times. That a word access
reaches the aligned word (D3, log entry 24) and that an aborted write leaves memory as it was (D17, log entry 26) are
choices, the spec's and so the model's; that a byte which is not plain storage is kept is the model's (log entry 46).
Memory is taken in canonical form, which every step keeps. -/
def Obligations.WritesReachMemory : Prop :=
  ∀ (s : State) (acc : Access) (v : Word), Memory.wf s.mem = true →
    let t := s.store acc v
    (s.aborts acc = true → KeepsMemory s t) ∧
    (s.aborts acc = false → KeepsMemoryBut s t acc ∧ (∀ a, s.writable a = false → t.byteAt a = s.byteAt a) ∧
      ((∀ a, acc.reaches a = true → s.writable a = true) →
        (acc.size = .word → t.wordAt acc.addr = v) ∧ (acc.size = .byte → t.readByte acc.addr = v.lowByte))) ∧
    (acc.size = .byte → ∃ d before, t.bus = s.bus ++ [.access acc (some d) before (s.aborts acc)] ∧
      ∀ k < 4, field d (8 * k) 8 = v.lowByte)

/-- `46_block_data_transfer.md` R312, R315, R317, R320, R322, R327: LDM with S = 0 completes: the words at ascending
addresses go to the registers of the list, lowest first, whether the base is aligned or not and whether it is in the
list or not; R15 takes the last one; a base written back and not in the list takes the final address. With `n`
registers in the list the first address is the base (P = 0, U = 1), the base + 4 (P = 1, U = 1), the base - 4n + 4
(P = 0, U = 0) or the base - 4n (P = 1, U = 0), the final one the base + 4n or - 4n; the registers are those whose bit
is 1, lowest first. A banked register written right after a user-bank LDM takes a free value instead (log entry 15). -/
def Obligations.LdmLoadsRegisters : Prop :=
  ∀ (c : Cond) (p u w : Bool) (rn : Reg) (list : BitVec 16) (s : State), condHolds c s.cpsr = true → list ≠ 0 →
    rn ≠ 15 →
    let n := countOf list
    let base := s.readReg .rn 8 rn
    let bytes : Word := BitVec.ofNat 32 (4 * n)
    let start := s.blockAt p u rn list
    ((n = (regsOf list).length ∧ (regsOf list).Pairwise (fun r q => r.val < q.val) ∧
        ∀ r, r ∈ regsOf list ↔ list.getLsbD r.val = true) ∧
      start = (match p, u with
        | false, true => base
        | true, true => base + 4
        | false, false => base - bytes + 4
        | true, false => base - bytes) ∧
      s.blockEnd u rn list = if u then base + bytes else base - bytes) ∧
    (NoneAborts s false n start →
      ∃ t, exec (.ldm c p u false w rn list) s = .next t ∧
        (if list.getLsbD 15 then GoesTo s t (s.wordAt (wordPlace start (n - 1))) ⟨2, n + 1, 1, 0⟩
          else GoesOn s t ⟨1, n, 1, 0⟩) ∧
        (∀ k r, (regsOf list)[k]? = some r → r ≠ 15 → Landed s t r (s.wordAt (wordPlace start k))) ∧
        (w = true → rn ∉ regsOf list → Landed s t rn (s.blockEnd u rn list)) ∧ t.cpsr = s.cpsr ∧
        OnlyRegs s t (baseList w rn ++ listed list) ∧ KeepsMemory s t ∧ Made s t (s.wordAccesses start n false))

/-- `46_block_data_transfer.md` R319, R322, R327, `10_state.md` R43: LDM with S = 1 and R15 in the list, in a privileged
mode: as with S = 0, the registers in the bank of the mode before, and the SPSR of that mode goes to the CPSR as the
pc is loaded; refused where its mode is outside Table 2 (log entry 23). A banked register written right after a
user-bank LDM takes a free value instead (log entry 15). -/
def Obligations.LdmReturns : Prop :=
  ∀ (c : Cond) (p u w : Bool) (rn : Reg) (list : BitVec 16) (q : SavedPsr) (s : State), condHolds c s.cpsr = true →
    list.getLsbD 15 = true → rn ≠ 15 → s.savedOf s.cpsr.mode = some q →
    let n := countOf list
    let start := s.blockAt p u rn list
    NoneAborts s false n start →
    match q.toPsr with
    | none => exec (.ldm c p u true w rn list) s = .refused .illegalMode
    | some psr =>
      ∃ t, exec (.ldm c p u true w rn list) s = .next t ∧
        GoesTo s t (s.wordAt (wordPlace start (n - 1))) ⟨2, n + 1, 1, 0⟩ ∧ t.cpsr = psr ∧
        (∀ k r, (regsOf list)[k]? = some r → r ≠ 15 → Landed s t r (s.wordAt (wordPlace start k))) ∧
        (w = true → rn ∉ regsOf list → Landed s t rn (s.blockEnd u rn list)) ∧
        OnlyRegs s t (baseList w rn ++ listed list) ∧ KeepsMemory s t ∧ Made s t (s.wordAccesses start n false)

/-- `46_block_data_transfer.md` R318, R322, R327, `70_reset_and_hazards.md` R470: LDM with S = 1 and no R15 in the list,
in a privileged mode without write-back: the words go to the registers of the User bank, no other register changes,
and the next instruction stands under the hazard of reading a banked register. -/
def Obligations.LdmLoadsUserBank : Prop :=
  ∀ (c : Cond) (p u : Bool) (rn : Reg) (list : BitVec 16) (s : State), condHolds c s.cpsr = true → list ≠ 0 →
    list.getLsbD 15 = false → rn ≠ 15 → s.cpsr.mode ≠ .usr →
    let n := countOf list
    let start := s.blockAt p u rn list
    NoneAborts s false n start →
    ∃ t, exec (.ldm c p u true false rn list) s = .next t ∧ t.pc = s.pc + 4 ∧ t.pipe = s.pipe.tail ∧
      t.hazard = true ∧ t.cycles = s.cycles.add ⟨1, n, 1, 0⟩ ∧ KeepsOutside s t ∧
      (∀ k r, (regsOf list)[k]? = some r → t.bankReg .usr r = s.wordAt (wordPlace start k)) ∧
      KeepsRegs s t .usr (regsOf list) ∧ t.cpsr = s.cpsr ∧ t.spsr = s.spsr ∧ KeepsMemory s t ∧
      Made s t (s.wordAccesses start n false)

/-- `46_block_data_transfer.md` R325: when the `j`-th read of an LDM is the first to abort, the registers before it
are loaded, none from it on, nor R15, nor the CPSR; the base holds the final address if write-back was asked for,
else what it held; all the reads are still made; then the data abort is entered, with its fetch in the old mode
(R14_abt, if it is one of the registers, holds the return address). What a base under the hazard of R470 holds is the
model's choice (log entry 40). A banked register written right after a user-bank LDM takes a free value instead (log
entry 15). -/
def Obligations.LdmAborts : Prop :=
  ∀ (c : Cond) (p u sb w : Bool) (rn : Reg) (list : BitVec 16) (j : Nat) (s : State), condHolds c s.cpsr = true →
    list ≠ 0 → rn ≠ 15 → (sb = true → s.cpsr.mode ≠ .usr) →
    let userBank := sb && !list.getLsbD 15
    (userBank && w) = false →
    let n := countOf list
    let start := s.blockAt p u rn list
    let bank := if userBank then Mode.usr else s.cpsr.mode
    j < n → NoneAborts s false j start → s.aborts (s.wordAccess (wordPlace start j) false) = true →
    ∃ t, exec (.ldm c p u sb w rn list) s = .next t ∧
      Trapped .dataAbort (s.pc + 8) s t bank (baseList w rn ++ (listed list).take j) ∧ KeepsMemory s t ∧
      (∀ k r, k < j → (regsOf list)[k]? = some r → slot bank r ≠ slot .abt 14 → slot bank r ≠ slot s.cpsr.mode rn →
        if userBank then t.bankReg .usr r = s.wordAt (wordPlace start k)
        else Landed s t r (s.wordAt (wordPlace start k))) ∧
      (slot s.cpsr.mode rn ≠ slot .abt 14 →
        if w then Landed s t rn (s.blockEnd u rn list)
        else t.bankReg s.cpsr.mode rn = s.bankReg s.cpsr.mode rn) ∧
      Made s t (s.wordAccesses start n false ++ [s.abortFetch])

/-- `46_block_data_transfer.md` R312, R316, R318, R321, R323, R326, R327: STM, with or without the S bit, completes, or
enters the data abort when one of its writes aborts: the registers of the list are stored at ascending addresses,
each write that does not abort taking effect, every other byte kept. R15 is stored as the instruction plus 12; with
S = 1 the User bank is stored; the base is stored unchanged if it is the first of the list or is not written back,
else as the final address. A byte the memory map does not let be written is kept (log entry 46). Memory is taken in
canonical form, which every step keeps. A banked register written
right after a user-bank LDM takes a free value instead (log entry 15). -/
def Obligations.StmStoresRegisters : Prop :=
  ∀ (c : Cond) (p u sb w : Bool) (rn : Reg) (list : BitVec 16) (s : State), condHolds c s.cpsr = true →
    Memory.wf s.mem = true → list ≠ 0 → rn ≠ 15 → (sb = true → s.cpsr.mode ≠ .usr ∧ w = false) →
    let n := countOf list
    let start := s.blockAt p u rn list
    let stored (r : Reg) : Word :=
      if r = 15 then s.pc + 12
      else if sb then s.bankReg .usr r
      else if r = rn then
        (if w && (regsOf list)[0]? != some rn then s.blockEnd u rn list else s.readReg .rn 8 rn)
      else s.readReg .rd 12 r
    ∃ t, exec (.stm c p u sb w rn list) s = .next t ∧
      WordsStored s t start n (fun k => stored ((regsOf list).getD k 0)) ∧
      (NoneAborts s true n start →
        GoesOn s t ⟨2, n - 1, 0, 0⟩ ∧ (w = true → Landed s t rn (s.blockEnd u rn list)) ∧ t.cpsr = s.cpsr ∧
          OnlyRegs s t (baseList w rn) ∧ Made s t (s.wordAccesses start n true)) ∧
      ((∃ k < n, s.aborts (s.wordAccess (wordPlace start k) true) = true) →
        Made s t (s.wordAccesses start n true ++ [s.abortFetch]) ∧
        Trapped .dataAbort (s.pc + 8) s t s.cpsr.mode (baseList w rn) ∧
          (w = true → slot s.cpsr.mode rn ≠ slot .abt 14 → Landed s t rn (s.blockEnd u rn list)))

/-- `47_swap.md` R340, R342, R343, R346, `20_memory.md` R98: SWP and SWPB complete: a read and a write of the address
in Rn, both locked; Rd takes what was read, as LDR and LDRB would, memory the source as STR and STRB would (a byte
the memory map does not let be written is kept, log entry 46). Memory is taken in canonical form, which every step
keeps. A banked register written right after a user-bank LDM takes a free value instead (log entry 15). -/
def Obligations.SwapExchanges : Prop :=
  ∀ (byte : Bool) (c : Cond) (rn rd rm : Reg) (s : State), condHolds c s.cpsr = true → Memory.wf s.mem = true →
    rn ≠ 15 → rd ≠ 15 → rm ≠ 15 →
    let a := s.readReg .rn 8 rn
    let acc (write : Bool) : Access := ⟨a, widthOf byte, write, false, s.privileged, s.cpsr.mode, true⟩
    let i : Instr := if byte then .swpb c rn rd rm else .swp c rn rd rm
    s.aborts (acc false) = false → s.aborts (acc true) = false →
    ∃ t, exec i s = .next t ∧ GoesOn s t ⟨2, 1, 1, 0⟩ ∧
      Landed s t rd (if byte then (s.readByte a).extend else (s.wordAt a).rotateRight (8 * (a.toNat % 4))) ∧
      Stored s t (acc true) (s.readReg .rm 8 rm) ∧ KeepsMemoryBut s t (acc true) ∧
      t.cpsr = s.cpsr ∧ OnlyRegs s t [rd] ∧ Made s t [acc false, acc true]

/-- `47_swap.md` R344: when the read or the write of a swap aborts, no register changes and the data abort is entered.
If the write aborts memory is kept; if only the read does, the place holds its old bytes or the source (log entry
16). The accesses, of which the write is free after an aborted read, are followed by the fetch in the old mode that the
entry begins with (`48_swi_undefined.md` R354). Memory is taken in canonical form, which every step keeps. -/
def Obligations.SwapAborts : Prop :=
  ∀ (byte : Bool) (c : Cond) (rn rd rm : Reg) (s : State), condHolds c s.cpsr = true → Memory.wf s.mem = true →
    rn ≠ 15 → rd ≠ 15 → rm ≠ 15 →
    let a := s.readReg .rn 8 rn
    let acc (write : Bool) : Access := ⟨a, widthOf byte, write, false, s.privileged, s.cpsr.mode, true⟩
    let i : Instr := if byte then .swpb c rn rd rm else .swp c rn rd rm
    s.aborts (acc false) = true ∨ s.aborts (acc true) = true →
    ∃ t, exec i s = .next t ∧ Trapped .dataAbort (s.pc + 8) s t s.cpsr.mode [] ∧
      (s.aborts (acc true) = true → KeepsMemory s t) ∧ KeepsMemoryBut s t (acc true) ∧
      (KeepsMemory s t ∨ Stored s t (acc true) (s.readReg .rm 8 rm)) ∧
      (Made s t [acc false, acc true, s.abortFetch] ∨
        (s.aborts (acc false) = true ∧ Made s t [acc false, s.abortFetch]))

/-- `49_coprocessor.md` R361, R363, R364: the handshake of CDP, LDC, STC, MRC and MCR: where no coprocessor answers the
undefined instruction trap is taken with no other effect; while one answers that it is busy, one internal cycle
passes and the instruction is offered again by the next step; with no coprocessor of that number, none answers. What
the coprocessors answer is an input, and one busy cycle one step (the model's choice, log entries 9, 36). -/
def Obligations.CoprocessorHandshake : Prop :=
  ∀ (c : Cond) (opc crn crd cp : BitVec 4) (info : BitVec 3) (crm : BitVec 4) (p u n w : Bool) (rn rd : Reg)
    (off : Byte) (opc3 : BitVec 3) (s : State), condHolds c s.cpsr = true → (rn ≠ 15 ∨ w = false) →
    ∀ i ∈ [Instr.cdp c opc crn crd cp info crm, .ldc c p u n w rn crd cp off, .stc c p u n w rn crd cp off,
        .mrc c opc3 crn rd cp info crm, .mcr c opc3 crn rd cp info crm],
      let offered := BusEvent.offer (encode i) s.privileged s.cpsr.mode
      (s.response cp (encode i) = .absent →
        ∃ t, exec i s = .next t ∧ Entered .undefined (s.pc + 4) s t ∧ t.bus = s.bus ++ [offered] ∧
          t.cycles = s.cycles.add ⟨1, 2, 1, 0⟩) ∧
      (s.response cp (encode i) = .busy →
        exec i s = .next { s with bus := s.bus ++ [offered], cycles := s.cycles.add ⟨0, 0, 1, 0⟩ }) ∧
      ((∀ r ∈ s.inputs.coprocs, r.cp ≠ cp) → s.response cp (encode i) = .absent)

/-- `49_coprocessor.md` R368, R376 to R379, R384: CDP, MRC and MCR complete once the coprocessor is ready: CDP and MCR
change no register, flag or memory, MCR giving the coprocessor Rd, or the instruction plus 12 for R15; MRC writes
Rd, or for R15 the flags alone, from the word the coprocessor gives. A banked register written right after a
user-bank LDM takes a free value instead (log entry 15). -/
def Obligations.RegisterTransfersWithCoprocessor : Prop :=
  ∀ (c : Cond) (opc crn crd cp : BitVec 4) (info : BitVec 3) (crm : BitVec 4) (rd : Reg) (opc3 : BitVec 3)
    (d : CoprocData) (s : State), condHolds c s.cpsr = true →
    let offered (i : Instr) := BusEvent.offer (encode i) s.privileged s.cpsr.mode
    let idle (t : State) : Prop := t.cpsr = s.cpsr ∧ OnlyRegs s t [] ∧ KeepsMemory s t
    let cdp := Instr.cdp c opc crn crd cp info crm
    let mcr := Instr.mcr c opc3 crn rd cp info crm
    let mrc := Instr.mrc c opc3 crn rd cp info crm
    (s.response cp (encode cdp) = .ready d →
      ∃ t, exec cdp s = .next t ∧ GoesOn s t ⟨0, 1, 0, 0⟩ ∧ idle t ∧
        t.bus = s.bus ++ [offered cdp, .coprocOperation cp (encode cdp)]) ∧
    (s.response cp (encode mcr) = .ready d →
      ∃ t, exec mcr s = .next t ∧ GoesOn s t ⟨1, 0, 0, 1⟩ ∧ idle t ∧
        t.bus = s.bus ++ [offered mcr, .coprocWrite cp (if rd = 15 then s.pc + 12 else s.readReg .rd 12 rd)]) ∧
    (s.response cp (encode mrc) = .ready d →
      ∃ t, exec mrc s = .next t ∧ GoesOn s t ⟨0, 1, 1, 1⟩ ∧ KeepsMemory s t ∧
        t.bus = s.bus ++ [offered mrc, .coprocRead cp d.result] ∧
        if rd = 15 then
          (let x := d.result
           t.cpsr = { s.cpsr with n := x.getLsbD 31, z := x.getLsbD 30, c := x.getLsbD 29, v := x.getLsbD 28 }) ∧
            OnlyRegs s t []
        else t.cpsr = s.cpsr ∧ Landed s t rd d.result ∧ OnlyRegs s t [rd])

/-- `49_coprocessor.md` R370 to R373, R375, R384: LDC, once the coprocessor is ready, makes the reads the coprocessor
asks for at ascending addresses and gives it each word that did not abort; it completes, or enters the data abort
when a read aborts; a base with W = 1 is written back either way, nothing else changes. The words after an abort are
still read (log entry 28). A banked register written right after a user-bank LDM takes a free value instead (log
entry 15). -/
def Obligations.LdcLoadsCoprocessor : Prop :=
  ∀ (c : Cond) (p u l w : Bool) (rn : Reg) (crd cp : BitVec 4) (off : Byte) (d : CoprocData) (s : State),
    condHolds c s.cpsr = true → (rn ≠ 15 ∨ w = false) →
    let i := Instr.ldc c p u l w rn crd cp off
    s.response cp (encode i) = .ready d →
    let n := d.loadExtra + 1
    let offset : Word := off.extend <<< 2
    let start := transferAddress p u (s.readReg .rn 8 rn) offset
    let final := offsetBase u (s.readReg .rn 8 rn) offset
    ∃ t, exec i s = .next t ∧ KeepsMemory s t ∧
      (∀ k < n, s.aborts (s.wordAccess (wordPlace start k) false) = false →
        .coprocLoad cp k (s.wordAt (wordPlace start k)) ∈ t.bus) ∧
      (NoneAborts s false n start →
        GoesOn s t ⟨2, n - 1, 0, 0⟩ ∧ (w = true → Landed s t rn final) ∧ t.cpsr = s.cpsr ∧
          OnlyRegs s t (baseList w rn) ∧ Made s t (s.wordAccesses start n false)) ∧
      ((∃ k < n, s.aborts (s.wordAccess (wordPlace start k) false) = true) →
        Made s t (s.wordAccesses start n false ++ [s.abortFetch]) ∧
        Trapped .dataAbort (s.pc + 8) s t s.cpsr.mode (baseList w rn) ∧
          (w = true → slot s.cpsr.mode rn ≠ slot .abt 14 → Landed s t rn final))

/-- `49_coprocessor.md` R370 to R372, R374, R375, R384: STC, once the coprocessor is ready, writes the words the
coprocessor gives (no more than the address space holds) at ascending addresses; it completes, or enters the data
abort when a write aborts; a base with W = 1 is written back either way; nothing else changes. The words after an
abort are still written (log entry 28). A byte the memory map does not let be written is kept (log entry 46). Memory
is taken in canonical form, which every step keeps. A banked register written right after a user-bank LDM takes a
free value instead (log entry 15). -/
def Obligations.StcStoresCoprocessor : Prop :=
  ∀ (c : Cond) (p u l w : Bool) (rn : Reg) (crd cp : BitVec 4) (off : Byte) (d : CoprocData) (s : State),
    condHolds c s.cpsr = true → (rn ≠ 15 ∨ w = false) → Memory.wf s.mem = true →
    let i := Instr.stc c p u l w rn crd cp off
    s.response cp (encode i) = .ready d →
    let words := d.storeFirst :: d.storeRest
    words.length ≤ 2 ^ 30 →
    let offset : Word := off.extend <<< 2
    let start := transferAddress p u (s.readReg .rn 8 rn) offset
    let final := offsetBase u (s.readReg .rn 8 rn) offset
    ∃ t, exec i s = .next t ∧ WordsStored s t start words.length (fun k => words.getD k 0) ∧
      (NoneAborts s true words.length start →
        GoesOn s t ⟨2, words.length - 1, 0, 0⟩ ∧ (w = true → Landed s t rn final) ∧ t.cpsr = s.cpsr ∧
          OnlyRegs s t (baseList w rn) ∧ Made s t (s.wordAccesses start words.length true)) ∧
      ((∃ k < words.length, s.aborts (s.wordAccess (wordPlace start k) true) = true) →
        Made s t (s.wordAccesses start words.length true ++ [s.abortFetch]) ∧
        Trapped .dataAbort (s.pc + 8) s t s.cpsr.mode (baseList w rn) ∧
          (w = true → slot s.cpsr.mode rn ≠ slot .abt 14 → Landed s t rn final))

/-- `41_branch.md` R180 to R182, `30_encoding.md` R130: B and BL complete: the pc is the instruction plus 8 plus four
times the signed offset, modulo 2^32; BL writes the address of the next instruction to R14; nothing else changes. A
banked register written right after a user-bank LDM takes a free value instead (log entry 15). -/
def Obligations.BranchesReachTarget : Prop :=
  ∀ (c : Cond) (off : BitVec 24) (s : State), condHolds c s.cpsr = true → field s.pc 0 2 = 0 →
    ∃ target : Word, (∃ k : Int, (target.toNat : Int) = s.pc.toNat + 8 + 4 * off.toInt + k * 2 ^ 32) ∧
      (∃ t, exec (.b c off) s = .next t ∧ t.pc = target ∧ GoesTo s t target ⟨1, 2, 0, 0⟩ ∧ t.cpsr = s.cpsr ∧
        OnlyRegs s t [] ∧ NoAccess s t) ∧
      ∃ t, exec (.bl c off) s = .next t ∧ t.pc = target ∧ GoesTo s t target ⟨1, 2, 0, 0⟩ ∧
        Landed s t 14 (s.pc + 4) ∧ t.cpsr = s.cpsr ∧ OnlyRegs s t [14] ∧ NoAccess s t

/-- `60_exceptions.md` R401, R402, `43_psr_transfer.md` R256: a step from User mode, out of reset, either stays in User
mode and leaves I, F, the SPSRs and every banked register of a privileged mode as they are, or enters an exception,
which saves the User CPSR, goes to its vector and changes of the privileged registers only R14 and the SPSR of the
mode entered. -/
def Obligations.UserModeIsConfined : Prop :=
  ∀ s t : State, step s = .next t → s.cpsr.mode = .usr → s.inputs.resetLow = false → s.resetCycles = 0 →
    (t.cpsr.mode = .usr ∧ t.cpsr.i = s.cpsr.i ∧ t.cpsr.f = s.cpsr.f ∧ t.spsr = s.spsr ∧
      ∀ m r, banked m r = true → t.bankReg m r = s.bankReg m r) ∨
    ∃ x : Exception, x ≠ .reset ∧ t.pc = x.vector ∧
      t.cpsr = { s.cpsr with mode := x.mode, i := true, f := s.cpsr.f || x.setsF } ∧
      t.savedOf x.mode = some s.cpsr.save ∧ (∀ m, m ≠ x.mode → t.savedOf m = s.savedOf m) ∧
      ∀ m r, banked m r = true → ¬ (m = x.mode ∧ r = 14) → t.bankReg m r = s.bankReg m r

/-- `20_memory.md` R96, `10_state.md` R47: what a step leaves in the pipeline are words fetched before its instruction
executed: no store of it is seen by the next instruction in order nor the one after, unless the pipeline is emptied.
That the words are kept is the spec's choice (D13); that the refill is made at the start of the step, and that a word
has the abort mark of its fetch in that step, is the model's choice (log entry 10). -/
def Obligations.PrefetchedWordsStay : Prop :=
  ∀ s t : State, step s = .next t →
    ∃ words : List Fetched, s.pipe <+: words ∧
      (∀ k, s.pipe.length ≤ k → k < 3 →
        words[k]? = some ⟨s.wordAt (wordPlace s.pc k), s.aborts (s.fetchAccess (wordPlace s.pc k))⟩) ∧
      (t.pipe = [] ∨ (t.pc = s.pc + 4 ∧ t.pipe = words.tail) ∨ (t.pc = s.pc ∧ t.pipe = words))

/-- `70_reset_and_hazards.md` R490, `41_branch.md` R181: a branch to itself ends the run. An undisturbed `B .` leaves
what the processor holds as it is, but for the words prefetched and the hazard mark; from a state with none of these,
with `B .` in the storage at the pc and no reset, no enabled interrupt and no aborted fetch of it in any of the inputs
to come, every later state is the same. That a run has ended at a fixed point of the step is the spec's own decision
(R490, D16). -/
def Obligations.BranchToItselfEndsRun : Prop :=
  ∀ s : State, field s.pc 0 2 = 0 →
    (Undisturbed s → NextWord s ⟨0xEAFFFFFE#32, false⟩ →
      ∃ t, step s = .next t ∧ SameArchitecture { s with pipe := [], hazard := false } t) ∧
    (s.pipe = [] → s.hazard = false → s.wordAt s.pc = 0xEAFFFFFE#32 →
      (∀ k < 4, s.kindAt (s.pc + BitVec.ofNat 32 k) ≠ .external) →
      (∀ x ∈ s.inputs :: s.schedule, let u : State := { s with inputs := x }
        Undisturbed u ∧ u.aborts (u.fetchAccess u.pc) = false) →
      Ended s)
end

