-- ==== Sys2Proof/Laws/Encoding.lean ====
section
/-! SUPPORT. Fields of concatenations, and the codes of conditions, shifts, operations and registers. -/

namespace Sys2Proof

/-- A field that lies in the low part. -/
theorem field_cat_low {w a b lo n : Nat} {x : BitVec a} {y : BitVec b} (h : lo + n ≤ b) (hw : b ≤ w) :
    field (cat w x y) lo n = field y lo n := by
  ext i hi
  simp [field, cat, BitVec.getLsbD_append]
  grind

/-- A field that lies in the high part. -/
theorem field_cat_high {w a b lo n : Nat} {x : BitVec a} {y : BitVec b} (h : b ≤ lo) (hw : lo + n ≤ w) :
    field (cat w x y) lo n = field x (lo - b) n := by
  ext i hi
  simp [field, cat, BitVec.getLsbD_append]
  grind

/-- The whole as a field. -/
@[simp] theorem field_self {n : Nat} (x : BitVec n) : field x 0 n = x := by
  ext i hi
  simp [field]

/-- A bit of a concatenation. -/
theorem getLsbD_cat {w a b i : Nat} {x : BitVec a} {y : BitVec b} (hi : i < w) :
    (cat w x y).getLsbD i = if i < b then y.getLsbD i else x.getLsbD (i - b) := by
  simp [cat, BitVec.getLsbD_append, hi]

/-- A bit of a concatenation, as simp writes it. -/
theorem getElem_cat {w a b i : Nat} {x : BitVec a} {y : BitVec b} (hi : i < w) :
    (cat w x y)[i] = if i < b then y.getLsbD i else x.getLsbD (i - b) := by
  rw [← BitVec.getLsbD_eq_getElem, getLsbD_cat hi]

/-- The bit of a flag, as simp writes it. -/
@[simp] theorem bit_getElem_zero (x : Bool) : (bit x)[0] = x := by cases x <;> rfl

/-- The bit of a flag. -/
@[simp] theorem bit_getLsbD_zero (x : Bool) : (bit x).getLsbD 0 = x := by cases x <;> rfl

/-- A condition has its own code. -/
@[simp] theorem Cond.ofBits_bits (c : Cond) : Cond.ofBits c.bits = c := by cases c <;> rfl

/-- A code has its own condition. -/
@[simp] theorem Cond.bits_ofBits (b : BitVec 4) : (Cond.ofBits b).bits = b := by revert b; decide

/-- A shift type has its own code. -/
@[simp] theorem Shift.ofBits_bits (t : Shift) : Shift.ofBits t.bits = t := by cases t <;> rfl

/-- A code has its own shift type. -/
@[simp] theorem Shift.bits_ofBits (b : BitVec 2) : (Shift.ofBits b).bits = b := by revert b; decide

/-- An operation has its own opcode. -/
@[simp] theorem AluOp.ofBits_bits (op : AluOp) : AluOp.ofBits op.bits = op := by cases op <;> rfl

/-- An opcode has its own operation. -/
@[simp] theorem AluOp.bits_ofBits (b : BitVec 4) : (AluOp.ofBits b).bits = b := by revert b; decide

/-- A register number has its own field. -/
@[simp] theorem Reg.ofBits_bits (r : Reg) : Reg.ofBits (Reg.bits r) = r := rfl

/-- A field has its own register number. -/
@[simp] theorem Reg.bits_ofBits (b : BitVec 4) : Reg.bits (Reg.ofBits b) = b := rfl

end Sys2Proof
end

