-- ==== Sys2Proof/Laws/State.lean ====
section
/-! SUPPORT. One lemma for each field after each update of the state. -/

namespace Sys2Proof.Machine

variable (s : State)

/-! The fields after `setPsr`. -/

@[simp] theorem State.setPsr_regs (p : Psr) : (s.setPsr p).regs = s.regs := rfl

@[simp] theorem State.setPsr_pc (p : Psr) : (s.setPsr p).pc = s.pc := rfl

@[simp] theorem State.setPsr_cpsr (p : Psr) : (s.setPsr p).cpsr = p := rfl

@[simp] theorem State.setPsr_spsr (p : Psr) : (s.setPsr p).spsr = s.spsr := rfl

@[simp] theorem State.setPsr_mem (p : Psr) : (s.setPsr p).mem = s.mem := rfl

@[simp] theorem State.setPsr_memoryMap (p : Psr) : (s.setPsr p).memoryMap = s.memoryMap := rfl

@[simp] theorem State.setPsr_bigend (p : Psr) : (s.setPsr p).bigend = s.bigend := rfl

@[simp] theorem State.setPsr_pipe (p : Psr) : (s.setPsr p).pipe = s.pipe := rfl

@[simp] theorem State.setPsr_hazard (p : Psr) : (s.setPsr p).hazard = s.hazard := rfl

@[simp] theorem State.setPsr_resetCycles (p : Psr) : (s.setPsr p).resetCycles = s.resetCycles := rfl

@[simp] theorem State.setPsr_inputs (p : Psr) : (s.setPsr p).inputs = s.inputs := rfl

@[simp] theorem State.setPsr_schedule (p : Psr) : (s.setPsr p).schedule = s.schedule := rfl

@[simp] theorem State.setPsr_bus (p : Psr) : (s.setPsr p).bus = s.bus := rfl

@[simp] theorem State.setPsr_cycles (p : Psr) : (s.setPsr p).cycles = s.cycles := rfl

@[simp] theorem State.setPsr_drawIndex (p : Psr) : (s.setPsr p).drawIndex = s.drawIndex := rfl

/-! The fields after `setSaved`. -/

@[simp] theorem State.setSaved_regs (m : Mode) (p : SavedPsr) : (s.setSaved m p).regs = s.regs := rfl

@[simp] theorem State.setSaved_pc (m : Mode) (p : SavedPsr) : (s.setSaved m p).pc = s.pc := rfl

@[simp] theorem State.setSaved_cpsr (m : Mode) (p : SavedPsr) : (s.setSaved m p).cpsr = s.cpsr := rfl

@[simp] theorem State.setSaved_spsr (m : Mode) (p : SavedPsr) : (s.setSaved m p).spsr = s.spsr.set m p := rfl

@[simp] theorem State.setSaved_mem (m : Mode) (p : SavedPsr) : (s.setSaved m p).mem = s.mem := rfl

@[simp] theorem State.setSaved_memoryMap (m : Mode) (p : SavedPsr) : (s.setSaved m p).memoryMap = s.memoryMap := rfl

@[simp] theorem State.setSaved_bigend (m : Mode) (p : SavedPsr) : (s.setSaved m p).bigend = s.bigend := rfl

@[simp] theorem State.setSaved_pipe (m : Mode) (p : SavedPsr) : (s.setSaved m p).pipe = s.pipe := rfl

@[simp] theorem State.setSaved_hazard (m : Mode) (p : SavedPsr) : (s.setSaved m p).hazard = s.hazard := rfl

@[simp] theorem State.setSaved_resetCycles (m : Mode) (p : SavedPsr) : (s.setSaved m p).resetCycles = s.resetCycles := rfl

@[simp] theorem State.setSaved_inputs (m : Mode) (p : SavedPsr) : (s.setSaved m p).inputs = s.inputs := rfl

@[simp] theorem State.setSaved_schedule (m : Mode) (p : SavedPsr) : (s.setSaved m p).schedule = s.schedule := rfl

@[simp] theorem State.setSaved_bus (m : Mode) (p : SavedPsr) : (s.setSaved m p).bus = s.bus := rfl

@[simp] theorem State.setSaved_cycles (m : Mode) (p : SavedPsr) : (s.setSaved m p).cycles = s.cycles := rfl

@[simp] theorem State.setSaved_drawIndex (m : Mode) (p : SavedPsr) : (s.setSaved m p).drawIndex = s.drawIndex := rfl

/-! The fields after `setBank`. -/

@[simp] theorem State.setBank_regs (m : Mode) (r : Reg) (v : Word) : (s.setBank m r v).regs = s.regs.set (slot m r).val v (slot m r).isLt := rfl

@[simp] theorem State.setBank_pc (m : Mode) (r : Reg) (v : Word) : (s.setBank m r v).pc = s.pc := rfl

@[simp] theorem State.setBank_cpsr (m : Mode) (r : Reg) (v : Word) : (s.setBank m r v).cpsr = s.cpsr := rfl

@[simp] theorem State.setBank_spsr (m : Mode) (r : Reg) (v : Word) : (s.setBank m r v).spsr = s.spsr := rfl

@[simp] theorem State.setBank_mem (m : Mode) (r : Reg) (v : Word) : (s.setBank m r v).mem = s.mem := rfl

@[simp] theorem State.setBank_memoryMap (m : Mode) (r : Reg) (v : Word) : (s.setBank m r v).memoryMap = s.memoryMap := rfl

@[simp] theorem State.setBank_bigend (m : Mode) (r : Reg) (v : Word) : (s.setBank m r v).bigend = s.bigend := rfl

@[simp] theorem State.setBank_pipe (m : Mode) (r : Reg) (v : Word) : (s.setBank m r v).pipe = s.pipe := rfl

@[simp] theorem State.setBank_hazard (m : Mode) (r : Reg) (v : Word) : (s.setBank m r v).hazard = s.hazard := rfl

@[simp] theorem State.setBank_resetCycles (m : Mode) (r : Reg) (v : Word) : (s.setBank m r v).resetCycles = s.resetCycles := rfl

@[simp] theorem State.setBank_inputs (m : Mode) (r : Reg) (v : Word) : (s.setBank m r v).inputs = s.inputs := rfl

@[simp] theorem State.setBank_schedule (m : Mode) (r : Reg) (v : Word) : (s.setBank m r v).schedule = s.schedule := rfl

@[simp] theorem State.setBank_bus (m : Mode) (r : Reg) (v : Word) : (s.setBank m r v).bus = s.bus := rfl

@[simp] theorem State.setBank_cycles (m : Mode) (r : Reg) (v : Word) : (s.setBank m r v).cycles = s.cycles := rfl

@[simp] theorem State.setBank_drawIndex (m : Mode) (r : Reg) (v : Word) : (s.setBank m r v).drawIndex = s.drawIndex := rfl

/-! The fields after `spend`. -/

@[simp] theorem State.spend_regs (k : Cycles) : (s.spend k).regs = s.regs := rfl

@[simp] theorem State.spend_pc (k : Cycles) : (s.spend k).pc = s.pc := rfl

@[simp] theorem State.spend_cpsr (k : Cycles) : (s.spend k).cpsr = s.cpsr := rfl

@[simp] theorem State.spend_spsr (k : Cycles) : (s.spend k).spsr = s.spsr := rfl

@[simp] theorem State.spend_mem (k : Cycles) : (s.spend k).mem = s.mem := rfl

@[simp] theorem State.spend_memoryMap (k : Cycles) : (s.spend k).memoryMap = s.memoryMap := rfl

@[simp] theorem State.spend_bigend (k : Cycles) : (s.spend k).bigend = s.bigend := rfl

@[simp] theorem State.spend_pipe (k : Cycles) : (s.spend k).pipe = s.pipe := rfl

@[simp] theorem State.spend_hazard (k : Cycles) : (s.spend k).hazard = s.hazard := rfl

@[simp] theorem State.spend_resetCycles (k : Cycles) : (s.spend k).resetCycles = s.resetCycles := rfl

@[simp] theorem State.spend_inputs (k : Cycles) : (s.spend k).inputs = s.inputs := rfl

@[simp] theorem State.spend_schedule (k : Cycles) : (s.spend k).schedule = s.schedule := rfl

@[simp] theorem State.spend_bus (k : Cycles) : (s.spend k).bus = s.bus := rfl

@[simp] theorem State.spend_cycles (k : Cycles) : (s.spend k).cycles = s.cycles.add k := rfl

@[simp] theorem State.spend_drawIndex (k : Cycles) : (s.spend k).drawIndex = s.drawIndex := rfl

/-! The fields after `advance`. -/

@[simp] theorem State.advance_regs (k : Cycles) : (s.advance k).regs = s.regs := rfl

@[simp] theorem State.advance_pc (k : Cycles) : (s.advance k).pc = s.pc + 4 := rfl

@[simp] theorem State.advance_cpsr (k : Cycles) : (s.advance k).cpsr = s.cpsr := rfl

@[simp] theorem State.advance_spsr (k : Cycles) : (s.advance k).spsr = s.spsr := rfl

@[simp] theorem State.advance_mem (k : Cycles) : (s.advance k).mem = s.mem := rfl

@[simp] theorem State.advance_memoryMap (k : Cycles) : (s.advance k).memoryMap = s.memoryMap := rfl

@[simp] theorem State.advance_bigend (k : Cycles) : (s.advance k).bigend = s.bigend := rfl

@[simp] theorem State.advance_pipe (k : Cycles) : (s.advance k).pipe = s.pipe.tail := rfl

@[simp] theorem State.advance_hazard (k : Cycles) : (s.advance k).hazard = false := rfl

@[simp] theorem State.advance_resetCycles (k : Cycles) : (s.advance k).resetCycles = s.resetCycles := rfl

@[simp] theorem State.advance_inputs (k : Cycles) : (s.advance k).inputs = s.inputs := rfl

@[simp] theorem State.advance_schedule (k : Cycles) : (s.advance k).schedule = s.schedule := rfl

@[simp] theorem State.advance_bus (k : Cycles) : (s.advance k).bus = s.bus := rfl

@[simp] theorem State.advance_cycles (k : Cycles) : (s.advance k).cycles = s.cycles.add k := rfl

@[simp] theorem State.advance_drawIndex (k : Cycles) : (s.advance k).drawIndex = s.drawIndex := rfl

/-! The fields after `jump`. -/

@[simp] theorem State.jump_regs (a : Word) (k : Cycles) : (s.jump a k).regs = s.regs := rfl

@[simp] theorem State.jump_pc (a : Word) (k : Cycles) : (s.jump a k).pc = wordAddr a := rfl

@[simp] theorem State.jump_cpsr (a : Word) (k : Cycles) : (s.jump a k).cpsr = s.cpsr := rfl

@[simp] theorem State.jump_spsr (a : Word) (k : Cycles) : (s.jump a k).spsr = s.spsr := rfl

@[simp] theorem State.jump_mem (a : Word) (k : Cycles) : (s.jump a k).mem = s.mem := rfl

@[simp] theorem State.jump_memoryMap (a : Word) (k : Cycles) : (s.jump a k).memoryMap = s.memoryMap := rfl

@[simp] theorem State.jump_bigend (a : Word) (k : Cycles) : (s.jump a k).bigend = s.bigend := rfl

@[simp] theorem State.jump_pipe (a : Word) (k : Cycles) : (s.jump a k).pipe = [] := rfl

@[simp] theorem State.jump_hazard (a : Word) (k : Cycles) : (s.jump a k).hazard = false := rfl

@[simp] theorem State.jump_resetCycles (a : Word) (k : Cycles) : (s.jump a k).resetCycles = s.resetCycles := rfl

@[simp] theorem State.jump_inputs (a : Word) (k : Cycles) : (s.jump a k).inputs = s.inputs := rfl

@[simp] theorem State.jump_schedule (a : Word) (k : Cycles) : (s.jump a k).schedule = s.schedule := rfl

@[simp] theorem State.jump_bus (a : Word) (k : Cycles) : (s.jump a k).bus = s.bus := rfl

@[simp] theorem State.jump_cycles (a : Word) (k : Cycles) : (s.jump a k).cycles = s.cycles.add k := rfl

@[simp] theorem State.jump_drawIndex (a : Word) (k : Cycles) : (s.jump a k).drawIndex = s.drawIndex := rfl

/-! The fields after `log`. -/

@[simp] theorem State.log_regs (e : BusEvent) : (s.log e).regs = s.regs := rfl

@[simp] theorem State.log_pc (e : BusEvent) : (s.log e).pc = s.pc := rfl

@[simp] theorem State.log_cpsr (e : BusEvent) : (s.log e).cpsr = s.cpsr := rfl

@[simp] theorem State.log_spsr (e : BusEvent) : (s.log e).spsr = s.spsr := rfl

@[simp] theorem State.log_mem (e : BusEvent) : (s.log e).mem = s.mem := rfl

@[simp] theorem State.log_memoryMap (e : BusEvent) : (s.log e).memoryMap = s.memoryMap := rfl

@[simp] theorem State.log_bigend (e : BusEvent) : (s.log e).bigend = s.bigend := rfl

@[simp] theorem State.log_pipe (e : BusEvent) : (s.log e).pipe = s.pipe := rfl

@[simp] theorem State.log_hazard (e : BusEvent) : (s.log e).hazard = s.hazard := rfl

@[simp] theorem State.log_resetCycles (e : BusEvent) : (s.log e).resetCycles = s.resetCycles := rfl

@[simp] theorem State.log_inputs (e : BusEvent) : (s.log e).inputs = s.inputs := rfl

@[simp] theorem State.log_schedule (e : BusEvent) : (s.log e).schedule = s.schedule := rfl

@[simp] theorem State.log_bus (e : BusEvent) : (s.log e).bus = s.bus ++ [e] := rfl

@[simp] theorem State.log_cycles (e : BusEvent) : (s.log e).cycles = s.cycles := rfl

@[simp] theorem State.log_drawIndex (e : BusEvent) : (s.log e).drawIndex = s.drawIndex := rfl

/-! The fields after `load`. -/

@[simp] theorem State.load_regs (acc : Access) : (s.load acc).regs = s.regs := rfl

@[simp] theorem State.load_pc (acc : Access) : (s.load acc).pc = s.pc := rfl

@[simp] theorem State.load_cpsr (acc : Access) : (s.load acc).cpsr = s.cpsr := rfl

@[simp] theorem State.load_spsr (acc : Access) : (s.load acc).spsr = s.spsr := rfl

@[simp] theorem State.load_mem (acc : Access) : (s.load acc).mem = s.mem := rfl

@[simp] theorem State.load_memoryMap (acc : Access) : (s.load acc).memoryMap = s.memoryMap := rfl

@[simp] theorem State.load_bigend (acc : Access) : (s.load acc).bigend = s.bigend := rfl

@[simp] theorem State.load_pipe (acc : Access) : (s.load acc).pipe = s.pipe := rfl

@[simp] theorem State.load_hazard (acc : Access) : (s.load acc).hazard = s.hazard := rfl

@[simp] theorem State.load_resetCycles (acc : Access) : (s.load acc).resetCycles = s.resetCycles := rfl

@[simp] theorem State.load_inputs (acc : Access) : (s.load acc).inputs = s.inputs := rfl

@[simp] theorem State.load_schedule (acc : Access) : (s.load acc).schedule = s.schedule := rfl

@[simp] theorem State.load_bus (acc : Access) : (s.load acc).bus = s.bus ++ [.access acc (if s.aborts acc then none else some (s.found acc)) (s.found acc) (s.aborts acc)] := rfl

@[simp] theorem State.load_cycles (acc : Access) : (s.load acc).cycles = s.cycles := rfl

@[simp] theorem State.load_drawIndex (acc : Access) : (s.load acc).drawIndex = s.drawIndex := rfl

/-! The fields after `fetch`. -/

@[simp] theorem State.fetch_regs (a : Word) : (s.fetch a).regs = s.regs := rfl

@[simp] theorem State.fetch_pc (a : Word) : (s.fetch a).pc = s.pc := rfl

@[simp] theorem State.fetch_cpsr (a : Word) : (s.fetch a).cpsr = s.cpsr := rfl

@[simp] theorem State.fetch_spsr (a : Word) : (s.fetch a).spsr = s.spsr := rfl

@[simp] theorem State.fetch_mem (a : Word) : (s.fetch a).mem = s.mem := rfl

@[simp] theorem State.fetch_memoryMap (a : Word) : (s.fetch a).memoryMap = s.memoryMap := rfl

@[simp] theorem State.fetch_bigend (a : Word) : (s.fetch a).bigend = s.bigend := rfl

@[simp] theorem State.fetch_pipe (a : Word) : (s.fetch a).pipe = s.pipe := rfl

@[simp] theorem State.fetch_hazard (a : Word) : (s.fetch a).hazard = s.hazard := rfl

@[simp] theorem State.fetch_resetCycles (a : Word) : (s.fetch a).resetCycles = s.resetCycles := rfl

@[simp] theorem State.fetch_inputs (a : Word) : (s.fetch a).inputs = s.inputs := rfl

@[simp] theorem State.fetch_schedule (a : Word) : (s.fetch a).schedule = s.schedule := rfl

@[simp] theorem State.fetch_bus (a : Word) : (s.fetch a).bus = s.bus ++ [.access { s.fetchAccess a with addr := s.fetchAddr a } (if s.aborts (s.fetchAccess a) then none else some (s.wordAt a)) (s.wordAt a) (s.aborts (s.fetchAccess a))] := rfl

@[simp] theorem State.fetch_cycles (a : Word) : (s.fetch a).cycles = s.cycles := rfl

@[simp] theorem State.fetch_drawIndex (a : Word) : (s.fetch a).drawIndex = s.drawIndex := rfl

/-! The fields after `store`. -/

@[simp] theorem State.store_regs (acc : Access) (v : Word) : (s.store acc v).regs = s.regs := rfl

@[simp] theorem State.store_pc (acc : Access) (v : Word) : (s.store acc v).pc = s.pc := rfl

@[simp] theorem State.store_cpsr (acc : Access) (v : Word) : (s.store acc v).cpsr = s.cpsr := rfl

@[simp] theorem State.store_spsr (acc : Access) (v : Word) : (s.store acc v).spsr = s.spsr := rfl

@[simp] theorem State.store_mem (acc : Access) (v : Word) : (s.store acc v).mem = if s.aborts acc then s.mem else s.memWith acc v := rfl

@[simp] theorem State.store_memoryMap (acc : Access) (v : Word) : (s.store acc v).memoryMap = s.memoryMap := rfl

@[simp] theorem State.store_bigend (acc : Access) (v : Word) : (s.store acc v).bigend = s.bigend := rfl

@[simp] theorem State.store_pipe (acc : Access) (v : Word) : (s.store acc v).pipe = s.pipe := rfl

@[simp] theorem State.store_hazard (acc : Access) (v : Word) : (s.store acc v).hazard = s.hazard := rfl

@[simp] theorem State.store_resetCycles (acc : Access) (v : Word) : (s.store acc v).resetCycles = s.resetCycles := rfl

@[simp] theorem State.store_inputs (acc : Access) (v : Word) : (s.store acc v).inputs = s.inputs := rfl

@[simp] theorem State.store_schedule (acc : Access) (v : Word) : (s.store acc v).schedule = s.schedule := rfl

@[simp] theorem State.store_bus (acc : Access) (v : Word) : (s.store acc v).bus = s.bus ++ [.access acc (some (driven acc.size v)) (s.found acc) (s.aborts acc)] := rfl

@[simp] theorem State.store_cycles (acc : Access) (v : Word) : (s.store acc v).cycles = s.cycles := rfl

@[simp] theorem State.store_drawIndex (acc : Access) (v : Word) : (s.store acc v).drawIndex = s.drawIndex := rfl

/-! The fields after `enter`. -/

@[simp] theorem State.enter_regs (x : Exception) (a : Word) : (s.enter x a).regs = (s.setBank x.mode 14 a).regs := rfl

@[simp] theorem State.enter_pc (x : Exception) (a : Word) : (s.enter x a).pc = x.vector := rfl

@[simp] theorem State.enter_cpsr (x : Exception) (a : Word) : (s.enter x a).cpsr = s.cpsr.entered x := rfl

@[simp] theorem State.enter_spsr (x : Exception) (a : Word) : (s.enter x a).spsr = s.spsr.set x.mode s.cpsr.save := rfl

@[simp] theorem State.enter_mem (x : Exception) (a : Word) : (s.enter x a).mem = s.mem := rfl

@[simp] theorem State.enter_memoryMap (x : Exception) (a : Word) : (s.enter x a).memoryMap = s.memoryMap := rfl

@[simp] theorem State.enter_bigend (x : Exception) (a : Word) : (s.enter x a).bigend = s.bigend := rfl

@[simp] theorem State.enter_pipe (x : Exception) (a : Word) : (s.enter x a).pipe = [] := rfl

@[simp] theorem State.enter_hazard (x : Exception) (a : Word) : (s.enter x a).hazard = false := rfl

@[simp] theorem State.enter_resetCycles (x : Exception) (a : Word) : (s.enter x a).resetCycles = s.resetCycles := rfl

@[simp] theorem State.enter_inputs (x : Exception) (a : Word) : (s.enter x a).inputs = s.inputs := rfl

@[simp] theorem State.enter_schedule (x : Exception) (a : Word) : (s.enter x a).schedule = s.schedule := rfl

@[simp] theorem State.enter_bus (x : Exception) (a : Word) : (s.enter x a).bus = s.bus := rfl

@[simp] theorem State.enter_cycles (x : Exception) (a : Word) : (s.enter x a).cycles = s.cycles.add x.cycles := rfl

@[simp] theorem State.enter_drawIndex (x : Exception) (a : Word) : (s.enter x a).drawIndex = s.drawIndex := rfl

/-! The fields after a write of a register: R15 changes the pc and the pipeline, another register its place. -/

@[simp] theorem State.writeReg_cpsr (r : Reg) (v : Word) : (s.writeReg r v).cpsr = s.cpsr := by
  unfold State.writeReg; split <;> rfl

@[simp] theorem State.writeReg_spsr (r : Reg) (v : Word) : (s.writeReg r v).spsr = s.spsr := by
  unfold State.writeReg; split <;> rfl

@[simp] theorem State.writeReg_mem (r : Reg) (v : Word) : (s.writeReg r v).mem = s.mem := by
  unfold State.writeReg; split <;> rfl

@[simp] theorem State.writeReg_memoryMap (r : Reg) (v : Word) : (s.writeReg r v).memoryMap = s.memoryMap := by
  unfold State.writeReg; split <;> rfl

@[simp] theorem State.writeReg_bigend (r : Reg) (v : Word) : (s.writeReg r v).bigend = s.bigend := by
  unfold State.writeReg; split <;> rfl

@[simp] theorem State.writeReg_hazard (r : Reg) (v : Word) : (s.writeReg r v).hazard = s.hazard := by
  unfold State.writeReg; split <;> rfl

@[simp] theorem State.writeReg_resetCycles (r : Reg) (v : Word) : (s.writeReg r v).resetCycles = s.resetCycles := by
  unfold State.writeReg; split <;> rfl

@[simp] theorem State.writeReg_inputs (r : Reg) (v : Word) : (s.writeReg r v).inputs = s.inputs := by
  unfold State.writeReg; split <;> rfl

@[simp] theorem State.writeReg_schedule (r : Reg) (v : Word) : (s.writeReg r v).schedule = s.schedule := by
  unfold State.writeReg; split <;> rfl

@[simp] theorem State.writeReg_bus (r : Reg) (v : Word) : (s.writeReg r v).bus = s.bus := by
  unfold State.writeReg; split <;> rfl

@[simp] theorem State.writeReg_cycles (r : Reg) (v : Word) : (s.writeReg r v).cycles = s.cycles := by
  unfold State.writeReg; split <;> rfl

@[simp] theorem State.writeReg_drawIndex (r : Reg) (v : Word) : (s.writeReg r v).drawIndex = s.drawIndex := by
  unfold State.writeReg; split <;> rfl

@[simp] theorem State.writeReg_pc {r : Reg} (h : r ≠ 15) (v : Word) : (s.writeReg r v).pc = s.pc := by
  simp [State.writeReg, h]

@[simp] theorem State.writeReg_pipe {r : Reg} (h : r ≠ 15) (v : Word) : (s.writeReg r v).pipe = s.pipe := by
  simp [State.writeReg, h]

/-! The fields after a write-back of the base. -/

@[simp] theorem State.writeBase_cpsr (b : Bool) (r : Reg) (v : Word) : (s.writeBase b r v).cpsr = s.cpsr := by
  unfold State.writeBase; split <;> simp

@[simp] theorem State.writeBase_spsr (b : Bool) (r : Reg) (v : Word) : (s.writeBase b r v).spsr = s.spsr := by
  unfold State.writeBase; split <;> simp

@[simp] theorem State.writeBase_mem (b : Bool) (r : Reg) (v : Word) : (s.writeBase b r v).mem = s.mem := by
  unfold State.writeBase; split <;> simp

@[simp] theorem State.writeBase_memoryMap (b : Bool) (r : Reg) (v : Word) : (s.writeBase b r v).memoryMap = s.memoryMap := by
  unfold State.writeBase; split <;> simp

@[simp] theorem State.writeBase_bigend (b : Bool) (r : Reg) (v : Word) : (s.writeBase b r v).bigend = s.bigend := by
  unfold State.writeBase; split <;> simp

@[simp] theorem State.writeBase_hazard (b : Bool) (r : Reg) (v : Word) : (s.writeBase b r v).hazard = s.hazard := by
  unfold State.writeBase; split <;> simp

@[simp] theorem State.writeBase_resetCycles (b : Bool) (r : Reg) (v : Word) : (s.writeBase b r v).resetCycles = s.resetCycles := by
  unfold State.writeBase; split <;> simp

@[simp] theorem State.writeBase_inputs (b : Bool) (r : Reg) (v : Word) : (s.writeBase b r v).inputs = s.inputs := by
  unfold State.writeBase; split <;> simp

@[simp] theorem State.writeBase_schedule (b : Bool) (r : Reg) (v : Word) : (s.writeBase b r v).schedule = s.schedule := by
  unfold State.writeBase; split <;> simp

@[simp] theorem State.writeBase_bus (b : Bool) (r : Reg) (v : Word) : (s.writeBase b r v).bus = s.bus := by
  unfold State.writeBase; split <;> simp

@[simp] theorem State.writeBase_cycles (b : Bool) (r : Reg) (v : Word) : (s.writeBase b r v).cycles = s.cycles := by
  unfold State.writeBase; split <;> simp

@[simp] theorem State.writeBase_drawIndex (b : Bool) (r : Reg) (v : Word) : (s.writeBase b r v).drawIndex = s.drawIndex := by
  unfold State.writeBase; split <;> simp

end Sys2Proof.Machine
end

