-- ==== Sys2Proof/Laws/Memory.lean ====
section
/-! SUPPORT. The laws of memory: read after write, and the canonical form. -/

namespace Sys2Proof.Machine

/-- A well-formed list has nothing below its lower bound. -/
theorem Memory.read_of_lt {lo a : Nat} {m : Memory} (h : Memory.wfFrom lo m) (ha : a < lo) :
    Memory.read m a = unlistedByte := by
  induction m generalizing lo with
  | nil => rfl
  | cons e m ih =>
    obtain ⟨k, b⟩ := e
    simp only [Memory.wfFrom, Bool.and_eq_true, decide_eq_true_eq] at h
    rw [Memory.read, if_neg (by omega)]
    exact ih h.2 (by omega)

/-- The bound of a well-formed list may be lowered. -/
theorem Memory.wfFrom_mono {lo lo' : Nat} {m : Memory} (h : Memory.wfFrom lo m) (hl : lo' ≤ lo) :
    Memory.wfFrom lo' m := by
  cases m with
  | nil => rfl
  | cons e m =>
    obtain ⟨k, b⟩ := e
    simp only [Memory.wfFrom, Bool.and_eq_true, decide_eq_true_eq] at h ⊢
    exact ⟨⟨⟨by omega, h.1.1.2⟩, h.1.2⟩, h.2⟩

/-- A write keeps the canonical form. -/
theorem Memory.wfFrom_write {lo a : Nat} {v : Byte} {m : Memory} (h : Memory.wfFrom lo m) (hl : lo ≤ a)
    (ha : a < 2 ^ 32) : Memory.wfFrom lo (Memory.write m a v) := by
  induction m generalizing lo with
  | nil =>
    unfold Memory.write
    split
    · rfl
    · simp_all [Memory.wfFrom]
  | cons e m ih =>
    obtain ⟨k, b⟩ := e
    have h' := h
    simp only [Memory.wfFrom, Bool.and_eq_true, decide_eq_true_eq, bne_iff_ne] at h'
    obtain ⟨⟨⟨h1, h2⟩, h3⟩, h4⟩ := h'
    unfold Memory.write
    split
    · split
      · exact h
      · simp_all [Memory.wfFrom]
    · split
      · subst_vars
        split
        · exact Memory.wfFrom_mono h4 (by omega)
        · simp_all [Memory.wfFrom]
      · simp only [Memory.wfFrom, Bool.and_eq_true, decide_eq_true_eq, bne_iff_ne]
        exact ⟨⟨⟨h1, h2⟩, h3⟩, ih h4 (by omega)⟩

/-- A write keeps the canonical form of the whole memory. -/
theorem Memory.wf_write {a : Nat} {v : Byte} {m : Memory} (h : Memory.wf m) (ha : a < 2 ^ 32) :
    Memory.wf (Memory.write m a v) :=
  Memory.wfFrom_write h (Nat.zero_le _) ha

/-- Reading after a write from a bound on: the byte written, or the byte that was there. -/
theorem Memory.read_write_from {lo a b : Nat} {v : Byte} {m : Memory} (h : Memory.wfFrom lo m) :
    Memory.read (Memory.write m a v) b = if b = a then v else Memory.read m b := by
  induction m generalizing lo with
  | nil =>
    unfold Memory.write
    split <;> grind [Memory.read]
  | cons e m ih =>
    obtain ⟨k, c⟩ := e
    have h' := h
    simp only [Memory.wfFrom, Bool.and_eq_true, decide_eq_true_eq, bne_iff_ne] at h'
    obtain ⟨_, h4⟩ := h'
    unfold Memory.write
    split
    · split
      · split
        · subst_vars
          rw [Memory.read, if_neg (by omega)]
          exact Memory.read_of_lt h4 (by omega)
        · rfl
      · grind [Memory.read]
    · split
      · subst_vars
        split
        · split
          · subst_vars; exact Memory.read_of_lt h4 (by omega)
          · grind [Memory.read]
        · grind [Memory.read]
      · simp only [Memory.read, ih h4]
        split <;> split <;> simp_all

/-- Reading after a write: the byte written, or the byte that was there. -/
theorem Memory.read_write {a b : Nat} {v : Byte} {m : Memory} (h : Memory.wf m) :
    Memory.read (Memory.write m a v) b = if b = a then v else Memory.read m b :=
  Memory.read_write_from h

/-- A guarded write keeps the canonical form. -/
theorem Memory.wf_put {may : Word → Bool} {a : Word} {v : Byte} {m : Memory} (h : Memory.wf m) :
    Memory.wf (Memory.put may m a v) := by
  unfold Memory.put
  split
  · exact Memory.wf_write h (BitVec.isLt _)
  · exact h

/-- Reading after a guarded write: the byte written, if its address may be, or the byte that was there. -/
theorem Memory.read_put {may : Word → Bool} {a b : Word} {v : Byte} {m : Memory} (h : Memory.wf m) :
    Memory.read (Memory.put may m a v) b.toNat = if b = a ∧ may b = true then v else Memory.read m b.toNat := by
  unfold Memory.put
  split
  · rw [Memory.read_write h]
    simp only [BitVec.toNat_inj]
    grind
  · grind

/-- A guarded word write keeps the canonical form. -/
theorem Memory.wf_putWord {may : Word → Bool} {big : Bool} {a v : Word} {m : Memory} (h : Memory.wf m) :
    Memory.wf (Memory.putWord may big m a v) :=
  Memory.wf_put (Memory.wf_put (Memory.wf_put (Memory.wf_put h)))

/-- A write by an access keeps the canonical form. -/
theorem State.wf_memWith {s : State} {acc : Access} {v : Word} (h : Memory.wf s.mem) :
    Memory.wf (s.memWith acc v) := by
  unfold State.memWith
  split
  · exact Memory.wf_putWord h
  · exact Memory.wf_put h

/-- A store keeps the canonical form. -/
theorem State.wf_store {s : State} {acc : Access} {v : Word} (h : Memory.wf s.mem) :
    Memory.wf (s.store acc v).mem := by
  rw [State.store_mem]
  split
  · exact h
  · exact State.wf_memWith h

/-- Stores one after another keep the canonical form. -/
theorem State.wf_storeWords {s : State} {addr : Word} {vs : List Word} (h : Memory.wf s.mem) :
    Memory.wf (s.storeWords addr vs).mem := by
  induction vs generalizing s addr with
  | nil => exact h
  | cons v vs ih => exact ih (State.wf_store h)

/-- Memory at reset is in canonical form. -/
theorem State.reset_wf : Memory.wf State.reset.mem := rfl

end Sys2Proof.Machine
end

