-- ==== Sys2Proof/Laws/Reads.lean ====
section
/-! SUPPORT. What each update leaves as it is, seen through the reads of the state. -/

namespace Sys2Proof.Machine

variable (s : State)

/-! The reads after `setPsr`. -/

@[simp] theorem State.setPsr_bankReg (p : Psr) (m : Mode) (r : Reg) : (s.setPsr p).bankReg m r = s.bankReg m r := rfl

@[simp] theorem State.setPsr_byteAt (p : Psr) (y : Word) : (s.setPsr p).byteAt y = s.byteAt y := rfl

@[simp] theorem State.setPsr_kindAt (p : Psr) (y : Word) : (s.setPsr p).kindAt y = s.kindAt y := rfl

@[simp] theorem State.setPsr_writable (p : Psr) (y : Word) : (s.setPsr p).writable y = s.writable y := rfl

@[simp] theorem State.setPsr_readByte (p : Psr) (y : Word) : (s.setPsr p).readByte y = s.readByte y := rfl

@[simp] theorem State.setPsr_wordAt (p : Psr) (y : Word) : (s.setPsr p).wordAt y = s.wordAt y := rfl

@[simp] theorem State.setPsr_found (p : Psr) (y : Access) : (s.setPsr p).found y = s.found y := rfl

@[simp] theorem State.setPsr_loaded (p : Psr) (y : Access) : (s.setPsr p).loaded y = s.loaded y := rfl

@[simp] theorem State.setPsr_aborts (p : Psr) (y : Access) : (s.setPsr p).aborts y = s.aborts y := rfl

@[simp] theorem State.setPsr_savedOf (p : Psr) (m : Mode) : (s.setPsr p).savedOf m = s.savedOf m := rfl

/-! The reads after `setSaved`. -/

@[simp] theorem State.setSaved_bankReg (n : Mode) (p : SavedPsr) (m : Mode) (r : Reg) : (s.setSaved n p).bankReg m r = s.bankReg m r := rfl

@[simp] theorem State.setSaved_byteAt (n : Mode) (p : SavedPsr) (y : Word) : (s.setSaved n p).byteAt y = s.byteAt y := rfl

@[simp] theorem State.setSaved_kindAt (n : Mode) (p : SavedPsr) (y : Word) : (s.setSaved n p).kindAt y = s.kindAt y := rfl

@[simp] theorem State.setSaved_writable (n : Mode) (p : SavedPsr) (y : Word) : (s.setSaved n p).writable y = s.writable y := rfl

@[simp] theorem State.setSaved_readByte (n : Mode) (p : SavedPsr) (y : Word) : (s.setSaved n p).readByte y = s.readByte y := rfl

@[simp] theorem State.setSaved_wordAt (n : Mode) (p : SavedPsr) (y : Word) : (s.setSaved n p).wordAt y = s.wordAt y := rfl

@[simp] theorem State.setSaved_found (n : Mode) (p : SavedPsr) (y : Access) : (s.setSaved n p).found y = s.found y := rfl

@[simp] theorem State.setSaved_loaded (n : Mode) (p : SavedPsr) (y : Access) : (s.setSaved n p).loaded y = s.loaded y := rfl

@[simp] theorem State.setSaved_aborts (n : Mode) (p : SavedPsr) (y : Access) : (s.setSaved n p).aborts y = s.aborts y := rfl

@[simp] theorem State.setSaved_privileged (n : Mode) (p : SavedPsr) : (s.setSaved n p).privileged = s.privileged := rfl

@[simp] theorem State.setSaved_fetchAccess (n : Mode) (p : SavedPsr) (y : Word) : (s.setSaved n p).fetchAccess y = s.fetchAccess y := rfl

@[simp] theorem State.setSaved_dataAccess (n : Mode) (p : SavedPsr) (y : Word) (z : Size) (o : Bool) : (s.setSaved n p).dataAccess y z o = s.dataAccess y z o := rfl

@[simp] theorem State.setSaved_inHazard (n : Mode) (p : SavedPsr) (r : Reg) : (s.setSaved n p).inHazard r = s.inHazard r := rfl

@[simp] theorem State.setSaved_readReg (n : Mode) (p : SavedPsr) (o : Port) (y : Word) (r : Reg) : (s.setSaved n p).readReg o y r = s.readReg o y r := rfl

/-! The reads after `setBank`. -/

@[simp] theorem State.setBank_byteAt (n : Mode) (q : Reg) (v : Word) (y : Word) : (s.setBank n q v).byteAt y = s.byteAt y := rfl

@[simp] theorem State.setBank_kindAt (n : Mode) (q : Reg) (v : Word) (y : Word) : (s.setBank n q v).kindAt y = s.kindAt y := rfl

@[simp] theorem State.setBank_writable (n : Mode) (q : Reg) (v : Word) (y : Word) : (s.setBank n q v).writable y = s.writable y := rfl

@[simp] theorem State.setBank_readByte (n : Mode) (q : Reg) (v : Word) (y : Word) : (s.setBank n q v).readByte y = s.readByte y := rfl

@[simp] theorem State.setBank_wordAt (n : Mode) (q : Reg) (v : Word) (y : Word) : (s.setBank n q v).wordAt y = s.wordAt y := rfl

@[simp] theorem State.setBank_found (n : Mode) (q : Reg) (v : Word) (y : Access) : (s.setBank n q v).found y = s.found y := rfl

@[simp] theorem State.setBank_loaded (n : Mode) (q : Reg) (v : Word) (y : Access) : (s.setBank n q v).loaded y = s.loaded y := rfl

@[simp] theorem State.setBank_aborts (n : Mode) (q : Reg) (v : Word) (y : Access) : (s.setBank n q v).aborts y = s.aborts y := rfl

@[simp] theorem State.setBank_privileged (n : Mode) (q : Reg) (v : Word) : (s.setBank n q v).privileged = s.privileged := rfl

@[simp] theorem State.setBank_fetchAccess (n : Mode) (q : Reg) (v : Word) (y : Word) : (s.setBank n q v).fetchAccess y = s.fetchAccess y := rfl

@[simp] theorem State.setBank_dataAccess (n : Mode) (q : Reg) (v : Word) (y : Word) (z : Size) (o : Bool) : (s.setBank n q v).dataAccess y z o = s.dataAccess y z o := rfl

@[simp] theorem State.setBank_inHazard (n : Mode) (q : Reg) (v : Word) (r : Reg) : (s.setBank n q v).inHazard r = s.inHazard r := rfl

@[simp] theorem State.setBank_savedOf (n : Mode) (q : Reg) (v : Word) (m : Mode) : (s.setBank n q v).savedOf m = s.savedOf m := rfl

@[simp] theorem State.setBank_restored (n : Mode) (q : Reg) (v : Word) : (s.setBank n q v).restored = s.restored := rfl

/-! The reads after `spend`. -/

@[simp] theorem State.spend_bankReg (k : Cycles) (m : Mode) (r : Reg) : (s.spend k).bankReg m r = s.bankReg m r := rfl

@[simp] theorem State.spend_byteAt (k : Cycles) (y : Word) : (s.spend k).byteAt y = s.byteAt y := rfl

@[simp] theorem State.spend_kindAt (k : Cycles) (y : Word) : (s.spend k).kindAt y = s.kindAt y := rfl

@[simp] theorem State.spend_writable (k : Cycles) (y : Word) : (s.spend k).writable y = s.writable y := rfl

@[simp] theorem State.spend_readByte (k : Cycles) (y : Word) : (s.spend k).readByte y = s.readByte y := rfl

@[simp] theorem State.spend_wordAt (k : Cycles) (y : Word) : (s.spend k).wordAt y = s.wordAt y := rfl

@[simp] theorem State.spend_found (k : Cycles) (y : Access) : (s.spend k).found y = s.found y := rfl

@[simp] theorem State.spend_loaded (k : Cycles) (y : Access) : (s.spend k).loaded y = s.loaded y := rfl

@[simp] theorem State.spend_aborts (k : Cycles) (y : Access) : (s.spend k).aborts y = s.aborts y := rfl

@[simp] theorem State.spend_privileged (k : Cycles) : (s.spend k).privileged = s.privileged := rfl

@[simp] theorem State.spend_fetchAccess (k : Cycles) (y : Word) : (s.spend k).fetchAccess y = s.fetchAccess y := rfl

@[simp] theorem State.spend_dataAccess (k : Cycles) (y : Word) (z : Size) (o : Bool) : (s.spend k).dataAccess y z o = s.dataAccess y z o := rfl

@[simp] theorem State.spend_inHazard (k : Cycles) (r : Reg) : (s.spend k).inHazard r = s.inHazard r := rfl

@[simp] theorem State.spend_savedOf (k : Cycles) (m : Mode) : (s.spend k).savedOf m = s.savedOf m := rfl

@[simp] theorem State.spend_restored (k : Cycles) : (s.spend k).restored = s.restored := rfl

@[simp] theorem State.spend_readReg (k : Cycles) (o : Port) (y : Word) (r : Reg) : (s.spend k).readReg o y r = s.readReg o y r := rfl

/-! The reads after `advance`. -/

@[simp] theorem State.advance_bankReg (k : Cycles) (m : Mode) (r : Reg) : (s.advance k).bankReg m r = s.bankReg m r := rfl

@[simp] theorem State.advance_byteAt (k : Cycles) (y : Word) : (s.advance k).byteAt y = s.byteAt y := rfl

@[simp] theorem State.advance_kindAt (k : Cycles) (y : Word) : (s.advance k).kindAt y = s.kindAt y := rfl

@[simp] theorem State.advance_writable (k : Cycles) (y : Word) : (s.advance k).writable y = s.writable y := rfl

@[simp] theorem State.advance_readByte (k : Cycles) (y : Word) : (s.advance k).readByte y = s.readByte y := rfl

@[simp] theorem State.advance_wordAt (k : Cycles) (y : Word) : (s.advance k).wordAt y = s.wordAt y := rfl

@[simp] theorem State.advance_found (k : Cycles) (y : Access) : (s.advance k).found y = s.found y := rfl

@[simp] theorem State.advance_loaded (k : Cycles) (y : Access) : (s.advance k).loaded y = s.loaded y := rfl

@[simp] theorem State.advance_aborts (k : Cycles) (y : Access) : (s.advance k).aborts y = s.aborts y := rfl

@[simp] theorem State.advance_privileged (k : Cycles) : (s.advance k).privileged = s.privileged := rfl

@[simp] theorem State.advance_fetchAccess (k : Cycles) (y : Word) : (s.advance k).fetchAccess y = s.fetchAccess y := rfl

@[simp] theorem State.advance_dataAccess (k : Cycles) (y : Word) (z : Size) (o : Bool) : (s.advance k).dataAccess y z o = s.dataAccess y z o := rfl

@[simp] theorem State.advance_savedOf (k : Cycles) (m : Mode) : (s.advance k).savedOf m = s.savedOf m := rfl

@[simp] theorem State.advance_restored (k : Cycles) : (s.advance k).restored = s.restored := rfl

/-! The reads after `jump`. -/

@[simp] theorem State.jump_bankReg (a : Word) (k : Cycles) (m : Mode) (r : Reg) : (s.jump a k).bankReg m r = s.bankReg m r := rfl

@[simp] theorem State.jump_byteAt (a : Word) (k : Cycles) (y : Word) : (s.jump a k).byteAt y = s.byteAt y := rfl

@[simp] theorem State.jump_kindAt (a : Word) (k : Cycles) (y : Word) : (s.jump a k).kindAt y = s.kindAt y := rfl

@[simp] theorem State.jump_writable (a : Word) (k : Cycles) (y : Word) : (s.jump a k).writable y = s.writable y := rfl

@[simp] theorem State.jump_readByte (a : Word) (k : Cycles) (y : Word) : (s.jump a k).readByte y = s.readByte y := rfl

@[simp] theorem State.jump_wordAt (a : Word) (k : Cycles) (y : Word) : (s.jump a k).wordAt y = s.wordAt y := rfl

@[simp] theorem State.jump_found (a : Word) (k : Cycles) (y : Access) : (s.jump a k).found y = s.found y := rfl

@[simp] theorem State.jump_loaded (a : Word) (k : Cycles) (y : Access) : (s.jump a k).loaded y = s.loaded y := rfl

@[simp] theorem State.jump_aborts (a : Word) (k : Cycles) (y : Access) : (s.jump a k).aborts y = s.aborts y := rfl

@[simp] theorem State.jump_privileged (a : Word) (k : Cycles) : (s.jump a k).privileged = s.privileged := rfl

@[simp] theorem State.jump_fetchAccess (a : Word) (k : Cycles) (y : Word) : (s.jump a k).fetchAccess y = s.fetchAccess y := rfl

@[simp] theorem State.jump_dataAccess (a : Word) (k : Cycles) (y : Word) (z : Size) (o : Bool) : (s.jump a k).dataAccess y z o = s.dataAccess y z o := rfl

@[simp] theorem State.jump_savedOf (a : Word) (k : Cycles) (m : Mode) : (s.jump a k).savedOf m = s.savedOf m := rfl

@[simp] theorem State.jump_restored (a : Word) (k : Cycles) : (s.jump a k).restored = s.restored := rfl

/-! The reads after `log`. -/

@[simp] theorem State.log_bankReg (e : BusEvent) (m : Mode) (r : Reg) : (s.log e).bankReg m r = s.bankReg m r := rfl

@[simp] theorem State.log_byteAt (e : BusEvent) (y : Word) : (s.log e).byteAt y = s.byteAt y := rfl

@[simp] theorem State.log_kindAt (e : BusEvent) (y : Word) : (s.log e).kindAt y = s.kindAt y := rfl

@[simp] theorem State.log_writable (e : BusEvent) (y : Word) : (s.log e).writable y = s.writable y := rfl

@[simp] theorem State.log_readByte (e : BusEvent) (y : Word) : (s.log e).readByte y = s.readByte y := rfl

@[simp] theorem State.log_wordAt (e : BusEvent) (y : Word) : (s.log e).wordAt y = s.wordAt y := rfl

@[simp] theorem State.log_found (e : BusEvent) (y : Access) : (s.log e).found y = s.found y := rfl

@[simp] theorem State.log_loaded (e : BusEvent) (y : Access) : (s.log e).loaded y = s.loaded y := rfl

@[simp] theorem State.log_aborts (e : BusEvent) (y : Access) : (s.log e).aborts y = s.aborts y := rfl

@[simp] theorem State.log_privileged (e : BusEvent) : (s.log e).privileged = s.privileged := rfl

@[simp] theorem State.log_fetchAccess (e : BusEvent) (y : Word) : (s.log e).fetchAccess y = s.fetchAccess y := rfl

@[simp] theorem State.log_dataAccess (e : BusEvent) (y : Word) (z : Size) (o : Bool) : (s.log e).dataAccess y z o = s.dataAccess y z o := rfl

@[simp] theorem State.log_inHazard (e : BusEvent) (r : Reg) : (s.log e).inHazard r = s.inHazard r := rfl

@[simp] theorem State.log_savedOf (e : BusEvent) (m : Mode) : (s.log e).savedOf m = s.savedOf m := rfl

@[simp] theorem State.log_restored (e : BusEvent) : (s.log e).restored = s.restored := rfl

@[simp] theorem State.log_readReg (e : BusEvent) (o : Port) (y : Word) (r : Reg) : (s.log e).readReg o y r = s.readReg o y r := rfl

/-! The reads after `load`. -/

@[simp] theorem State.load_bankReg (x : Access) (m : Mode) (r : Reg) : (s.load x).bankReg m r = s.bankReg m r := rfl

@[simp] theorem State.load_byteAt (x : Access) (y : Word) : (s.load x).byteAt y = s.byteAt y := rfl

@[simp] theorem State.load_kindAt (x : Access) (y : Word) : (s.load x).kindAt y = s.kindAt y := rfl

@[simp] theorem State.load_writable (x : Access) (y : Word) : (s.load x).writable y = s.writable y := rfl

@[simp] theorem State.load_readByte (x : Access) (y : Word) : (s.load x).readByte y = s.readByte y := rfl

@[simp] theorem State.load_wordAt (x : Access) (y : Word) : (s.load x).wordAt y = s.wordAt y := rfl

@[simp] theorem State.load_found (x : Access) (y : Access) : (s.load x).found y = s.found y := rfl

@[simp] theorem State.load_loaded (x : Access) (y : Access) : (s.load x).loaded y = s.loaded y := rfl

@[simp] theorem State.load_aborts (x : Access) (y : Access) : (s.load x).aborts y = s.aborts y := rfl

@[simp] theorem State.load_privileged (x : Access) : (s.load x).privileged = s.privileged := rfl

@[simp] theorem State.load_fetchAccess (x : Access) (y : Word) : (s.load x).fetchAccess y = s.fetchAccess y := rfl

@[simp] theorem State.load_dataAccess (x : Access) (y : Word) (z : Size) (o : Bool) : (s.load x).dataAccess y z o = s.dataAccess y z o := rfl

@[simp] theorem State.load_inHazard (x : Access) (r : Reg) : (s.load x).inHazard r = s.inHazard r := rfl

@[simp] theorem State.load_savedOf (x : Access) (m : Mode) : (s.load x).savedOf m = s.savedOf m := rfl

@[simp] theorem State.load_restored (x : Access) : (s.load x).restored = s.restored := rfl

@[simp] theorem State.load_readReg (x : Access) (o : Port) (y : Word) (r : Reg) : (s.load x).readReg o y r = s.readReg o y r := rfl

/-! The reads after `fetch`. -/

@[simp] theorem State.fetch_bankReg (x : Word) (m : Mode) (r : Reg) : (s.fetch x).bankReg m r = s.bankReg m r := rfl

@[simp] theorem State.fetch_byteAt (x : Word) (y : Word) : (s.fetch x).byteAt y = s.byteAt y := rfl

@[simp] theorem State.fetch_kindAt (x : Word) (y : Word) : (s.fetch x).kindAt y = s.kindAt y := rfl

@[simp] theorem State.fetch_writable (x : Word) (y : Word) : (s.fetch x).writable y = s.writable y := rfl

@[simp] theorem State.fetch_readByte (x : Word) (y : Word) : (s.fetch x).readByte y = s.readByte y := rfl

@[simp] theorem State.fetch_wordAt (x : Word) (y : Word) : (s.fetch x).wordAt y = s.wordAt y := rfl

@[simp] theorem State.fetch_found (x : Word) (y : Access) : (s.fetch x).found y = s.found y := rfl

@[simp] theorem State.fetch_loaded (x : Word) (y : Access) : (s.fetch x).loaded y = s.loaded y := rfl

@[simp] theorem State.fetch_aborts (x : Word) (y : Access) : (s.fetch x).aborts y = s.aborts y := rfl

@[simp] theorem State.fetch_privileged (x : Word) : (s.fetch x).privileged = s.privileged := rfl

@[simp] theorem State.fetch_fetchAccess (x : Word) (y : Word) : (s.fetch x).fetchAccess y = s.fetchAccess y := rfl

@[simp] theorem State.fetch_dataAccess (x : Word) (y : Word) (z : Size) (o : Bool) : (s.fetch x).dataAccess y z o = s.dataAccess y z o := rfl

@[simp] theorem State.fetch_inHazard (x : Word) (r : Reg) : (s.fetch x).inHazard r = s.inHazard r := rfl

@[simp] theorem State.fetch_savedOf (x : Word) (m : Mode) : (s.fetch x).savedOf m = s.savedOf m := rfl

@[simp] theorem State.fetch_restored (x : Word) : (s.fetch x).restored = s.restored := rfl

@[simp] theorem State.fetch_readReg (x : Word) (o : Port) (y : Word) (r : Reg) : (s.fetch x).readReg o y r = s.readReg o y r := rfl

/-! The reads after `store`. -/

@[simp] theorem State.store_bankReg (x : Access) (v : Word) (m : Mode) (r : Reg) : (s.store x v).bankReg m r = s.bankReg m r := rfl

@[simp] theorem State.store_kindAt (x : Access) (v : Word) (y : Word) : (s.store x v).kindAt y = s.kindAt y := rfl

@[simp] theorem State.store_writable (x : Access) (v : Word) (y : Word) : (s.store x v).writable y = s.writable y := rfl

@[simp] theorem State.store_aborts (x : Access) (v : Word) (y : Access) : (s.store x v).aborts y = s.aborts y := rfl

@[simp] theorem State.store_privileged (x : Access) (v : Word) : (s.store x v).privileged = s.privileged := rfl

@[simp] theorem State.store_fetchAccess (x : Access) (v : Word) (y : Word) : (s.store x v).fetchAccess y = s.fetchAccess y := rfl

@[simp] theorem State.store_dataAccess (x : Access) (v : Word) (y : Word) (z : Size) (o : Bool) : (s.store x v).dataAccess y z o = s.dataAccess y z o := rfl

@[simp] theorem State.store_inHazard (x : Access) (v : Word) (r : Reg) : (s.store x v).inHazard r = s.inHazard r := rfl

@[simp] theorem State.store_savedOf (x : Access) (v : Word) (m : Mode) : (s.store x v).savedOf m = s.savedOf m := rfl

@[simp] theorem State.store_restored (x : Access) (v : Word) : (s.store x v).restored = s.restored := rfl

@[simp] theorem State.store_readReg (x : Access) (v : Word) (o : Port) (y : Word) (r : Reg) : (s.store x v).readReg o y r = s.readReg o y r := rfl

/-! The reads after `writeReg`. -/

@[simp] theorem State.writeReg_byteAt (q : Reg) (v : Word) (y : Word) : (s.writeReg q v).byteAt y = s.byteAt y := by
  unfold State.writeReg; split <;> rfl

@[simp] theorem State.writeReg_kindAt (q : Reg) (v : Word) (y : Word) : (s.writeReg q v).kindAt y = s.kindAt y := by
  unfold State.writeReg; split <;> rfl

@[simp] theorem State.writeReg_writable (q : Reg) (v : Word) (y : Word) : (s.writeReg q v).writable y = s.writable y := by
  unfold State.writeReg; split <;> rfl

@[simp] theorem State.writeReg_readByte (q : Reg) (v : Word) (y : Word) : (s.writeReg q v).readByte y = s.readByte y := by
  unfold State.writeReg; split <;> rfl

@[simp] theorem State.writeReg_wordAt (q : Reg) (v : Word) (y : Word) : (s.writeReg q v).wordAt y = s.wordAt y := by
  unfold State.writeReg; split <;> rfl

@[simp] theorem State.writeReg_found (q : Reg) (v : Word) (y : Access) : (s.writeReg q v).found y = s.found y := by
  unfold State.writeReg; split <;> rfl

@[simp] theorem State.writeReg_loaded (q : Reg) (v : Word) (y : Access) : (s.writeReg q v).loaded y = s.loaded y := by
  unfold State.writeReg; split <;> rfl

@[simp] theorem State.writeReg_aborts (q : Reg) (v : Word) (y : Access) : (s.writeReg q v).aborts y = s.aborts y := by
  unfold State.writeReg; split <;> rfl

@[simp] theorem State.writeReg_privileged (q : Reg) (v : Word) : (s.writeReg q v).privileged = s.privileged := by
  unfold State.writeReg; split <;> rfl

@[simp] theorem State.writeReg_fetchAccess (q : Reg) (v : Word) (y : Word) : (s.writeReg q v).fetchAccess y = s.fetchAccess y := by
  unfold State.writeReg; split <;> rfl

@[simp] theorem State.writeReg_dataAccess (q : Reg) (v : Word) (y : Word) (z : Size) (o : Bool) : (s.writeReg q v).dataAccess y z o = s.dataAccess y z o := by
  unfold State.writeReg; split <;> rfl

@[simp] theorem State.writeReg_inHazard (q : Reg) (v : Word) (r : Reg) : (s.writeReg q v).inHazard r = s.inHazard r := by
  unfold State.writeReg; split <;> rfl

@[simp] theorem State.writeReg_savedOf (q : Reg) (v : Word) (m : Mode) : (s.writeReg q v).savedOf m = s.savedOf m := by
  unfold State.writeReg; split <;> rfl

@[simp] theorem State.writeReg_restored (q : Reg) (v : Word) : (s.writeReg q v).restored = s.restored := by
  unfold State.writeReg; split <;> rfl

/-! The reads after `writeBase`. -/

@[simp] theorem State.writeBase_byteAt (b : Bool) (q : Reg) (v : Word) (y : Word) : (s.writeBase b q v).byteAt y = s.byteAt y := by
  unfold State.writeBase; split <;> simp

@[simp] theorem State.writeBase_kindAt (b : Bool) (q : Reg) (v : Word) (y : Word) : (s.writeBase b q v).kindAt y = s.kindAt y := by
  unfold State.writeBase; split <;> simp

@[simp] theorem State.writeBase_writable (b : Bool) (q : Reg) (v : Word) (y : Word) : (s.writeBase b q v).writable y = s.writable y := by
  unfold State.writeBase; split <;> simp

@[simp] theorem State.writeBase_readByte (b : Bool) (q : Reg) (v : Word) (y : Word) : (s.writeBase b q v).readByte y = s.readByte y := by
  unfold State.writeBase; split <;> simp

@[simp] theorem State.writeBase_wordAt (b : Bool) (q : Reg) (v : Word) (y : Word) : (s.writeBase b q v).wordAt y = s.wordAt y := by
  unfold State.writeBase; split <;> simp

@[simp] theorem State.writeBase_found (b : Bool) (q : Reg) (v : Word) (y : Access) : (s.writeBase b q v).found y = s.found y := by
  unfold State.writeBase; split <;> simp

@[simp] theorem State.writeBase_loaded (b : Bool) (q : Reg) (v : Word) (y : Access) : (s.writeBase b q v).loaded y = s.loaded y := by
  unfold State.writeBase; split <;> simp

@[simp] theorem State.writeBase_aborts (b : Bool) (q : Reg) (v : Word) (y : Access) : (s.writeBase b q v).aborts y = s.aborts y := by
  unfold State.writeBase; split <;> simp

@[simp] theorem State.writeBase_privileged (b : Bool) (q : Reg) (v : Word) : (s.writeBase b q v).privileged = s.privileged := by
  unfold State.writeBase; split <;> simp

@[simp] theorem State.writeBase_fetchAccess (b : Bool) (q : Reg) (v : Word) (y : Word) : (s.writeBase b q v).fetchAccess y = s.fetchAccess y := by
  unfold State.writeBase; split <;> simp

@[simp] theorem State.writeBase_dataAccess (b : Bool) (q : Reg) (v : Word) (y : Word) (z : Size) (o : Bool) : (s.writeBase b q v).dataAccess y z o = s.dataAccess y z o := by
  unfold State.writeBase; split <;> simp

@[simp] theorem State.writeBase_inHazard (b : Bool) (q : Reg) (v : Word) (r : Reg) : (s.writeBase b q v).inHazard r = s.inHazard r := by
  unfold State.writeBase; split <;> simp

@[simp] theorem State.writeBase_savedOf (b : Bool) (q : Reg) (v : Word) (m : Mode) : (s.writeBase b q v).savedOf m = s.savedOf m := by
  unfold State.writeBase; split <;> simp

@[simp] theorem State.writeBase_restored (b : Bool) (q : Reg) (v : Word) : (s.writeBase b q v).restored = s.restored := by
  unfold State.writeBase; split <;> simp

/-! The general registers after a write. -/

/-- A register after a write of a place: the value written, if the place is its own. -/
theorem State.bankReg_setBank (m n : Mode) (r q : Reg) (v : Word) :
    (s.setBank n q v).bankReg m r = if slot m r = slot n q then v else s.bankReg m r := by
  simp only [State.bankReg, State.setBank, Vector.get_eq_getElem, Vector.getElem_set, Fin.ext_iff]
  grind

/-- The place written holds the value. -/
@[simp] theorem State.bankReg_setBank_self (m : Mode) (r : Reg) (v : Word) : (s.setBank m r v).bankReg m r = v := by
  simp [State.bankReg_setBank]

/-- A register after a write of a register other than R15. -/
theorem State.bankReg_writeReg (m : Mode) (r q : Reg) (v : Word) (hq : q ≠ 15) :
    (s.writeReg q v).bankReg m r =
      if slot m r = slot s.cpsr.mode q then (if s.inHazard q then Config.hazardWrite s.drawIndex q else v)
      else s.bankReg m r := by
  simp only [State.writeReg, if_neg hq, State.bankReg_setBank]

/-- A write of R15 changes no other register. -/
theorem State.bankReg_writeReg_pc (m : Mode) (r : Reg) (v : Word) :
    (s.writeReg 15 v).bankReg m r = s.bankReg m r := rfl

/-- Two registers of one mode other than R15 have two places. -/
theorem slot_injective {m : Mode} {r q : Reg} (hr : r ≠ 15) (hq : q ≠ 15) (h : slot m r = slot m q) : r = q := by
  cases m <;> revert r q <;> decide

/-- Outside a mode's banked registers a register is the one of User mode. -/
theorem slot_of_not_banked {m : Mode} {r : Reg} (hr : r ≠ 15) (h : banked m r = false) : slot m r = slot .usr r := by
  cases m <;> revert r <;> decide

/-- A banked register of a mode is seen in no other mode. -/
theorem slot_of_banked {m n : Mode} {r q : Reg} (hr : banked m r = true) (hq : q ≠ 15) (h : slot m r = slot n q) :
    n = m ∧ q = r := by
  cases m <;> cases n <;> revert r q <;> decide

/-- A register of the User bank is seen in a mode only if it is not banked there. -/
theorem not_banked_of_slot_usr {m : Mode} {r q : Reg} (hr : r ≠ 15) (hq : q ≠ 15) (h : slot m r = slot .usr q) :
    banked m r = false ∧ r = q := by
  cases m <;> revert r q <;> decide

/-! The fields after stores one after another: memory and the trace change. -/

@[simp] theorem State.storeWords_regs (a : Word) (vs : List Word) : (s.storeWords a vs).regs = s.regs := by
  induction vs generalizing s a with
  | nil => rfl
  | cons v vs ih => simp [State.storeWords, ih]

@[simp] theorem State.storeWords_pc (a : Word) (vs : List Word) : (s.storeWords a vs).pc = s.pc := by
  induction vs generalizing s a with
  | nil => rfl
  | cons v vs ih => simp [State.storeWords, ih]

@[simp] theorem State.storeWords_cpsr (a : Word) (vs : List Word) : (s.storeWords a vs).cpsr = s.cpsr := by
  induction vs generalizing s a with
  | nil => rfl
  | cons v vs ih => simp [State.storeWords, ih]

@[simp] theorem State.storeWords_spsr (a : Word) (vs : List Word) : (s.storeWords a vs).spsr = s.spsr := by
  induction vs generalizing s a with
  | nil => rfl
  | cons v vs ih => simp [State.storeWords, ih]

@[simp] theorem State.storeWords_memoryMap (a : Word) (vs : List Word) : (s.storeWords a vs).memoryMap = s.memoryMap := by
  induction vs generalizing s a with
  | nil => rfl
  | cons v vs ih => simp [State.storeWords, ih]

@[simp] theorem State.storeWords_bigend (a : Word) (vs : List Word) : (s.storeWords a vs).bigend = s.bigend := by
  induction vs generalizing s a with
  | nil => rfl
  | cons v vs ih => simp [State.storeWords, ih]

@[simp] theorem State.storeWords_pipe (a : Word) (vs : List Word) : (s.storeWords a vs).pipe = s.pipe := by
  induction vs generalizing s a with
  | nil => rfl
  | cons v vs ih => simp [State.storeWords, ih]

@[simp] theorem State.storeWords_hazard (a : Word) (vs : List Word) : (s.storeWords a vs).hazard = s.hazard := by
  induction vs generalizing s a with
  | nil => rfl
  | cons v vs ih => simp [State.storeWords, ih]

@[simp] theorem State.storeWords_resetCycles (a : Word) (vs : List Word) : (s.storeWords a vs).resetCycles = s.resetCycles := by
  induction vs generalizing s a with
  | nil => rfl
  | cons v vs ih => simp [State.storeWords, ih]

@[simp] theorem State.storeWords_inputs (a : Word) (vs : List Word) : (s.storeWords a vs).inputs = s.inputs := by
  induction vs generalizing s a with
  | nil => rfl
  | cons v vs ih => simp [State.storeWords, ih]

@[simp] theorem State.storeWords_schedule (a : Word) (vs : List Word) : (s.storeWords a vs).schedule = s.schedule := by
  induction vs generalizing s a with
  | nil => rfl
  | cons v vs ih => simp [State.storeWords, ih]

@[simp] theorem State.storeWords_cycles (a : Word) (vs : List Word) : (s.storeWords a vs).cycles = s.cycles := by
  induction vs generalizing s a with
  | nil => rfl
  | cons v vs ih => simp [State.storeWords, ih]

@[simp] theorem State.storeWords_drawIndex (a : Word) (vs : List Word) : (s.storeWords a vs).drawIndex = s.drawIndex := by
  induction vs generalizing s a with
  | nil => rfl
  | cons v vs ih => simp [State.storeWords, ih]

/-! The fields after the reads of an LDM: the registers and the trace change. -/

/-- Landing a word changes registers only. -/
theorem State.landIn_eq {r : Reg} (hr : r ≠ 15) (b : Bool) (v : Word) :
    ∃ m x, s.landIn b r v = s.setBank m r x := by
  unfold State.landIn
  split
  · exact ⟨_, _, rfl⟩
  · exact ⟨s.cpsr.mode, _, by simp only [State.writeReg, if_neg hr]; rfl⟩

@[simp] theorem State.loadRegs_pc (u b : Bool) (a : Word) (rs : List Reg) : (s.loadRegs u b a rs).pc = s.pc := by
  induction rs generalizing s b a with
  | nil => rfl
  | cons r rs ih =>
    simp only [State.loadRegs, ih]
    split
    · rfl
    · obtain ⟨m, x, h⟩ := State.landIn_eq (s.load (s.dataAccess a .word false)) (r := r) (by simp_all) u (s.wordAt a)
      rw [h]; rfl

@[simp] theorem State.loadRegs_cpsr (u b : Bool) (a : Word) (rs : List Reg) : (s.loadRegs u b a rs).cpsr = s.cpsr := by
  induction rs generalizing s b a with
  | nil => rfl
  | cons r rs ih =>
    simp only [State.loadRegs, ih]
    split
    · rfl
    · obtain ⟨m, x, h⟩ := State.landIn_eq (s.load (s.dataAccess a .word false)) (r := r) (by simp_all) u (s.wordAt a)
      rw [h]; rfl

@[simp] theorem State.loadRegs_spsr (u b : Bool) (a : Word) (rs : List Reg) : (s.loadRegs u b a rs).spsr = s.spsr := by
  induction rs generalizing s b a with
  | nil => rfl
  | cons r rs ih =>
    simp only [State.loadRegs, ih]
    split
    · rfl
    · obtain ⟨m, x, h⟩ := State.landIn_eq (s.load (s.dataAccess a .word false)) (r := r) (by simp_all) u (s.wordAt a)
      rw [h]; rfl

@[simp] theorem State.loadRegs_mem (u b : Bool) (a : Word) (rs : List Reg) : (s.loadRegs u b a rs).mem = s.mem := by
  induction rs generalizing s b a with
  | nil => rfl
  | cons r rs ih =>
    simp only [State.loadRegs, ih]
    split
    · rfl
    · obtain ⟨m, x, h⟩ := State.landIn_eq (s.load (s.dataAccess a .word false)) (r := r) (by simp_all) u (s.wordAt a)
      rw [h]; rfl

@[simp] theorem State.loadRegs_memoryMap (u b : Bool) (a : Word) (rs : List Reg) : (s.loadRegs u b a rs).memoryMap = s.memoryMap := by
  induction rs generalizing s b a with
  | nil => rfl
  | cons r rs ih =>
    simp only [State.loadRegs, ih]
    split
    · rfl
    · obtain ⟨m, x, h⟩ := State.landIn_eq (s.load (s.dataAccess a .word false)) (r := r) (by simp_all) u (s.wordAt a)
      rw [h]; rfl

@[simp] theorem State.loadRegs_bigend (u b : Bool) (a : Word) (rs : List Reg) : (s.loadRegs u b a rs).bigend = s.bigend := by
  induction rs generalizing s b a with
  | nil => rfl
  | cons r rs ih =>
    simp only [State.loadRegs, ih]
    split
    · rfl
    · obtain ⟨m, x, h⟩ := State.landIn_eq (s.load (s.dataAccess a .word false)) (r := r) (by simp_all) u (s.wordAt a)
      rw [h]; rfl

@[simp] theorem State.loadRegs_pipe (u b : Bool) (a : Word) (rs : List Reg) : (s.loadRegs u b a rs).pipe = s.pipe := by
  induction rs generalizing s b a with
  | nil => rfl
  | cons r rs ih =>
    simp only [State.loadRegs, ih]
    split
    · rfl
    · obtain ⟨m, x, h⟩ := State.landIn_eq (s.load (s.dataAccess a .word false)) (r := r) (by simp_all) u (s.wordAt a)
      rw [h]; rfl

@[simp] theorem State.loadRegs_hazard (u b : Bool) (a : Word) (rs : List Reg) : (s.loadRegs u b a rs).hazard = s.hazard := by
  induction rs generalizing s b a with
  | nil => rfl
  | cons r rs ih =>
    simp only [State.loadRegs, ih]
    split
    · rfl
    · obtain ⟨m, x, h⟩ := State.landIn_eq (s.load (s.dataAccess a .word false)) (r := r) (by simp_all) u (s.wordAt a)
      rw [h]; rfl

@[simp] theorem State.loadRegs_resetCycles (u b : Bool) (a : Word) (rs : List Reg) : (s.loadRegs u b a rs).resetCycles = s.resetCycles := by
  induction rs generalizing s b a with
  | nil => rfl
  | cons r rs ih =>
    simp only [State.loadRegs, ih]
    split
    · rfl
    · obtain ⟨m, x, h⟩ := State.landIn_eq (s.load (s.dataAccess a .word false)) (r := r) (by simp_all) u (s.wordAt a)
      rw [h]; rfl

@[simp] theorem State.loadRegs_inputs (u b : Bool) (a : Word) (rs : List Reg) : (s.loadRegs u b a rs).inputs = s.inputs := by
  induction rs generalizing s b a with
  | nil => rfl
  | cons r rs ih =>
    simp only [State.loadRegs, ih]
    split
    · rfl
    · obtain ⟨m, x, h⟩ := State.landIn_eq (s.load (s.dataAccess a .word false)) (r := r) (by simp_all) u (s.wordAt a)
      rw [h]; rfl

@[simp] theorem State.loadRegs_schedule (u b : Bool) (a : Word) (rs : List Reg) : (s.loadRegs u b a rs).schedule = s.schedule := by
  induction rs generalizing s b a with
  | nil => rfl
  | cons r rs ih =>
    simp only [State.loadRegs, ih]
    split
    · rfl
    · obtain ⟨m, x, h⟩ := State.landIn_eq (s.load (s.dataAccess a .word false)) (r := r) (by simp_all) u (s.wordAt a)
      rw [h]; rfl

@[simp] theorem State.loadRegs_cycles (u b : Bool) (a : Word) (rs : List Reg) : (s.loadRegs u b a rs).cycles = s.cycles := by
  induction rs generalizing s b a with
  | nil => rfl
  | cons r rs ih =>
    simp only [State.loadRegs, ih]
    split
    · rfl
    · obtain ⟨m, x, h⟩ := State.landIn_eq (s.load (s.dataAccess a .word false)) (r := r) (by simp_all) u (s.wordAt a)
      rw [h]; rfl

@[simp] theorem State.loadRegs_drawIndex (u b : Bool) (a : Word) (rs : List Reg) : (s.loadRegs u b a rs).drawIndex = s.drawIndex := by
  induction rs generalizing s b a with
  | nil => rfl
  | cons r rs ih =>
    simp only [State.loadRegs, ih]
    split
    · rfl
    · obtain ⟨m, x, h⟩ := State.landIn_eq (s.load (s.dataAccess a .word false)) (r := r) (by simp_all) u (s.wordAt a)
      rw [h]; rfl

/-! The fields after the reads of an LDC: the trace changes. -/

@[simp] theorem State.loadCoproc_regs (cp : BitVec 4) (n k : Nat) (a : Word) : (s.loadCoproc cp n k a).regs = s.regs := by
  induction n generalizing s k a with
  | zero => rfl
  | succ n ih => simp only [State.loadCoproc, ih]; split <;> rfl

@[simp] theorem State.loadCoproc_pc (cp : BitVec 4) (n k : Nat) (a : Word) : (s.loadCoproc cp n k a).pc = s.pc := by
  induction n generalizing s k a with
  | zero => rfl
  | succ n ih => simp only [State.loadCoproc, ih]; split <;> rfl

@[simp] theorem State.loadCoproc_cpsr (cp : BitVec 4) (n k : Nat) (a : Word) : (s.loadCoproc cp n k a).cpsr = s.cpsr := by
  induction n generalizing s k a with
  | zero => rfl
  | succ n ih => simp only [State.loadCoproc, ih]; split <;> rfl

@[simp] theorem State.loadCoproc_spsr (cp : BitVec 4) (n k : Nat) (a : Word) : (s.loadCoproc cp n k a).spsr = s.spsr := by
  induction n generalizing s k a with
  | zero => rfl
  | succ n ih => simp only [State.loadCoproc, ih]; split <;> rfl

@[simp] theorem State.loadCoproc_mem (cp : BitVec 4) (n k : Nat) (a : Word) : (s.loadCoproc cp n k a).mem = s.mem := by
  induction n generalizing s k a with
  | zero => rfl
  | succ n ih => simp only [State.loadCoproc, ih]; split <;> rfl

@[simp] theorem State.loadCoproc_memoryMap (cp : BitVec 4) (n k : Nat) (a : Word) : (s.loadCoproc cp n k a).memoryMap = s.memoryMap := by
  induction n generalizing s k a with
  | zero => rfl
  | succ n ih => simp only [State.loadCoproc, ih]; split <;> rfl

@[simp] theorem State.loadCoproc_bigend (cp : BitVec 4) (n k : Nat) (a : Word) : (s.loadCoproc cp n k a).bigend = s.bigend := by
  induction n generalizing s k a with
  | zero => rfl
  | succ n ih => simp only [State.loadCoproc, ih]; split <;> rfl

@[simp] theorem State.loadCoproc_pipe (cp : BitVec 4) (n k : Nat) (a : Word) : (s.loadCoproc cp n k a).pipe = s.pipe := by
  induction n generalizing s k a with
  | zero => rfl
  | succ n ih => simp only [State.loadCoproc, ih]; split <;> rfl

@[simp] theorem State.loadCoproc_hazard (cp : BitVec 4) (n k : Nat) (a : Word) : (s.loadCoproc cp n k a).hazard = s.hazard := by
  induction n generalizing s k a with
  | zero => rfl
  | succ n ih => simp only [State.loadCoproc, ih]; split <;> rfl

@[simp] theorem State.loadCoproc_resetCycles (cp : BitVec 4) (n k : Nat) (a : Word) : (s.loadCoproc cp n k a).resetCycles = s.resetCycles := by
  induction n generalizing s k a with
  | zero => rfl
  | succ n ih => simp only [State.loadCoproc, ih]; split <;> rfl

@[simp] theorem State.loadCoproc_inputs (cp : BitVec 4) (n k : Nat) (a : Word) : (s.loadCoproc cp n k a).inputs = s.inputs := by
  induction n generalizing s k a with
  | zero => rfl
  | succ n ih => simp only [State.loadCoproc, ih]; split <;> rfl

@[simp] theorem State.loadCoproc_schedule (cp : BitVec 4) (n k : Nat) (a : Word) : (s.loadCoproc cp n k a).schedule = s.schedule := by
  induction n generalizing s k a with
  | zero => rfl
  | succ n ih => simp only [State.loadCoproc, ih]; split <;> rfl

@[simp] theorem State.loadCoproc_cycles (cp : BitVec 4) (n k : Nat) (a : Word) : (s.loadCoproc cp n k a).cycles = s.cycles := by
  induction n generalizing s k a with
  | zero => rfl
  | succ n ih => simp only [State.loadCoproc, ih]; split <;> rfl

@[simp] theorem State.loadCoproc_drawIndex (cp : BitVec 4) (n k : Nat) (a : Word) : (s.loadCoproc cp n k a).drawIndex = s.drawIndex := by
  induction n generalizing s k a with
  | zero => rfl
  | succ n ih => simp only [State.loadCoproc, ih]; split <;> rfl

/-! The fields after fetches: the pipeline and the trace change. -/

@[simp] theorem State.fetchMany_regs (n : Nat) : (s.fetchMany n).regs = s.regs := by
  induction n generalizing s with
  | zero => rfl
  | succ n ih => simp only [State.fetchMany, ih]; rfl

@[simp] theorem State.fetchMany_pc (n : Nat) : (s.fetchMany n).pc = s.pc := by
  induction n generalizing s with
  | zero => rfl
  | succ n ih => simp only [State.fetchMany, ih]; rfl

@[simp] theorem State.fetchMany_cpsr (n : Nat) : (s.fetchMany n).cpsr = s.cpsr := by
  induction n generalizing s with
  | zero => rfl
  | succ n ih => simp only [State.fetchMany, ih]; rfl

@[simp] theorem State.fetchMany_spsr (n : Nat) : (s.fetchMany n).spsr = s.spsr := by
  induction n generalizing s with
  | zero => rfl
  | succ n ih => simp only [State.fetchMany, ih]; rfl

@[simp] theorem State.fetchMany_mem (n : Nat) : (s.fetchMany n).mem = s.mem := by
  induction n generalizing s with
  | zero => rfl
  | succ n ih => simp only [State.fetchMany, ih]; rfl

@[simp] theorem State.fetchMany_memoryMap (n : Nat) : (s.fetchMany n).memoryMap = s.memoryMap := by
  induction n generalizing s with
  | zero => rfl
  | succ n ih => simp only [State.fetchMany, ih]; rfl

@[simp] theorem State.fetchMany_bigend (n : Nat) : (s.fetchMany n).bigend = s.bigend := by
  induction n generalizing s with
  | zero => rfl
  | succ n ih => simp only [State.fetchMany, ih]; rfl

@[simp] theorem State.fetchMany_hazard (n : Nat) : (s.fetchMany n).hazard = s.hazard := by
  induction n generalizing s with
  | zero => rfl
  | succ n ih => simp only [State.fetchMany, ih]; rfl

@[simp] theorem State.fetchMany_resetCycles (n : Nat) : (s.fetchMany n).resetCycles = s.resetCycles := by
  induction n generalizing s with
  | zero => rfl
  | succ n ih => simp only [State.fetchMany, ih]; rfl

@[simp] theorem State.fetchMany_inputs (n : Nat) : (s.fetchMany n).inputs = s.inputs := by
  induction n generalizing s with
  | zero => rfl
  | succ n ih => simp only [State.fetchMany, ih]; rfl

@[simp] theorem State.fetchMany_schedule (n : Nat) : (s.fetchMany n).schedule = s.schedule := by
  induction n generalizing s with
  | zero => rfl
  | succ n ih => simp only [State.fetchMany, ih]; rfl

@[simp] theorem State.fetchMany_cycles (n : Nat) : (s.fetchMany n).cycles = s.cycles := by
  induction n generalizing s with
  | zero => rfl
  | succ n ih => simp only [State.fetchMany, ih]; rfl

@[simp] theorem State.fetchMany_drawIndex (n : Nat) : (s.fetchMany n).drawIndex = s.drawIndex := by
  induction n generalizing s with
  | zero => rfl
  | succ n ih => simp only [State.fetchMany, ih]; rfl

@[simp] theorem State.begin_regs : s.begin.regs = s.regs := by simp [State.begin, State.prefetch]

@[simp] theorem State.begin_pc : s.begin.pc = s.pc := by simp [State.begin, State.prefetch]

@[simp] theorem State.begin_cpsr : s.begin.cpsr = s.cpsr := by simp [State.begin, State.prefetch]

@[simp] theorem State.begin_spsr : s.begin.spsr = s.spsr := by simp [State.begin, State.prefetch]

@[simp] theorem State.begin_mem : s.begin.mem = s.mem := by simp [State.begin, State.prefetch]

@[simp] theorem State.begin_memoryMap : s.begin.memoryMap = s.memoryMap := by simp [State.begin, State.prefetch]

@[simp] theorem State.begin_bigend : s.begin.bigend = s.bigend := by simp [State.begin, State.prefetch]

@[simp] theorem State.begin_hazard : s.begin.hazard = s.hazard := by simp [State.begin, State.prefetch]

@[simp] theorem State.begin_resetCycles : s.begin.resetCycles = s.resetCycles := by simp [State.begin, State.prefetch]

@[simp] theorem State.begin_inputs : s.begin.inputs = s.inputs := by simp [State.begin, State.prefetch]

@[simp] theorem State.begin_schedule : s.begin.schedule = s.schedule := by simp [State.begin, State.prefetch]

@[simp] theorem State.begin_cycles : s.begin.cycles = s.cycles := by simp [State.begin, State.prefetch]

@[simp] theorem State.begin_drawIndex : s.begin.drawIndex = s.drawIndex := by simp [State.begin, State.prefetch]

end Sys2Proof.Machine
end

