-- ==== Sys2Proof/Laws/Stores.lean ====
section
/-! SUPPORT. What stores do to the bytes of memory. -/

namespace Sys2Proof.Machine

/-- An aligned address as a number. -/
theorem wordAddr_toNat (a : Word) : (wordAddr a).toNat = 4 * (a.toNat / 4) := by
  have h : wordAddr a = (a >>> 2) <<< 2 := by
    unfold wordAddr
    ext i hi
    simp only [BitVec.getElem_and, BitVec.getElem_shiftLeft]
    have h2 : (0xFFFFFFFC#32)[i] = decide (2 ≤ i) := by
      revert hi; revert i; decide
    rw [h2]
    by_cases h3 : i < 2
    · simp [h3, Nat.not_le.mpr h3]
    · simp [h3, Nat.not_lt.mp h3, BitVec.getLsbD_eq_getElem hi]
  rw [h]
  simp only [BitVec.toNat_shiftLeft, BitVec.toNat_ushiftRight, Nat.shiftRight_eq_div_pow, Nat.shiftLeft_eq]
  have := a.isLt
  omega

/-- The offset of an address in its word, as a number. -/
theorem field_low_toNat (a : Word) : (field a 0 2).toNat = a.toNat % 4 := by
  simp [field]

/-- Two addresses are the same if their words and offsets are. -/
theorem addr_eq_iff (a b : Word) (k : Nat) (hk : k < 4) :
    b.toNat = (wordAddr a + BitVec.ofNat 32 k).toNat ↔ wordAddr b = wordAddr a ∧ (field b 0 2).toNat = k := by
  rw [← BitVec.toNat_inj, wordAddr_toNat, field_low_toNat, BitVec.toNat_add, wordAddr_toNat, BitVec.toNat_ofNat]
  have ha := a.isLt
  have hb := b.isLt
  omega

/-- Aligning twice is aligning once. -/
@[simp] theorem wordAddr_wordAddr (a : Word) : wordAddr (wordAddr a) = wordAddr a := by
  rw [← BitVec.toNat_inj, wordAddr_toNat, wordAddr_toNat]; omega

/-- The four bytes of a word give the word back. -/
theorem assembleWord_byteOf (big : Bool) (v : Word) :
    assembleWord big (byteOf big v 0) (byteOf big v 1) (byteOf big v 2) (byteOf big v 3) = v := by
  cases big
  · simp only [assembleWord, byteOf, cat, field]
    ext i hi
    simp
    grind
  · simp only [assembleWord, byteOf, cat, field]
    ext i hi
    simp
    grind

/-- A byte after a guarded word write: a byte of the word written, or the byte that was there. -/
theorem Memory.read_putWord {may : Word → Bool} {big : Bool} {a v : Word} {m : Memory} (h : Memory.wf m) (b : Word) :
    Memory.read (Memory.putWord may big m a v) b.toNat =
      if wordAddr b = wordAddr a ∧ may b = true then byteOf big v (field b 0 2).toNat else Memory.read m b.toNat := by
  have e0 := addr_eq_iff a b 0 (by omega)
  have e1 := addr_eq_iff a b 1 (by omega)
  have e2 := addr_eq_iff a b 2 (by omega)
  have e3 := addr_eq_iff a b 3 (by omega)
  have w0 := Memory.wf_put (may := may) (a := wordAddr a) (v := byteOf big v 0) h
  have w1 := Memory.wf_put (may := may) (a := wordAddr a + 1) (v := byteOf big v 1) w0
  have w2 := Memory.wf_put (may := may) (a := wordAddr a + 2) (v := byteOf big v 2) w1
  have hlt : (field b 0 2).toNat < 4 := (field b 0 2).isLt
  simp only [BitVec.add_zero, BitVec.toNat_inj] at e0 e1 e2 e3
  unfold Memory.putWord
  simp only [Memory.read_put w2, Memory.read_put w1, Memory.read_put w0, Memory.read_put h]
  generalize hk : (field b 0 2).toNat = k at *
  by_cases hm : may b = true
  · by_cases hw : wordAddr b = wordAddr a
    · have : k = 0 ∨ k = 1 ∨ k = 2 ∨ k = 3 := by omega
      rcases this with rfl | rfl | rfl | rfl <;> simp_all
    · simp_all
  · simp [hm]

/-- A byte after a write by an access. -/
theorem State.read_memWith {s : State} {acc : Access} {v : Word} (h : Memory.wf s.mem) (b : Word) :
    Memory.read (s.memWith acc v) b.toNat =
      if acc.reaches b && s.writable b then storedByte s.bigend acc v b else s.byteAt b := by
  unfold State.memWith Access.reaches storedByte
  cases hs : acc.size
  · simp only [Memory.read_put h, Bool.and_eq_true, beq_iff_eq]; rfl
  · simp only [Memory.read_putWord h, Bool.and_eq_true, beq_iff_eq]; rfl

/-- A byte after a store: the byte stored, if the access reaches it and does not abort, and it can be written. -/
theorem State.byteAt_store {s : State} {acc : Access} {v : Word} (h : Memory.wf s.mem) (b : Word) :
    (s.store acc v).byteAt b =
      if acc.reaches b && s.writable b && !s.aborts acc then storedByte s.bigend acc v b else s.byteAt b := by
  unfold State.byteAt
  rw [State.store_mem]
  by_cases ha : s.aborts acc
  · simp [ha]
  · simp only [ha, Bool.not_false, Bool.and_true, Bool.false_eq_true, if_false]
    exact State.read_memWith h b

/-- A byte that is not plain storage stays. -/
theorem State.byteAt_store_kept {s : State} {acc : Access} {v : Word} (h : Memory.wf s.mem) {b : Word}
    (hb : s.writable b = false) : (s.store acc v).byteAt b = s.byteAt b := by
  rw [State.byteAt_store h]; simp [hb]

/-- A read of plain storage finds its byte. -/
theorem State.readByte_of_writable {s : State} {a : Word} (h : s.writable a = true) : s.readByte a = s.byteAt a := by
  have hk : s.kindAt a = .storage := by simpa [State.writable] using h
  simp [State.readByte, hk]

/-- What a store of an access leaves where it reaches. -/
theorem Stored.store {s : State} {acc : Access} {v : Word} (h : Memory.wf s.mem) (ha : s.aborts acc = false) :
    Stored s (s.store acc v) acc v := by
  intro a hr
  rw [State.byteAt_store h]; simp [hr, ha]

/-- A store leaves what its access does not reach. -/
theorem KeepsMemoryBut.store {s : State} {acc : Access} {v : Word} (h : Memory.wf s.mem) :
    KeepsMemoryBut s (s.store acc v) acc := by
  intro a hr
  rw [State.byteAt_store h]; simp [hr]

/-- The next word's address. -/
theorem add_wordBytes_succ (addr : Word) (k : Nat) : addr + 4 + wordBytes k = addr + wordBytes (k + 1) := by
  rw [← BitVec.toNat_inj]
  simp only [wordBytes, BitVec.toNat_add, BitVec.toNat_ofNat, show (4 : Word).toNat = 4 from rfl]
  have := addr.isLt
  omega

/-- A byte that no word of a run of stores reaches stays. -/
theorem State.byteAt_storeWords {s : State} {addr : Word} {vs : List Word} (h : Memory.wf s.mem) (b : Word)
    (hb : ∀ k < vs.length, wordAddr b ≠ wordAddr (addr + wordBytes k)) :
    (s.storeWords addr vs).byteAt b = s.byteAt b := by
  induction vs generalizing s addr with
  | nil => rfl
  | cons v vs ih =>
    rw [State.storeWords, ih (State.wf_store h), State.byteAt_store h]
    · have := hb 0 (by simp)
      simp_all [Access.reaches, State.dataAccess, wordBytes]
    · intro k hk
      have := hb (k + 1) (by simpa using hk)
      rwa [add_wordBytes_succ]

end Sys2Proof.Machine
end

