-- ==== Sys2Proof/Laws/Outcomes.lean ====
section
/-! SUPPORT. What each shared operation can answer, and what the calls of the dispatch come to for a whole family. -/

namespace Sys2Proof.Machine

variable (s : State)

/-- Under a condition that holds, the instruction. -/
theorem conditionally_pass {c : Cond} (h : condHolds c s.cpsr = true) (o : Outcome) : conditionally c s o = o := by
  simp [conditionally, h]

/-- Under a condition that fails, the next instruction after one S cycle. -/
theorem conditionally_fail {c : Cond} (h : condHolds c s.cpsr = false) (o : Outcome) :
    conditionally c s o = .next (s.advance ⟨0, 1, 0, 0⟩) := by
  simp [conditionally, h]

/-- What an instruction under its condition can come to. -/
theorem conditionally_next {c : Cond} {o : Outcome} {t : State} :
    conditionally c s o = .next t ↔
      (condHolds c s.cpsr = true ∧ o = .next t) ∨
        (condHolds c s.cpsr = false ∧ t = s.advance ⟨0, 1, 0, 0⟩) := by
  unfold conditionally
  split <;> grind

/-- A next state means that no restriction was broken. -/
theorem refuseIf_next {b : Bool} {r : Refusal} {o : Outcome} {t : State} :
    refuseIf b r o = .next t ↔ b = false ∧ o = .next t := by
  cases b <;> simp [refuseIf]

/-- A form that breaks no restriction goes on. -/
@[simp] theorem refuseIf_false (r : Refusal) (o : Outcome) : refuseIf false r o = o := rfl

/-- A restricted form is refused. -/
@[simp] theorem refuseIf_true (r : Refusal) (o : Outcome) : refuseIf true r o = .refused r := rfl

/-- What the SPSR of the current mode restores. -/
theorem State.restored_ok {p : Psr} :
    s.restored = .ok p ↔ ∃ q, s.savedOf s.cpsr.mode = some q ∧ q.toPsr = some p := by
  unfold State.restored
  split
  · simp_all
  · rename_i q h
    rw [h]
    split <;> simp_all

/-- User mode has no SPSR. -/
theorem State.savedOf_eq_none {m : Mode} : s.savedOf m = none ↔ m = .usr := by cases m <;> simp [State.savedOf]

/-- Only a privileged mode restores. -/
theorem State.restored_privileged {p : Psr} (h : s.restored = .ok p) : s.cpsr.mode ≠ .usr := by
  obtain ⟨q, hq, _⟩ := (State.restored_ok s).mp h
  intro hm
  rw [hm] at hq
  cases hq

/-- What a return can come to. -/
theorem State.returnTo_next {a : Word} {k : Cycles} {t : State} :
    s.returnTo a k = .next t ↔ ∃ p, s.restored = .ok p ∧ t = (s.jump a k).setPsr p := by
  unfold State.returnTo
  cases s.restored <;> grind

/-- The SPSR of the mode entered holds the CPSR, the others stay. -/
theorem State.savedOf_enter (x : Exception) (a : Word) (m : Mode) :
    (s.enter x a).savedOf m = if m = x.mode then some s.cpsr.save else s.savedOf m := by
  cases x <;> cases m <;> rfl

/-- R14 of the mode entered holds the saved address, the other registers stay. -/
theorem State.bankReg_enter (x : Exception) (a : Word) (m : Mode) (r : Reg) :
    (s.enter x a).bankReg m r = if slot m r = slot x.mode 14 then a else s.bankReg m r := by
  rw [← State.bankReg_setBank]; rfl

/-- An entry leaves memory as it is. -/
@[simp] theorem State.enter_byteAt (x : Exception) (a b : Word) : (s.enter x a).byteAt b = s.byteAt b := rfl

/-- An entry leaves memory as it is. -/
@[simp] theorem State.raise_byteAt (x : Exception) (b : Word) : (s.raise x).byteAt b = s.byteAt b := rfl

/-- An entry makes no access. -/
@[simp] theorem State.raise_bus (x : Exception) : (s.raise x).bus = s.bus := rfl

/-- A data abort is the entry of the exception but for the trace, which begins with a fetch. -/
theorem State.raiseDataAbort_eq : s.raiseDataAbort = { s.raise .dataAbort with bus := s.raiseDataAbort.bus } := rfl

/-- A data abort saves the return address in R14_abt; the other registers stay. -/
theorem State.bankReg_raiseDataAbort (m : Mode) (r : Reg) :
    s.raiseDataAbort.bankReg m r = if slot m r = slot .abt 14 then s.pc + 8 else s.bankReg m r :=
  State.bankReg_enter (s.fetch (s.pc + 12)) .dataAbort (s.pc + 8) m r

/-- A data abort leaves memory as it is. -/
@[simp] theorem State.raiseDataAbort_byteAt (b : Word) : s.raiseDataAbort.byteAt b = s.byteAt b := rfl

/-- A data abort makes one access, a fetch. -/
@[simp] theorem State.raiseDataAbort_bus : s.raiseDataAbort.bus = (s.fetch (s.pc + 12)).bus := rfl

/-- A saved CPSR restores itself. -/
@[simp] theorem Psr.toPsr_save (p : Psr) : p.save.toPsr = some p := by
  obtain ⟨n, z, c, v, i, f, m⟩ := p
  cases m <;> rfl

/-- The SPSR of a privileged mode after it is set. -/
theorem State.savedOf_setSaved {m : Mode} (hm : m ≠ .usr) (p : SavedPsr) (n : Mode) :
    (s.setSaved m p).savedOf n = if n = m then some p else s.savedOf n := by
  cases m <;> cases n <;> first | rfl | exact absurd rfl hm

/-- `Enter` as the claims say it. -/
theorem State.entered_enter (x : Exception) (a : Word) : Entered x a s (s.enter x a) := by
  refine ⟨?_, ?_, rfl, rfl, rfl, rfl, ?_, ?_, fun _ => rfl, rfl, rfl, rfl⟩
  · simp [State.bankReg_enter]
  · simp [State.savedOf_enter]
  · intro n q _ h
    rw [State.bankReg_enter, if_neg (h 14 (by simp))]
  · intro m hm
    rw [State.savedOf_enter, if_neg hm]

/-- A whole family of the dispatch: an immediate operand 2. -/
theorem exec_dataImm (op : AluOp) (c : Cond) (sf : Bool) (rn rd : Reg) (rot : BitVec 4) (imm : Byte) :
    exec (.dataImm op c sf rn rd rot imm) s = dataImm op c sf rn rd rot imm s := by cases op <;> rfl

/-- A whole family of the dispatch: a register shifted by an immediate. -/
theorem exec_dataReg (op : AluOp) (c : Cond) (sf : Bool) (rn rd : Reg) (amt : BitVec 5) (ty : Shift) (rm : Reg) :
    exec (.dataReg op c sf rn rd amt ty rm) s = dataReg op c sf rn rd amt ty rm s := by cases op <;> rfl

/-- A whole family of the dispatch: a register shifted by a register. -/
theorem exec_dataRsr (op : AluOp) (c : Cond) (sf : Bool) (rn rd rs : Reg) (ty : Shift) (rm : Reg) :
    exec (.dataRsr op c sf rn rd rs ty rm) s = dataRsr op c sf rn rd rs ty rm s := by cases op <;> rfl

/-- What an operation does with its result, when it gives a next state. -/
theorem finishAlu_next {op : AluOp} {sf : Bool} {rd : Reg} {r : AluOut} {k : Nat} {t : State} :
    finishAlu op sf rd r k s = .next t ↔
      (op.isTest = true ∧ rd ≠ 15 ∧ t = (s.advance ⟨0, 1, k, 0⟩).setPsr (s.cpsr.withAlu r)) ∨
      (op.isTest = true ∧ rd = 15 ∧ testToPsr r k s = .next t) ∨
      (op.isTest = false ∧ rd = 15 ∧ sf = true ∧ s.returnTo r.result ⟨1, 2, k, 0⟩ = .next t) ∨
      (op.isTest = false ∧ rd = 15 ∧ sf = false ∧ t = s.jump r.result ⟨1, 2, k, 0⟩) ∨
      (op.isTest = false ∧ rd ≠ 15 ∧
        t = ((s.writeReg rd r.result).advance ⟨0, 1, k, 0⟩).setPsr (if sf then s.cpsr.withAlu r else s.cpsr)) := by
  unfold finishAlu
  cases op.isTest <;> by_cases h : rd = 15 <;> cases sf <;> grind

/-- What a test with Rd = R15 does. -/
theorem testToPsr_next {r : AluOut} {k : Nat} {t : State} :
    testToPsr r k s = .next t ↔
      (s.privileged = true ∧ ∃ p, s.restored = .ok p ∧ t = (s.advance ⟨0, 1, k, 0⟩).setPsr p) ∨
      (s.privileged = false ∧ Config.testKeepsFlags s.drawIndex = true ∧ t = s.advance ⟨0, 1, k, 0⟩) ∨
      (s.privileged = false ∧ Config.testKeepsFlags s.drawIndex = false ∧
        t = (s.advance ⟨0, 1, k, 0⟩).setPsr (s.cpsr.withAlu r)) := by
  unfold testToPsr
  cases s.privileged <;> cases Config.testKeepsFlags s.drawIndex <;> cases s.restored <;> grind

/-- What the handshake comes to. -/
theorem handshake_next {cp : BitVec 4} {w : Word} {f : CoprocData → State → Outcome} {t : State} :
    handshake cp w s f = .next t ↔
      (s.response cp w = .absent ∧ t = s.trapUndefined w) ∨
      (s.response cp w = .busy ∧ t = (s.log (.offer w s.privileged s.cpsr.mode)).spend ⟨0, 0, 1, 0⟩) ∨
      ∃ d, s.response cp w = .ready d ∧ f d (s.log (.offer w s.privileged s.cpsr.mode)) = .next t := by
  unfold handshake
  cases s.response cp w <;> grind

end Sys2Proof.Machine
end

