-- ==== Sys2Proof/Laws/Boundary.lean ====
section
/-! SUPPORT. What happens between instructions: the filled pipeline, the next word, the next inputs, the entry of an
exception seen from the start of the step. -/

namespace Sys2Proof.Machine

/-- Fetching `n` words appends `n` words to the pipeline. -/
theorem State.fetchMany_pipe (s : State) (n : Nat) : ∃ l, (s.fetchMany n).pipe = s.pipe ++ l ∧ l.length = n := by
  induction n generalizing s with
  | zero => exact ⟨[], by simp [State.fetchMany]⟩
  | succ n ih =>
    obtain ⟨l, h1, h2⟩ := ih s.fetchNext
    exact ⟨_ :: l, by rw [State.fetchMany, h1]; simp [State.fetchNext]; rfl, by simp [h2]⟩

/-- At the start of a step the pipeline is filled to three words. -/
theorem State.begin_pipe (s : State) : ∃ l, s.begin.pipe = s.pipe ++ l ∧ l.length = 3 - s.pipe.length := by
  unfold State.begin State.prefetch
  exact State.fetchMany_pipe _ _

/-- At the start of a step only the pipeline and the trace change. -/
theorem State.begin_eq (s : State) : s.begin = { s with pipe := s.begin.pipe, bus := s.begin.bus } := by
  have e : s.begin = { s.begin with pipe := s.begin.pipe, bus := s.begin.bus } := rfl
  rw [e]
  simp

/-- The next word is at the head of the filled pipeline. -/
theorem State.begin_head (s : State) (f : Fetched) (h : NextWord s f) :
    s.begin.head = f ∧ s.begin.pipe.head? = some f := by
  rcases h with ⟨h1, h2⟩ | ⟨r, h⟩
  · have : s.begin.pipe = ({ s with bus := [] } : State).fetchNext.pipe ++ (s.begin.pipe.drop 1) := by
      obtain ⟨l, hl, hh⟩ := State.fetchMany_pipe ({ s with bus := [] } : State).fetchNext 2
      have e : s.begin.pipe = ({ s with bus := [] } : State).fetchNext.pipe ++ l := by
        rw [← hl]; simp only [State.begin, State.prefetch, h1, List.length_nil]; rfl
      rw [e]
      simp [State.fetchNext, h1]
    have e2 : ({ s with bus := [] } : State).fetchNext.pipe = [f] := by
      have e3 : s.pc + wordBytes 0 = s.pc := by simp [wordBytes]
      simp only [State.fetchNext, h1, h2, List.length_nil, List.nil_append, e3]
      rfl
    rw [State.head, this, e2]; simp
  · obtain ⟨l, hl, _⟩ := State.begin_pipe s
    rw [State.head, hl, h]; simp

/-- An undisturbed step examines the next word. -/
theorem boundary_undisturbed {s : State} (h : Undisturbed s) : boundary s = dispatchWord s.begin := by
  obtain ⟨h1, h2, h3, h4⟩ := h
  unfold boundary interruptsThenWord
  simp only [h1, h2, State.begin_inputs, State.begin_cpsr, h3, h4]
  rfl

/-- The next state of a step. -/
theorem settled_next {o : Outcome} {t : State} : settled o = .next t ↔ ∃ u, o = .next u ∧ t = u.settle := by
  cases o <;> simp [settled, eq_comm]

/-- Taking the next inputs changes the inputs and the number of the step. -/
theorem State.settle_eq (s : State) :
    s.settle = { s with inputs := s.settle.inputs, schedule := s.settle.schedule, drawIndex := s.drawIndex + 1 } := by
  unfold State.settle; split <;> rfl

@[simp] theorem State.settle_regs (s : State) : s.settle.regs = s.regs := by rw [State.settle_eq]

@[simp] theorem State.settle_pc (s : State) : s.settle.pc = s.pc := by rw [State.settle_eq]

@[simp] theorem State.settle_cpsr (s : State) : s.settle.cpsr = s.cpsr := by rw [State.settle_eq]

@[simp] theorem State.settle_spsr (s : State) : s.settle.spsr = s.spsr := by rw [State.settle_eq]

@[simp] theorem State.settle_mem (s : State) : s.settle.mem = s.mem := by rw [State.settle_eq]

@[simp] theorem State.settle_memoryMap (s : State) : s.settle.memoryMap = s.memoryMap := by rw [State.settle_eq]

@[simp] theorem State.settle_bigend (s : State) : s.settle.bigend = s.bigend := by rw [State.settle_eq]

@[simp] theorem State.settle_pipe (s : State) : s.settle.pipe = s.pipe := by rw [State.settle_eq]

@[simp] theorem State.settle_hazard (s : State) : s.settle.hazard = s.hazard := by rw [State.settle_eq]

@[simp] theorem State.settle_resetCycles (s : State) : s.settle.resetCycles = s.resetCycles := by rw [State.settle_eq]

@[simp] theorem State.settle_bus (s : State) : s.settle.bus = s.bus := by rw [State.settle_eq]

@[simp] theorem State.settle_cycles (s : State) : s.settle.cycles = s.cycles := by rw [State.settle_eq]

@[simp] theorem State.settle_drawIndex (s : State) : s.settle.drawIndex = s.drawIndex + 1 := by rw [State.settle_eq]

/-- An entry is seen through the next inputs. -/
theorem Entered.settle {x : Exception} {a : Word} {s t : State} (h : Entered x a s t) : Entered x a s t.settle := by
  unfold Entered at *
  unfold KeepsRegs KeepsMemory State.bankReg State.byteAt State.savedOf at *
  simpa using h

/-- An entry depends on the architectural state before it only. -/
theorem Entered.congr {x : Exception} {a : Word} {s b t : State} (h : Entered x a b t) (e1 : b.regs = s.regs)
    (e2 : b.cpsr = s.cpsr) (e3 : b.spsr = s.spsr) (e4 : b.mem = s.mem) (e5 : b.bigend = s.bigend)
    (e6 : b.resetCycles = s.resetCycles) (e7 : b.memoryMap = s.memoryMap) : Entered x a s t := by
  unfold Entered at *
  unfold KeepsRegs KeepsMemory State.bankReg State.byteAt State.savedOf at *
  simpa [e1, e2, e3, e4, e5, e6, e7] using h

/-- An exception raised at the start of a step is entered. -/
theorem State.entered_begin_raise (s : State) (x : Exception) :
    Entered x (s.pc + x.returnOffset) s (s.begin.raise x).settle := by
  apply Entered.settle
  have h := Entered.congr (s := s) (State.entered_enter s.begin x (s.begin.pc + x.returnOffset)) (by simp) (by simp)
    (by simp) (by simp) (by simp) (by simp) (by simp)
  simpa [State.raise] using h

/-- The sum of two multiples of 4 is one. -/
theorem wordAddr_add (a k : Word) (h : field a 0 2 = 0) (hk : field k 0 2 = 0) : wordAddr (a + k) = a + k := by
  rw [← BitVec.toNat_inj] at *
  rw [wordAddr_toNat]
  rw [field_low_toNat] at h hk
  have := a.isLt; have := k.isLt
  rw [BitVec.toNat_add]
  simp at h hk
  omega

/-- An aligned address is a multiple of 4. -/
theorem field_wordAddr (a : Word) : field (wordAddr a) 0 2 = 0 := by
  rw [← BitVec.toNat_inj, field_low_toNat, wordAddr_toNat]
  simp

end Sys2Proof.Machine
end

