-- ==== Sys2Proof/Laws/Steps.lean ====
section
/-! SUPPORT. What a step can come to: reset cycles, the end of reset, exceptions, skipped words, instructions. -/

namespace Sys2Proof.Machine

/-- Undoing writes changes memory only, and keeps its canonical form. -/
theorem State.undoWrites_eq (s : State) (k : Nat) (es : List BusEvent) :
    s.undoWrites k es = { s with mem := (s.undoWrites k es).mem } ∧
      (Memory.wf s.mem → Memory.wf (s.undoWrites k es).mem) := by
  induction es generalizing s k with
  | nil => exact ⟨rfl, id⟩
  | cons e es ih =>
    have hw : s.undoWrite k e = { s with mem := (s.undoWrite k e).mem } ∧
        (Memory.wf s.mem → Memory.wf (s.undoWrite k e).mem) := by
      unfold State.undoWrite
      split
      · split
        · exact ⟨rfl, State.wf_memWith⟩
        · exact ⟨rfl, id⟩
      all_goals exact ⟨rfl, id⟩
    obtain ⟨i1, i2⟩ := ih (s.undoWrite k e) (k + 1)
    refine ⟨?_, fun h => i2 (hw.2 h)⟩
    rw [State.undoWrites, i1]
    generalize (State.undoWrites _ _ _).mem = m
    rw [hw.1]

/-- Undoing writes changes memory only, and keeps its canonical form. -/
theorem State.undoWrites_exists (s : State) (k : Nat) (es : List BusEvent) :
    ∃ m, s.undoWrites k es = { s with mem := m } ∧ (Memory.wf s.mem → Memory.wf m) :=
  ⟨_, (State.undoWrites_eq s k es).1, (State.undoWrites_eq s k es).2⟩

/-- What a cycle with `nRESET` low changes. -/
theorem State.resetCycle_exists (s : State) :
    ∃ m b, s.resetCycle = { s with
      mem := m, bus := b, pc := s.dummyAddr + 4, pipe := [], hazard := false, resetCycles := s.resetCycles + 1
      cycles := s.cycles.add ⟨0, 1, 0, 0⟩ } ∧
      (Memory.wf s.mem → Memory.wf m) := by
  obtain ⟨m, h1, h2⟩ := State.undoWrites_exists s 0 s.bus
  unfold State.resetCycle
  split
  · simp only [h1]
    exact ⟨m, _, rfl, h2⟩
  · exact ⟨s.mem, _, rfl, id⟩

/-- A skipped word: one S cycle. -/
theorem conditionally_refused {c : Cond} {s u : State} (h : conditionally c s (.refused .unallocated) = .next u) :
    u = s.advance ⟨0, 1, 0, 0⟩ := by
  rcases (conditionally_next s).mp h with ⟨_, h⟩ | ⟨_, h⟩
  · cases h
  · exact h

/-- What a step can come to before its outcome is settled, and when. -/
theorem boundary_cases (s : State) :
    (s.inputs.resetLow = true ∧ boundary s = .over (.next s.resetCycle)) ∨
    (s.inputs.resetLow = false ∧ 2 ≤ s.resetCycles ∧ boundary s = .over (.next s.enterReset)) ∨
    (s.inputs.resetLow = false ∧ s.resetCycles = 1 ∧ boundary s = .over (.fault .resetPulseTooShort)) ∨
    (s.inputs.resetLow = false ∧ s.resetCycles = 0 ∧
      ((∃ x ∈ [Exception.fiq, .irq, .prefetchAbort], boundary s = .over (.next (s.begin.raise x))) ∨
        (∃ c, boundary s = .over (conditionally c s.begin (.refused .unallocated))) ∨
        ∃ i, decode s.begin.head.word = .ok i ∧ boundary s = .run i s.begin)) := by
  unfold boundary
  cases hl : s.inputs.resetLow
  · refine .inr ?_
    simp only [Bool.false_eq_true, if_false, true_and]
    split
    · rename_i h0
      refine .inr (.inr ⟨h0, ?_⟩)
      unfold interruptsThenWord
      split
      · exact .inl ⟨_, by simp, rfl⟩
      split
      · exact .inl ⟨_, by simp, rfl⟩
      unfold dispatchWord
      split
      · exact .inl ⟨_, by simp, rfl⟩
      split
      · rename_i i hi
        exact .inr (.inr ⟨i, hi, rfl⟩)
      · exact .inr (.inl ⟨_, rfl⟩)
    · rename_i h0
      split
      · exact .inr (.inl ⟨by omega, rfl⟩)
      · exact .inl ⟨by omega, rfl⟩
  · exact .inl ⟨rfl, rfl⟩

/-- The next inputs after a next state. -/
theorem settled_next_inj {v : State} {t : State} (h : settled (.next v) = .next t) : t = v.settle := by
  obtain ⟨u, hu, e⟩ := settled_next.mp h
  have : v = u := Host.Outcome.next.inj hu
  rw [e, this]

/-- Everything a step that gives a next state can have done, and when. -/
theorem step_cases {s t : State} (h : step s = .next t) :
    ∃ u, t = u.settle ∧
      ((s.inputs.resetLow = true ∧ u = s.resetCycle) ∨
        (s.inputs.resetLow = false ∧ 2 ≤ s.resetCycles ∧ u = s.enterReset) ∨
        (s.inputs.resetLow = false ∧ s.resetCycles = 0 ∧
          ((∃ x ∈ [Exception.fiq, .irq, .prefetchAbort], u = s.begin.raise x) ∨ u = s.begin.advance ⟨0, 1, 0, 0⟩ ∨
            ∃ i, decode s.begin.head.word = .ok i ∧ exec i s.begin = .next u))) := by
  unfold step at h
  rcases boundary_cases s with ⟨a, e⟩ | ⟨a, b, e⟩ | ⟨a, b, e⟩ | ⟨a, b, ⟨x, c, e⟩ | ⟨c, e⟩ | ⟨i, c, e⟩⟩ <;> rw [e] at h
  · exact ⟨_, settled_next_inj h, .inl ⟨a, rfl⟩⟩
  · exact ⟨_, settled_next_inj h, .inr (.inl ⟨a, b, rfl⟩)⟩
  · cases h
  · exact ⟨_, settled_next_inj h, .inr (.inr ⟨a, b, .inl ⟨x, c, rfl⟩⟩)⟩
  · obtain ⟨u, hu, e2⟩ := settled_next.mp h
    exact ⟨u, e2, .inr (.inr ⟨a, b, .inr (.inl (conditionally_refused hu))⟩)⟩
  · obtain ⟨u, hu, e2⟩ := settled_next.mp h
    exact ⟨u, e2, .inr (.inr ⟨a, b, .inr (.inr ⟨i, c, hu⟩)⟩)⟩

/-- The field `mem` after the end of reset. -/
@[simp] theorem State.enterReset_mem (s : State) : s.enterReset.mem = s.mem := by
  simp [State.enterReset, State.drawAll, State.raise, Exception.vector]

/-- The field `pc` after the end of reset. -/
@[simp] theorem State.enterReset_pc (s : State) : s.enterReset.pc = 0 := by
  simp [State.enterReset, State.drawAll, State.raise, Exception.vector]

/-- The field `pipe` after the end of reset. -/
@[simp] theorem State.enterReset_pipe (s : State) : s.enterReset.pipe = [] := by
  simp [State.enterReset, State.drawAll, State.raise, Exception.vector]

/-- The field `hazard` after the end of reset. -/
@[simp] theorem State.enterReset_hazard (s : State) : s.enterReset.hazard = false := by
  simp [State.enterReset, State.drawAll, State.raise, Exception.vector]

/-- The field `memoryMap` after the end of reset. -/
@[simp] theorem State.enterReset_memoryMap (s : State) : s.enterReset.memoryMap = s.memoryMap := by
  simp [State.enterReset, State.drawAll, State.raise, Exception.vector]

/-- The field `bus` after the end of reset. -/
@[simp] theorem State.enterReset_bus (s : State) :
    s.enterReset.bus = (({ s with bus := [] } : State).fetch s.dummyAddr).bus := rfl

/-- The field `bigend` after the end of reset. -/
@[simp] theorem State.enterReset_bigend (s : State) : s.enterReset.bigend = s.bigend := by
  simp [State.enterReset, State.drawAll, State.raise, Exception.vector]

/-- The field `inputs` after the end of reset. -/
@[simp] theorem State.enterReset_inputs (s : State) : s.enterReset.inputs = s.inputs := by
  simp [State.enterReset, State.drawAll, State.raise, Exception.vector]

/-- The field `schedule` after the end of reset. -/
@[simp] theorem State.enterReset_schedule (s : State) : s.enterReset.schedule = s.schedule := by
  simp [State.enterReset, State.drawAll, State.raise, Exception.vector]

/-- The field `drawIndex` after the end of reset. -/
@[simp] theorem State.enterReset_drawIndex (s : State) : s.enterReset.drawIndex = s.drawIndex := by
  simp [State.enterReset, State.drawAll, State.raise, Exception.vector]

end Sys2Proof.Machine
end

