-- ==== Sys2Proof/Laws/Transfers.lean ====
section
/-! SUPPORT. What transfers of several words do: the registers they load, the bytes they store, the accesses they
make. -/

namespace Sys2Proof.Machine

/-! ### The trace -/

/-- Nothing happened. -/
theorem Made.refl (s : State) : Made s s [] := ⟨[], by simp, rfl⟩

/-- One thing after another. -/
theorem Made.trans {s t u : State} {l m : List Access} (h : Made s t l) (h2 : Made t u m) : Made s u (l ++ m) := by
  obtain ⟨e, h1, rfl⟩ := h
  obtain ⟨f, h3, rfl⟩ := h2
  exact ⟨e ++ f, by rw [h3, h1, List.append_assoc], by simp⟩

/-- What comes after may leave the trace as it is. -/
theorem Made.congr {s t u : State} {l : List Access} (h : Made s t l) (e : u.bus = t.bus) : Made s u l := by
  obtain ⟨es, h1, h2⟩ := h
  exact ⟨es, by rw [e, h1], h2⟩

/-- The access of an event that is no fetch. -/
theorem BusEvent.made_data {acc : Access} (h : acc.opcode = false) (d : Option Word) (b : Word) (ab : Bool) :
    BusEvent.made (.access acc d b ab) = some acc := by
  obtain ⟨a, z, w, o, p, m, l⟩ := acc
  cases h; rfl

/-- A read makes its access. -/
theorem Made.load (s : State) {acc : Access} (h : acc.opcode = false) : Made s (s.load acc) [acc] :=
  ⟨[_], rfl, by simp [BusEvent.made_data h]⟩

/-- A write makes its access. -/
theorem Made.store (s : State) {acc : Access} (h : acc.opcode = false) (v : Word) : Made s (s.store acc v) [acc] :=
  ⟨[_], rfl, by simp [BusEvent.made_data h]⟩

/-- The word at the address of a fetch does not depend on A[1:0]. -/
@[simp] theorem State.wordAddr_fetchAddr (s : State) (a : Word) : wordAddr (s.fetchAddr a) = wordAddr a := by
  unfold State.fetchAddr
  generalize Config.fetchLow s.drawIndex s.bus.length = x
  have h : x.setWidth 32 &&& 0xFFFFFFFC#32 = 0#32 := by revert x; decide
  unfold wordAddr
  rw [BitVec.and_or_distrib_right, h, BitVec.and_assoc]
  simp

/-- A fetch makes its access. -/
theorem Made.fetch (s : State) (a : Word) : Made s (s.fetch a) [s.fetchAccess (wordAddr a)] :=
  ⟨[_], rfl, by simp [BusEvent.made, State.fetchAccess]⟩

/-- A data abort makes a fetch after what went before. -/
theorem Made.raiseDataAbort {s t : State} {l : List Access} (h : Made s t l) (h1 : t.pc = s.pc)
    (h2 : t.cpsr = s.cpsr) : Made s t.raiseDataAbort (l ++ [s.abortFetch]) := by
  have e : s.abortFetch = t.fetchAccess (wordAddr (t.pc + 12)) := by
    simp [State.abortFetch, State.fetchAccess, State.privileged, h1, h2]
  rw [e]
  exact h.trans (Made.fetch t (t.pc + 12))

/-! ### Where words lie -/

/-- The first word lies at the start. -/
@[simp] theorem wordPlace_zero (a : Word) : wordPlace a 0 = a := by simp [wordPlace, wordBytes]

/-- The words after the first. -/
theorem wordPlace_succ (a : Word) (k : Nat) : wordPlace (a + 4) k = wordPlace a (k + 1) := add_wordBytes_succ a k

/-- The access of a transfer of words. -/
theorem State.wordAccess_eq (s : State) (a : Word) (w : Bool) : s.dataAccess a .word w = s.wordAccess a w := rfl

/-- The accesses of one word more. -/
theorem State.wordAccesses_succ (s : State) (a : Word) (n : Nat) (w : Bool) :
    s.wordAccesses a (n + 1) w = s.wordAccess a w :: s.wordAccesses (a + 4) n w := by
  simp only [State.wordAccesses, List.range_succ_eq_map, List.map_cons, List.map_map, Function.comp_def,
    wordPlace_zero, wordPlace_succ, Nat.succ_eq_add_one]

/-- Whether a word of a transfer aborts. -/
theorem State.anyAborts_eq_true (s : State) (w : Bool) (n : Nat) (a : Word) :
    s.anyAborts w n a = true ↔ ∃ k < n, s.aborts (s.wordAccess (wordPlace a k) w) = true := by
  induction n generalizing a with
  | zero => simp [State.anyAborts]
  | succ n ih =>
    rw [State.anyAborts, Bool.or_eq_true, ih, State.wordAccess_eq]
    constructor
    · rintro (h | ⟨k, hk, h⟩)
      · exact ⟨0, by omega, by simpa using h⟩
      · exact ⟨k + 1, by omega, by rwa [wordPlace_succ] at h⟩
    · rintro ⟨k, hk, h⟩
      cases k with
      | zero => exact .inl (by simpa using h)
      | succ k => exact .inr ⟨k, by omega, by rwa [wordPlace_succ]⟩

/-- That no word of a transfer aborts. -/
theorem State.anyAborts_eq_false (s : State) (w : Bool) (n : Nat) (a : Word) :
    s.anyAborts w n a = false ↔ NoneAborts s w n a := by
  rw [← Bool.not_eq_true, State.anyAborts_eq_true]
  simp [NoneAborts]

/-! ### Loads -/

/-- The bank a block load lands in. -/
def State.landBank (s : State) (userBank : Bool) : Mode := if userBank then .usr else s.cpsr.mode

/-- The value a block load leaves in a register. -/
def State.landValue (s : State) (userBank : Bool) (r : Reg) (v : Word) : Word :=
  if userBank then v else if s.inHazard r then Config.hazardWrite s.drawIndex r else v

@[simp] theorem State.load_landBank (s : State) (acc : Access) (u : Bool) : (s.load acc).landBank u = s.landBank u := rfl

@[simp] theorem State.load_landValue (s : State) (acc : Access) (u : Bool) (r : Reg) (v : Word) :
    (s.load acc).landValue u r v = s.landValue u r v := rfl

@[simp] theorem State.load_wordAccess (s : State) (acc : Access) (a : Word) (w : Bool) :
    (s.load acc).wordAccess a w = s.wordAccess a w := rfl

/-- Where a loaded word lands. -/
theorem State.landIn_setBank (s : State) {r : Reg} (hr : r ≠ 15) (u : Bool) (v : Word) :
    s.landIn u r v = s.setBank (s.landBank u) r (s.landValue u r v) := by
  cases u <;> simp [State.landIn, State.landBank, State.landValue, State.writeReg, hr]

/-- One word more of a block load. -/
theorem State.loadRegs_cons (s : State) (u ab : Bool) (a : Word) (r : Reg) (rs : List Reg) :
    s.loadRegs u ab a (r :: rs) =
      State.loadRegs
        (if (ab || s.aborts (s.wordAccess a false)) = true ∨ r = 15 then s.load (s.wordAccess a false)
          else (s.load (s.wordAccess a false)).landIn u r (s.wordAt a))
        u (ab || s.aborts (s.wordAccess a false)) (a + 4) rs := by
  rw [State.loadRegs]
  simp only [State.wordAccess_eq, Bool.or_eq_true, decide_eq_true_eq]

/-- A register that a block load does not name is kept. -/
theorem State.bankReg_loadRegs_of_not_mem (s : State) (u ab : Bool) (a : Word) (rs : List Reg) (n : Mode) (q : Reg)
    (h : ∀ r ∈ rs, r ≠ 15 → slot n q ≠ slot (s.landBank u) r) :
    (s.loadRegs u ab a rs).bankReg n q = s.bankReg n q := by
  induction rs generalizing s a ab with
  | nil => rfl
  | cons r rs ih =>
    rw [State.loadRegs_cons]
    split
    · rw [ih]
      · rfl
      · intro q hq; exact h q (by simp [hq])
    · rename_i h2
      have hr : r ≠ 15 := by grind
      rw [ih]
      · rw [State.landIn_setBank _ hr, State.load_landBank, State.bankReg_setBank, if_neg (h r (by simp) hr)]
        rfl
      · intro q hq
        rw [State.landIn_setBank _ hr]
        exact h q (by simp [hq])

/-- After an abort no register is loaded. -/
theorem State.bankReg_loadRegs_aborted (s : State) (u : Bool) (a : Word) (rs : List Reg) (n : Mode) (q : Reg) :
    (s.loadRegs u true a rs).bankReg n q = s.bankReg n q := by
  induction rs generalizing s a with
  | nil => rfl
  | cons r rs ih =>
    rw [State.loadRegs_cons]
    exact (ih _ _).trans (by simp)

/-- The state after one more word of a block load: the bank, the value, the words and the aborts are those of before. -/
theorem State.landIn_load_same (s : State) (acc : Access) {r : Reg} (hr : r ≠ 15) (u : Bool) (v : Word) :
    let t := (s.load acc).landIn u r v
    t.landBank u = s.landBank u ∧ (∀ q w, t.landValue u q w = s.landValue u q w) ∧
      (∀ b, t.wordAt b = s.wordAt b) ∧ (∀ b, t.aborts b = s.aborts b) ∧
      ∀ b w, t.wordAccess b w = s.wordAccess b w := by
  intro t
  have e : t = (s.load acc).setBank (s.landBank u) r (s.landValue u r v) := State.landIn_setBank _ hr _ _
  rw [e]
  exact ⟨rfl, fun _ _ => rfl, fun _ => rfl, fun _ => rfl, fun _ _ => rfl⟩

/-- A register that a block load names takes its word, if no read up to it aborts. -/
theorem State.bankReg_loadRegs (s : State) (u : Bool) (a : Word) (rs : List Reg) (k : Nat) (r : Reg)
    (hk : rs[k]? = some r) (hd : rs.Nodup) (hr : r ≠ 15)
    (ha : ∀ j ≤ k, s.aborts (s.wordAccess (wordPlace a j) false) = false) :
    (s.loadRegs u false a rs).bankReg (s.landBank u) r = s.landValue u r (s.wordAt (wordPlace a k)) := by
  induction rs generalizing s a k with
  | nil => simp at hk
  | cons q rs ih =>
    have h0 : s.aborts (s.wordAccess a false) = false := by simpa using ha 0 (by omega)
    rw [State.loadRegs_cons]
    simp only [h0, Bool.or_false, Bool.false_eq_true, false_or]
    have hd' := List.nodup_cons.mp hd
    cases k with
    | zero =>
      obtain rfl : q = r := by simpa using hk
      rw [if_neg hr, State.bankReg_loadRegs_of_not_mem, State.landIn_setBank _ hr]
      · rw [State.load_landBank, State.load_landValue, State.bankReg_setBank_self, wordPlace_zero]
      · intro r hrs h15
        rw [(State.landIn_load_same s _ hr u _).1]
        intro h
        exact hd'.1 (slot_injective hr h15 h ▸ hrs)
    | succ k =>
      have hk' : rs[k]? = some r := by simpa using hk
      have ha' : ∀ j ≤ k, s.aborts (s.wordAccess (wordPlace (a + 4) j) false) = false := by
        intro j hj
        rw [wordPlace_succ]; exact ha (j + 1) (by omega)
      rw [← wordPlace_succ]
      split
      · have := ih (s.load (s.wordAccess a false)) (a + 4) k hk' hd'.2
          (fun j hj => by rw [State.load_wordAccess, State.load_aborts]; exact ha' j hj)
        rwa [State.load_landBank, State.load_landValue, State.load_wordAt] at this
      · rename_i hq
        obtain ⟨e1, e2, e3, e4, e5⟩ := State.landIn_load_same s (s.wordAccess a false) hq u (s.wordAt a)
        have := ih ((s.load (s.wordAccess a false)).landIn u q (s.wordAt a)) (a + 4) k hk' hd'.2
          (fun j hj => by rw [e5, e4]; exact ha' j hj)
        rwa [e1, e2, e3] at this

/-- A register that a block load does not name before its first abort is kept. -/
theorem State.bankReg_loadRegs_stop (s : State) (u : Bool) (a : Word) (rs : List Reg) (j : Nat) (n : Mode) (q : Reg)
    (ha : s.aborts (s.wordAccess (wordPlace a j) false) = true)
    (h : ∀ r ∈ rs.take j, r ≠ 15 → slot n q ≠ slot (s.landBank u) r) :
    (s.loadRegs u false a rs).bankReg n q = s.bankReg n q := by
  induction rs generalizing s a j with
  | nil => rfl
  | cons r rs ih =>
    rw [State.loadRegs_cons]
    cases h0 : s.aborts (s.wordAccess a false)
    · simp only [Bool.or_false, Bool.false_eq_true, false_or]
      cases j with
      | zero =>
        rw [wordPlace_zero] at ha
        exact absurd (ha.symm.trans h0) (by simp)
      | succ j =>
        rw [← wordPlace_succ] at ha
        split
        · exact ih (s.load _) (a + 4) j ha (fun r hr => h r (by simp [hr]))
        · rename_i hr
          obtain ⟨e1, e2, e3, e4, e5⟩ := State.landIn_load_same s (s.wordAccess a false) hr u (s.wordAt a)
          rw [ih _ (a + 4) j (by rw [e5, e4]; exact ha) (by
            intro r' hr'; rw [e1]; exact h r' (by simp [hr']))]
          rw [State.landIn_setBank _ hr, State.load_landBank, State.bankReg_setBank, if_neg (h r (by simp) hr)]
          rfl
    · simp only [Bool.or_true, true_or, if_true]
      exact State.bankReg_loadRegs_aborted _ _ _ _ _ _

/-- The reads a block load makes. -/
theorem State.made_loadRegs (s : State) (u ab : Bool) (a : Word) (rs : List Reg) :
    Made s (s.loadRegs u ab a rs) (s.wordAccesses a rs.length false) := by
  induction rs generalizing s a ab with
  | nil => exact Made.refl s
  | cons r rs ih =>
    rw [State.loadRegs_cons, List.length_cons, State.wordAccesses_succ]
    split
    · exact (Made.load s rfl).trans (ih (s.load _) _ (a + 4))
    · rename_i h
      have hr : r ≠ 15 := by grind
      have e := ih ((s.load (s.wordAccess a false)).landIn u r (s.wordAt a)) (ab || s.aborts (s.wordAccess a false)) (a + 4)
      have e2 : ((s.load (s.wordAccess a false)).landIn u r (s.wordAt a)).bus = (s.load (s.wordAccess a false)).bus := by
        rw [State.landIn_setBank _ hr]; rfl
      have e3 : State.wordAccesses ((s.load (s.wordAccess a false)).landIn u r (s.wordAt a)) (a + 4) rs.length false = s.wordAccesses (a + 4) rs.length false := by
        simp only [State.wordAccesses, (State.landIn_load_same s _ hr u _).2.2.2.2]
      rw [e3] at e
      exact ((Made.load s rfl).congr e2).trans e

/-! ### Coprocessor loads -/

/-- The reads an LDC makes. -/
theorem State.made_loadCoproc (s : State) (cp : BitVec 4) (n k : Nat) (a : Word) :
    Made s (s.loadCoproc cp n k a) (s.wordAccesses a n false) := by
  induction n generalizing s k a with
  | zero => exact Made.refl s
  | succ n ih =>
    rw [State.loadCoproc, State.wordAccesses_succ]
    split
    · exact (Made.load s rfl).trans (ih (s.load _) _ (a + 4))
    · have e : Made s ((s.load (s.wordAccess a false)).log (.coprocLoad cp k (s.wordAt a)))
          ([s.wordAccess a false] ++ []) :=
        (Made.load s rfl).trans ⟨[_], rfl, rfl⟩
      exact e.trans (ih ((s.load (s.wordAccess a false)).log (.coprocLoad cp k (s.wordAt a))) _ (a + 4))

/-- What is in the trace stays there. -/
theorem Made.mem {s t : State} {l : List Access} (h : Made s t l) {e : BusEvent} (he : e ∈ s.bus) : e ∈ t.bus := by
  obtain ⟨es, h1, _⟩ := h
  rw [h1]; simp [he]

/-- The words an LDC gives the coprocessor. -/
theorem State.mem_loadCoproc (s : State) (cp : BitVec 4) (n k : Nat) (a : Word) (j : Nat) (hj : j < n)
    (ha : s.aborts (s.wordAccess (wordPlace a j) false) = false) :
    .coprocLoad cp (k + j) (s.wordAt (wordPlace a j)) ∈ (s.loadCoproc cp n k a).bus := by
  induction n generalizing s k a j with
  | zero => omega
  | succ n ih =>
    rw [State.loadCoproc]
    cases j with
    | zero =>
      rw [wordPlace_zero] at ha ⊢
      rw [if_neg (by rw [State.wordAccess_eq, ha]; simp)]
      exact Made.mem (State.made_loadCoproc _ _ _ _ _) (by simp [State.log])
    | succ j =>
      rw [← wordPlace_succ] at ha ⊢
      rw [show k + (j + 1) = k + 1 + j by omega]
      split
      · exact ih (s.load _) (k + 1) (a + 4) j (by omega) ha
      · exact ih ((s.load (s.wordAccess a false)).log (.coprocLoad cp k (s.wordAt a))) (k + 1) (a + 4) j
          (by omega) ha

/-! ### Stores -/

/-- The writes a run of stores makes. -/
theorem State.made_storeWords (s : State) (a : Word) (vs : List Word) :
    Made s (s.storeWords a vs) (s.wordAccesses a vs.length true) := by
  induction vs generalizing s a with
  | nil => exact Made.refl s
  | cons v vs ih =>
    rw [State.storeWords, List.length_cons, State.wordAccesses_succ]
    exact (Made.store s rfl v).trans (ih (s.store _ v) (a + 4))

/-- The words of a run of stores that fits the address space lie apart. -/
theorem wordAddr_wordPlace_ne (a : Word) {j k n : Nat} (hn : n ≤ 2 ^ 30) (hj : j < n) (hk : k < n) (h : j ≠ k) :
    wordAddr (wordPlace a j) ≠ wordAddr (wordPlace a k) := by
  rw [Ne, ← BitVec.toNat_inj, wordAddr_toNat, wordAddr_toNat]
  simp only [wordPlace, wordBytes, BitVec.toNat_add, BitVec.toNat_ofNat]
  have := a.isLt
  omega

/-- What a run of stores leaves in memory. -/
theorem State.wordsStored (s : State) (a : Word) (vs : List Word) (h : Memory.wf s.mem) (hn : vs.length ≤ 2 ^ 30) :
    WordsStored s (s.storeWords a vs) a vs.length (fun k => vs.getD k 0) := by
  refine ⟨?_, fun b hb => State.byteAt_storeWords h b hb⟩
  induction vs generalizing s a with
  | nil => intro k hk; simp at hk
  | cons v vs ih =>
    intro k hk b hb
    rw [State.storeWords]
    cases k with
    | zero =>
      rw [State.byteAt_storeWords (State.wf_store h), State.byteAt_store h]
      · rw [wordPlace_zero] at hb ⊢
        simp only [Access.reaches, storedByte, State.dataAccess, hb, State.wordAccess]
        simp
        grind
      · intro j hj
        rw [hb, wordPlace_zero, show a + 4 + wordBytes j = wordPlace a (j + 1) from wordPlace_succ a j]
        have := wordAddr_wordPlace_ne a hn (j := 0) (k := j + 1) (by simp) (by simpa using hj) (by omega)
        rwa [wordPlace_zero] at this
    | succ k =>
      have hne := wordAddr_wordPlace_ne a hn (j := k + 1) (k := 0) (by simpa using hk) (by simp) (by omega)
      rw [wordPlace_zero] at hne
      have hk' : k < vs.length := by simpa using hk
      rw [← wordPlace_succ] at hb hne ⊢
      rw [ih (s.store (s.dataAccess a .word true) v) (a + 4) (State.wf_store h) (by simp at hn; omega) k hk' b hb]
      rw [State.byteAt_store h]
      have : (s.dataAccess a .word true).reaches b = false := by
        simp only [Access.reaches, State.dataAccess, hb]
        simpa using hne
      rw [this]
      rfl

end Sys2Proof.Machine
end

