-- ==== Sys2Proof/Laws/Families.lean ====
section
/-! SUPPORT. What an instruction of a family comes to once its condition holds and its restrictions are met, and the
facts about base registers, register lists and aborts that its result rests on. -/

namespace Sys2Proof.Machine

/-- Nothing has changed from outside. -/
theorem KeepsOutside.refl (s : State) : KeepsOutside s s := ⟨rfl, rfl, rfl, rfl, rfl, rfl⟩

/-- What has not changed in two steps. -/
theorem KeepsOutside.trans {s t u : State} (h : KeepsOutside s t) (h2 : KeepsOutside t u) : KeepsOutside s u := by
  obtain ⟨a1, a2, a3, a4, a5, a6⟩ := h
  obtain ⟨b1, b2, b3, b4, b5, b6⟩ := h2
  exact ⟨b1.trans a1, b2.trans a2, b3.trans a3, b4.trans a4, b5.trans a5, b6.trans a6⟩

/-! ### Families -/

/-- A data processing instruction, in any of the three forms of operand 2. -/
theorem exec_operandForm (s : State) {o : OperandForm} {c : Cond} (hl : o.legal = true)
    (hc : condHolds c s.cpsr = true) (op : AluOp) (sf : Bool) (rn rd : Reg) :
    exec (o.instr op c sf rn rd) s = finishAlu op sf rd (o.outcome op rn s) o.internal s := by
  cases o with
  | imm rot v => exact (exec_dataImm s _ _ _ _ _ _ _).trans (conditionally_pass s hc _)
  | reg amt ty rm => exact (exec_dataReg s _ _ _ _ _ _ _ _).trans (conditionally_pass s hc _)
  | rsr rs ty rm =>
    have h : (rs == 15) = false := by simpa [OperandForm.legal] using hl
    refine (exec_dataRsr s _ _ _ _ _ _ _ _).trans ((conditionally_pass s hc _).trans ?_)
    rw [h]; rfl

/-- LDR and LDRB, in either form of offset. -/
theorem exec_loadForm (s : State) (o : OffsetForm) (byte : Bool) (c : Cond) (p u w : Bool) (rn rd : Reg)
    (hc : condHolds c s.cpsr = true) (hl : o.legal = true) (hb : baseOk p w rn = true)
    (hd : byte = true → rd ≠ 15) :
    exec (o.instr true byte c p u w rn rd) s = loadSingle (widthOf byte) p u w rn rd (o.value s) s := by
  cases o with
  | imm off =>
    cases byte <;> refine (conditionally_pass s hc _).trans ?_
    · rw [hb]; rfl
    · rw [hb, show (rd == 15) = false by simpa using hd rfl]; rfl
  | reg amt ty rm =>
    have h15 : (rm == 15) = false := by simpa [OffsetForm.legal] using hl
    cases byte <;> refine (conditionally_pass s hc _).trans ?_
    · rw [hb, h15]; rfl
    · rw [hb, h15, show (rd == 15) = false by simpa using hd rfl]; rfl

/-- STR and STRB, in either form of offset. -/
theorem exec_storeForm (s : State) (o : OffsetForm) (byte : Bool) (c : Cond) (p u w : Bool) (rn rd : Reg)
    (hc : condHolds c s.cpsr = true) (hl : o.legal = true) (hb : baseOk p w rn = true)
    (hd : storeOk p w rn rd = true) :
    exec (o.instr false byte c p u w rn rd) s = storeSingle (widthOf byte) p u w rn rd (o.value s) s := by
  cases o with
  | imm off => cases byte <;> exact (conditionally_pass s hc _).trans (by rw [hb, hd]; rfl)
  | reg amt ty rm =>
    have h15 : (rm == 15) = false := by simpa [OffsetForm.legal] using hl
    cases byte <;> exact (conditionally_pass s hc _).trans (by rw [hb, h15, hd]; rfl)

/-- LDM. -/
theorem exec_ldm (s : State) (c : Cond) (p u sb w : Bool) (rn : Reg) (list : BitVec 16)
    (hc : condHolds c s.cpsr = true) (hl : list ≠ 0) (hr : rn ≠ 15) (hp : sb = true → s.cpsr.mode ≠ .usr)
    (hu : ((sb && !list.getLsbD 15) && w) = false) :
    exec (.ldm c p u sb w rn list) s = loadBlock p u sb w rn list s := by
  refine (conditionally_pass s hc _).trans ?_
  have h1 : (list == 0) = false := by simpa using hl
  have h2 : (rn == 15) = false := by simpa using hr
  have h3 : (sb && !s.privileged) = false := by cases sb <;> simp_all [State.privileged]
  rw [blockGuard, h1, h2, h3, hu]; rfl

/-- STM. -/
theorem exec_stm (s : State) (c : Cond) (p u sb w : Bool) (rn : Reg) (list : BitVec 16)
    (hc : condHolds c s.cpsr = true) (hl : list ≠ 0) (hr : rn ≠ 15)
    (hp : sb = true → s.cpsr.mode ≠ .usr ∧ w = false) :
    exec (.stm c p u sb w rn list) s = storeBlock p u sb w rn list s := by
  refine (conditionally_pass s hc _).trans ?_
  have h1 : (list == 0) = false := by simpa using hl
  have h2 : (rn == 15) = false := by simpa using hr
  have h3 : (sb && !s.privileged) = false := by cases sb <;> simp_all [State.privileged]
  have h4 : (sb && w) = false := by cases sb <;> simp_all
  rw [blockGuard, h1, h2, h3, h4]; rfl

/-- SWP and SWPB. -/
theorem exec_swap (s : State) (byte : Bool) (c : Cond) (rn rd rm : Reg) (hc : condHolds c s.cpsr = true)
    (h1 : rn ≠ 15) (h2 : rd ≠ 15) (h3 : rm ≠ 15) :
    exec (if byte then .swpb c rn rd rm else .swp c rn rd rm) s = swapSingle (widthOf byte) rn rd rm s := by
  have h : (rn == 15 || rd == 15 || rm == 15) = false := by simp [h1, h2, h3]
  cases byte <;> exact (conditionally_pass s hc _).trans (by rw [h]; rfl)

/-- A coprocessor that is ready. -/
theorem handshake_ready {s : State} {cp : BitVec 4} {w : Word} {d : CoprocData} {f : CoprocData → State → Outcome}
    (h : s.response cp w = .ready d) : handshake cp w s f = f d (s.log (.offer w s.privileged s.cpsr.mode)) := by
  simp [handshake, h]

/-! ### Base registers -/

/-- A form that writes back has another base than R15. -/
theorem ne_of_baseOk {p w : Bool} {rn : Reg} (hb : baseOk p w rn = true) (hw : writesBack p w = true) : rn ≠ 15 := by
  rintro rfl; simp [baseOk, hw] at hb

/-- A register after a base is written back. -/
theorem State.bankReg_writeBase (s : State) (b : Bool) (rn : Reg) (v : Word) (m : Mode) (q : Reg)
    (hb : b = true → rn ≠ 15) :
    (s.writeBase b rn v).bankReg m q =
      if b = true ∧ slot m q = slot s.cpsr.mode rn then
        (if s.inHazard rn then Config.hazardWrite s.drawIndex rn else v)
      else s.bankReg m q := by
  unfold State.writeBase
  cases b
  · simp
  · simp [State.bankReg_writeReg _ _ _ _ _ (hb rfl)]

/-- The pc and the pipeline after a base is written back. -/
theorem State.writeBase_pc_pipe (s : State) (b : Bool) (rn : Reg) (v : Word) (hb : b = true → rn ≠ 15) :
    (s.writeBase b rn v).pc = s.pc ∧ (s.writeBase b rn v).pipe = s.pipe := by
  unfold State.writeBase
  cases b
  · simp
  · simp [hb rfl]

/-- A register after the base of an aborted LDM is put right. -/
theorem State.bankReg_restoreBase (s : State) (w : Bool) (rn : Reg) (final old : Word) (m : Mode) (q : Reg)
    (hr : rn ≠ 15) :
    (s.restoreBase w rn final old).bankReg m q =
      if slot m q = slot s.cpsr.mode rn then
        (if w then (if s.inHazard rn then Config.hazardWrite s.drawIndex rn else final) else old)
      else s.bankReg m q := by
  unfold State.restoreBase
  cases w
  · simp [State.bankReg_setBank]
  · simp [State.bankReg_writeReg _ _ _ _ _ hr]

/-- The other fields after the base of an aborted LDM is put right. -/
theorem State.restoreBase_fields (s : State) (w : Bool) (rn : Reg) (final old : Word) (hr : rn ≠ 15) :
    let t := s.restoreBase w rn final old
    t.pc = s.pc ∧ t.pipe = s.pipe ∧ t.cpsr = s.cpsr ∧ t.spsr = s.spsr ∧ t.mem = s.mem ∧ t.bus = s.bus ∧
      KeepsOutside s t := by
  unfold State.restoreBase
  cases w <;> simp [KeepsOutside, hr]

/-! ### Register lists -/

/-- No register is listed twice. -/
theorem nodup_regsOf (list : BitVec 16) : (regsOf list).Nodup := by
  unfold regsOf
  exact List.Nodup.filter _ (by decide)

/-- A register is listed if its bit is 1. -/
theorem mem_regsOf (list : BitVec 16) (r : Reg) : r ∈ regsOf list ↔ list.getLsbD r.val = true := by
  unfold regsOf
  rw [List.mem_filter]
  exact ⟨fun h => h.2, fun h => ⟨(by decide : ∀ r : Reg, r ∈ allRegs) r, h⟩⟩

/-- R15 comes last. -/
theorem regsOf_eq_listed (list : BitVec 16) :
    regsOf list = listed list ++ (if list.getLsbD 15 then [15] else []) := by
  have h : regsOf list = ([0, 1, 2, 3, 4, 5, 6, 7, 8, 9, 10, 11, 12, 13, 14] : List Reg).filter
      (fun r => list.getLsbD r.val) ++ (if list.getLsbD 15 then [15] else []) := by
    rw [regsOf, show allRegs = [0, 1, 2, 3, 4, 5, 6, 7, 8, 9, 10, 11, 12, 13, 14] ++ [15] from rfl,
      List.filter_append]
    congr 1
    simp [List.filter_cons]
  have h2 : listed list = ([0, 1, 2, 3, 4, 5, 6, 7, 8, 9, 10, 11, 12, 13, 14] : List Reg).filter
      (fun r => list.getLsbD r.val) := by
    rw [listed, h, List.filter_append]
    have : (if list.getLsbD 15 then [15] else [] : List Reg).filter (fun r => r != 15) = [] := by split <;> rfl
    rw [this, List.append_nil, List.filter_eq_self]
    intro r hr
    have := (List.mem_filter.mp hr).1
    revert this
    exact (by decide : ∀ r : Reg, r ∈ ([0, 1, 2, 3, 4, 5, 6, 7, 8, 9, 10, 11, 12, 13, 14] : List Reg) →
      (r != 15) = true) r
  rw [h2]; exact h

/-! ### Aborts -/

/-- The data abort, entered after registers of a bank may have changed. -/
theorem trapped_dataAbort {s u : State} {b : Mode} {rs : List Reg} (k : Cycles) (h1 : u.cpsr = s.cpsr)
    (h2 : u.spsr = s.spsr) (h3 : u.pc = s.pc) (h4 : KeepsOutside s u)
    (h5 : ∀ n q, q ≠ 15 → (∀ r ∈ rs, slot n q ≠ slot b r) → u.bankReg n q = s.bankReg n q) :
    Trapped .dataAbort (s.pc + 8) s (u.spend k).raiseDataAbort b rs := by
  unfold State.raiseDataAbort State.raise
  refine ⟨by simp [State.bankReg_enter, h3]; rfl, by simp [State.savedOf_enter, h1], by simp [Psr.entered, h1], rfl,
    rfl, rfl, ?_, ?_, ?_⟩
  · intro n q hq hn h
    rw [State.bankReg_enter, if_neg hn]
    exact h5 n q hq h
  · intro m hm
    rw [State.savedOf_enter, if_neg hm]
    cases m <;> simp [State.savedOf, h2]
  · simpa [KeepsOutside] using h4

/-- The adder without its flags. -/
theorem addWithCarry_result (x y : Word) (c : Bool) : (addWithCarry x y c).result = x + y + (if c then 1 else 0) := by
  apply BitVec.eq_of_toNat_eq
  rw [show (addWithCarry x y c).result = BitVec.ofNat 32 (x.toNat + y.toNat + c.toNat) from rfl]
  cases c <;> simp

end Sys2Proof.Machine
end

