-- ==== Sys2Proof/Laws/PerInstr.lean ====
section
/-! SUPPORT. Statements for all instructions, made for each constructor. -/

namespace Sys2Proof

/-- A mask meets a concatenation part by part. -/
theorem cat_and {w a b : Nat} (x : BitVec a) (y : BitVec b) (m : BitVec w) (h : a + b = w) :
    cat w x y &&& m = cat w (x &&& field m b a) (y &&& field m 0 b) := by
  subst h
  ext i hi
  simp [cat, field, BitVec.getElem_append]
  grind


/-- The bits of the mask in a word of this class. -/
theorem row_dataImm (op : AluOp) (c : Cond) (sf : Bool) (rn rd : Reg) (rot : BitVec 4) (imm : Byte) :
    encodeDataImm op c sf rn rd rot imm &&& 0x0FE00000#32 = cat 32 0#4 (cat 28 0b001#3 (cat 25 op.bits 0#21)) := by
  simp [encodeDataImm, cat_and, field]
  cases op <;> rfl

/-- The bits of the mask in a word of this class. -/
theorem row_testImm (op : AluOp) (c : Cond) (rn rd : Reg) (rot : BitVec 4) (imm : Byte) :
    encodeDataImm op c true rn rd rot imm &&& 0x0FF00000#32 = cat 32 0#4 (cat 28 0b001#3 (cat 25 op.bits (cat 21 0b1#1 0#20))) := by
  simp [encodeDataImm, bit, cat_and, field]
  cases op <;> rfl

/-- The bits of the mask in a word of this class. -/
theorem row_dataReg (op : AluOp) (c : Cond) (sf : Bool) (rn rd : Reg) (amt : BitVec 5) (ty : Shift) (rm : Reg) :
    encodeDataReg op c sf rn rd amt ty rm &&& 0x0FE00010#32 = cat 32 0#4 (cat 28 0b000#3 (cat 25 op.bits 0#21)) := by
  simp [encodeDataReg, cat_and, field]
  cases op <;> rfl

/-- The bits of the mask in a word of this class. -/
theorem row_testReg (op : AluOp) (c : Cond) (rn rd : Reg) (amt : BitVec 5) (ty : Shift) (rm : Reg) :
    encodeDataReg op c true rn rd amt ty rm &&& 0x0FF00010#32 = cat 32 0#4 (cat 28 0b000#3 (cat 25 op.bits (cat 21 0b1#1 0#20))) := by
  simp [encodeDataReg, bit, cat_and, field]
  cases op <;> rfl

/-- The bits of the mask in a word of this class. -/
theorem row_dataRsr (op : AluOp) (c : Cond) (sf : Bool) (rn rd rs : Reg) (ty : Shift) (rm : Reg) :
    encodeDataRsr op c sf rn rd rs ty rm &&& 0x0FE00090#32 = cat 32 0#4 (cat 28 0b000#3 (cat 25 op.bits 0x10#21)) := by
  simp [encodeDataRsr, cat_and, field]
  cases op <;> rfl

/-- The bits of the mask in a word of this class. -/
theorem row_testRsr (op : AluOp) (c : Cond) (rn rd rs : Reg) (ty : Shift) (rm : Reg) :
    encodeDataRsr op c true rn rd rs ty rm &&& 0x0FF00090#32 = cat 32 0#4 (cat 28 0b000#3 (cat 25 op.bits (cat 21 0b1#1 0x10#20))) := by
  simp [encodeDataRsr, bit, cat_and, field]
  cases op <;> rfl

/-- The bits of the mask in a word of this class. -/
theorem row_transferImm (load byte : Bool) (c : Cond) (p u w : Bool) (rn rd : Reg) (off : BitVec 12) :
    encodeTransferImm load byte c p u w rn rd off &&& 0x0E500000#32 = cat 32 0#4 (cat 28 0b010#3 (cat 25 0#2 (cat 23 (bit byte) (cat 22 0#1 (cat 21 (bit load) 0#20))))) := by
  simp [encodeTransferImm, cat_and, field]
  cases load <;> cases byte <;> rfl

/-- The bits of the mask in a word of this class. -/
theorem row_transferReg (load byte : Bool) (c : Cond) (p u w : Bool) (rn rd : Reg) (amt : BitVec 5) (ty : Shift) (rm : Reg) :
    encodeTransferReg load byte c p u w rn rd amt ty rm &&& 0x0E500010#32 = cat 32 0#4 (cat 28 0b011#3 (cat 25 0#2 (cat 23 (bit byte) (cat 22 0#1 (cat 21 (bit load) 0#20))))) := by
  simp [encodeTransferReg, cat_and, field]
  cases load <;> cases byte <;> rfl

/-- The bits of the mask in a word of this class. -/
theorem row_block (load : Bool) (c : Cond) (p u sb w : Bool) (rn : Reg) (list : BitVec 16) :
    encodeBlock load c p u sb w rn list &&& 0x0E100000#32 = cat 32 0#4 (cat 28 0b100#3 (cat 25 0#4 (cat 21 (bit load) 0#20))) := by
  simp [encodeBlock, cat_and, field]
  cases load <;> rfl

/-- The bits of the mask in a word of this class. -/
theorem row_coprocTransfer (load : Bool) (c : Cond) (p u n w : Bool) (rn : Reg) (crd cp : BitVec 4) (off : Byte) :
    encodeCoprocTransfer load c p u n w rn crd cp off &&& 0x0E100000#32 = cat 32 0#4 (cat 28 0b110#3 (cat 25 0#4 (cat 21 (bit load) 0#20))) := by
  simp [encodeCoprocTransfer, cat_and, field]
  cases load <;> rfl

/-- The bits of the mask in a word of this class. -/
theorem row_coprocRegister (load : Bool) (c : Cond) (opc : BitVec 3) (crn : BitVec 4) (rd : Reg) (cp : BitVec 4) (info : BitVec 3) (crm : BitVec 4) :
    encodeCoprocRegister load c opc crn rd cp info crm &&& 0x0F100010#32 = cat 32 0#4 (cat 28 0b1110#4 (cat 24 0#3 (cat 21 (bit load) 0x10#20))) := by
  simp [encodeCoprocRegister, cat_and, field]
  cases load <;> rfl

/-- The bits of the mask in a word of this class. -/
theorem row_multiply (acc : Bool) (c : Cond) (sf : Bool) (rd rn rs rm : Reg) :
    encodeMultiply acc c sf rd rn rs rm &&& 0x0FE000F0#32 = cat 32 0#4 (cat 28 0#6 (cat 22 (bit acc) 0x90#21)) := by
  simp [encodeMultiply, cat_and, field]
  cases acc <;> rfl

/-- The match and mask words of the row of the opcode table that a constructor stands for
(`spec/opcode_table.json`, `30_encoding.md` R123). -/
def tableRow : Instr → Word × Word
  | .andImm _ _ _ _ _ _ => (0x02000000#32, 0x0FE00000#32)
  | .andReg _ _ _ _ _ _ _ => (0x00000000#32, 0x0FE00010#32)
  | .andRsr _ _ _ _ _ _ _ => (0x00000010#32, 0x0FE00090#32)
  | .eorImm _ _ _ _ _ _ => (0x02200000#32, 0x0FE00000#32)
  | .eorReg _ _ _ _ _ _ _ => (0x00200000#32, 0x0FE00010#32)
  | .eorRsr _ _ _ _ _ _ _ => (0x00200010#32, 0x0FE00090#32)
  | .subImm _ _ _ _ _ _ => (0x02400000#32, 0x0FE00000#32)
  | .subReg _ _ _ _ _ _ _ => (0x00400000#32, 0x0FE00010#32)
  | .subRsr _ _ _ _ _ _ _ => (0x00400010#32, 0x0FE00090#32)
  | .rsbImm _ _ _ _ _ _ => (0x02600000#32, 0x0FE00000#32)
  | .rsbReg _ _ _ _ _ _ _ => (0x00600000#32, 0x0FE00010#32)
  | .rsbRsr _ _ _ _ _ _ _ => (0x00600010#32, 0x0FE00090#32)
  | .addImm _ _ _ _ _ _ => (0x02800000#32, 0x0FE00000#32)
  | .addReg _ _ _ _ _ _ _ => (0x00800000#32, 0x0FE00010#32)
  | .addRsr _ _ _ _ _ _ _ => (0x00800010#32, 0x0FE00090#32)
  | .adcImm _ _ _ _ _ _ => (0x02A00000#32, 0x0FE00000#32)
  | .adcReg _ _ _ _ _ _ _ => (0x00A00000#32, 0x0FE00010#32)
  | .adcRsr _ _ _ _ _ _ _ => (0x00A00010#32, 0x0FE00090#32)
  | .sbcImm _ _ _ _ _ _ => (0x02C00000#32, 0x0FE00000#32)
  | .sbcReg _ _ _ _ _ _ _ => (0x00C00000#32, 0x0FE00010#32)
  | .sbcRsr _ _ _ _ _ _ _ => (0x00C00010#32, 0x0FE00090#32)
  | .rscImm _ _ _ _ _ _ => (0x02E00000#32, 0x0FE00000#32)
  | .rscReg _ _ _ _ _ _ _ => (0x00E00000#32, 0x0FE00010#32)
  | .rscRsr _ _ _ _ _ _ _ => (0x00E00010#32, 0x0FE00090#32)
  | .tstImm _ _ _ _ _ => (0x03100000#32, 0x0FF00000#32)
  | .tstReg _ _ _ _ _ _ => (0x01100000#32, 0x0FF00010#32)
  | .tstRsr _ _ _ _ _ _ => (0x01100010#32, 0x0FF00090#32)
  | .teqImm _ _ _ _ _ => (0x03300000#32, 0x0FF00000#32)
  | .teqReg _ _ _ _ _ _ => (0x01300000#32, 0x0FF00010#32)
  | .teqRsr _ _ _ _ _ _ => (0x01300010#32, 0x0FF00090#32)
  | .cmpImm _ _ _ _ _ => (0x03500000#32, 0x0FF00000#32)
  | .cmpReg _ _ _ _ _ _ => (0x01500000#32, 0x0FF00010#32)
  | .cmpRsr _ _ _ _ _ _ => (0x01500010#32, 0x0FF00090#32)
  | .cmnImm _ _ _ _ _ => (0x03700000#32, 0x0FF00000#32)
  | .cmnReg _ _ _ _ _ _ => (0x01700000#32, 0x0FF00010#32)
  | .cmnRsr _ _ _ _ _ _ => (0x01700010#32, 0x0FF00090#32)
  | .orrImm _ _ _ _ _ _ => (0x03800000#32, 0x0FE00000#32)
  | .orrReg _ _ _ _ _ _ _ => (0x01800000#32, 0x0FE00010#32)
  | .orrRsr _ _ _ _ _ _ _ => (0x01800010#32, 0x0FE00090#32)
  | .movImm _ _ _ _ _ _ => (0x03A00000#32, 0x0FE00000#32)
  | .movReg _ _ _ _ _ _ _ => (0x01A00000#32, 0x0FE00010#32)
  | .movRsr _ _ _ _ _ _ _ => (0x01A00010#32, 0x0FE00090#32)
  | .bicImm _ _ _ _ _ _ => (0x03C00000#32, 0x0FE00000#32)
  | .bicReg _ _ _ _ _ _ _ => (0x01C00000#32, 0x0FE00010#32)
  | .bicRsr _ _ _ _ _ _ _ => (0x01C00010#32, 0x0FE00090#32)
  | .mvnImm _ _ _ _ _ _ => (0x03E00000#32, 0x0FE00000#32)
  | .mvnReg _ _ _ _ _ _ _ => (0x01E00000#32, 0x0FE00010#32)
  | .mvnRsr _ _ _ _ _ _ _ => (0x01E00010#32, 0x0FE00090#32)
  | .mrs _ _ _ => (0x010F0000#32, 0x0FBF0FFF#32)
  | .msrAll _ _ _ => (0x0129F000#32, 0x0FBFFFF0#32)
  | .msrFlags _ _ _ => (0x0128F000#32, 0x0FBFFFF0#32)
  | .msrFlagsImm _ _ _ _ => (0x0328F000#32, 0x0FBFF000#32)
  | .mul _ _ _ _ _ _ => (0x00000090#32, 0x0FE000F0#32)
  | .mla _ _ _ _ _ _ => (0x00200090#32, 0x0FE000F0#32)
  | .ldrImm _ _ _ _ _ _ _ => (0x04100000#32, 0x0E500000#32)
  | .ldrReg _ _ _ _ _ _ _ _ _ => (0x06100000#32, 0x0E500010#32)
  | .ldrbImm _ _ _ _ _ _ _ => (0x04500000#32, 0x0E500000#32)
  | .ldrbReg _ _ _ _ _ _ _ _ _ => (0x06500000#32, 0x0E500010#32)
  | .strImm _ _ _ _ _ _ _ => (0x04000000#32, 0x0E500000#32)
  | .strReg _ _ _ _ _ _ _ _ _ => (0x06000000#32, 0x0E500010#32)
  | .strbImm _ _ _ _ _ _ _ => (0x04400000#32, 0x0E500000#32)
  | .strbReg _ _ _ _ _ _ _ _ _ => (0x06400000#32, 0x0E500010#32)
  | .undefined _ _ _ => (0x06000010#32, 0x0E000010#32)
  | .ldm _ _ _ _ _ _ _ => (0x08100000#32, 0x0E100000#32)
  | .stm _ _ _ _ _ _ _ => (0x08000000#32, 0x0E100000#32)
  | .b _ _ => (0x0A000000#32, 0x0F000000#32)
  | .bl _ _ => (0x0B000000#32, 0x0F000000#32)
  | .swp _ _ _ _ => (0x01000090#32, 0x0FF00FF0#32)
  | .swpb _ _ _ _ => (0x01400090#32, 0x0FF00FF0#32)
  | .swi _ _ => (0x0F000000#32, 0x0F000000#32)
  | .cdp _ _ _ _ _ _ _ => (0x0E000000#32, 0x0F000010#32)
  | .ldc _ _ _ _ _ _ _ _ _ => (0x0C100000#32, 0x0E100000#32)
  | .stc _ _ _ _ _ _ _ _ _ => (0x0C000000#32, 0x0E100000#32)
  | .mrc _ _ _ _ _ _ _ => (0x0E100010#32, 0x0F100010#32)
  | .mcr _ _ _ _ _ _ _ => (0x0E000010#32, 0x0F100010#32)

/-- The word of an instruction lies in the row of the opcode table that its constructor stands for. -/
def Laws.EncodeMatchesTable.Statement (i : Instr) : Prop := encode i &&& (tableRow i).2 = (tableRow i).1

theorem Laws.EncodeMatchesTable.andImm (c : Cond) (sf : Bool) (rn rd : Reg) (rot : BitVec 4) (imm : Byte) :
    Laws.EncodeMatchesTable.Statement (.andImm c sf rn rd rot imm) :=
  (row_dataImm .and c sf rn rd rot imm).trans rfl

theorem Laws.EncodeMatchesTable.andReg (c : Cond) (sf : Bool) (rn rd : Reg) (amt : BitVec 5) (ty : Shift) (rm : Reg) :
    Laws.EncodeMatchesTable.Statement (.andReg c sf rn rd amt ty rm) :=
  (row_dataReg .and c sf rn rd amt ty rm).trans rfl

theorem Laws.EncodeMatchesTable.andRsr (c : Cond) (sf : Bool) (rn rd rs : Reg) (ty : Shift) (rm : Reg) :
    Laws.EncodeMatchesTable.Statement (.andRsr c sf rn rd rs ty rm) :=
  (row_dataRsr .and c sf rn rd rs ty rm).trans rfl

theorem Laws.EncodeMatchesTable.eorImm (c : Cond) (sf : Bool) (rn rd : Reg) (rot : BitVec 4) (imm : Byte) :
    Laws.EncodeMatchesTable.Statement (.eorImm c sf rn rd rot imm) :=
  (row_dataImm .eor c sf rn rd rot imm).trans rfl

theorem Laws.EncodeMatchesTable.eorReg (c : Cond) (sf : Bool) (rn rd : Reg) (amt : BitVec 5) (ty : Shift) (rm : Reg) :
    Laws.EncodeMatchesTable.Statement (.eorReg c sf rn rd amt ty rm) :=
  (row_dataReg .eor c sf rn rd amt ty rm).trans rfl

theorem Laws.EncodeMatchesTable.eorRsr (c : Cond) (sf : Bool) (rn rd rs : Reg) (ty : Shift) (rm : Reg) :
    Laws.EncodeMatchesTable.Statement (.eorRsr c sf rn rd rs ty rm) :=
  (row_dataRsr .eor c sf rn rd rs ty rm).trans rfl

theorem Laws.EncodeMatchesTable.subImm (c : Cond) (sf : Bool) (rn rd : Reg) (rot : BitVec 4) (imm : Byte) :
    Laws.EncodeMatchesTable.Statement (.subImm c sf rn rd rot imm) :=
  (row_dataImm .sub c sf rn rd rot imm).trans rfl

theorem Laws.EncodeMatchesTable.subReg (c : Cond) (sf : Bool) (rn rd : Reg) (amt : BitVec 5) (ty : Shift) (rm : Reg) :
    Laws.EncodeMatchesTable.Statement (.subReg c sf rn rd amt ty rm) :=
  (row_dataReg .sub c sf rn rd amt ty rm).trans rfl

theorem Laws.EncodeMatchesTable.subRsr (c : Cond) (sf : Bool) (rn rd rs : Reg) (ty : Shift) (rm : Reg) :
    Laws.EncodeMatchesTable.Statement (.subRsr c sf rn rd rs ty rm) :=
  (row_dataRsr .sub c sf rn rd rs ty rm).trans rfl

theorem Laws.EncodeMatchesTable.rsbImm (c : Cond) (sf : Bool) (rn rd : Reg) (rot : BitVec 4) (imm : Byte) :
    Laws.EncodeMatchesTable.Statement (.rsbImm c sf rn rd rot imm) :=
  (row_dataImm .rsb c sf rn rd rot imm).trans rfl

theorem Laws.EncodeMatchesTable.rsbReg (c : Cond) (sf : Bool) (rn rd : Reg) (amt : BitVec 5) (ty : Shift) (rm : Reg) :
    Laws.EncodeMatchesTable.Statement (.rsbReg c sf rn rd amt ty rm) :=
  (row_dataReg .rsb c sf rn rd amt ty rm).trans rfl

theorem Laws.EncodeMatchesTable.rsbRsr (c : Cond) (sf : Bool) (rn rd rs : Reg) (ty : Shift) (rm : Reg) :
    Laws.EncodeMatchesTable.Statement (.rsbRsr c sf rn rd rs ty rm) :=
  (row_dataRsr .rsb c sf rn rd rs ty rm).trans rfl

theorem Laws.EncodeMatchesTable.addImm (c : Cond) (sf : Bool) (rn rd : Reg) (rot : BitVec 4) (imm : Byte) :
    Laws.EncodeMatchesTable.Statement (.addImm c sf rn rd rot imm) :=
  (row_dataImm .add c sf rn rd rot imm).trans rfl

theorem Laws.EncodeMatchesTable.addReg (c : Cond) (sf : Bool) (rn rd : Reg) (amt : BitVec 5) (ty : Shift) (rm : Reg) :
    Laws.EncodeMatchesTable.Statement (.addReg c sf rn rd amt ty rm) :=
  (row_dataReg .add c sf rn rd amt ty rm).trans rfl

theorem Laws.EncodeMatchesTable.addRsr (c : Cond) (sf : Bool) (rn rd rs : Reg) (ty : Shift) (rm : Reg) :
    Laws.EncodeMatchesTable.Statement (.addRsr c sf rn rd rs ty rm) :=
  (row_dataRsr .add c sf rn rd rs ty rm).trans rfl

theorem Laws.EncodeMatchesTable.adcImm (c : Cond) (sf : Bool) (rn rd : Reg) (rot : BitVec 4) (imm : Byte) :
    Laws.EncodeMatchesTable.Statement (.adcImm c sf rn rd rot imm) :=
  (row_dataImm .adc c sf rn rd rot imm).trans rfl

theorem Laws.EncodeMatchesTable.adcReg (c : Cond) (sf : Bool) (rn rd : Reg) (amt : BitVec 5) (ty : Shift) (rm : Reg) :
    Laws.EncodeMatchesTable.Statement (.adcReg c sf rn rd amt ty rm) :=
  (row_dataReg .adc c sf rn rd amt ty rm).trans rfl

theorem Laws.EncodeMatchesTable.adcRsr (c : Cond) (sf : Bool) (rn rd rs : Reg) (ty : Shift) (rm : Reg) :
    Laws.EncodeMatchesTable.Statement (.adcRsr c sf rn rd rs ty rm) :=
  (row_dataRsr .adc c sf rn rd rs ty rm).trans rfl

theorem Laws.EncodeMatchesTable.sbcImm (c : Cond) (sf : Bool) (rn rd : Reg) (rot : BitVec 4) (imm : Byte) :
    Laws.EncodeMatchesTable.Statement (.sbcImm c sf rn rd rot imm) :=
  (row_dataImm .sbc c sf rn rd rot imm).trans rfl

theorem Laws.EncodeMatchesTable.sbcReg (c : Cond) (sf : Bool) (rn rd : Reg) (amt : BitVec 5) (ty : Shift) (rm : Reg) :
    Laws.EncodeMatchesTable.Statement (.sbcReg c sf rn rd amt ty rm) :=
  (row_dataReg .sbc c sf rn rd amt ty rm).trans rfl

theorem Laws.EncodeMatchesTable.sbcRsr (c : Cond) (sf : Bool) (rn rd rs : Reg) (ty : Shift) (rm : Reg) :
    Laws.EncodeMatchesTable.Statement (.sbcRsr c sf rn rd rs ty rm) :=
  (row_dataRsr .sbc c sf rn rd rs ty rm).trans rfl

theorem Laws.EncodeMatchesTable.rscImm (c : Cond) (sf : Bool) (rn rd : Reg) (rot : BitVec 4) (imm : Byte) :
    Laws.EncodeMatchesTable.Statement (.rscImm c sf rn rd rot imm) :=
  (row_dataImm .rsc c sf rn rd rot imm).trans rfl

theorem Laws.EncodeMatchesTable.rscReg (c : Cond) (sf : Bool) (rn rd : Reg) (amt : BitVec 5) (ty : Shift) (rm : Reg) :
    Laws.EncodeMatchesTable.Statement (.rscReg c sf rn rd amt ty rm) :=
  (row_dataReg .rsc c sf rn rd amt ty rm).trans rfl

theorem Laws.EncodeMatchesTable.rscRsr (c : Cond) (sf : Bool) (rn rd rs : Reg) (ty : Shift) (rm : Reg) :
    Laws.EncodeMatchesTable.Statement (.rscRsr c sf rn rd rs ty rm) :=
  (row_dataRsr .rsc c sf rn rd rs ty rm).trans rfl

theorem Laws.EncodeMatchesTable.tstImm (c : Cond) (rn rd : Reg) (rot : BitVec 4) (imm : Byte) :
    Laws.EncodeMatchesTable.Statement (.tstImm c rn rd rot imm) :=
  (row_testImm .tst c rn rd rot imm).trans rfl

theorem Laws.EncodeMatchesTable.tstReg (c : Cond) (rn rd : Reg) (amt : BitVec 5) (ty : Shift) (rm : Reg) :
    Laws.EncodeMatchesTable.Statement (.tstReg c rn rd amt ty rm) :=
  (row_testReg .tst c rn rd amt ty rm).trans rfl

theorem Laws.EncodeMatchesTable.tstRsr (c : Cond) (rn rd rs : Reg) (ty : Shift) (rm : Reg) :
    Laws.EncodeMatchesTable.Statement (.tstRsr c rn rd rs ty rm) :=
  (row_testRsr .tst c rn rd rs ty rm).trans rfl

theorem Laws.EncodeMatchesTable.teqImm (c : Cond) (rn rd : Reg) (rot : BitVec 4) (imm : Byte) :
    Laws.EncodeMatchesTable.Statement (.teqImm c rn rd rot imm) :=
  (row_testImm .teq c rn rd rot imm).trans rfl

theorem Laws.EncodeMatchesTable.teqReg (c : Cond) (rn rd : Reg) (amt : BitVec 5) (ty : Shift) (rm : Reg) :
    Laws.EncodeMatchesTable.Statement (.teqReg c rn rd amt ty rm) :=
  (row_testReg .teq c rn rd amt ty rm).trans rfl

theorem Laws.EncodeMatchesTable.teqRsr (c : Cond) (rn rd rs : Reg) (ty : Shift) (rm : Reg) :
    Laws.EncodeMatchesTable.Statement (.teqRsr c rn rd rs ty rm) :=
  (row_testRsr .teq c rn rd rs ty rm).trans rfl

theorem Laws.EncodeMatchesTable.cmpImm (c : Cond) (rn rd : Reg) (rot : BitVec 4) (imm : Byte) :
    Laws.EncodeMatchesTable.Statement (.cmpImm c rn rd rot imm) :=
  (row_testImm .cmp c rn rd rot imm).trans rfl

theorem Laws.EncodeMatchesTable.cmpReg (c : Cond) (rn rd : Reg) (amt : BitVec 5) (ty : Shift) (rm : Reg) :
    Laws.EncodeMatchesTable.Statement (.cmpReg c rn rd amt ty rm) :=
  (row_testReg .cmp c rn rd amt ty rm).trans rfl

theorem Laws.EncodeMatchesTable.cmpRsr (c : Cond) (rn rd rs : Reg) (ty : Shift) (rm : Reg) :
    Laws.EncodeMatchesTable.Statement (.cmpRsr c rn rd rs ty rm) :=
  (row_testRsr .cmp c rn rd rs ty rm).trans rfl

theorem Laws.EncodeMatchesTable.cmnImm (c : Cond) (rn rd : Reg) (rot : BitVec 4) (imm : Byte) :
    Laws.EncodeMatchesTable.Statement (.cmnImm c rn rd rot imm) :=
  (row_testImm .cmn c rn rd rot imm).trans rfl

theorem Laws.EncodeMatchesTable.cmnReg (c : Cond) (rn rd : Reg) (amt : BitVec 5) (ty : Shift) (rm : Reg) :
    Laws.EncodeMatchesTable.Statement (.cmnReg c rn rd amt ty rm) :=
  (row_testReg .cmn c rn rd amt ty rm).trans rfl

theorem Laws.EncodeMatchesTable.cmnRsr (c : Cond) (rn rd rs : Reg) (ty : Shift) (rm : Reg) :
    Laws.EncodeMatchesTable.Statement (.cmnRsr c rn rd rs ty rm) :=
  (row_testRsr .cmn c rn rd rs ty rm).trans rfl

theorem Laws.EncodeMatchesTable.orrImm (c : Cond) (sf : Bool) (rn rd : Reg) (rot : BitVec 4) (imm : Byte) :
    Laws.EncodeMatchesTable.Statement (.orrImm c sf rn rd rot imm) :=
  (row_dataImm .orr c sf rn rd rot imm).trans rfl

theorem Laws.EncodeMatchesTable.orrReg (c : Cond) (sf : Bool) (rn rd : Reg) (amt : BitVec 5) (ty : Shift) (rm : Reg) :
    Laws.EncodeMatchesTable.Statement (.orrReg c sf rn rd amt ty rm) :=
  (row_dataReg .orr c sf rn rd amt ty rm).trans rfl

theorem Laws.EncodeMatchesTable.orrRsr (c : Cond) (sf : Bool) (rn rd rs : Reg) (ty : Shift) (rm : Reg) :
    Laws.EncodeMatchesTable.Statement (.orrRsr c sf rn rd rs ty rm) :=
  (row_dataRsr .orr c sf rn rd rs ty rm).trans rfl

theorem Laws.EncodeMatchesTable.movImm (c : Cond) (sf : Bool) (rn rd : Reg) (rot : BitVec 4) (imm : Byte) :
    Laws.EncodeMatchesTable.Statement (.movImm c sf rn rd rot imm) :=
  (row_dataImm .mov c sf rn rd rot imm).trans rfl

theorem Laws.EncodeMatchesTable.movReg (c : Cond) (sf : Bool) (rn rd : Reg) (amt : BitVec 5) (ty : Shift) (rm : Reg) :
    Laws.EncodeMatchesTable.Statement (.movReg c sf rn rd amt ty rm) :=
  (row_dataReg .mov c sf rn rd amt ty rm).trans rfl

theorem Laws.EncodeMatchesTable.movRsr (c : Cond) (sf : Bool) (rn rd rs : Reg) (ty : Shift) (rm : Reg) :
    Laws.EncodeMatchesTable.Statement (.movRsr c sf rn rd rs ty rm) :=
  (row_dataRsr .mov c sf rn rd rs ty rm).trans rfl

theorem Laws.EncodeMatchesTable.bicImm (c : Cond) (sf : Bool) (rn rd : Reg) (rot : BitVec 4) (imm : Byte) :
    Laws.EncodeMatchesTable.Statement (.bicImm c sf rn rd rot imm) :=
  (row_dataImm .bic c sf rn rd rot imm).trans rfl

theorem Laws.EncodeMatchesTable.bicReg (c : Cond) (sf : Bool) (rn rd : Reg) (amt : BitVec 5) (ty : Shift) (rm : Reg) :
    Laws.EncodeMatchesTable.Statement (.bicReg c sf rn rd amt ty rm) :=
  (row_dataReg .bic c sf rn rd amt ty rm).trans rfl

theorem Laws.EncodeMatchesTable.bicRsr (c : Cond) (sf : Bool) (rn rd rs : Reg) (ty : Shift) (rm : Reg) :
    Laws.EncodeMatchesTable.Statement (.bicRsr c sf rn rd rs ty rm) :=
  (row_dataRsr .bic c sf rn rd rs ty rm).trans rfl

theorem Laws.EncodeMatchesTable.mvnImm (c : Cond) (sf : Bool) (rn rd : Reg) (rot : BitVec 4) (imm : Byte) :
    Laws.EncodeMatchesTable.Statement (.mvnImm c sf rn rd rot imm) :=
  (row_dataImm .mvn c sf rn rd rot imm).trans rfl

theorem Laws.EncodeMatchesTable.mvnReg (c : Cond) (sf : Bool) (rn rd : Reg) (amt : BitVec 5) (ty : Shift) (rm : Reg) :
    Laws.EncodeMatchesTable.Statement (.mvnReg c sf rn rd amt ty rm) :=
  (row_dataReg .mvn c sf rn rd amt ty rm).trans rfl

theorem Laws.EncodeMatchesTable.mvnRsr (c : Cond) (sf : Bool) (rn rd rs : Reg) (ty : Shift) (rm : Reg) :
    Laws.EncodeMatchesTable.Statement (.mvnRsr c sf rn rd rs ty rm) :=
  (row_dataRsr .mvn c sf rn rd rs ty rm).trans rfl

theorem Laws.EncodeMatchesTable.mrs (c : Cond) (spsr : Bool) (rd : Reg) :
    Laws.EncodeMatchesTable.Statement (.mrs c spsr rd) := by
  show encode (.mrs c spsr rd) &&& 0x0FBF0FFF#32 = 0x010F0000#32
  simp [encode, cat_and, field]
  try rfl

theorem Laws.EncodeMatchesTable.msrAll (c : Cond) (spsr : Bool) (rm : Reg) :
    Laws.EncodeMatchesTable.Statement (.msrAll c spsr rm) := by
  show encodeMsr false c spsr rm &&& 0x0FBFFFF0#32 = 0x0129F000#32
  simp [encodeMsr, cat_and, field]
  try rfl

theorem Laws.EncodeMatchesTable.msrFlags (c : Cond) (spsr : Bool) (rm : Reg) :
    Laws.EncodeMatchesTable.Statement (.msrFlags c spsr rm) := by
  show encodeMsr true c spsr rm &&& 0x0FBFFFF0#32 = 0x0128F000#32
  simp [encodeMsr, cat_and, field]
  try rfl

theorem Laws.EncodeMatchesTable.msrFlagsImm (c : Cond) (spsr : Bool) (rot : BitVec 4) (imm : Byte) :
    Laws.EncodeMatchesTable.Statement (.msrFlagsImm c spsr rot imm) := by
  show encode (.msrFlagsImm c spsr rot imm) &&& 0x0FBFF000#32 = 0x0328F000#32
  simp [encode, cat_and, field]
  try rfl

theorem Laws.EncodeMatchesTable.mul (c : Cond) (sf : Bool) (rd rn rs rm : Reg) :
    Laws.EncodeMatchesTable.Statement (.mul c sf rd rn rs rm) :=
  (row_multiply false c sf rd rn rs rm).trans rfl

theorem Laws.EncodeMatchesTable.mla (c : Cond) (sf : Bool) (rd rn rs rm : Reg) :
    Laws.EncodeMatchesTable.Statement (.mla c sf rd rn rs rm) :=
  (row_multiply true c sf rd rn rs rm).trans rfl

theorem Laws.EncodeMatchesTable.ldrImm (c : Cond) (p u w : Bool) (rn rd : Reg) (off : BitVec 12) :
    Laws.EncodeMatchesTable.Statement (.ldrImm c p u w rn rd off) :=
  (row_transferImm true false c p u w rn rd off).trans rfl

theorem Laws.EncodeMatchesTable.ldrReg (c : Cond) (p u w : Bool) (rn rd : Reg) (amt : BitVec 5) (ty : Shift) (rm : Reg) :
    Laws.EncodeMatchesTable.Statement (.ldrReg c p u w rn rd amt ty rm) :=
  (row_transferReg true false c p u w rn rd amt ty rm).trans rfl

theorem Laws.EncodeMatchesTable.ldrbImm (c : Cond) (p u w : Bool) (rn rd : Reg) (off : BitVec 12) :
    Laws.EncodeMatchesTable.Statement (.ldrbImm c p u w rn rd off) :=
  (row_transferImm true true c p u w rn rd off).trans rfl

theorem Laws.EncodeMatchesTable.ldrbReg (c : Cond) (p u w : Bool) (rn rd : Reg) (amt : BitVec 5) (ty : Shift) (rm : Reg) :
    Laws.EncodeMatchesTable.Statement (.ldrbReg c p u w rn rd amt ty rm) :=
  (row_transferReg true true c p u w rn rd amt ty rm).trans rfl

theorem Laws.EncodeMatchesTable.strImm (c : Cond) (p u w : Bool) (rn rd : Reg) (off : BitVec 12) :
    Laws.EncodeMatchesTable.Statement (.strImm c p u w rn rd off) :=
  (row_transferImm false false c p u w rn rd off).trans rfl

theorem Laws.EncodeMatchesTable.strReg (c : Cond) (p u w : Bool) (rn rd : Reg) (amt : BitVec 5) (ty : Shift) (rm : Reg) :
    Laws.EncodeMatchesTable.Statement (.strReg c p u w rn rd amt ty rm) :=
  (row_transferReg false false c p u w rn rd amt ty rm).trans rfl

theorem Laws.EncodeMatchesTable.strbImm (c : Cond) (p u w : Bool) (rn rd : Reg) (off : BitVec 12) :
    Laws.EncodeMatchesTable.Statement (.strbImm c p u w rn rd off) :=
  (row_transferImm false true c p u w rn rd off).trans rfl

theorem Laws.EncodeMatchesTable.strbReg (c : Cond) (p u w : Bool) (rn rd : Reg) (amt : BitVec 5) (ty : Shift) (rm : Reg) :
    Laws.EncodeMatchesTable.Statement (.strbReg c p u w rn rd amt ty rm) :=
  (row_transferReg false true c p u w rn rd amt ty rm).trans rfl

theorem Laws.EncodeMatchesTable.undefined (c : Cond) (hi : BitVec 20) (lo : BitVec 4) :
    Laws.EncodeMatchesTable.Statement (.undefined c hi lo) := by
  show encode (.undefined c hi lo) &&& 0x0E000010#32 = 0x06000010#32
  simp [encode, cat_and, field]
  try rfl

theorem Laws.EncodeMatchesTable.ldm (c : Cond) (p u sb w : Bool) (rn : Reg) (list : BitVec 16) :
    Laws.EncodeMatchesTable.Statement (.ldm c p u sb w rn list) :=
  (row_block true c p u sb w rn list).trans rfl

theorem Laws.EncodeMatchesTable.stm (c : Cond) (p u sb w : Bool) (rn : Reg) (list : BitVec 16) :
    Laws.EncodeMatchesTable.Statement (.stm c p u sb w rn list) :=
  (row_block false c p u sb w rn list).trans rfl

theorem Laws.EncodeMatchesTable.b (c : Cond) (off : BitVec 24) :
    Laws.EncodeMatchesTable.Statement (.b c off) := by
  show encode (.b c off) &&& 0x0F000000#32 = 0x0A000000#32
  simp [encode, cat_and, field]
  try rfl

theorem Laws.EncodeMatchesTable.bl (c : Cond) (off : BitVec 24) :
    Laws.EncodeMatchesTable.Statement (.bl c off) := by
  show encode (.bl c off) &&& 0x0F000000#32 = 0x0B000000#32
  simp [encode, cat_and, field]
  try rfl

theorem Laws.EncodeMatchesTable.swp (c : Cond) (rn rd rm : Reg) :
    Laws.EncodeMatchesTable.Statement (.swp c rn rd rm) := by
  show encodeSwap false c rn rd rm &&& 0x0FF00FF0#32 = 0x01000090#32
  simp [encodeSwap, cat_and, field]
  try rfl

theorem Laws.EncodeMatchesTable.swpb (c : Cond) (rn rd rm : Reg) :
    Laws.EncodeMatchesTable.Statement (.swpb c rn rd rm) := by
  show encodeSwap true c rn rd rm &&& 0x0FF00FF0#32 = 0x01400090#32
  simp [encodeSwap, cat_and, field]
  try rfl

theorem Laws.EncodeMatchesTable.swi (c : Cond) (comment : BitVec 24) :
    Laws.EncodeMatchesTable.Statement (.swi c comment) := by
  show encode (.swi c comment) &&& 0x0F000000#32 = 0x0F000000#32
  simp [encode, cat_and, field]
  try rfl

theorem Laws.EncodeMatchesTable.cdp (c : Cond) (opc crn crd cp : BitVec 4) (info : BitVec 3) (crm : BitVec 4) :
    Laws.EncodeMatchesTable.Statement (.cdp c opc crn crd cp info crm) := by
  show encode (.cdp c opc crn crd cp info crm) &&& 0x0F000010#32 = 0x0E000000#32
  simp [encode, cat_and, field]
  try rfl

theorem Laws.EncodeMatchesTable.ldc (c : Cond) (p u n w : Bool) (rn : Reg) (crd cp : BitVec 4) (off : Byte) :
    Laws.EncodeMatchesTable.Statement (.ldc c p u n w rn crd cp off) :=
  (row_coprocTransfer true c p u n w rn crd cp off).trans rfl

theorem Laws.EncodeMatchesTable.stc (c : Cond) (p u n w : Bool) (rn : Reg) (crd cp : BitVec 4) (off : Byte) :
    Laws.EncodeMatchesTable.Statement (.stc c p u n w rn crd cp off) :=
  (row_coprocTransfer false c p u n w rn crd cp off).trans rfl

theorem Laws.EncodeMatchesTable.mrc (c : Cond) (opc : BitVec 3) (crn : BitVec 4) (rd : Reg) (cp : BitVec 4) (info : BitVec 3) (crm : BitVec 4) :
    Laws.EncodeMatchesTable.Statement (.mrc c opc crn rd cp info crm) :=
  (row_coprocRegister true c opc crn rd cp info crm).trans rfl

theorem Laws.EncodeMatchesTable.mcr (c : Cond) (opc : BitVec 3) (crn : BitVec 4) (rd : Reg) (cp : BitVec 4) (info : BitVec 3) (crm : BitVec 4) :
    Laws.EncodeMatchesTable.Statement (.mcr c opc crn rd cp info crm) :=
  (row_coprocRegister false c opc crn rd cp info crm).trans rfl

end Sys2Proof
end

