-- ==== Sys2Proof/Tests/Slice0.lean ====
section
/-! SUPPORT. Small tests: the checks of WellFormed, the decoding of words, single steps, and a witness for the hypotheses
of each statement. Expected words come from the encodings of `30_encoding.md` and `opcode_table.json`, expected results
from `95_test_vectors.md` or by hand from the rules named. -/

namespace Sys2Proof.Tests

open Sys2Proof Sys2Proof.Machine

-- One test after another: a kernel evaluation each, they would otherwise all wait in threads of their own.
set_option Elab.async false

/-! ### WellFormed: an ill-formed term for each check -/

theorem test_refuses_shift_amount_in_r15 :
    Instr.wellFormed (.addRsr .al false 1 0 15 .lsl 2) = false ∧ Instr.wellFormed (.addRsr .al false 1 0 14 .lsl 2) = true := by decide

theorem test_refuses_mrs_to_r15 :
    Instr.wellFormed (.mrs .al false 15) = false ∧ Instr.wellFormed (.mrs .al false 14) = true := by decide

theorem test_refuses_msr_from_r15 :
    Instr.wellFormed (.msrAll .al false 15) = false ∧ Instr.wellFormed (.msrAll .al false 14) = true := by decide

theorem test_refuses_msr_flags_from_r15 :
    Instr.wellFormed (.msrFlags .al true 15) = false ∧ Instr.wellFormed (.msrFlags .al true 0) = true := by decide

theorem test_refuses_mul_with_r15 :
    Instr.wellFormed (.mul .al false 15 0 1 2) = false ∧ Instr.wellFormed (.mul .al false 0 15 1 2) = true := by decide

theorem test_refuses_mla_with_r15 :
    Instr.wellFormed (.mla .al false 0 15 1 2) = false ∧ Instr.wellFormed (.mla .al false 0 14 1 2) = true := by decide

theorem test_refuses_offset_in_r15 :
    Instr.wellFormed (.ldrReg .al true true false 1 0 0 .lsl 15) = false ∧ Instr.wellFormed (.ldrReg .al true true false 1 0 0 .lsl 14) = true := by decide

theorem test_refuses_write_back_to_r15 :
    Instr.wellFormed (.ldrImm .al false true false 15 0 4) = false ∧ Instr.wellFormed (.ldrImm .al true true false 15 0 4) = true := by decide

theorem test_refuses_store_of_written_base :
    Instr.wellFormed (.strImm .al true true true 1 1 4) = false ∧ Instr.wellFormed (.strImm .al true true false 1 1 4) = true := by decide

theorem test_refuses_byte_to_r15 :
    Instr.wellFormed (.ldrbImm .al true true false 1 15 0) = false ∧ Instr.wellFormed (.ldrbImm .al true true false 1 14 0) = true := by decide

theorem test_refuses_empty_list :
    Instr.wellFormed (.ldm .al false true false false 0 0) = false ∧ Instr.wellFormed (.ldm .al false true false false 0 1) = true := by decide

theorem test_refuses_block_base_r15 :
    Instr.wellFormed (.stm .al false true false false 15 1) = false ∧ Instr.wellFormed (.stm .al false true false false 14 1) = true := by decide

theorem test_refuses_user_bank_write_back :
    Instr.wellFormed (.ldm .al false true true true 0 1) = false ∧ Instr.wellFormed (.ldm .al false true true true 0 0x8001) = true := by decide

theorem test_refuses_swap_with_r15 :
    Instr.wellFormed (.swp .al 15 0 1) = false ∧ Instr.wellFormed (.swp .al 14 0 1) = true := by decide

theorem test_refuses_coprocessor_write_back_to_r15 :
    Instr.wellFormed (.ldc .al true true false true 15 0 0 0) = false ∧ Instr.wellFormed (.ldc .al true true false false 15 0 0 0) = true := by decide

/-! ### Decoding: one word for each row of `opcode_table.json`, its fields filled in by hand -/

theorem test_decode_immediate_operands :
    decode 0xE21495A6#32 = .ok (.andImm .al true 4 9 5 0xa6) ∧
    decode 0xE22495A6#32 = .ok (.eorImm .al false 4 9 5 0xa6) ∧
    decode 0xE25495A6#32 = .ok (.subImm .al true 4 9 5 0xa6) ∧
    decode 0xE26495A6#32 = .ok (.rsbImm .al false 4 9 5 0xa6) ∧
    decode 0xE29495A6#32 = .ok (.addImm .al true 4 9 5 0xa6) ∧
    decode 0xE2A495A6#32 = .ok (.adcImm .al false 4 9 5 0xa6) ∧
    decode 0xE2D495A6#32 = .ok (.sbcImm .al true 4 9 5 0xa6) ∧
    decode 0xE2E495A6#32 = .ok (.rscImm .al false 4 9 5 0xa6) ∧
    decode 0xE31495A6#32 = .ok (.tstImm .al 4 9 5 0xa6) ∧
    decode 0xE33495A6#32 = .ok (.teqImm .al 4 9 5 0xa6) ∧
    decode 0xE35495A6#32 = .ok (.cmpImm .al 4 9 5 0xa6) ∧
    decode 0xE37495A6#32 = .ok (.cmnImm .al 4 9 5 0xa6) ∧
    decode 0xE39495A6#32 = .ok (.orrImm .al true 4 9 5 0xa6) ∧
    decode 0xE3A495A6#32 = .ok (.movImm .al false 4 9 5 0xa6) ∧
    decode 0xE3D495A6#32 = .ok (.bicImm .al true 4 9 5 0xa6) ∧
    decode 0xE3E495A6#32 = .ok (.mvnImm .al false 4 9 5 0xa6) := by
  decide +kernel

theorem test_decode_shifted_operands :
    decode 0x100499C6#32 = .ok (.andReg .ne false 4 9 0x13 .asr 6) ∧
    decode 0x103499C6#32 = .ok (.eorReg .ne true 4 9 0x13 .asr 6) ∧
    decode 0x104499C6#32 = .ok (.subReg .ne false 4 9 0x13 .asr 6) ∧
    decode 0x107499C6#32 = .ok (.rsbReg .ne true 4 9 0x13 .asr 6) ∧
    decode 0x108499C6#32 = .ok (.addReg .ne false 4 9 0x13 .asr 6) ∧
    decode 0x10B499C6#32 = .ok (.adcReg .ne true 4 9 0x13 .asr 6) ∧
    decode 0x10C499C6#32 = .ok (.sbcReg .ne false 4 9 0x13 .asr 6) ∧
    decode 0x10F499C6#32 = .ok (.rscReg .ne true 4 9 0x13 .asr 6) ∧
    decode 0x111499C6#32 = .ok (.tstReg .ne 4 9 0x13 .asr 6) ∧
    decode 0x113499C6#32 = .ok (.teqReg .ne 4 9 0x13 .asr 6) ∧
    decode 0x115499C6#32 = .ok (.cmpReg .ne 4 9 0x13 .asr 6) ∧
    decode 0x117499C6#32 = .ok (.cmnReg .ne 4 9 0x13 .asr 6) ∧
    decode 0x118499C6#32 = .ok (.orrReg .ne false 4 9 0x13 .asr 6) ∧
    decode 0x11B499C6#32 = .ok (.movReg .ne true 4 9 0x13 .asr 6) ∧
    decode 0x11C499C6#32 = .ok (.bicReg .ne false 4 9 0x13 .asr 6) ∧
    decode 0x11F499C6#32 = .ok (.mvnReg .ne true 4 9 0x13 .asr 6) := by
  decide +kernel

theorem test_decode_register_shifts :
    decode 0xE0149B56#32 = .ok (.andRsr .al true 4 9 11 .asr 6) ∧
    decode 0xE0249B56#32 = .ok (.eorRsr .al false 4 9 11 .asr 6) ∧
    decode 0xE0549B56#32 = .ok (.subRsr .al true 4 9 11 .asr 6) ∧
    decode 0xE0649B56#32 = .ok (.rsbRsr .al false 4 9 11 .asr 6) ∧
    decode 0xE0949B56#32 = .ok (.addRsr .al true 4 9 11 .asr 6) ∧
    decode 0xE0A49B56#32 = .ok (.adcRsr .al false 4 9 11 .asr 6) ∧
    decode 0xE0D49B56#32 = .ok (.sbcRsr .al true 4 9 11 .asr 6) ∧
    decode 0xE0E49B56#32 = .ok (.rscRsr .al false 4 9 11 .asr 6) ∧
    decode 0xE1149B56#32 = .ok (.tstRsr .al 4 9 11 .asr 6) ∧
    decode 0xE1349B56#32 = .ok (.teqRsr .al 4 9 11 .asr 6) ∧
    decode 0xE1549B56#32 = .ok (.cmpRsr .al 4 9 11 .asr 6) ∧
    decode 0xE1749B56#32 = .ok (.cmnRsr .al 4 9 11 .asr 6) ∧
    decode 0xE1949B56#32 = .ok (.orrRsr .al true 4 9 11 .asr 6) ∧
    decode 0xE1A49B56#32 = .ok (.movRsr .al false 4 9 11 .asr 6) ∧
    decode 0xE1D49B56#32 = .ok (.bicRsr .al true 4 9 11 .asr 6) ∧
    decode 0xE1E49B56#32 = .ok (.mvnRsr .al false 4 9 11 .asr 6) := by
  decide +kernel

theorem test_decode_psr_transfers :
    decode 0xE14F9000#32 = .ok (.mrs .al true 9) ∧
    decode 0x1169F006#32 = .ok (.msrAll .ne true 6) ∧
    decode 0xE128F006#32 = .ok (.msrFlags .al false 6) ∧
    decode 0xE368F5A6#32 = .ok (.msrFlagsImm .al true 5 0xa6) := by
  decide +kernel

theorem test_decode_multiplies :
    decode 0x10194B96#32 = .ok (.mul .ne true 9 4 11 6) ∧
    decode 0xE0294B96#32 = .ok (.mla .al false 9 4 11 6) := by
  decide +kernel

theorem test_decode_single_transfers :
    decode 0xE51499C5#32 = .ok (.ldrImm .al true false false 4 9 0x9c5) ∧
    decode 0x16B499C6#32 = .ok (.ldrReg .ne false true true 4 9 0x13 .asr 6) ∧
    decode 0xE55499C5#32 = .ok (.ldrbImm .al true false false 4 9 0x9c5) ∧
    decode 0xE6F499C6#32 = .ok (.ldrbReg .al false true true 4 9 0x13 .asr 6) ∧
    decode 0x150499C5#32 = .ok (.strImm .ne true false false 4 9 0x9c5) ∧
    decode 0xE6A499C6#32 = .ok (.strReg .al false true true 4 9 0x13 .asr 6) ∧
    decode 0xE54499C5#32 = .ok (.strbImm .al true false false 4 9 0x9c5) ∧
    decode 0x16E499C6#32 = .ok (.strbReg .ne false true true 4 9 0x13 .asr 6) := by
  decide +kernel

theorem test_decode_blocks_branches_swaps_traps :
    decode 0xE7624699#32 = .ok (.undefined .al 0xb1234 9) ∧
    decode 0xE8B45A31#32 = .ok (.ldm .al false true false true 4 0x5a31) ∧
    decode 0x19445A31#32 = .ok (.stm .ne true false true false 4 0x5a31) ∧
    decode 0xEAABCDE5#32 = .ok (.b .al 0xabcde5) ∧
    decode 0xEBABCDE5#32 = .ok (.bl .al 0xabcde5) ∧
    decode 0x11049096#32 = .ok (.swp .ne 4 9 6) ∧
    decode 0xE1449096#32 = .ok (.swpb .al 4 9 6) ∧
    decode 0xEFC0FFEE#32 = .ok (.swi .al 0xc0ffee) := by
  decide +kernel

theorem test_decode_coprocessor :
    decode 0x1E5C3DCA#32 = .ok (.cdp .ne 5 12 3 13 6 10) ∧
    decode 0xECB43D7D#32 = .ok (.ldc .al false true false true 4 3 13 0x7d) ∧
    decode 0xED443D7D#32 = .ok (.stc .al true false true false 4 3 13 0x7d) ∧
    decode 0x1EBC9DDA#32 = .ok (.mrc .ne 5 12 9 13 6 10) ∧
    decode 0xEEAC9DDA#32 = .ok (.mcr .al 5 12 9 13 6 10) := by
  decide +kernel

/-- The unallocated codes T271 to T275 and T234 of `95_test_vectors.md`. -/
theorem test_decode_unallocated :
    decode 0xE00000B0#32 = .error .unallocatedU1 ∧ decode 0xE0400090#32 = .error .unallocatedU2 ∧
    decode 0xE1020191#32 = .error .unallocatedU2 ∧ decode 0xE1000000#32 = .error .unallocatedU3 ∧
    decode 0xE3200000#32 = .error .unallocatedU3 ∧ decode 0xE10F0001#32 = .error .unallocatedU3 := by
  decide +kernel
/-! ### Steps -/

/-- The status register of a word, Supervisor mode where the word has no mode. -/
def psr (w : Word) : Psr := (SavedPsr.ofWord w).toPsr.getD State.reset.cpsr

/-- The machine after reset, but at an address with a status word, registers, words of memory and SPSRs. -/
def start (pc p : Word) (regs : List (Mode × Reg × Word)) (words : List (Word × Word))
    (saved : List (Mode × Word)) : State :=
  let s0 : State := { State.reset with pc := pc, cpsr := psr p }
  let s1 := regs.foldl (fun s x => s.setBank x.1 x.2.1 x.2.2) s0
  let s2 := words.foldl (fun s x => { s with mem := Memory.putWord (fun _ => true) s.bigend s.mem x.1 x.2 }) s1
  saved.foldl (fun s x => s.setSaved x.1 (.ofWord x.2)) s2

/-- The state with the accesses at one address refused. -/
def refusing (a : Word) (write : Option Bool) (s : State) : State :=
  { s with inputs := { s.inputs with aborts := [⟨a, a, none, write, none, none, none, none⟩] } }

/-- One step gives a next state with these contents. -/
def steps (s : State) (pc p : Word) (regs : List (Mode × Reg × Word)) (words : List (Word × Word))
    (saved : List (Mode × Word)) : Bool :=
  match step s with
  | .next t =>
    t.pc == pc && t.cpsr == psr p && regs.all (fun x => t.bankReg x.1 x.2.1 == x.2.2) &&
      words.all (fun x => t.wordAt x.1 == x.2) && saved.all fun x => t.savedOf x.1 == some (.ofWord x.2)
  | .fault _ => false
  | .refused _ => false

/-- One step of the word `w` gives a next state with these contents. -/
def runs (w : Nat) (s : State) (pc p : Word) (regs : List (Mode × Reg × Word)) (words : List (Word × Word))
    (saved : List (Mode × Word)) : Bool :=
  steps (s.withFetchWord 32 w) pc p regs words saved

/-- `42_data_processing.md` R200, R208, R209, by hand: operand 2 an immediate rotated by 4, a register LSL #4, a register
LSR by the low byte of another. -/
theorem test_and :
    runs 0xe21102fc (start 0x8000 0x10000010 [(.usr, 1, 0xff00ff0f)] [] []) 0x8004 0xb0000010 [(.usr, 0, 0xc000000f)] [] [] = true ∧
    runs 0xe0110202 (start 0x8000 0x20000010 [(.usr, 1, 0xff00ff0f), (.usr, 2, 0x9abcdef0)] [] []) 0x8004 0xa0000010 [(.usr, 0, 0xab00ef00)] [] [] = true ∧
    runs 0xe0110332 (start 0x8000 0x10 [(.usr, 1, 0xff00ff0f), (.usr, 2, 0x9abcdef0), (.usr, 3, 0x1208)] [] []) 0x8004 0x20000010 [(.usr, 0, 0xbc0e)] [] [] = true := by
  decide +kernel

/-- `42_data_processing.md` R200, R208, R209, by hand: operand 2 an immediate rotated by 4, a register LSL #4, a register
LSR by the low byte of another. -/
theorem test_eor :
    runs 0xe23102fc (start 0x8000 0x10000010 [(.usr, 1, 0x12345678)] [] []) 0x8004 0xb0000010 [(.usr, 0, 0xd2345677)] [] [] = true ∧
    runs 0xe0310202 (start 0x8000 0x20000010 [(.usr, 1, 0x12345678), (.usr, 2, 0x81234567)] [] []) 0x8004 0x10 [(.usr, 0, 0x8)] [] [] = true ∧
    runs 0xe0310332 (start 0x8000 0x10 [(.usr, 1, 0x12345678), (.usr, 2, 0x81234567), (.usr, 3, 0x1208)] [] []) 0x8004 0x10 [(.usr, 0, 0x12b5753d)] [] [] = true := by
  decide +kernel

/-- `42_data_processing.md` R200, R208, R209, by hand: operand 2 an immediate rotated by 4, a register LSL #4, a register
LSR by the low byte of another. -/
theorem test_sub :
    runs 0xe25102fc (start 0x8000 0x10000010 [(.usr, 1, 0x80000000)] [] []) 0x8004 0x80000010 [(.usr, 0, 0xbffffff1)] [] [] = true ∧
    runs 0xe0510202 (start 0x8000 0x20000010 [(.usr, 1, 0x80000000), (.usr, 2, 0x7fffffff)] [] []) 0x8004 0x80000010 [(.usr, 0, 0x80000010)] [] [] = true ∧
    runs 0xe0510332 (start 0x8000 0x10 [(.usr, 1, 0x80000000), (.usr, 2, 0x7fffffff), (.usr, 3, 0x1208)] [] []) 0x8004 0x30000010 [(.usr, 0, 0x7f800001)] [] [] = true := by
  decide +kernel

/-- `42_data_processing.md` R200, R208, R209, by hand: operand 2 an immediate rotated by 4, a register LSL #4, a register
LSR by the low byte of another. -/
theorem test_rsb :
    runs 0xe27102fc (start 0x8000 0x10000010 [(.usr, 1, 0x80000001)] [] []) 0x8004 0x20000010 [(.usr, 0, 0x4000000e)] [] [] = true ∧
    runs 0xe0710202 (start 0x8000 0x20000010 [(.usr, 1, 0x80000001), (.usr, 2, 0x7ffffff)] [] []) 0x8004 0x90000010 [(.usr, 0, 0xffffffef)] [] [] = true ∧
    runs 0xe0710332 (start 0x8000 0x10 [(.usr, 1, 0x80000001), (.usr, 2, 0x7ffffff), (.usr, 3, 0x1208)] [] []) 0x8004 0x90000010 [(.usr, 0, 0x8007fffe)] [] [] = true := by
  decide +kernel

/-- `42_data_processing.md` R200, R208, R209, by hand: operand 2 an immediate rotated by 4, a register LSL #4, a register
LSR by the low byte of another. -/
theorem test_add :
    runs 0xe29102fc (start 0x8000 0x10000010 [(.usr, 1, 0x7fffffff)] [] []) 0x8004 0x20000010 [(.usr, 0, 0x4000000e)] [] [] = true ∧
    runs 0xe0910202 (start 0x8000 0x20000010 [(.usr, 1, 0x7fffffff), (.usr, 2, 0xf8000001)] [] []) 0x8004 0x20000010 [(.usr, 0, 0xf)] [] [] = true ∧
    runs 0xe0910332 (start 0x8000 0x10 [(.usr, 1, 0x7fffffff), (.usr, 2, 0xf8000001), (.usr, 3, 0x1208)] [] []) 0x8004 0x90000010 [(.usr, 0, 0x80f7ffff)] [] [] = true := by
  decide +kernel

/-- `42_data_processing.md` R200, R208, R209, by hand: operand 2 an immediate rotated by 4, a register LSL #4, a register
LSR by the low byte of another. -/
theorem test_adc :
    runs 0xe2b102fc (start 0x8000 0x10000010 [(.usr, 1, 0xfffffff0)] [] []) 0x8004 0xa0000010 [(.usr, 0, 0xbfffffff)] [] [] = true ∧
    runs 0xe0b10202 (start 0x8000 0x20000010 [(.usr, 1, 0xfffffff0), (.usr, 2, 0x10000001)] [] []) 0x8004 0x20000010 [(.usr, 0, 0x1)] [] [] = true ∧
    runs 0xe0b10332 (start 0x8000 0x10 [(.usr, 1, 0xfffffff0), (.usr, 2, 0x10000001), (.usr, 3, 0x1208)] [] []) 0x8004 0x20000010 [(.usr, 0, 0xffff0)] [] [] = true := by
  decide +kernel

/-- `42_data_processing.md` R200, R208, R209, by hand: operand 2 an immediate rotated by 4, a register LSL #4, a register
LSR by the low byte of another. -/
theorem test_sbc :
    runs 0xe2d102fc (start 0x8000 0x10000010 [(.usr, 1, 0x10)] [] []) 0x8004 0x10 [(.usr, 0, 0x40000000)] [] [] = true ∧
    runs 0xe0d10202 (start 0x8000 0x20000010 [(.usr, 1, 0x10), (.usr, 2, 0x10000001)] [] []) 0x8004 0x60000010 [(.usr, 0, 0x0)] [] [] = true ∧
    runs 0xe0d10332 (start 0x8000 0x10 [(.usr, 1, 0x10), (.usr, 2, 0x10000001), (.usr, 3, 0x1208)] [] []) 0x8004 0x80000010 [(.usr, 0, 0xfff0000f)] [] [] = true := by
  decide +kernel

/-- `42_data_processing.md` R200, R208, R209, by hand: operand 2 an immediate rotated by 4, a register LSL #4, a register
LSR by the low byte of another. -/
theorem test_rsc :
    runs 0xe2f102fc (start 0x8000 0x10000010 [(.usr, 1, 0x1)] [] []) 0x8004 0xa0000010 [(.usr, 0, 0xc000000d)] [] [] = true ∧
    runs 0xe0f10202 (start 0x8000 0x20000010 [(.usr, 1, 0x1), (.usr, 2, 0x10000000)] [] []) 0x8004 0x80000010 [(.usr, 0, 0xffffffff)] [] [] = true ∧
    runs 0xe0f10332 (start 0x8000 0x10 [(.usr, 1, 0x1), (.usr, 2, 0x10000000), (.usr, 3, 0x1208)] [] []) 0x8004 0x20000010 [(.usr, 0, 0xffffe)] [] [] = true := by
  decide +kernel

/-- `42_data_processing.md` R200, R208, R209, by hand: operand 2 an immediate rotated by 4, a register LSL #4, a register
LSR by the low byte of another. -/
theorem test_tst :
    runs 0xe31102fc (start 0x8000 0x10000010 [(.usr, 1, 0xf)] [] []) 0x8004 0x30000010 [(.usr, 0, 0x0)] [] [] = true ∧
    runs 0xe1110202 (start 0x8000 0x20000010 [(.usr, 1, 0xf), (.usr, 2, 0x9abcdef0)] [] []) 0x8004 0x60000010 [(.usr, 0, 0x0)] [] [] = true ∧
    runs 0xe1110332 (start 0x8000 0x10 [(.usr, 1, 0xf), (.usr, 2, 0x9abcdef0), (.usr, 3, 0x1208)] [] []) 0x8004 0x20000010 [(.usr, 0, 0x0)] [] [] = true := by
  decide +kernel

/-- `42_data_processing.md` R200, R208, R209, by hand: operand 2 an immediate rotated by 4, a register LSL #4, a register
LSR by the low byte of another. -/
theorem test_teq :
    runs 0xe33102fc (start 0x8000 0x10000010 [(.usr, 1, 0xc000000f)] [] []) 0x8004 0x70000010 [(.usr, 0, 0x0)] [] [] = true ∧
    runs 0xe1310202 (start 0x8000 0x20000010 [(.usr, 1, 0xc000000f), (.usr, 2, 0x81234567)] [] []) 0x8004 0x80000010 [(.usr, 0, 0x0)] [] [] = true ∧
    runs 0xe1310332 (start 0x8000 0x10 [(.usr, 1, 0xc000000f), (.usr, 2, 0x81234567), (.usr, 3, 0x1208)] [] []) 0x8004 0x80000010 [(.usr, 0, 0x0)] [] [] = true := by
  decide +kernel

/-- `42_data_processing.md` R200, R208, R209, by hand: operand 2 an immediate rotated by 4, a register LSL #4, a register
LSR by the low byte of another. -/
theorem test_cmp :
    runs 0xe35102fc (start 0x8000 0x10000010 [(.usr, 1, 0xc000000f)] [] []) 0x8004 0x60000010 [(.usr, 0, 0x0)] [] [] = true ∧
    runs 0xe1510202 (start 0x8000 0x20000010 [(.usr, 1, 0xc000000f), (.usr, 2, 0x1c000001)] [] []) 0x8004 0x80000010 [(.usr, 0, 0x0)] [] [] = true ∧
    runs 0xe1510332 (start 0x8000 0x10 [(.usr, 1, 0xc000000f), (.usr, 2, 0x1c000001), (.usr, 3, 0x1208)] [] []) 0x8004 0xa0000010 [(.usr, 0, 0x0)] [] [] = true := by
  decide +kernel

/-- `42_data_processing.md` R200, R208, R209, by hand: operand 2 an immediate rotated by 4, a register LSL #4, a register
LSR by the low byte of another. -/
theorem test_cmn :
    runs 0xe37102fc (start 0x8000 0x10000010 [(.usr, 1, 0x3ffffff1)] [] []) 0x8004 0x60000010 [(.usr, 0, 0x0)] [] [] = true ∧
    runs 0xe1710202 (start 0x8000 0x20000010 [(.usr, 1, 0x3ffffff1), (.usr, 2, 0x8000000)] [] []) 0x8004 0x80000010 [(.usr, 0, 0x0)] [] [] = true ∧
    runs 0xe1710332 (start 0x8000 0x10 [(.usr, 1, 0x3ffffff1), (.usr, 2, 0x8000000), (.usr, 3, 0x1208)] [] []) 0x8004 0x10 [(.usr, 0, 0x0)] [] [] = true := by
  decide +kernel

/-- `42_data_processing.md` R200, R208, R209, by hand: operand 2 an immediate rotated by 4, a register LSL #4, a register
LSR by the low byte of another. -/
theorem test_orr :
    runs 0xe39102fc (start 0x8000 0x10000010 [(.usr, 1, 0xff0000)] [] []) 0x8004 0xb0000010 [(.usr, 0, 0xc0ff000f)] [] [] = true ∧
    runs 0xe1910202 (start 0x8000 0x20000010 [(.usr, 1, 0xff0000), (.usr, 2, 0x9abcdef0)] [] []) 0x8004 0xa0000010 [(.usr, 0, 0xabffef00)] [] [] = true ∧
    runs 0xe1910332 (start 0x8000 0x10 [(.usr, 1, 0xff0000), (.usr, 2, 0x9abcdef0), (.usr, 3, 0x1208)] [] []) 0x8004 0x20000010 [(.usr, 0, 0xffbcde)] [] [] = true := by
  decide +kernel

/-- `42_data_processing.md` R200, R208, R209, by hand: operand 2 an immediate rotated by 4, a register LSL #4, a register
LSR by the low byte of another. -/
theorem test_mov :
    runs 0xe3b102fc (start 0x8000 0x10000010 [(.usr, 1, 0x1)] [] []) 0x8004 0xb0000010 [(.usr, 0, 0xc000000f)] [] [] = true ∧
    runs 0xe1b10202 (start 0x8000 0x20000010 [(.usr, 1, 0x1), (.usr, 2, 0x10000080)] [] []) 0x8004 0x20000010 [(.usr, 0, 0x800)] [] [] = true ∧
    runs 0xe1b10332 (start 0x8000 0x10 [(.usr, 1, 0x1), (.usr, 2, 0x10000080), (.usr, 3, 0x1208)] [] []) 0x8004 0x20000010 [(.usr, 0, 0x100000)] [] [] = true := by
  decide +kernel

/-- `42_data_processing.md` R200, R208, R209, by hand: operand 2 an immediate rotated by 4, a register LSL #4, a register
LSR by the low byte of another. -/
theorem test_bic :
    runs 0xe3d102fc (start 0x8000 0x10000010 [(.usr, 1, 0xffffffff)] [] []) 0x8004 0x30000010 [(.usr, 0, 0x3ffffff0)] [] [] = true ∧
    runs 0xe1d10202 (start 0x8000 0x20000010 [(.usr, 1, 0xffffffff), (.usr, 2, 0x9abcdef0)] [] []) 0x8004 0x20000010 [(.usr, 0, 0x543210ff)] [] [] = true ∧
    runs 0xe1d10332 (start 0x8000 0x10 [(.usr, 1, 0xffffffff), (.usr, 2, 0x9abcdef0), (.usr, 3, 0x1208)] [] []) 0x8004 0xa0000010 [(.usr, 0, 0xff654321)] [] [] = true := by
  decide +kernel

/-- `42_data_processing.md` R200, R208, R209, by hand: operand 2 an immediate rotated by 4, a register LSL #4, a register
LSR by the low byte of another. -/
theorem test_mvn :
    runs 0xe3f102fc (start 0x8000 0x10000010 [(.usr, 1, 0x1)] [] []) 0x8004 0x30000010 [(.usr, 0, 0x3ffffff0)] [] [] = true ∧
    runs 0xe1f10202 (start 0x8000 0x20000010 [(.usr, 1, 0x1), (.usr, 2, 0xffffffff)] [] []) 0x8004 0x20000010 [(.usr, 0, 0xf)] [] [] = true ∧
    runs 0xe1f10332 (start 0x8000 0x10 [(.usr, 1, 0x1), (.usr, 2, 0xffffffff), (.usr, 3, 0x1208)] [] []) 0x8004 0xa0000010 [(.usr, 0, 0xff000000)] [] [] = true := by
  decide +kernel

/-- `95_test_vectors.md` T1, T2, T4, T6. -/
theorem test_conditions :
    runs 0x00842005 (start 0x8000 0x40000010 [(.usr, 4, 0x7), (.usr, 5, 0x8)] [] []) 0x8004 0x40000010 [(.usr, 2, 0xf)] [] [] = true ∧
    runs 0x00842005 (start 0x8000 0x10 [(.usr, 4, 0x7), (.usr, 5, 0x8)] [] []) 0x8004 0x10 [] [] [] = true ∧
    runs 0xFF000000 (start 0x8000 0x10 [] [] []) 0x8004 0x10 [] [] [] = true ∧
    runs 0x83A00001 (start 0x8000 0x60000010 [] [] []) 0x8004 0x60000010 [] [] [] = true := by
  decide +kernel

/-- `95_test_vectors.md` T7, T12, T16. -/
theorem test_branch :
    runs 0xEAFFFFFE (start 0x8000 0x10 [] [] []) 0x8000 0x10 [] [] [] = true ∧
    runs 0xEA800000 (start 0x8000 0x10 [] [] []) 0xfe008008 0x10 [] [] [] = true ∧
    runs 0xEAFFFFFC (start 0x0 0x10 [] [] []) 0xfffffff8 0x10 [] [] [] = true := by
  decide +kernel

/-- `95_test_vectors.md` T10, T15. -/
theorem test_branch_with_link :
    runs 0xEB000002 (start 0x8000 0x10 [] [] []) 0x8010 0x10 [(.usr, 14, 0x8004)] [] [] = true ∧
    runs 0x1BFFFBFE (start 0x8000 0x10 [] [] []) 0x7000 0x10 [(.usr, 14, 0x8004)] [] [] = true := by
  decide +kernel

/-- `95_test_vectors.md` T20, T22, T25, T28. -/
theorem test_shift_immediates :
    runs 0xE1B00F81 (start 0x8000 0x10 [(.usr, 1, 0x3)] [] []) 0x8004 0xa0000010 [(.usr, 0, 0x80000000)] [] [] = true ∧
    runs 0xE1B00021 (start 0x8000 0x10 [(.usr, 1, 0x80000000)] [] []) 0x8004 0x60000010 [(.usr, 0, 0x0)] [] [] = true ∧
    runs 0xE1B00041 (start 0x8000 0x20000010 [(.usr, 1, 0x7fffffff)] [] []) 0x8004 0x40000010 [(.usr, 0, 0x0)] [] [] = true ∧
    runs 0xE1B00061 (start 0x8000 0x10 [(.usr, 1, 0x1)] [] []) 0x8004 0x60000010 [(.usr, 0, 0x0)] [] [] = true := by
  decide +kernel

/-- `95_test_vectors.md` T32, T36, T44, T62. -/
theorem test_shift_registers :
    runs 0xE1B00211 (start 0x8000 0x20000010 [(.usr, 1, 0x80000001), (.usr, 2, 0x1f)] [] []) 0x8004 0x80000010 [(.usr, 0, 0x80000000)] [] [] = true ∧
    runs 0xE1B00211 (start 0x8000 0x20000010 [(.usr, 1, 0x80000001), (.usr, 2, 0x100)] [] []) 0x8004 0xa0000010 [(.usr, 0, 0x80000001)] [] [] = true ∧
    runs 0xE1B00231 (start 0x8000 0x20000010 [(.usr, 1, 0x80000001), (.usr, 2, 0x100)] [] []) 0x8004 0xa0000010 [(.usr, 0, 0x80000001)] [] [] = true ∧
    runs 0xE1B00271 (start 0x8000 0x20000010 [(.usr, 1, 0x80000001), (.usr, 2, 0x120)] [] []) 0x8004 0xa0000010 [(.usr, 0, 0x80000001)] [] [] = true := by
  decide +kernel

/-- `95_test_vectors.md` T65, T66. -/
theorem test_rotated_immediates :
    runs 0xE3B00201 (start 0x8000 0x20000010 [] [] []) 0x8004 0x10 [(.usr, 0, 0x10000000)] [] [] = true ∧
    runs 0xE3B00100 (start 0x8000 0x20000010 [] [] []) 0x8004 0x40000010 [(.usr, 0, 0x0)] [] [] = true := by
  decide +kernel

/-- `95_test_vectors.md` T110, T112, T113, T117. -/
theorem test_r15_as_operand :
    runs 0xE1A0000F (start 0x8000 0x10 [] [] []) 0x8004 0x10 [(.usr, 0, 0x8008)] [] [] = true ∧
    runs 0xE1A0021F (start 0x8000 0x10 [(.usr, 2, 0x0)] [] []) 0x8004 0x10 [(.usr, 0, 0x800c)] [] [] = true ∧
    runs 0xE08F0211 (start 0x8000 0x10 [(.usr, 1, 0x1), (.usr, 2, 0x4)] [] []) 0x8004 0x10 [(.usr, 0, 0x801c)] [] [] = true ∧
    runs 0xE08FF100 (start 0x8000 0x10 [(.usr, 0, 0x3)] [] []) 0x8014 0x10 [] [] [] = true := by
  decide +kernel

/-- `95_test_vectors.md` T115, T118, T119. -/
theorem test_r15_as_result :
    runs 0xE1A0F001 (start 0x8000 0x10 [(.usr, 1, 0x9003)] [] []) 0x9000 0x10 [] [] [] = true ∧
    runs 0xE1B0F00E (start 0x8000 0xd3 [(.svc, 14, 0x8104)] [] [(.svc, 0x60000010)]) 0x8104 0x60000010 [] [] [] = true ∧
    runs 0xE25EF004 (start 0x8000 0x800000d1 [(.fiq, 14, 0x9008)] [] [(.fiq, 0x20000013)]) 0x9004 0x20000013 [] [] [] = true := by
  decide +kernel

/-- `95_test_vectors.md` T122. -/
theorem test_teqp :
    runs 0xE33FF000 (start 0x8000 0xd2 [] [] [(.irq, 0xf0000010)]) 0x8004 0xf0000010 [] [] [] = true := by
  decide +kernel

/-- `43_psr_transfer.md` R252, `95_test_vectors.md` T125, T127, the defined bits: the word of a PSR, and a step of MRS. -/
theorem test_mrs :
    (psr 0x600000D3).word 0 = 0x600000D3 ∧ (SavedPsr.ofWord 0x80000012).word 0 = 0x80000012 ∧
      runs 0xE10F0000 (start 0x8000 0x600000D3 [(.usr, 1, 7)] [] []) 0x8004 0x600000D3 [(.usr, 1, 7)] [] [] = true := by
  decide +kernel

/-- `95_test_vectors.md` T131, T132, T138. -/
theorem test_msr_all :
    runs 0xE129F000 (start 0x8000 0x10 [(.usr, 0, 0x600000d2)] [] []) 0x8004 0x60000010 [] [] [] = true ∧
    runs 0xE129F000 (start 0x8000 0xd3 [(.usr, 0, 0xfffff30)] [] []) 0x8004 0x10 [] [] [] = true ∧
    runs 0xE169F000 (start 0x8000 0xd3 [(.usr, 0, 0x80000010)] [] []) 0x8004 0xd3 [] [] [(.svc, 0x80000010)] = true := by
  decide +kernel

/-- `95_test_vectors.md` T134. -/
theorem test_msr_flags :
    runs 0xE128F000 (start 0x8000 0xd3 [(.usr, 0, 0x9fffffff)] [] []) 0x8004 0x900000d3 [] [] [] = true := by
  decide +kernel

/-- `95_test_vectors.md` T135, T139. -/
theorem test_msr_flags_immediate :
    runs 0xE328F20F (start 0x8000 0x10 [] [] []) 0x8004 0xf0000010 [] [] [] = true ∧
    runs 0xE368F20C (start 0x8000 0x97 [] [] [(.abt, 0x30000010)]) 0x8004 0x97 [] [] [(.abt, 0xc0000010)] = true := by
  decide +kernel

/-- `95_test_vectors.md` T142, T148, T149. -/
theorem test_mul :
    runs 0xE0010392 (start 0x8000 0x10 [(.usr, 2, 0xfffffff6), (.usr, 3, 0x14)] [] []) 0x8004 0x10 [(.usr, 1, 0xffffff38)] [] [] = true ∧
    runs 0xE0010291 (start 0x8000 0x10 [(.usr, 1, 0xffff), (.usr, 2, 0xffff)] [] []) 0x8004 0x10 [(.usr, 1, 0xfffe0001)] [] [] = true ∧
    runs 0xE001F392 (start 0x8000 0x10 [(.usr, 2, 0x2), (.usr, 3, 0x3)] [] []) 0x8004 0x10 [(.usr, 1, 0x6)] [] [] = true := by
  decide +kernel

/-- `44_multiply.md` R274, by hand: with S = 1 a zero result sets Z and clears N; V stays. C is free. -/
theorem test_muls_flags :
    ((match step ((start 0x8000 0x90000010 [(.usr, 2, 0x10000), (.usr, 3, 0x10000)] [] []).withFetchWord 32 0xE0110392) with
      | .next t => some (t.cpsr.n, t.cpsr.z, t.cpsr.v, t.bankReg .usr 1)
      | _ => none) = some (false, true, true, 0)) := by
  decide +kernel

/-- `95_test_vectors.md` T147. -/
theorem test_mla :
    runs 0xE0200291 (start 0x8000 0x10 [(.usr, 0, 0x64), (.usr, 1, 0x7), (.usr, 2, 0x6)] [] []) 0x8004 0x10 [(.usr, 0, 0x8e)] [] [] = true := by
  decide +kernel

/-- `95_test_vectors.md` T153, T170, T178. -/
theorem test_ldr_immediate :
    runs 0xE5910000 (start 0x8000 0x10 [(.usr, 1, 0x1001)] [(0x1000, 0x44332211)] []) 0x8004 0x10 [(.usr, 0, 0x11443322)] [] [] = true ∧
    runs 0xE4921004 (start 0x8000 0x10 [(.usr, 2, 0x3000)] [(0x3000, 0xaaaa0000), (0x3004, 0xaaaa0004), (0x3010, 0xaaaa0010), (0x2ffc, 0xaaaa2ffc)] []) 0x8004 0x10 [(.usr, 1, 0xaaaa0000), (.usr, 2, 0x3004)] [] [] = true ∧
    runs 0xE4911004 (start 0x8000 0x10 [(.usr, 1, 0x3000)] [(0x3000, 0xaaaa0000), (0x3004, 0xaaaa0004), (0x3010, 0xaaaa0010), (0x2ffc, 0xaaaa2ffc)] []) 0x8004 0x10 [(.usr, 1, 0xaaaa0000)] [] [] = true := by
  decide +kernel

/-- `95_test_vectors.md` T172, T174, T182. -/
theorem test_ldr_register :
    runs 0xE7921103 (start 0x8000 0x10 [(.usr, 2, 0x3000), (.usr, 3, 0x4)] [(0x3000, 0xaaaa0000), (0x3004, 0xaaaa0004), (0x3010, 0xaaaa0010), (0x2ffc, 0xaaaa2ffc)] []) 0x8004 0x10 [(.usr, 1, 0xaaaa0010)] [] [] = true ∧
    runs 0xE7921063 (start 0x8000 0x10 [(.usr, 2, 0x3000), (.usr, 3, 0x21)] [(0x3000, 0xaaaa0000), (0x3004, 0xaaaa0004), (0x3010, 0xaaaa0010), (0x2ffc, 0xaaaa2ffc)] []) 0x8004 0x10 [(.usr, 1, 0xaaaa0010)] [] [] = true ∧
    runs 0xE792F101 (start 0x8000 0x10 [(.usr, 2, 0x3000), (.usr, 1, 0x1)] [(0x3004, 0x9002)] []) 0x9000 0x10 [] [] [] = true := by
  decide +kernel

/-- `95_test_vectors.md` T161, T177. -/
theorem test_ldrb_immediate :
    runs 0xE5D10000 (start 0x8000 0x10 [(.usr, 1, 0x1003)] [(0x1000, 0x44332211)] []) 0x8004 0x10 [(.usr, 0, 0x44)] [] [] = true ∧
    runs 0x05D61005 (start 0x8000 0x40000010 [(.usr, 6, 0x3000), (.usr, 1, 0xffffffff)] [(0x3004, 0x9c00)] []) 0x8004 0x40000010 [(.usr, 1, 0x9c)] [] [] = true := by
  decide +kernel

/-- `95_test_vectors.md` T164, T181. -/
theorem test_str_immediate :
    runs 0xE5810000 (start 0x8000 0x10 [(.usr, 0, 0xaabbccdd), (.usr, 1, 0x2002)] [] []) 0x8004 0x10 [] [(0x2000, 0xaabbccdd)] [] = true ∧
    runs 0xE581F000 (start 0x8000 0x10 [(.usr, 1, 0x3000)] [] []) 0x8004 0x10 [] [(0x3000, 0x800c)] [] = true := by
  decide +kernel

/-- `95_test_vectors.md` T175, T176. -/
theorem test_str_register :
    runs 0xE7A21004 (start 0x8000 0x10 [(.usr, 1, 0x55), (.usr, 2, 0x3000), (.usr, 4, 0x10)] [] []) 0x8004 0x10 [(.usr, 2, 0x3010)] [(0x3010, 0x55)] [] = true ∧
    runs 0xE6821004 (start 0x8000 0x10 [(.usr, 1, 0x55), (.usr, 2, 0x3000), (.usr, 4, 0x10)] [] []) 0x8004 0x10 [(.usr, 2, 0x3010)] [(0x3000, 0x55)] [] = true := by
  decide +kernel

/-- `20_memory.md` R81, `45_single_data_transfer.md` R291, R293, by hand: bytes at R1 plus R3 shifted left once. -/
theorem test_byte_register_offsets :
    runs 0xE7D10083 (start 0x8000 0x10 [(.usr, 1, 0x1001), (.usr, 3, 1)] [(0x1000, 0x44332211)] []) 0x8004 0x10
      [(.usr, 0, 0x44), (.usr, 1, 0x1001)] [] [] = true ∧
    runs 0xE6C10083 (start 0x8000 0x10 [(.usr, 0, 0xABCD), (.usr, 1, 0x1001), (.usr, 3, 1)] [(0x1000, 0x44332211)] [])
      0x8004 0x10 [(.usr, 1, 0x1003)] [(0x1000, 0x4433CD11)] [] = true := by
  decide +kernel

/-- `20_memory.md` R72, R81, `95_test_vectors.md` T157, T167: big-endian. -/
theorem test_big_endian :
    let s : State := { start 0x8000 0x10 [(.usr, 1, 0x1001), (.usr, 2, 0xDD)] [] [] with bigend := true }
    runs 0xE5910000 { s with mem := [⟨0x1000, 0x11⟩, ⟨0x1001, 0x22⟩, ⟨0x1002, 0x33⟩, ⟨0x1003, 0x44⟩] } 0x8004 0x10
      [(.usr, 0, 0x44112233)] [] [] = true ∧
    runs 0xE5C12000 s 0x8004 0x10 [] [(0x1000, 0x00DD0000)] [] = true := by
  decide +kernel

/-- `95_test_vectors.md` T166. -/
theorem test_strb_immediate :
    runs 0xE5C10001 (start 0x8000 0x10 [(.usr, 0, 0xaabbccdd), (.usr, 1, 0x2000)] [(0x2000, 0x0)] []) 0x8004 0x10 [] [(0x2000, 0xdd00)] [] = true := by
  decide +kernel

/-- `95_test_vectors.md` T185, T186. -/
theorem test_single_transfer_aborts :
    runs 0xE5B10004 (refusing 0x70010000 none (start 0x8000 0x10 [(.usr, 0, 0x1234), (.usr, 1, 0x7000fffc)] [] [])) 0x10 0x97 [(.usr, 1, 0x70010000), (.abt, 14, 0x8008)] [] [(.abt, 0x10)] = true ∧
    runs 0xE4810004 (refusing 0x70010000 none (start 0x8000 0x10 [(.usr, 0, 0x1234), (.usr, 1, 0x70010000)] [] [])) 0x10 0x97 [(.usr, 1, 0x70010004), (.abt, 14, 0x8008)] [] [(.abt, 0x10)] = true := by
  decide +kernel

/-- `95_test_vectors.md` T197, T200, T203. -/
theorem test_ldm :
    runs 0xE8B000A2 (start 0x8000 0x10 [(.usr, 0, 0x1000)] [(0xff4, 0xa0ff4), (0xff8, 0xa0ff8), (0xffc, 0xa0ffc), (0x1000, 0xa1000), (0x1004, 0xa1004), (0x1008, 0xa1008), (0x100c, 0xa100c)] []) 0x8004 0x10 [(.usr, 0, 0x100c), (.usr, 1, 0xa1000), (.usr, 5, 0xa1004), (.usr, 7, 0xa1008)] [] [] = true ∧
    runs 0xE93000A2 (start 0x8000 0x10 [(.usr, 0, 0x1000)] [(0xff4, 0xa0ff4), (0xff8, 0xa0ff8), (0xffc, 0xa0ffc), (0x1000, 0xa1000), (0x1004, 0xa1004), (0x1008, 0xa1008), (0x100c, 0xa100c)] []) 0x8004 0x10 [(.usr, 0, 0xff4), (.usr, 1, 0xa0ff4), (.usr, 5, 0xa0ff8), (.usr, 7, 0xa0ffc)] [] [] = true ∧
    runs 0xE8B00003 (start 0x8000 0x10 [(.usr, 0, 0x1000)] [(0xff4, 0xa0ff4), (0xff8, 0xa0ff8), (0xffc, 0xa0ffc), (0x1000, 0xa1000), (0x1004, 0xa1004), (0x1008, 0xa1008), (0x100c, 0xa100c)] []) 0x8004 0x10 [(.usr, 0, 0xa1000), (.usr, 1, 0xa1004)] [] [] = true := by
  decide +kernel

/-- `95_test_vectors.md` T210. -/
theorem test_ldm_restores_cpsr :
    runs 0xE8FD8000 (start 0x8000 0xd3 [(.svc, 13, 0x1000)] [(0x1000, 0x9000)] [(.svc, 0x60000010)]) 0x9000 0x60000010 [(.svc, 13, 0x1004)] [] [] = true := by
  decide +kernel

/-- `95_test_vectors.md` T196, T204, T205. -/
theorem test_stm :
    runs 0xE92000A2 (start 0x8000 0x10 [(.usr, 0, 0x1000), (.usr, 1, 0x11), (.usr, 5, 0x55), (.usr, 7, 0x77)] [] []) 0x8004 0x10 [(.usr, 0, 0xff4)] [(0xff4, 0x11), (0xff8, 0x55), (0xffc, 0x77)] [] = true ∧
    runs 0xE8A10006 (start 0x8000 0x10 [(.usr, 1, 0x2000), (.usr, 2, 0x22)] [] []) 0x8004 0x10 [(.usr, 1, 0x2008)] [(0x2000, 0x2000), (0x2004, 0x22)] [] = true ∧
    runs 0xE8A20006 (start 0x8000 0x10 [(.usr, 1, 0x11), (.usr, 2, 0x2000)] [] []) 0x8004 0x10 [(.usr, 2, 0x2008)] [(0x2000, 0x11), (0x2004, 0x2008)] [] = true := by
  decide +kernel

/-- `95_test_vectors.md` T213, T216. -/
theorem test_stm_user_bank :
    runs 0xE94D7000 (start 0x8000 0xd2 [(.usr, 13, 0xaa13), (.usr, 14, 0xaa14), (.irq, 13, 0x2000), (.irq, 14, 0xbb14), (.usr, 12, 0xaa12)] [] []) 0x8004 0xd2 [] [(0x1ff4, 0xaa12), (0x1ff8, 0xaa13), (0x1ffc, 0xaa14)] [] = true ∧
    runs 0xE8C0A100 (start 0x8000 0xd1 [(.usr, 0, 0x2000), (.usr, 8, 0xaa08), (.usr, 13, 0xaa13), (.fiq, 8, 0xff08), (.fiq, 13, 0xff13)] [] []) 0x8004 0xd1 [] [(0x2000, 0xaa08), (0x2004, 0xaa13), (0x2008, 0x800c)] [] = true := by
  decide +kernel

/-- `95_test_vectors.md` T218, T221. -/
theorem test_block_aborts :
    runs 0xE8B000A2 (refusing 0x1004 none (start 0x8000 0x10 [(.usr, 0, 0x1000), (.usr, 5, 0x55), (.usr, 7, 0x77)] [(0xff4, 0xa0ff4), (0xff8, 0xa0ff8), (0xffc, 0xa0ffc), (0x1000, 0xa1000), (0x1004, 0xa1004), (0x1008, 0xa1008), (0x100c, 0xa100c)] [])) 0x10 0x97 [(.usr, 0, 0x100c), (.usr, 1, 0xa1000), (.abt, 14, 0x8008)] [] [(.abt, 0x10)] = true ∧
    runs 0xE8A000A2 (refusing 0x2004 none (start 0x8000 0x10 [(.usr, 0, 0x2000), (.usr, 1, 0x11), (.usr, 5, 0x55), (.usr, 7, 0x77)] [] [])) 0x10 0x97 [(.usr, 0, 0x200c), (.abt, 14, 0x8008)] [(0x2000, 0x11), (0x2008, 0x77)] [(.abt, 0x10)] = true := by
  decide +kernel

/-- `95_test_vectors.md` T226, T229. -/
theorem test_swp :
    runs 0xE1020091 (start 0x8000 0x10 [(.usr, 1, 0xaabbccdd), (.usr, 2, 0x4001)] [(0x4000, 0x44332211)] []) 0x8004 0x10 [(.usr, 0, 0x11443322)] [(0x4000, 0xaabbccdd)] [] = true ∧
    runs 0x01010090 (start 0x8000 0x40000010 [(.usr, 0, 0x1111), (.usr, 1, 0x4000)] [(0x4000, 0x2222)] []) 0x8004 0x40000010 [(.usr, 0, 0x2222)] [(0x4000, 0x1111)] [] = true := by
  decide +kernel

/-- `95_test_vectors.md` T228. -/
theorem test_swpb :
    runs 0xE1442093 (start 0x8000 0x10 [(.usr, 3, 0x123456ab), (.usr, 4, 0x4001)] [(0x4000, 0x13127f10)] []) 0x8004 0x10 [(.usr, 2, 0x7f)] [(0x4000, 0x1312ab10)] [] = true := by
  decide +kernel

/-- `95_test_vectors.md` T230. -/
theorem test_swp_write_abort :
    runs 0xE1020091 (refusing 0x4000 (some true) (start 0x8000 0x10 [(.usr, 0, 0x99), (.usr, 1, 0x1), (.usr, 2, 0x4000)] [(0x4000, 0x2222)] [])) 0x10 0x97 [(.abt, 14, 0x8008)] [] [(.abt, 0x10)] = true := by
  decide +kernel

/-- `95_test_vectors.md` T235, T236. -/
theorem test_swi :
    runs 0x1F000000 (start 0x8000 0x20000010 [(.usr, 14, 0xaaaa)] [] []) 0x8 0x20000093 [(.svc, 14, 0x8004)] [] [(.svc, 0x20000010)] = true ∧
    runs 0xEF123456 (start 0x8000 0x60000053 [(.svc, 14, 0x1234)] [] [(.svc, 0x10)]) 0x8 0x600000d3 [(.svc, 14, 0x8004)] [] [(.svc, 0x60000053)] = true := by
  decide +kernel

/-- `95_test_vectors.md` T192, T239. -/
theorem test_undefined :
    runs 0xE7F000F0 (start 0x100 0x13 [] [] []) 0x4 0x9b [(.und, 14, 0x104)] [] [(.und, 0x13)] = true ∧
    runs 0x07FFFFFF (start 0x8000 0x10 [] [] []) 0x8004 0x10 [] [] [] = true := by
  decide +kernel

/-- `95_test_vectors.md` T240, T241, T242, T243, T244. -/
theorem test_absent_coprocessor :
    runs 0xEEA21103 (start 0x8000 0x10 [] [] []) 0x4 0x9b [(.und, 14, 0x8004)] [] [(.und, 0x10)] = true ∧
    runs 0xEEB53216 (start 0x8000 0x10 [(.usr, 3, 0x33)] [] []) 0x4 0x9b [(.und, 14, 0x8004)] [] [(.und, 0x10)] = true ∧
    runs 0xEE064610 (start 0x8000 0x13 [] [] []) 0x4 0x9b [(.und, 14, 0x8004)] [] [(.und, 0x13)] = true ∧
    runs 0x0DE53206 (start 0x8000 0x40000010 [(.usr, 5, 0x1000)] [] []) 0x4 0x4000009b [(.und, 14, 0x8004)] [] [(.und, 0x40000010)] = true ∧
    runs 0xED902100 (start 0x8000 0x10 [(.usr, 0, 0x1000)] [] []) 0x4 0x9b [(.und, 14, 0x8004)] [] [(.und, 0x10)] = true := by
  decide +kernel

/-- The state with a coprocessor that answers every instruction offered to it. -/
def answering (cp : BitVec 4) (r : Response) (s : State) : State :=
  { s with inputs := { s.inputs with coprocs := [⟨cp, 0, 0, none, none, r⟩] } }

/-- What the coprocessors were told in one step of a word. -/
def told (w : Nat) (s : State) : List BusEvent :=
  match step (s.withFetchWord 32 w) with
  | .next t => t.bus.filter fun e => match e with
    | .coprocOperation _ _ | .coprocLoad _ _ _ | .coprocRead _ _ | .coprocWrite _ _ => true
    | .access _ _ _ _ | .offer _ _ _ => false
  | .fault _ => []
  | .refused _ => []

/-- `95_test_vectors.md` T245, T253 while busy. -/
theorem test_cdp :
    told 0xEEA21103 (answering 1 (.ready ⟨0, 0, [], 0⟩) (start 0x8000 0x10 [] [] [])) = [.coprocOperation 1 0xEEA21103] ∧
    runs 0xEEA21103 (answering 1 .busy (start 0x8000 0x10 [] [] [])) 0x8000 0x10 [] [] [] = true := by
  decide +kernel

/-- `95_test_vectors.md` T246, T247. -/
theorem test_mrc :
    runs 0xEEB53216 (answering 2 (.ready ⟨0, 0, [], 0x80000001⟩) (start 0x8000 0x10 [(.usr, 3, 0x33)] [] [])) 0x8004 0x10
      [(.usr, 3, 0x80000001)] [] [] = true ∧
    runs 0xEEB5F216 (answering 2 (.ready ⟨0, 0, [], 0x60000000⟩) (start 0x8000 0x80000010 [] [] [])) 0x8004 0x60000010
      [] [] [] = true := by
  decide +kernel

/-- `95_test_vectors.md` T248, T249. -/
theorem test_mcr :
    told 0xEE064610 (answering 6 (.ready ⟨0, 0, [], 0⟩) (start 0x8000 0x10 [(.usr, 4, 0x12345678)] [] [])) =
      [.coprocWrite 6 0x12345678] ∧
    told 0xEE06F610 (answering 6 (.ready ⟨0, 0, [], 0⟩) (start 0x8000 0x10 [] [] [])) = [.coprocWrite 6 0x800C] := by
  decide +kernel

/-- `95_test_vectors.md` T250, T252. -/
theorem test_ldc :
    (let s := answering 1 (.ready ⟨1, 0, [], 0⟩) (start 0x8000 0x10 [(.usr, 0, 0x1000)] [(0x1000, 0xA), (0x1004, 0xB)] []);
      told 0xECB02102 s = [.coprocLoad 1 0 0xA, .coprocLoad 1 1 0xB] ∧
        runs 0xECB02102 s 0x8004 0x10 [(.usr, 0, 0x1008)] [] [] = true) ∧
    told 0xED9F2102 (answering 1 (.ready ⟨0, 0, [], 0⟩) (start 0x8000 0x10 [] [(0x8010, 0x77)] [])) =
      [.coprocLoad 1 0 0x77] := by
  decide +kernel

/-- `95_test_vectors.md` T251. -/
theorem test_stc :
    runs 0x0DE53206 (answering 2 (.ready ⟨0, 1, [2, 3], 0⟩) (start 0x8000 0x40000010 [(.usr, 5, 0x1000)] [] [])) 0x8004
      0x40000010 [(.usr, 5, 0x1018)] [(0x1018, 1), (0x101C, 2), (0x1020, 3)] [] = true := by
  decide +kernel

/-- `95_test_vectors.md` T254, T257. -/
theorem test_fiq_before_irq :
    steps { start 0x8000 0x60000010 [] [(0x8000, 0xE1A00000)] [] with inputs := { Inputs.idle with fiq := true, irq := true } } 0x1c 0x600000d1 [(.fiq, 14, 0x8004)] [] [(.fiq, 0x60000010)] = true ∧
    steps { start 0x8000 0x92 [] [(0x8000, 0xE3A00001)] [] with inputs := { Inputs.idle with fiq := true, irq := false } } 0x1c 0xd1 [(.fiq, 14, 0x8004)] [] [(.fiq, 0x92)] = true := by
  decide +kernel

/-- `95_test_vectors.md` T255, T258. -/
theorem test_irq :
    steps { start 0x8000 0x60000010 [] [(0x8000, 0xE1A00000)] [] with inputs := { Inputs.idle with fiq := false, irq := true } } 0x18 0x60000092 [(.irq, 14, 0x8004)] [] [(.irq, 0x60000010)] = true ∧
    steps { start 0x8000 0x50 [] [(0x8000, 0xE1A00000)] [] with inputs := { Inputs.idle with fiq := true, irq := true } } 0x18 0xd2 [(.irq, 14, 0x8004)] [] [(.irq, 0x50)] = true := by
  decide +kernel

/-- `95_test_vectors.md` T256. -/
theorem test_masked_irq :
    steps { start 0x8000 0x90 [] [(0x8000, 0xE3A00001)] [] with inputs := { Inputs.idle with fiq := false, irq := true } } 0x8004 0x90 [(.usr, 0, 0x1)] [] [] = true := by
  decide +kernel

/-- `95_test_vectors.md` T259, T260: the fetch at the pc is refused. -/
theorem test_prefetch_abort :
    steps (refusing 0x9000 none (start 0x9000 0x10 [] [] [])) 0xC 0x97 [(.abt, 14, 0x9004)] [] [(.abt, 0x10)] = true ∧
    steps (refusing 0x8000 none (start 0x8000 0x10 [] [(0x8000, 0x03A00001)] [])) 0xC 0x97 [(.abt, 14, 0x8004), (.usr, 0, 0)]
      [] [(.abt, 0x10)] = true := by
  decide +kernel

/-- `95_test_vectors.md` T264, T265, T267. -/
theorem test_exception_returns :
    runs 0xE25EF004 (start 0x18 0x60000092 [(.irq, 14, 0x8004)] [] [(.irq, 0x60000010)]) 0x8000 0x60000010 [] [] [] = true ∧
    runs 0xE25EF008 (start 0x10 0x97 [(.abt, 14, 0x8008)] [] [(.abt, 0x10)]) 0x8000 0x10 [] [] [] = true ∧
    runs 0xE1B0F00E (start 0x8 0x20000093 [(.svc, 14, 0x8004)] [] [(.svc, 0x20000010)]) 0x8004 0x20000010 [] [] [] = true := by
  decide +kernel

/-- A word at 0x1000 that is read only, and one at 0x2000 that the environment answers for with the byte `b` at 0x2001. -/
def platform (b : Byte) (s : State) : State :=
  { s with
    memoryMap := [⟨0x1000, 0x1003, .readOnly⟩, ⟨0x2000, 0x2003, .external⟩]
    inputs := { s.inputs with answers := [⟨0x2001, b⟩] } }

/-- `00_scope.md` R5, `20_memory.md` R90, by hand: a store to the read-only word changes nothing, one to the external word
leaves the storage, a load of the external byte finds the answer; STR, STRB and SWPB. -/
theorem test_memory_map :
    steps (platform 0x5A (start 0x8000 0x10 [(.usr, 0, 7), (.usr, 1, 0x1000)] [(0x8000, 0xE5810000), (0x1000, 0x1234)] []))
      0x8004 0x10 [] [(0x1000, 0x1234)] [] = true ∧
    (match step (platform 0x5A (start 0x8000 0x10 [(.usr, 0, 7), (.usr, 1, 0x2001)] [(0x8000, 0xE5C10000)] [])) with
      | .next t => t.byteAt 0x2001 == 0
      | .fault _ => false
      | .refused _ => false) = true ∧
    steps (platform 0x5A (start 0x8000 0x10 [(.usr, 0, 7), (.usr, 1, 0x2001)] [(0x8000, 0xE1412090)] []))
      0x8004 0x10 [(.usr, 2, 0x5A)] [] [] = true := by
  decide +kernel

/-- An instruction where the environment answers for what is fetched. -/
theorem test_fetch_from_external :
    runs 0xE3A00001 (platform 0xFF (start 0x2000 0x10 [] [] [])) 0x2004 0x10 [(.usr, 0, 1)] [] [] = true := by
  decide +kernel

/-- The accesses in the trace of a step: whether each is a fetch, and its mode. -/
def accesses (s : State) : List (Bool × Mode) :=
  match step s with
  | .next t => (t.bus.filterMap BusEvent.made).map fun acc => (acc.opcode, acc.mode)
  | .fault _ => []
  | .refused _ => []

/-- Table 15 (`48_swi_undefined.md` R354), by hand: a data abort of LDR makes one more fetch in the old mode; the end of a
reset makes one. -/
theorem test_entry_fetch :
    accesses ((refusing 0x1000 none (start 0x8000 0x10 [(.usr, 1, 0x1000)] [] [])).withFetchWord 32 0xE5910000) =
      [(true, .usr), (true, .usr), (true, .usr), (false, .usr), (true, .usr)] ∧
    accesses { start 0x8000 0x10 [] [] [] with resetCycles := 2 } = [(true, .usr)] := by
  decide +kernel

/-- `70_reset_and_hazards.md` R461, log entry 44: with two words in the pipeline the first dummy fetch reads the third. -/
theorem test_dummy_fetch :
    steps { start 0x8000 0x10 [] [] [] with
        pipe := [⟨0, false⟩, ⟨0, false⟩], inputs := { Inputs.idle with resetLow := true } } 0x800C 0x10 [] [] [] = true := by
  decide +kernel

/-! ### Witnesses: a state and operands that meet the hypotheses of each statement -/

/-- User mode, base registers set, `MOV R0,R0` at the pc. -/
def user : State := start 0x8000 0x10 [(.usr, 1, 0x1000), (.usr, 2, 0x2001), (.usr, 3, 5)] [(0x8000, 0xE1A00000)] []

/-- The same in Supervisor mode with a saved User status word. -/
def svc : State :=
  start 0x8000 0xD3 [(.usr, 1, 0x1000), (.usr, 2, 0x2001), (.usr, 3, 5)] [(0x8000, 0xE1A00000)] [(.svc, 0x60000010)]

/-- The same right after a user-bank LDM. -/
def underHazard : State := { svc with hazard := true }

/-- A saved status word whose mode is not in Table 2. -/
def badSaved : State := start 0x8000 0xD3 [(.usr, 1, 0x1000)] [] [(.svc, 0)]

/-- The pipeline of an aborted word. -/
def abortedFetch : State := { user with pipe := [⟨0, true⟩] }

/-- Accesses to one word are refused. -/
def refusing1000 : State := refusing 0x1000 none user

theorem witness_EncodeInvertsDecode : decode 0xE1A00000#32 = .ok (.movReg .al false 0 0 0 .lsl 0) := by decide +kernel

theorem witness_UnallocatedWordsAreU1U2U3 :
    decode 0xE00000B0#32 = .error .unallocatedU1 ∧ decode 0xE0400090#32 = .error .unallocatedU2 ∧
      decode 0xE1000000#32 = .error .unallocatedU3 := by
  decide +kernel

theorem undisturbed_user : Undisturbed user := by unfold Undisturbed; decide +kernel

/-- The next word is the one at the pc, or the head of the pipeline. -/
theorem witness_StepRunsDecodedInstruction :
    decode 0xE1A00000#32 = .ok (.movReg .al false 0 0 0 .lsl 0) ∧
    (Undisturbed user ∧ NextWord user ⟨0xE1A00000, false⟩) ∧
    (let s : State := { user with pipe := [⟨0xE1A00000, false⟩, ⟨0, false⟩, ⟨0, true⟩] };
      Undisturbed s ∧ NextWord s ⟨0xE1A00000, false⟩) := by
  refine ⟨by decide +kernel, ⟨undisturbed_user, .inl ?_⟩, undisturbed_user, .inr ⟨_, rfl⟩⟩
  exact ⟨rfl, by decide +kernel⟩

/-- The condition passes, or fails. -/
theorem witness_UnallocatedCodeIsRefused :
    let s (w : Word) : State := { user with pipe := [⟨w, false⟩] }
    Undisturbed (s 0xE00000B0) ∧ NextWord (s 0xE00000B0) ⟨0xE00000B0, false⟩ ∧ NextWord (s 0xB0) ⟨0xB0, false⟩ ∧
      decode 0xE00000B0#32 = .error .unallocatedU1 ∧ decode 0x000000B0#32 = .error .unallocatedU1 ∧
      condHolds (condOf 0xE00000B0#32) user.cpsr = true ∧ condHolds (condOf 0x000000B0#32) user.cpsr = false :=
  ⟨undisturbed_user, .inr ⟨[], rfl⟩, .inr ⟨[], rfl⟩, by decide +kernel⟩

theorem witness_PrefetchAbortIsTaken : Undisturbed abortedFetch ∧ NextWord abortedFetch ⟨0, true⟩ :=
  ⟨undisturbed_user, .inr ⟨[], rfl⟩⟩

/-- A condition that passes. -/
theorem witness_SwiEntersSupervisor :
    condHolds .al user.cpsr = true ∧ condHolds .eq (psr 0x40000010) = true ∧ condHolds .ne user.cpsr = true := by
  decide +kernel

theorem witness_UndefinedClassTraps : condHolds .al svc.cpsr = true ∧ condHolds .lt (psr 0x80000010) = true := by
  decide +kernel

/-- FIQ pending; IRQ alone pending; IRQ pending with FIQ pending but masked. -/
theorem witness_InterruptsAreTaken :
    (let s : State := { user with inputs := { Inputs.idle with fiq := true, irq := true } };
      s.inputs.resetLow = false ∧ s.resetCycles = 0 ∧ s.inputs.fiq = true ∧ s.cpsr.f = false) ∧
    (let s : State := { user with inputs := { Inputs.idle with irq := true } };
      s.inputs.resetLow = false ∧ s.resetCycles = 0 ∧ (s.inputs.fiq && !s.cpsr.f) = false ∧ s.inputs.irq = true ∧
        s.cpsr.i = false) ∧
    (let s : State := { start 0 0x50 [] [] [] with inputs := { Inputs.idle with fiq := true, irq := true } };
      (s.inputs.fiq && !s.cpsr.f) = false ∧ s.cpsr.i = false) := by
  decide +kernel

theorem witness_DataAbortThenFiq :
    let s : State := { user with inputs := { Inputs.idle with fiq := true } }
    Entered .dataAbort (0x8000 + 8) s (s.enter .dataAbort (0x8000 + 8)) ∧ s.cpsr.f = false ∧
      (s.enter .dataAbort (0x8000 + 8)).inputs.resetLow = false ∧ (s.enter .dataAbort (0x8000 + 8)).resetCycles = 0 ∧
      (s.enter .dataAbort (0x8000 + 8)).inputs.fiq = true :=
  ⟨State.entered_enter _ _ _, by decide +kernel⟩

theorem witness_ReturnUndoesEntry : field user.pc 0 2 = 0 := by decide +kernel

/-- Reset in its second cycle; in its first, the trace before empty, a read, or an aborted write. -/
theorem witness_ResetLowOnlyFetches :
    let low (s : State) : State := { s with inputs := { Inputs.idle with resetLow := true } }
    (low user).inputs.resetLow = true ∧ (low { user with resetCycles := 1 }).resetCycles ≠ 0 ∧
      ∀ acc d b ab, BusEvent.access acc d b ab ∈
          [BusEvent.access (user.wordAccess 0 false) none 0 true, .access (user.wordAccess 0 true) (some 0) 0 true] →
        acc.write = false ∨ ab = true := by
  refine ⟨rfl, by decide, ?_⟩
  intro acc d b ab h
  rcases List.mem_cons.1 h with h | h
  · cases h; exact .inl rfl
  · cases List.mem_singleton.1 h; exact .inr rfl

/-- One cycle of reset; two; many. -/
theorem witness_ResetReleased :
    let s (n : Nat) : State := { user with resetCycles := n }
    (s 1).inputs.resetLow = false ∧ (s 1).resetCycles = 1 ∧ 2 ≤ (s 2).resetCycles ∧ 2 ≤ (s 100).resetCycles := by
  decide +kernel

/-- One step of the state gives a next state. -/
theorem next_of_steps {s : State} {pc p : Word} {rs : List (Mode × Reg × Word)} {ws : List (Word × Word)}
    {qs : List (Mode × Word)} (h : steps s pc p rs ws qs = true) : ∃ t, step s = .next t := by
  unfold steps at h
  split at h
  · exact ⟨_, ‹_›⟩
  · cases h
  · cases h

theorem user_steps : ∃ t, step user = .next t :=
  next_of_steps (pc := 0x8004) (p := 0x10) (rs := []) (ws := []) (qs := []) (by decide +kernel)

theorem witness_EveryStepKeepsInvariant : ∃ t, Invariant user ∧ step user = .next t :=
  user_steps.imp fun _ h => ⟨by unfold Invariant; decide +kernel, h⟩

/-- With a schedule empty, and with one of two. -/
theorem witness_EveryStepTakesNextInputs :
    (∃ t, step user = .next t ∧ user.schedule = []) ∧
    let s : State := { user with schedule := [{ Inputs.idle with irq := true }, .idle] }
    ∃ t, step s = .next t ∧ s.schedule = { Inputs.idle with irq := true } :: [.idle] :=
  ⟨user_steps.imp fun _ h => ⟨h, rfl⟩,
    (next_of_steps (pc := 0x8004) (p := 0x10) (rs := []) (ws := []) (qs := []) (by decide +kernel)).imp
      fun _ h => ⟨h, rfl⟩⟩

/-- NV in every state, EQ with Z clear; a code that holds. -/
theorem witness_FailedConditionSkips :
    condHolds (condOf (encode (.swi .nv 0))) user.cpsr = false ∧
      condHolds (condOf (encode (.addImm .eq true 0 0 0 1))) user.cpsr = false ∧
      condHolds (condOf 0xC0000000#32) user.cpsr = true := by
  decide +kernel

/-- One register in two modes: shared, shared but in FIQ, banked; another register; R15, the hazard, neither. -/
theorem witness_RegisterBanks :
    (7 : Reg) ≠ 15 ∧ (8 : Reg) ≠ 15 ∧ (12 : Reg) ≠ 15 ∧ (13 : Reg) ≠ 15 ∧ (14 : Reg) ≠ 15 ∧ (0 : Reg) ≠ 15 ∧
      underHazard.hazard = true ∧ banked underHazard.cpsr.mode 13 = true ∧ banked underHazard.cpsr.mode 12 = false ∧
      banked .fiq 8 = true ∧ banked .fiq 7 = false := by
  decide +kernel

theorem witness_LogicalFlags :
    AluOp.isLogical .and = true ∧ AluOp.isLogical .teq = true ∧ AluOp.isLogical .mvn = true := by decide

theorem witness_ArithmeticFlags :
    AluOp.isLogical .sub = false ∧ AluOp.isLogical .rsc = false ∧ AluOp.isLogical .cmn = false := by decide

/-- The amounts 0, 1 and 31. -/
theorem witness_ShiftByImmediate :
    (0#5).toNat = 0 ∧ 1 ≤ (1#5).toNat ∧ 1 ≤ (31#5).toNat := by decide

theorem witness_RotatedOperands :
    1 ≤ (1#5).toNat ∧ 1 ≤ (31#5).toNat ∧ 0 < 32 ∧ 31 < 32 ∧ 30 < 31 ∧ (15#4) ≠ 0 := by decide

/-- The amounts 0, 1, 31, 32, 33 and 255, the upper bytes of the register not counting. -/
theorem witness_ShiftByRegister :
    (0xFFFFFF00#32).toNat % 256 = 0 ∧ (0x1#32).toNat % 256 = 1 ∧ (0x11F#32).toNat % 256 = 31 ∧
      (0x20#32).toNat % 256 = 32 ∧ (0x21#32).toNat % 256 = 33 ∧ (0xFF#32).toNat % 256 = 255 := by decide

/-- The three forms, in User mode, in Supervisor mode and under the hazard. -/
theorem witness_DataProcessingWritesRd :
    AluOp.isTest .adc = false ∧ (14 : Reg) ≠ 15 ∧ (OperandForm.imm 0 1).legal = true ∧
      (OperandForm.reg 0 .ror 15).legal = true ∧ (OperandForm.rsr 14 .lsl 15).legal = true ∧
      condHolds .al user.cpsr = true ∧ condHolds .ne underHazard.cpsr = true := by
  decide +kernel

theorem witness_TestsSetFlags :
    AluOp.isTest .cmn = true ∧ (0 : Reg) ≠ 15 ∧ (14 : Reg) ≠ 15 ∧ (OperandForm.rsr 14 .lsl 15).legal = true ∧
      condHolds .al user.cpsr = true := by
  decide +kernel

/-- The SPSR holds a mode of Table 2, or does not, or there is no SPSR. -/
theorem witness_TestToPsr :
    AluOp.isTest .teq = true ∧ (OperandForm.imm 0 0).legal = true ∧ condHolds .al svc.cpsr = true ∧
      ((svc.savedOf svc.cpsr.mode).bind SavedPsr.toPsr).isSome = true ∧
      (badSaved.savedOf badSaved.cpsr.mode).isSome = true ∧
      ((badSaved.savedOf badSaved.cpsr.mode).bind SavedPsr.toPsr) = none ∧
      user.savedOf user.cpsr.mode = none := by
  decide +kernel

theorem witness_ResultToPc :
    AluOp.isTest .mov = false ∧ (OperandForm.reg 0 .lsl 14).legal = true ∧ condHolds .al user.cpsr = true := by
  decide +kernel

theorem witness_ResultToPcRestoresPsr :
    AluOp.isTest .sub = false ∧ (OperandForm.imm 0 4).legal = true ∧ condHolds .al svc.cpsr = true ∧
      ((svc.savedOf svc.cpsr.mode).bind SavedPsr.toPsr).isSome = true ∧
      ((badSaved.savedOf badSaved.cpsr.mode).bind SavedPsr.toPsr) = none ∧ user.savedOf user.cpsr.mode = none := by
  decide +kernel

/-- A restriction on the fields; each form forbidden in User mode; a mode outside Table 2 written. -/
theorem witness_RestrictedFormsAreRefused :
    (condHolds (condOf (encode (.ldm .al false true false false 0 0))) user.cpsr = true ∧
      Instr.wellFormed (.ldm .al false true false false 0 0) = false) ∧
    (user.cpsr.mode = .usr ∧ ForbiddenInUserMode (.movReg .al true 0 15 0 .lsl 14) ∧
      ForbiddenInUserMode (.mrs .al true 0) ∧ ForbiddenInUserMode (.msrAll .al true 0) ∧
      ForbiddenInUserMode (.msrFlags .al true 0) ∧ ForbiddenInUserMode (.msrFlagsImm .al true 0 0) ∧
      ForbiddenInUserMode (.ldm .al false true true false 0 0x8001) ∧
      ForbiddenInUserMode (.stm .al false true true false 0 1)) ∧
    (svc.cpsr.mode ≠ .usr ∧ WritesIllegalMode (.msrAll .al false 0) svc) :=
  ⟨by decide +kernel,
    ⟨by decide +kernel, .inl ⟨.mov, .al, 0, .reg 0 .lsl 14, rfl, rfl⟩, .inr (.inl ⟨_, _, rfl⟩),
      .inr (.inr (.inl ⟨_, _, .inl rfl⟩)), .inr (.inr (.inl ⟨_, _, .inr rfl⟩)),
      .inr (.inr (.inr (.inl ⟨_, _, _, rfl⟩))), .inr (.inr (.inr (.inr ⟨_, _, _, _, _, _, .inl rfl⟩))),
      .inr (.inr (.inr (.inr ⟨_, _, _, _, _, _, .inr rfl⟩)))⟩,
    by decide +kernel, _, _, _, rfl, by decide +kernel⟩

/-- The refusal of an outcome, if it is one. -/
def refusalOf (o : Outcome) : Option Refusal :=
  match o with
  | .next _ => none
  | .fault _ => none
  | .refused r => some r

theorem refused_of_refusalOf {o : Outcome} {r : Refusal} (h : refusalOf o = some r) : o = .refused r := by
  cases o <;> simp_all [refusalOf]

/-- A restricted form in any mode, an SPSR and the User bank in User mode, a mode outside Table 2 written and restored. -/
theorem witness_OnlyRestrictedFormsAreRefused :
    exec (.ldm .al false true false false 0 0) svc = .refused .emptyRegisterList ∧
      exec (.mrs .al true 0) user = .refused .spsrInUserMode ∧
      exec (.stm .al false true true false 1 1) user = .refused .userBankInUserMode ∧
      exec (.msrAll .al false 0) svc = .refused .illegalMode ∧
      exec (.movReg .al true 0 15 0 .lsl 14) badSaved = .refused .illegalMode :=
  ⟨refused_of_refusalOf (by decide +kernel), refused_of_refusalOf (by decide +kernel),
    refused_of_refusalOf (by decide +kernel), refused_of_refusalOf (by decide +kernel),
    refused_of_refusalOf (by decide +kernel)⟩

theorem witness_MrsReadsPsr :
    condHolds .al user.cpsr = true ∧ condHolds .al svc.cpsr = true ∧ (14 : Reg) ≠ 15 ∧
      (svc.savedOf svc.cpsr.mode).isSome = true ∧ user.savedOf user.cpsr.mode = none := by
  decide +kernel

/-- User mode; a privileged mode with a word that names a mode of Table 2, and with one that does not. -/
theorem witness_MsrWritesWholePsr :
    condHolds .al user.cpsr = true ∧ condHolds .al svc.cpsr = true ∧ (0 : Reg) ≠ 15 ∧ user.cpsr.mode = .usr ∧
      svc.cpsr.mode ≠ .usr ∧ Mode.ofBits (field 0x600000D2#32 0 5) = some .irq ∧
      Mode.ofBits (field (svc.readReg .rm 8 0) 0 5) = none := by
  decide +kernel

theorem witness_MsrWritesFlags :
    condHolds .al user.cpsr = true ∧ condHolds .al svc.cpsr = true ∧ (14 : Reg) ≠ 15 ∧
      (svc.savedOf svc.cpsr.mode).isSome = true ∧ user.savedOf user.cpsr.mode = none := by
  decide +kernel

/-- Rn of MUL may be R15; that of MLA may not. -/
theorem witness_MultiplyWritesRd :
    condHolds .al user.cpsr = true ∧ (0 : Reg) ≠ 15 ∧ (1 : Reg) ≠ 15 ∧ (2 : Reg) ≠ 15 ∧ (14 : Reg) ≠ 15 := by
  decide +kernel

/-- The ends of the ranges for 1, 2, 15 and 16 cycles. -/
theorem witness_MultiplyCycleCount :
    (1#32).toNat ≤ 1 ∧ 2 ^ 29 ≤ (0x20000000#32).toNat ∧ 2 ^ (2 * 2 - 3) ≤ (2#32).toNat ∧
      (7#32).toNat ≤ 2 ^ (2 * 2 - 1) - 1 ∧ 2 ^ (2 * 15 - 3) ≤ (0x8000000#32).toNat ∧
      (0x1FFFFFFF#32).toNat ≤ 2 ^ (2 * 15 - 1) - 1 := by decide +kernel

/-- With write-back, without, with Rn = Rd, and in the T form. -/
theorem witness_LoadWritesRd :
    condHolds .al svc.cpsr = true ∧ (OffsetForm.imm 4).legal = true ∧ (OffsetForm.reg 1 .lsl 3).legal = true ∧
      baseOk false true 1 = true ∧ baseOk true false 15 = true ∧ (0 : Reg) ≠ 15 ∧ writesBack false true = true ∧
      svc.aborts ((OffsetForm.imm 4).access true false false true true 1 svc) = false ∧
      svc.aborts ((OffsetForm.reg 1 .lsl 3).access true true true false false 15 svc) = false := by
  decide +kernel

theorem witness_LoadToPc :
    condHolds .al user.cpsr = true ∧ (OffsetForm.reg 2 .lsl 3).legal = true ∧ baseOk false false 1 = true ∧
      writesBack false false = true ∧
      user.aborts ((OffsetForm.reg 2 .lsl 3).access true false false true false 1 user) = false := by
  decide +kernel

/-- Rd another register with write-back; Rd = Rn without; R15 stored. -/
theorem witness_StoreWritesMemory :
    condHolds .al user.cpsr = true ∧ Memory.wf user.mem = true ∧ (OffsetForm.imm 4095).legal = true ∧
      baseOk true true 1 = true ∧ storeOk true true 1 2 = true ∧ storeOk true false 1 1 = true ∧
      storeOk false false 1 15 = true ∧ writesBack true true = true ∧
      user.aborts ((OffsetForm.imm 4095).access false true true true true 1 user) = false := by
  decide +kernel

theorem witness_SingleTransferAborts :
    condHolds .al refusing1000.cpsr = true ∧
      ((OffsetForm.imm 0).instr true false .al false true false 1 0).wellFormed = true ∧
      ((OffsetForm.imm 0).instr false true .al false true false 1 0).wellFormed = true ∧
      writesBack false false = true ∧ slot refusing1000.cpsr.mode 1 ≠ slot .abt 14 ∧
      refusing1000.aborts ((OffsetForm.imm 0).access true false false true false 1 refusing1000) = true ∧
      refusing1000.aborts ((OffsetForm.imm 0).access false true false true false 1 refusing1000) = true := by
  decide +kernel

theorem witness_LoadedWordRotates :
    0 < 4 ∧ 3 < 4 ∧ user.bigend = false ∧ ({ user with bigend := true } : State).bigend = true := by decide +kernel

/-- An access that aborts, one of a byte, one of a word; a byte that can be written, and one that cannot. -/
theorem witness_WritesReachMemory :
    (∀ a, (refusing1000.dataAccess 0x1006 .word true).reaches a = true → refusing1000.writable a = true) ∧
    (platform 0 user).writable 0x1000 = false ∧ (platform 0 user).writable 0x2003 = false ∧
    (platform 0 user).writable 0x1004 = true ∧ Memory.wf refusing1000.mem = true ∧ refusing1000.aborts (refusing1000.dataAccess 0x1000 .word true) = true ∧
      refusing1000.aborts (refusing1000.dataAccess 0x1001 .byte true) = false ∧
      refusing1000.aborts (refusing1000.dataAccess 0x1006 .word true) = false :=
  ⟨fun _ _ => rfl, by decide +kernel⟩

/-- None of the first `n` word accesses from an address on aborts where nothing aborts. -/
theorem noneAborts_of_idle {s : State} (h : s.inputs.aborts = []) (write : Bool) (n : Nat) (a : Word) :
    NoneAborts s write n a := by
  intro k _
  simp [State.aborts, h]

/-- Each way of addressing; a base in the list, a base not in it, R15 in the list, R15 alone. -/
theorem witness_LdmLoadsRegisters :
    condHolds .al user.cpsr = true ∧ (0x8003#16) ≠ 0 ∧ (1 : Reg) ≠ 15 ∧ (1 : Reg) ∈ regsOf 0x8003 ∧
      (2 : Reg) ∉ regsOf 0x8003 ∧ (0x8000#16).getLsbD 15 = true ∧ (0x0003#16).getLsbD 15 = false ∧
      (regsOf 0x8003)[0]? = some 0 ∧ (regsOf 0x8003)[2]? = some 15 ∧
      NoneAborts user false (countOf 0x8003) (user.blockAt false true 1 0x8003) :=
  ⟨by decide +kernel, by decide, by decide, by decide, by decide, by decide, by decide, by decide, by decide,
    noneAborts_of_idle rfl _ _ _⟩

/-- The SPSR names a mode of Table 2, or does not. -/
theorem witness_LdmReturns :
    condHolds .al svc.cpsr = true ∧ (0x8003#16).getLsbD 15 = true ∧ (1 : Reg) ≠ 15 ∧
      svc.savedOf svc.cpsr.mode = some (.ofWord 0x60000010) ∧ (SavedPsr.ofWord 0x60000010).toPsr.isSome = true ∧
      badSaved.savedOf badSaved.cpsr.mode = some (.ofWord 0) ∧ (SavedPsr.ofWord 0).toPsr = none ∧
      NoneAborts svc false (countOf 0x8003) (svc.blockAt false true 1 0x8003) ∧
      NoneAborts badSaved false (countOf 0x8003) (badSaved.blockAt false true 1 0x8003) :=
  ⟨by decide +kernel, by decide, by decide, by decide +kernel, by decide +kernel, by decide +kernel, by decide +kernel,
    noneAborts_of_idle rfl _ _ _, noneAborts_of_idle rfl _ _ _⟩

theorem witness_LdmLoadsUserBank :
    condHolds .al svc.cpsr = true ∧ (0x6000#16) ≠ 0 ∧ (0x6000#16).getLsbD 15 = false ∧ (1 : Reg) ≠ 15 ∧
      svc.cpsr.mode ≠ .usr ∧ (regsOf 0x6000)[1]? = some 14 ∧
      NoneAborts svc false (countOf 0x6000) (svc.blockAt true false 1 0x6000) :=
  ⟨by decide +kernel, by decide, by decide, by decide, by decide +kernel, by decide, noneAborts_of_idle rfl _ _ _⟩

/-- The first read aborts; the second does, with write-back, and, in the User bank, without. -/
theorem witness_LdmAborts :
    let s : State := refusing 0x1004 none svc
    condHolds .al s.cpsr = true ∧ (0x0005#16) ≠ 0 ∧ (1 : Reg) ≠ 15 ∧ s.cpsr.mode ≠ .usr ∧
      ((false && !(0x0005#16).getLsbD 15) && true) = false ∧ ((true && !(0x0005#16).getLsbD 15) && false) = false ∧
      1 < countOf 0x0005 ∧ NoneAborts s false 1 (s.blockAt false true 1 0x0005) ∧
      s.aborts (s.wordAccess (wordPlace (s.blockAt false true 1 0x0005) 1) false) = true ∧
      NoneAborts s false 0 (s.blockAt true true 1 0x0005) ∧
      s.aborts (s.wordAccess (wordPlace (s.blockAt true true 1 0x0005) 0) false) = true ∧
      (regsOf 0x0005)[0]? = some 0 ∧ slot s.cpsr.mode 1 ≠ slot .abt 14 ∧ slot s.cpsr.mode 0 ≠ slot .abt 14 ∧
      slot s.cpsr.mode 0 ≠ slot s.cpsr.mode 1 := by
  unfold NoneAborts
  decide +kernel

/-- The base first of the list, second of it, and not in it; S with no write-back; no abort, and the second write
aborting. -/
theorem witness_StmStoresRegisters :
    let s : State := refusing 0x1004 none svc
    condHolds .al svc.cpsr = true ∧ Memory.wf svc.mem = true ∧ (0x8006#16) ≠ 0 ∧ (1 : Reg) ≠ 15 ∧
      svc.cpsr.mode ≠ .usr ∧ (regsOf 0x8006)[0]? = some 1 ∧ (regsOf 0x8006)[1]? = some 2 ∧
      (∀ k < countOf 0x8006, svc.aborts (svc.wordAccess (wordPlace (svc.blockAt false true 1 0x8006) k) true) = false) ∧
      Memory.wf s.mem = true ∧
      (∃ k < countOf 0x8006, s.aborts (s.wordAccess (wordPlace (s.blockAt false true 1 0x8006) k) true) = true) ∧
      slot s.cpsr.mode 1 ≠ slot .abt 14 := by
  decide +kernel

theorem witness_SwapExchanges :
    condHolds .al user.cpsr = true ∧ Memory.wf user.mem = true ∧ (2 : Reg) ≠ 15 ∧ (0 : Reg) ≠ 15 ∧
      user.aborts ⟨user.readReg .rn 8 2, widthOf false, false, false, user.privileged, user.cpsr.mode, true⟩ = false ∧
      user.aborts ⟨user.readReg .rn 8 2, widthOf true, true, false, user.privileged, user.cpsr.mode, true⟩ = false := by
  decide +kernel

/-- Only the read aborts; the write does. -/
theorem witness_SwapAborts :
    let s (write : Option Bool) : State := refusing 0x1000 write user
    let acc (write : Bool) : Access := ⟨(s none).readReg .rn 8 1, .word, write, false, false, .usr, true⟩
    condHolds .al user.cpsr = true ∧ Memory.wf user.mem = true ∧ (1 : Reg) ≠ 15 ∧ (0 : Reg) ≠ 15 ∧
      (s (some false)).aborts (acc false) = true ∧ (s (some false)).aborts (acc true) = false ∧
      (s (some true)).aborts (acc true) = true ∧ (s none).aborts (acc false) = true := by
  decide +kernel

/-- No coprocessor; a coprocessor that is busy; an absent one declared. -/
theorem witness_CoprocessorHandshake :
    let i : Instr := .cdp .al 10 2 1 1 0 3
    condHolds .al user.cpsr = true ∧ user.response 1 (encode i) = .absent ∧
      (answering 1 .busy user).response 1 (encode i) = .busy ∧ (∀ r ∈ user.inputs.coprocs, r.cp ≠ 1) ∧
      (answering 1 .absent user).response 1 (encode i) = .absent := by
  decide +kernel

theorem witness_RegisterTransfersWithCoprocessor :
    let d : CoprocData := ⟨0, 0, [], 0x80000001⟩
    let s := answering 2 (.ready d) user
    condHolds .al s.cpsr = true ∧ s.response 2 (encode (.cdp .al 10 2 1 2 0 3)) = .ready d ∧
      s.response 2 (encode (.mcr .al 5 5 3 2 0 6)) = .ready d ∧ s.response 2 (encode (.mrc .al 5 5 15 2 0 6)) = .ready d := by
  decide +kernel

/-- With write-back and two words, no read aborting, and the second one. -/
theorem witness_LdcLoadsCoprocessor :
    let d : CoprocData := ⟨1, 0, [], 0⟩
    let s := answering 1 (.ready d) user
    let u := answering 1 (.ready d) (refusing 0x100C none user)
    condHolds .al s.cpsr = true ∧ (1 : Reg) ≠ 15 ∧
      s.response 1 (encode (.ldc .al true true false true 1 2 1 2)) = .ready d ∧
      u.response 1 (encode (.ldc .al true true false true 1 2 1 2)) = .ready d ∧
      (∀ k < d.loadExtra + 1, s.aborts (s.wordAccess (wordPlace 0x1008 k) false) = false) ∧
      transferAddress true true (u.readReg .rn 8 1) ((2 : Byte).extend <<< 2) = 0x1008 ∧
      (∃ k < d.loadExtra + 1, u.aborts (u.wordAccess (wordPlace 0x1008 k) false) = true) ∧
      slot u.cpsr.mode 1 ≠ slot .abt 14 := by
  decide +kernel

theorem witness_StcStoresCoprocessor :
    let d : CoprocData := ⟨0, 1, [2, 3], 0⟩
    let s := answering 2 (.ready d) user
    let u := answering 2 (.ready d) (refusing 0x100C none user)
    condHolds .al s.cpsr = true ∧ (1 : Reg) ≠ 15 ∧ Memory.wf s.mem = true ∧ Memory.wf u.mem = true ∧
      s.response 2 (encode (.stc .al true true true true 1 3 2 2)) = .ready d ∧
      u.response 2 (encode (.stc .al true true true true 1 3 2 2)) = .ready d ∧
      (d.storeFirst :: d.storeRest).length ≤ 2 ^ 30 ∧
      (∀ k < 3, s.aborts (s.wordAccess (wordPlace 0x1008 k) true) = false) ∧
      (∃ k < 3, u.aborts (u.wordAccess (wordPlace 0x1008 k) true) = true) ∧ slot u.cpsr.mode 1 ≠ slot .abt 14 := by
  decide +kernel

theorem witness_BranchesReachTarget : condHolds .al user.cpsr = true ∧ field user.pc 0 2 = 0 := by decide +kernel

/-- A step that stays in User mode, and one that enters an exception. -/
theorem witness_UserModeIsConfined :
    (∃ t, step user = .next t ∧ user.cpsr.mode = .usr ∧ user.inputs.resetLow = false ∧ user.resetCycles = 0) ∧
    let s := user.withFetchWord 32 0xEF000000
    ∃ t, step s = .next t ∧ s.cpsr.mode = .usr ∧ s.inputs.resetLow = false ∧ s.resetCycles = 0 :=
  ⟨user_steps.imp fun _ h => ⟨h, by decide +kernel⟩,
    (next_of_steps (pc := 8) (p := 0x93) (rs := []) (ws := []) (qs := [(.svc, 0x10)]) (by decide +kernel)).imp
      fun _ h => ⟨h, by decide +kernel⟩⟩

/-- From an empty pipeline, and from a full one. -/
theorem witness_PrefetchedWordsStay :
    (∃ t, step user = .next t) ∧
      ∃ t, step { user with pipe := [⟨0xE1A00000, false⟩, ⟨0, false⟩, ⟨0, true⟩] } = .next t :=
  ⟨user_steps, next_of_steps (pc := 0x8004) (p := 0x10) (rs := []) (ws := []) (qs := []) (by decide +kernel)⟩

/-- From a word prefetched; and from none, with interrupts to come that are masked. -/
theorem witness_BranchToItselfEndsRun :
    (let s : State := { user with pipe := [⟨0xEAFFFFFE#32, false⟩] };
      Undisturbed s ∧ field s.pc 0 2 = 0 ∧ NextWord s ⟨0xEAFFFFFE#32, false⟩) ∧
    let s : State := { start 0x8000 0xD3 [] [(0x8000, 0xEAFFFFFE)] [] with
      schedule := [{ Inputs.idle with fiq := true, irq := true }] };
    field s.pc 0 2 = 0 ∧ s.pipe = [] ∧ s.hazard = false ∧ s.wordAt s.pc = 0xEAFFFFFE#32 ∧
      (∀ k < 4, s.kindAt (s.pc + BitVec.ofNat 32 k) ≠ .external) ∧
      ∀ x ∈ s.inputs :: s.schedule, let u : State := { s with inputs := x };
        Undisturbed u ∧ u.aborts (u.fetchAccess u.pc) = false :=
  ⟨⟨undisturbed_user, by decide +kernel, .inr ⟨[], rfl⟩⟩, by unfold Undisturbed; decide +kernel⟩

end Sys2Proof.Tests
end

