-- ==== Sys2Proof/Proofs/Refusals.lean ====
section
/-! SUPPORT. The families of the instructions, what each of them can be refused for, and the step that runs an
instruction (`00_scope.md` R9, R10; `93_implementation_defined.md` section 1). -/

namespace Sys2Proof.Machine

/-! ### The families of the instructions -/

/-- The condition of a word stands in its top four bits (`30_encoding.md` R120). -/
theorem condOf_cat (c : Cond) (x : BitVec 28) : condOf (cat 32 c.bits x) = c := by
  rw [condOf, field_cat_high (by decide) (by decide), field_self, Cond.ofBits_bits]

/-- Every instruction belongs to a family and runs under the condition of its word: the 48 data processing
constructors are one family, the eight single data transfers another, and every other constructor is its own. -/
theorem Instr.family_cases {motive : Instr → Cond → Prop}
    (data : ∀ op c sf rn rd (o : OperandForm), motive (o.instr op c sf rn rd) c)
    (transfer : ∀ load byte c p u w rn rd (o : OffsetForm), motive (o.instr load byte c p u w rn rd) c)
    (mrs : ∀ c spsr rd, motive (.mrs c spsr rd) c)
    (msrAll : ∀ c spsr rm, motive (.msrAll c spsr rm) c)
    (msrFlags : ∀ c spsr rm, motive (.msrFlags c spsr rm) c)
    (msrFlagsImm : ∀ c spsr rot imm, motive (.msrFlagsImm c spsr rot imm) c)
    (mul : ∀ c sf rd rn rs rm, motive (.mul c sf rd rn rs rm) c)
    (mla : ∀ c sf rd rn rs rm, motive (.mla c sf rd rn rs rm) c)
    (undefined : ∀ c hi lo, motive (.undefined c hi lo) c)
    (ldm : ∀ c p u sb w rn list, motive (.ldm c p u sb w rn list) c)
    (stm : ∀ c p u sb w rn list, motive (.stm c p u sb w rn list) c)
    (b : ∀ c off, motive (.b c off) c)
    (bl : ∀ c off, motive (.bl c off) c)
    (swp : ∀ c rn rd rm, motive (.swp c rn rd rm) c)
    (swpb : ∀ c rn rd rm, motive (.swpb c rn rd rm) c)
    (swi : ∀ c comment, motive (.swi c comment) c)
    (cdp : ∀ c opc crn crd cp info crm, motive (.cdp c opc crn crd cp info crm) c)
    (ldc : ∀ c p u n w rn crd cp off, motive (.ldc c p u n w rn crd cp off) c)
    (stc : ∀ c p u n w rn crd cp off, motive (.stc c p u n w rn crd cp off) c)
    (mrc : ∀ c opc crn rd cp info crm, motive (.mrc c opc crn rd cp info crm) c)
    (mcr : ∀ c opc crn rd cp info crm, motive (.mcr c opc crn rd cp info crm) c)
    (i : Instr) : motive i (condOf (encode i)) := by
  have of_word {j : Instr} {c : Cond} {x : BitVec 28} (h : motive j c) : motive j (condOf (cat 32 c.bits x)) := by
    rwa [condOf_cat]
  cases i with
  | andImm c sf rn rd rot imm => exact of_word (data .and c sf rn rd (.imm rot imm))
  | andReg c sf rn rd amt ty rm => exact of_word (data .and c sf rn rd (.reg amt ty rm))
  | andRsr c sf rn rd rs ty rm => exact of_word (data .and c sf rn rd (.rsr rs ty rm))
  | eorImm c sf rn rd rot imm => exact of_word (data .eor c sf rn rd (.imm rot imm))
  | eorReg c sf rn rd amt ty rm => exact of_word (data .eor c sf rn rd (.reg amt ty rm))
  | eorRsr c sf rn rd rs ty rm => exact of_word (data .eor c sf rn rd (.rsr rs ty rm))
  | subImm c sf rn rd rot imm => exact of_word (data .sub c sf rn rd (.imm rot imm))
  | subReg c sf rn rd amt ty rm => exact of_word (data .sub c sf rn rd (.reg amt ty rm))
  | subRsr c sf rn rd rs ty rm => exact of_word (data .sub c sf rn rd (.rsr rs ty rm))
  | rsbImm c sf rn rd rot imm => exact of_word (data .rsb c sf rn rd (.imm rot imm))
  | rsbReg c sf rn rd amt ty rm => exact of_word (data .rsb c sf rn rd (.reg amt ty rm))
  | rsbRsr c sf rn rd rs ty rm => exact of_word (data .rsb c sf rn rd (.rsr rs ty rm))
  | addImm c sf rn rd rot imm => exact of_word (data .add c sf rn rd (.imm rot imm))
  | addReg c sf rn rd amt ty rm => exact of_word (data .add c sf rn rd (.reg amt ty rm))
  | addRsr c sf rn rd rs ty rm => exact of_word (data .add c sf rn rd (.rsr rs ty rm))
  | adcImm c sf rn rd rot imm => exact of_word (data .adc c sf rn rd (.imm rot imm))
  | adcReg c sf rn rd amt ty rm => exact of_word (data .adc c sf rn rd (.reg amt ty rm))
  | adcRsr c sf rn rd rs ty rm => exact of_word (data .adc c sf rn rd (.rsr rs ty rm))
  | sbcImm c sf rn rd rot imm => exact of_word (data .sbc c sf rn rd (.imm rot imm))
  | sbcReg c sf rn rd amt ty rm => exact of_word (data .sbc c sf rn rd (.reg amt ty rm))
  | sbcRsr c sf rn rd rs ty rm => exact of_word (data .sbc c sf rn rd (.rsr rs ty rm))
  | rscImm c sf rn rd rot imm => exact of_word (data .rsc c sf rn rd (.imm rot imm))
  | rscReg c sf rn rd amt ty rm => exact of_word (data .rsc c sf rn rd (.reg amt ty rm))
  | rscRsr c sf rn rd rs ty rm => exact of_word (data .rsc c sf rn rd (.rsr rs ty rm))
  | tstImm c rn rd rot imm => exact of_word (data .tst c false rn rd (.imm rot imm))
  | tstReg c rn rd amt ty rm => exact of_word (data .tst c false rn rd (.reg amt ty rm))
  | tstRsr c rn rd rs ty rm => exact of_word (data .tst c false rn rd (.rsr rs ty rm))
  | teqImm c rn rd rot imm => exact of_word (data .teq c false rn rd (.imm rot imm))
  | teqReg c rn rd amt ty rm => exact of_word (data .teq c false rn rd (.reg amt ty rm))
  | teqRsr c rn rd rs ty rm => exact of_word (data .teq c false rn rd (.rsr rs ty rm))
  | cmpImm c rn rd rot imm => exact of_word (data .cmp c false rn rd (.imm rot imm))
  | cmpReg c rn rd amt ty rm => exact of_word (data .cmp c false rn rd (.reg amt ty rm))
  | cmpRsr c rn rd rs ty rm => exact of_word (data .cmp c false rn rd (.rsr rs ty rm))
  | cmnImm c rn rd rot imm => exact of_word (data .cmn c false rn rd (.imm rot imm))
  | cmnReg c rn rd amt ty rm => exact of_word (data .cmn c false rn rd (.reg amt ty rm))
  | cmnRsr c rn rd rs ty rm => exact of_word (data .cmn c false rn rd (.rsr rs ty rm))
  | orrImm c sf rn rd rot imm => exact of_word (data .orr c sf rn rd (.imm rot imm))
  | orrReg c sf rn rd amt ty rm => exact of_word (data .orr c sf rn rd (.reg amt ty rm))
  | orrRsr c sf rn rd rs ty rm => exact of_word (data .orr c sf rn rd (.rsr rs ty rm))
  | movImm c sf rn rd rot imm => exact of_word (data .mov c sf rn rd (.imm rot imm))
  | movReg c sf rn rd amt ty rm => exact of_word (data .mov c sf rn rd (.reg amt ty rm))
  | movRsr c sf rn rd rs ty rm => exact of_word (data .mov c sf rn rd (.rsr rs ty rm))
  | bicImm c sf rn rd rot imm => exact of_word (data .bic c sf rn rd (.imm rot imm))
  | bicReg c sf rn rd amt ty rm => exact of_word (data .bic c sf rn rd (.reg amt ty rm))
  | bicRsr c sf rn rd rs ty rm => exact of_word (data .bic c sf rn rd (.rsr rs ty rm))
  | mvnImm c sf rn rd rot imm => exact of_word (data .mvn c sf rn rd (.imm rot imm))
  | mvnReg c sf rn rd amt ty rm => exact of_word (data .mvn c sf rn rd (.reg amt ty rm))
  | mvnRsr c sf rn rd rs ty rm => exact of_word (data .mvn c sf rn rd (.rsr rs ty rm))
  | ldrImm c p u w rn rd off => exact of_word (transfer true false c p u w rn rd (.imm off))
  | ldrReg c p u w rn rd amt ty rm => exact of_word (transfer true false c p u w rn rd (.reg amt ty rm))
  | ldrbImm c p u w rn rd off => exact of_word (transfer true true c p u w rn rd (.imm off))
  | ldrbReg c p u w rn rd amt ty rm => exact of_word (transfer true true c p u w rn rd (.reg amt ty rm))
  | strImm c p u w rn rd off => exact of_word (transfer false false c p u w rn rd (.imm off))
  | strReg c p u w rn rd amt ty rm => exact of_word (transfer false false c p u w rn rd (.reg amt ty rm))
  | strbImm c p u w rn rd off => exact of_word (transfer false true c p u w rn rd (.imm off))
  | strbReg c p u w rn rd amt ty rm => exact of_word (transfer false true c p u w rn rd (.reg amt ty rm))
  | mrs c spsr rd => exact of_word (mrs c spsr rd)
  | msrAll c spsr rm => exact of_word (msrAll c spsr rm)
  | msrFlags c spsr rm => exact of_word (msrFlags c spsr rm)
  | msrFlagsImm c spsr rot imm => exact of_word (msrFlagsImm c spsr rot imm)
  | mul c sf rd rn rs rm => exact of_word (mul c sf rd rn rs rm)
  | mla c sf rd rn rs rm => exact of_word (mla c sf rd rn rs rm)
  | undefined c hi lo => exact of_word (undefined c hi lo)
  | ldm c p u sb w rn list => exact of_word (ldm c p u sb w rn list)
  | stm c p u sb w rn list => exact of_word (stm c p u sb w rn list)
  | b c off => exact of_word (b c off)
  | bl c off => exact of_word (bl c off)
  | swp c rn rd rm => exact of_word (swp c rn rd rm)
  | swpb c rn rd rm => exact of_word (swpb c rn rd rm)
  | swi c comment => exact of_word (swi c comment)
  | cdp c opc crn crd cp info crm => exact of_word (cdp c opc crn crd cp info crm)
  | ldc c p u n w rn crd cp off => exact of_word (ldc c p u n w rn crd cp off)
  | stc c p u n w rn crd cp off => exact of_word (stc c p u n w rn crd cp off)
  | mrc c opc crn rd cp info crm => exact of_word (mrc c opc crn rd cp info crm)
  | mcr c opc crn rd cp info crm => exact of_word (mcr c opc crn rd cp info crm)

/-- What holds under the condition of a word holds under the condition in its top four bits. -/
theorem passes_of_word {c : Cond} {x : BitVec 28} {p : Psr} (h : condHolds (condOf (cat 32 c.bits x)) p = true) :
    condHolds c p = true := by
  rwa [condOf_cat] at h

/-- The word of a data processing instruction holds its condition. -/
theorem condOf_operandForm (op : AluOp) (c : Cond) (sf : Bool) (rn rd : Reg) (o : OperandForm) :
    condOf (encode (o.instr op c sf rn rd)) = c := by
  cases o <;> cases op <;> exact condOf_cat c _

/-- Data processing restricts the register of the shift amount only (`42_data_processing.md` R210). -/
theorem wellFormed_operandForm (op : AluOp) (c : Cond) (sf : Bool) (rn rd : Reg) (o : OperandForm) :
    (o.instr op c sf rn rd).wellFormed = o.legal := by
  cases o <;> cases op <;> rfl

/-- A single data transfer restricts its offset register and its base, a byte load also its destination and a store
the register it stores (`45_single_data_transfer.md` R299). -/
theorem wellFormed_offsetForm (load byte : Bool) (c : Cond) (p u w : Bool) (rn rd : Reg) (o : OffsetForm) :
    (o.instr load byte c p u w rn rd).wellFormed =
      (baseOk p w rn && (if load then !(byte && rd == 15) else storeOk p w rn rd) && o.legal) := by
  cases o <;> cases load <;> cases byte <;>
    simp [OffsetForm.instr, Instr.transferImm, Instr.transferReg, Instr.wellFormed, OffsetForm.legal, bne]

/-- A data processing instruction, in any of the three forms of operand 2, whatever its operands. -/
theorem exec_operandForm_guarded (s : State) (op : AluOp) (c : Cond) (sf : Bool) (rn rd : Reg) (o : OperandForm) :
    exec (o.instr op c sf rn rd) s =
      conditionally c s (refuseIf (!o.legal) .shiftByR15 (finishAlu op sf rd (o.outcome op rn s) o.internal s)) := by
  cases o with
  | imm rot v => exact exec_dataImm s op c sf rn rd rot v
  | reg amt ty rm => exact exec_dataReg s op c sf rn rd amt ty rm
  | rsr rs ty rm =>
    have hrs : (!(OperandForm.rsr rs ty rm).legal) = (rs == 15) := by simp [OperandForm.legal, bne]
    rw [hrs]
    exact exec_dataRsr s op c sf rn rd rs ty rm

/-- A single data transfer, in either form of offset, whatever its operands. -/
theorem exec_offsetForm_guarded (s : State) (load byte : Bool) (c : Cond) (p u w : Bool) (rn rd : Reg)
    (o : OffsetForm) :
    exec (o.instr load byte c p u w rn rd) s =
      conditionally c s (refuseIf (!o.legal) .offsetR15 (refuseIf (!baseOk p w rn) .writeBackToR15
        (if load then
          refuseIf (byte && rd == 15) .loadByteToR15 (loadSingle (widthOf byte) p u w rn rd (o.value s) s)
        else
          refuseIf (!storeOk p w rn rd) .storeOfWrittenBase
            (storeSingle (widthOf byte) p u w rn rd (o.value s) s)))) := by
  cases o with
  | imm off => cases load <;> cases byte <;> rfl
  | reg amt ty rm =>
    have hrm : (!(OffsetForm.reg amt ty rm).legal) = (rm == 15) := by simp [OffsetForm.legal, bne]
    rw [hrm]
    cases load <;> cases byte <;> rfl

/-! ### Refusals -/

/-- The outcome is a refusal. -/
def Refused (o : Outcome) : Prop := ∃ r, o = .refused r

@[simp] theorem refused_refused (r : Refusal) : Refused (.refused r) := ⟨r, rfl⟩

@[simp] theorem not_refused_next (t : State) : ¬ Refused (.next t) := fun ⟨_, h⟩ => nomatch h

/-- A guard refuses, or what it guards does. -/
@[simp] theorem refused_refuseIf {b : Bool} {r : Refusal} {o : Outcome} :
    Refused (refuseIf b r o) ↔ b = true ∨ Refused o := by
  cases b <;> simp

/-- Under a condition that fails nothing is refused. -/
@[simp] theorem refused_conditionally {c : Cond} {s : State} {o : Outcome} :
    Refused (conditionally c s o) ↔ condHolds c s.cpsr = true ∧ Refused o := by
  unfold conditionally
  split <;> simp_all

/-- LDM and STM are refused for an empty list, the base R15, the S bit in User mode and a user-bank transfer with
write-back (`46_block_data_transfer.md` R324). -/
theorem refused_blockGuard {sb userBank w : Bool} {rn : Reg} {list : BitVec 16} {s : State} {o : Outcome} :
    Refused (blockGuard sb userBank w rn list s o) ↔
      blockOk userBank w rn list = false ∨ (sb = true ∧ s.cpsr.mode = .usr) ∨ Refused o := by
  simp [blockGuard, blockOk, State.privileged]
  tauto

/-- A return is refused in User mode, which has no SPSR. -/
theorem refused_returnTo_of_usr {s : State} (hm : s.cpsr.mode = .usr) (a : Word) (k : Cycles) :
    Refused (s.returnTo a k) := by
  simp [State.returnTo, State.restored, State.savedOf, hm]

/-- A word restores no CPSR if and only if it names no mode of Table 2 (`10_state.md` R43). -/
theorem toPsr_ofWord_eq_none {w : Word} :
    (SavedPsr.ofWord w).toPsr = none ↔ Mode.ofBits (field w 0 5) = none := by
  simp [SavedPsr.toPsr, SavedPsr.ofWord]

/-- A form that breaks a restriction on its fields is refused in every state. -/
theorem refused_of_not_wellFormed (i : Instr) (s : State) :
    condHolds (condOf (encode i)) s.cpsr = true → i.wellFormed = false → Refused (exec i s) := by
  apply Instr.family_cases
    (motive := fun j c => condHolds c s.cpsr = true → j.wellFormed = false → Refused (exec j s)) (i := i)
  case data =>
    intro op c sf rn rd o hc hw
    rw [wellFormed_operandForm] at hw
    simp [exec_operandForm_guarded, hc, hw]
  case transfer =>
    intro load byte c p u w rn rd o hc hw
    rw [wellFormed_offsetForm, Bool.and_eq_false_iff, Bool.and_eq_false_iff] at hw
    rcases hw with (hb | hd) | hl
    · simp [exec_offsetForm_guarded, hc, hb]
    · cases load <;> simp_all [exec_offsetForm_guarded]
    · simp [exec_offsetForm_guarded, hc, hl]
  case mrs => simp +contextual [exec, execMrs, Instr.wellFormed]
  case msrAll => simp +contextual [exec, execMsrAll, Instr.wellFormed]
  case msrFlags => simp +contextual [exec, execMsrFlags, Instr.wellFormed]
  case mul =>
    intro c sf rd rn rs rm hc hw
    simp_all [exec, execMul, Instr.wellFormed]
    tauto
  case mla =>
    intro c sf rd rn rs rm hc hw
    simp_all [exec, execMla, Instr.wellFormed]
    tauto
  case ldm =>
    intro c p u sb w rn list hc hw
    exact refused_conditionally.mpr ⟨hc, refused_blockGuard.mpr (.inl hw)⟩
  case stm =>
    intro c p u sb w rn list hc hw
    exact refused_conditionally.mpr ⟨hc, refused_blockGuard.mpr (.inl hw)⟩
  case swp | swpb =>
    intro c rn rd rm hc hw
    simp_all [exec, execSwp, execSwpb, Instr.wellFormed]
    tauto
  case ldc | stc =>
    intro c p u n w rn crd cp off hc hw
    simp_all [exec, execLdc, execStc, Instr.wellFormed]
  case msrFlagsImm | undefined | b | bl | swi | cdp | mrc | mcr => simp [Instr.wellFormed]

/-- In User mode the forms the spec forbids there are refused. -/
theorem refused_of_forbiddenInUserMode (i : Instr) (s : State) (hc : condHolds (condOf (encode i)) s.cpsr = true)
    (hm : s.cpsr.mode = .usr) (hf : ForbiddenInUserMode i) : Refused (exec i s) := by
  rcases hf with ⟨op, c, rn, o, hop, rfl⟩ | ⟨c, rd, rfl⟩ | ⟨c, rm, rfl | rfl⟩ | ⟨c, rot, imm, rfl⟩ |
    ⟨c, p, u, w, rn, list, rfl | rfl⟩
  case inl =>
    rw [condOf_operandForm] at hc
    simp [exec_operandForm_guarded, hc, finishAlu, hop, refused_returnTo_of_usr hm]
  all_goals replace hc := passes_of_word hc
  · simp [exec, execMrs, hc, State.psrValue, State.savedOf, hm]
  · simp [exec, execMsrAll, hc, writeWholeSpsr, State.privileged, hm]
  · simp [exec, execMsrFlags, hc, writePsrFlags, State.savedOf, hm]
  · simp [exec, execMsrFlagsImm, hc, writePsrFlags, State.savedOf, hm]
  · exact refused_conditionally.mpr ⟨hc, refused_blockGuard.mpr (.inr (.inl ⟨rfl, hm⟩))⟩
  · exact refused_conditionally.mpr ⟨hc, refused_blockGuard.mpr (.inr (.inl ⟨rfl, hm⟩))⟩

/-- In a privileged mode MSR of a word that names no mode of Table 2 is refused. -/
theorem refused_of_writesIllegalMode (i : Instr) (s : State) (hc : condHolds (condOf (encode i)) s.cpsr = true)
    (hm : s.cpsr.mode ≠ .usr) (hf : WritesIllegalMode i s) : Refused (exec i s) := by
  obtain ⟨c, spsr, rm, rfl, hw⟩ := hf
  have hmsr : Refused (if spsr then writeWholeSpsr (s.readReg .rm 8 rm) s
      else writeWholeCpsr (s.readReg .rm 8 rm) s) := by
    cases spsr <;> simp only [writeWholeSpsr, writeWholeCpsr, toPsr_ofWord_eq_none.mpr hw] <;>
      simp [State.privileged, hm]
  exact refused_conditionally.mpr ⟨passes_of_word hc, refused_refuseIf.mpr (.inr hmsr)⟩

/-- Settles O33, by the three ways in which a form is restricted. -/
theorem restrictedFormsAreRefused : Obligations.RestrictedFormsAreRefused := by
  rintro i s hc (hw | ⟨hm, hf⟩ | ⟨hm, hf⟩)
  · exact refused_of_not_wellFormed i s hc hw
  · exact refused_of_forbiddenInUserMode i s hc hm hf
  · exact refused_of_writesIllegalMode i s hc hm hf

/-! ### What an outcome stops for -/

/-- The outcome is no fault, and a refusal only for a reason `P` allows. -/
def StopsOnlyFor (P : Refusal → Prop) : Outcome → Prop
  | .next _ => True
  | .fault _ => False
  | .refused r => P r

/-- `StopsOnlyFor` in the words of the statement. -/
theorem stopsOnlyFor_iff {P : Refusal → Prop} {o : Outcome} :
    StopsOnlyFor P o ↔ (∀ e, o ≠ .fault e) ∧ ∀ r, o = .refused r → P r := by
  cases o with
  | next t => simp [StopsOnlyFor]
  | fault e => exact ⟨False.elim, fun h => h.1 e rfl⟩
  | refused r => simp [StopsOnlyFor]

section
variable {P : Refusal → Prop}

@[simp] theorem StopsOnlyFor.next (t : State) : StopsOnlyFor P (.next t) := trivial

@[simp] theorem stopsOnlyFor_refused (r : Refusal) : StopsOnlyFor P (.refused r) ↔ P r := Iff.rfl

/-- A guard adds its own reason to what it guards. -/
theorem StopsOnlyFor.refuseIf {b : Bool} {r : Refusal} {o : Outcome} (hb : b = true → P r) (ho : StopsOnlyFor P o) :
    StopsOnlyFor P (refuseIf b r o) := by
  cases b with
  | false => exact ho
  | true => exact hb rfl

/-- An instruction under its condition stops only when the condition passes. -/
theorem StopsOnlyFor.conditionally {c : Cond} {s : State} {o : Outcome} (ho : StopsOnlyFor P o) :
    StopsOnlyFor (fun r => condHolds c s.cpsr = true ∧ P r) (conditionally c s o) := by
  cases hc : condHolds c s.cpsr with
  | false => rw [conditionally_fail s hc]; exact .next _
  | true => rw [conditionally_pass s hc]; simpa using ho

/-- A return stops in User mode and where the saved mode is outside Table 2. -/
theorem stopsOnlyFor_returnTo {s : State} {a : Word} {k : Cycles}
    (hu : s.cpsr.mode = .usr → P .restoreInUserMode) (hs : SavesIllegalMode s → P .illegalMode) :
    StopsOnlyFor P (s.returnTo a k) := by
  cases hp : s.savedOf s.cpsr.mode with
  | none => simp [State.returnTo, State.restored, hp, hu ((State.savedOf_eq_none s).mp hp)]
  | some p =>
    cases hq : p.toPsr with
    | none =>
      have hbad : SavesIllegalMode s := ⟨p, hp, by simpa [SavedPsr.toPsr] using hq⟩
      simp [State.returnTo, State.restored, hp, hq, hs hbad]
    | some q => simp [State.returnTo, State.restored, hp, hq]

/-- A test with Rd = R15 stops only where the saved mode is outside Table 2. -/
theorem stopsOnlyFor_testToPsr {r : AluOut} {k : Nat} {s : State} (hs : SavesIllegalMode s → P .illegalMode) :
    StopsOnlyFor P (testToPsr r k s) := by
  cases hp : s.savedOf s.cpsr.mode with
  | none =>
    simp only [testToPsr, State.privileged, (State.savedOf_eq_none s).mp hp]
    cases Config.testKeepsFlags s.drawIndex <;> simp
  | some p =>
    have hm : s.cpsr.mode ≠ .usr := fun h => by simp [(State.savedOf_eq_none s).mpr h] at hp
    cases hq : p.toPsr with
    | none =>
      have hbad : SavesIllegalMode s := ⟨p, hp, by simpa [SavedPsr.toPsr] using hq⟩
      simp [testToPsr, State.privileged, State.restored, hp, hq, hm, hs hbad]
    | some q => simp [testToPsr, State.privileged, State.restored, hp, hq, hm]

/-- Data processing stops only where it restores the CPSR: with Rd = R15, for a test or with S = 1. -/
theorem stopsOnlyFor_finishAlu {op : AluOp} {sf : Bool} {rd : Reg} {r : AluOut} {k : Nat} {s : State}
    (hu : op.isTest = false → sf = true → rd = 15 → s.cpsr.mode = .usr → P .restoreInUserMode)
    (hs : (op.isTest = true ∨ sf = true) → rd = 15 → SavesIllegalMode s → P .illegalMode) :
    StopsOnlyFor P (finishAlu op sf rd r k s) := by
  unfold finishAlu
  split
  case isTrue ht =>
    split
    case isTrue hd => exact stopsOnlyFor_testToPsr (hs (.inl ht) hd)
    case isFalse => exact .next _
  case isFalse ht =>
    split
    case isTrue hd =>
      split
      case isTrue hsf => exact stopsOnlyFor_returnTo (hu (by simpa using ht) hsf hd) (hs (.inr hsf) hd)
      case isFalse => exact .next _
    case isFalse => exact .next _

theorem stopsOnlyFor_loadSingle (size : Size) (p u w : Bool) (rn rd : Reg) (off : Word) (s : State) :
    StopsOnlyFor P (loadSingle size p u w rn rd off s) := by
  simp only [loadSingle]
  split
  · exact .next _
  · split <;> exact .next _

theorem stopsOnlyFor_storeSingle (size : Size) (p u w : Bool) (rn rd : Reg) (off : Word) (s : State) :
    StopsOnlyFor P (storeSingle size p u w rn rd off s) := by
  simp only [storeSingle]
  split <;> exact .next _

theorem stopsOnlyFor_swapSingle (size : Size) (rn rd rm : Reg) (s : State) :
    StopsOnlyFor P (swapSingle size rn rd rm s) := by
  simp only [swapSingle]
  split
  · exact .next _
  · split <;> exact .next _

theorem stopsOnlyFor_finishMultiply (sf : Bool) (rd : Reg) (v : Word) (m : Nat) (s : State) :
    StopsOnlyFor P (finishMultiply sf rd v m s) := trivial

theorem stopsOnlyFor_storeBlock (p u sb w : Bool) (rn : Reg) (list : BitVec 16) (s : State) :
    StopsOnlyFor P (storeBlock p u sb w rn list s) := by
  simp only [storeBlock]
  split <;> exact .next _

/-- The SPSR of the current mode depends on the CPSR and the SPSRs only. -/
theorem savesIllegalMode_congr {s t : State} (hc : t.cpsr = s.cpsr) (hs : t.spsr = s.spsr) :
    SavesIllegalMode t ↔ SavesIllegalMode s := by
  have hp : t.savedOf t.cpsr.mode = s.savedOf s.cpsr.mode := by
    rw [hc]
    cases s.cpsr.mode <;> simp [State.savedOf, hs]
  simp [SavesIllegalMode, hp]

/-- LDM stops only where it restores the CPSR: with S = 1 and R15 in the list. -/
theorem stopsOnlyFor_loadBlock {p u sb w : Bool} {rn : Reg} {list : BitVec 16} {s : State}
    (hu : sb = true → s.cpsr.mode = .usr → P .restoreInUserMode)
    (hs : sb = true → list.getLsbD 15 = true → SavesIllegalMode s → P .illegalMode) :
    StopsOnlyFor P (loadBlock p u sb w rn list s) := by
  simp only [loadBlock]
  split
  case isTrue => exact .next _
  case isFalse =>
    split
    case isTrue hl =>
      split
      case isTrue hb =>
        refine stopsOnlyFor_returnTo (fun hm => hu hb (by simpa using hm)) fun h => hs hb hl ?_
        exact (savesIllegalMode_congr (by simp) (by simp)).mp h
      case isFalse => exact .next _
    case isFalse => exact .next _

/-- The handshake adds no stop to that of a coprocessor that is ready. -/
theorem stopsOnlyFor_handshake {cp : BitVec 4} {w : Word} {s : State} {f : CoprocData → State → Outcome}
    (h : ∀ d t, StopsOnlyFor P (f d t)) : StopsOnlyFor P (handshake cp w s f) := by
  unfold handshake
  split
  · exact .next _
  · exact .next _
  · exact h _ _

theorem stopsOnlyFor_loadToCoproc (p u w : Bool) (rn : Reg) (cp : BitVec 4) (off : Byte) (d : CoprocData)
    (s : State) : StopsOnlyFor P (loadToCoproc p u w rn cp off d s) := by
  simp only [loadToCoproc]
  split <;> exact .next _

theorem stopsOnlyFor_storeFromCoproc (p u w : Bool) (rn : Reg) (off : Byte) (d : CoprocData) (s : State) :
    StopsOnlyFor P (storeFromCoproc p u w rn off d s) := by
  simp only [storeFromCoproc]
  split <;> exact .next _

theorem stopsOnlyFor_readFromCoproc (rd : Reg) (cp : BitVec 4) (d : CoprocData) (s : State) :
    StopsOnlyFor P (readFromCoproc rd cp d s) := by
  simp only [readFromCoproc]
  split <;> exact .next _

/-- MRS finds no PSR only where it reads an SPSR in User mode. -/
theorem State.psrValue_eq_none {s : State} {spsr : Bool} :
    s.psrValue spsr = none ↔ spsr = true ∧ s.cpsr.mode = .usr := by
  cases spsr <;> simp [State.psrValue, State.savedOf_eq_none]

/-- MSR of flags stops only for an SPSR in User mode. -/
theorem stopsOnlyFor_writePsrFlags {spsr : Bool} {v : Word} {s : State}
    (hu : spsr = true → s.cpsr.mode = .usr → P .spsrInUserMode) : StopsOnlyFor P (writePsrFlags spsr v s) := by
  unfold writePsrFlags
  split
  case isTrue hsp =>
    split
    case h_1 hp => exact hu hsp ((State.savedOf_eq_none s).mp hp)
    case h_2 => exact .next _
  case isFalse => exact .next _

/-- MSR of a word stops only for an SPSR in User mode and, in a privileged mode, for a mode outside Table 2. -/
theorem stopsOnlyFor_writeWholePsr {spsr : Bool} {v : Word} {s : State}
    (hu : spsr = true → s.cpsr.mode = .usr → P .spsrInUserMode)
    (hv : s.cpsr.mode ≠ .usr → Mode.ofBits (field v 0 5) = none → P .illegalMode) :
    StopsOnlyFor P (if spsr then writeWholeSpsr v s else writeWholeCpsr v s) := by
  by_cases hm : s.cpsr.mode = .usr
  · cases spsr <;> simp [writeWholeSpsr, writeWholeCpsr, State.privileged, hm, hu]
  · cases hq : (SavedPsr.ofWord v).toPsr with
    | none =>
      have hbad := hv hm (toPsr_ofWord_eq_none.mp hq)
      cases spsr <;> simp [writeWholeSpsr, writeWholeCpsr, State.privileged, hm, hq, hbad]
    | some q => cases spsr <;> simp [writeWholeSpsr, writeWholeCpsr, State.privileged, hm, hq]

/-- LDM and STM stop for a restriction on their fields, for the S bit in User mode, and for what the transfer stops
for. -/
theorem stopsOnlyFor_blockGuard {sb userBank w : Bool} {rn : Reg} {list : BitVec 16} {s : State} {o : Outcome}
    (hw : blockOk userBank w rn list = false → ∀ r, P r)
    (hu : sb = true → s.cpsr.mode = .usr → P .userBankInUserMode) (ho : StopsOnlyFor P o) :
    StopsOnlyFor P (blockGuard sb userBank w rn list s o) := by
  refine .refuseIf (fun h => hw ?_ _) <| .refuseIf (fun h => hw ?_ _) <| .refuseIf (fun h => ?_) <|
    .refuseIf (fun h => hw ?_ _) ho
  · simp_all [blockOk]
  · simp_all [blockOk]
  · obtain ⟨hsb, hp⟩ := Bool.and_eq_true_iff.mp h
    exact hu hsb (by simpa [State.privileged] using hp)
  · simp_all [blockOk]

end

/-! ### Only the restricted forms are refused -/

/-- The reasons for which an instruction may be refused in a state (`93_implementation_defined.md` section 1). -/
def MayRefuse (i : Instr) (s : State) (r : Refusal) : Prop :=
  i.wellFormed = false ∨
    (s.cpsr.mode = .usr ∧ ForbiddenInUserMode i ∧
      r ∈ [Refusal.restoreInUserMode, .spsrInUserMode, .userBankInUserMode]) ∨
    (s.cpsr.mode ≠ .usr ∧ r = .illegalMode ∧ (WritesIllegalMode i s ∨ (RestoresCpsr i ∧ SavesIllegalMode s)))

section
variable {i : Instr} {s : State}

theorem MayRefuse.of_forbidden {r : Refusal} (hm : s.cpsr.mode = .usr) (hf : ForbiddenInUserMode i)
    (hr : r ∈ [Refusal.restoreInUserMode, .spsrInUserMode, .userBankInUserMode]) : MayRefuse i s r :=
  .inr (.inl ⟨hm, hf, hr⟩)

theorem MayRefuse.of_writes (hm : s.cpsr.mode ≠ .usr) (hw : WritesIllegalMode i s) : MayRefuse i s .illegalMode :=
  .inr (.inr ⟨hm, rfl, .inl hw⟩)

/-- Only a privileged mode has an SPSR to restore from. -/
theorem MayRefuse.of_restores (hr : RestoresCpsr i) (hs : SavesIllegalMode s) : MayRefuse i s .illegalMode := by
  have hm : s.cpsr.mode ≠ .usr := fun h => by
    obtain ⟨p, hp, -⟩ := hs
    simp [(State.savedOf_eq_none s).mpr h] at hp
  exact .inr (.inr ⟨hm, rfl, .inr ⟨hr, hs⟩⟩)

end

/-- What an instruction stops for, family by family. -/
theorem exec_stopsOnlyFor (i : Instr) (s : State) :
    StopsOnlyFor (fun r => condHolds (condOf (encode i)) s.cpsr = true ∧ MayRefuse i s r) (exec i s) := by
  apply Instr.family_cases
    (motive := fun j c => StopsOnlyFor (fun r => condHolds c s.cpsr = true ∧ MayRefuse j s r) (exec j s)) (i := i)
  case data =>
    intro op c sf rn rd o
    rw [exec_operandForm_guarded]
    refine .conditionally (.refuseIf (fun h => .inl ?_) (stopsOnlyFor_finishAlu ?_ ?_))
    · simpa [wellFormed_operandForm] using h
    · rintro hop rfl rfl hm
      exact .of_forbidden hm (.inl ⟨op, c, rn, o, hop, rfl⟩) (by simp)
    · rintro h rfl hs
      exact .of_restores (.inl ⟨op, c, sf, rn, o, h, rfl⟩) hs
  case transfer =>
    intro load byte c p u w rn rd o
    rw [exec_offsetForm_guarded]
    refine .conditionally (.refuseIf (fun h => .inl ?_) (.refuseIf (fun h => .inl ?_) ?_))
    · simp_all [wellFormed_offsetForm]
    · simp_all [wellFormed_offsetForm]
    · cases load
      · exact .refuseIf (fun h => .inl (by simp_all [wellFormed_offsetForm])) (stopsOnlyFor_storeSingle ..)
      · exact .refuseIf (fun h => .inl (by simp_all [wellFormed_offsetForm])) (stopsOnlyFor_loadSingle ..)
  case mrs =>
    intro c spsr rd
    refine .conditionally (.refuseIf (fun h => .inl (by simp_all [Instr.wellFormed])) ?_)
    split
    case h_1 hv =>
      obtain ⟨hsp, hm⟩ := State.psrValue_eq_none.mp hv
      exact .of_forbidden hm (.inr (.inl ⟨c, rd, by rw [hsp]⟩)) (by simp)
    case h_2 => exact .next _
  case msrAll =>
    intro c spsr rm
    refine .conditionally (.refuseIf (fun h => .inl (by simp_all [Instr.wellFormed]))
      (stopsOnlyFor_writeWholePsr ?_ fun hm hv => .of_writes hm ⟨c, spsr, rm, rfl, hv⟩))
    rintro rfl hm
    exact .of_forbidden hm (.inr (.inr (.inl ⟨c, rm, .inl rfl⟩))) (by simp)
  case msrFlags =>
    intro c spsr rm
    refine .conditionally (.refuseIf (fun h => .inl (by simp_all [Instr.wellFormed]))
      (stopsOnlyFor_writePsrFlags ?_))
    rintro rfl hm
    exact .of_forbidden hm (.inr (.inr (.inl ⟨c, rm, .inr rfl⟩))) (by simp)
  case msrFlagsImm =>
    intro c spsr rot imm
    refine .conditionally (stopsOnlyFor_writePsrFlags ?_)
    rintro rfl hm
    exact .of_forbidden hm (.inr (.inr (.inr (.inl ⟨c, rot, imm, rfl⟩)))) (by simp)
  case mul | mla =>
    intro c sf rd rn rs rm
    exact .conditionally (.refuseIf (fun h => .inl (by simp_all [Instr.wellFormed]; tauto))
      (stopsOnlyFor_finishMultiply ..))
  case ldm =>
    intro c p u sb w rn list
    refine .conditionally (stopsOnlyFor_blockGuard (fun h _ => .inl h) ?_ (stopsOnlyFor_loadBlock ?_ ?_))
    · rintro rfl hm
      exact .of_forbidden hm (.inr (.inr (.inr (.inr ⟨c, p, u, w, rn, list, .inl rfl⟩)))) (by simp)
    · rintro rfl hm
      exact .of_forbidden hm (.inr (.inr (.inr (.inr ⟨c, p, u, w, rn, list, .inl rfl⟩)))) (by simp)
    · rintro rfl hl hs
      exact .of_restores (.inr ⟨c, p, u, w, rn, list, hl, rfl⟩) hs
  case stm =>
    intro c p u sb w rn list
    refine .conditionally (stopsOnlyFor_blockGuard (fun h _ => .inl h) ?_ (stopsOnlyFor_storeBlock ..))
    rintro rfl hm
    exact .of_forbidden hm (.inr (.inr (.inr (.inr ⟨c, p, u, w, rn, list, .inr rfl⟩)))) (by simp)
  case swp | swpb =>
    intro c rn rd rm
    exact .conditionally (.refuseIf (fun h => .inl (by simp_all [Instr.wellFormed]; tauto))
      (stopsOnlyFor_swapSingle ..))
  case undefined | b | bl | swi => intros; exact .conditionally (.next _)
  case cdp | mcr => intros; exact .conditionally (stopsOnlyFor_handshake fun _ _ => .next _)
  case mrc => intros; exact .conditionally (stopsOnlyFor_handshake fun _ _ => stopsOnlyFor_readFromCoproc ..)
  case ldc =>
    intro c p u n w rn crd cp off
    exact .conditionally (.refuseIf (fun h => .inl (by simp_all [Instr.wellFormed]))
      (stopsOnlyFor_handshake fun _ _ => stopsOnlyFor_loadToCoproc ..))
  case stc =>
    intro c p u n w rn crd cp off
    exact .conditionally (.refuseIf (fun h => .inl (by simp_all [Instr.wellFormed]))
      (stopsOnlyFor_handshake fun _ _ => stopsOnlyFor_storeFromCoproc ..))

/-- Settles O34, by what each family of instructions can stop for. -/
theorem onlyRestrictedFormsAreRefused : Obligations.OnlyRestrictedFormsAreRefused :=
  fun i s => stopsOnlyFor_iff.mp (exec_stopsOnlyFor i s)

/-! ### The step that runs an instruction -/

/-- A full pipeline takes no fetch at the start of a step. -/
theorem State.begin_bus_of_full {s : State} (h : s.pipe.length = 3) : s.begin.bus = [] := by
  simp [State.begin, State.prefetch, h, State.fetchMany]

/-- An undisturbed step executes the instruction that the next word decodes to. -/
theorem step_undisturbed {s : State} {f : Fetched} {i : Instr} (hu : Undisturbed s) (hn : NextWord s f)
    (ha : f.aborted = false) (hd : decode f.word = .ok i) : step s = settled (exec i s.begin) := by
  have hh : s.begin.head = f := (State.begin_head s f hn).1
  simp [step, boundary_undisturbed hu, dispatchWord, hh, ha, hd]

/-- Settles O5: the state with the pipeline filled is the one at the start of the step. -/
theorem stepRunsDecodedInstruction : Obligations.StepRunsDecodedInstruction := by
  intro s f i hu hn ha hd
  obtain ⟨l, hl, hlen⟩ := State.begin_pipe s
  refine ⟨s.begin, step_undisturbed hu hn ha hd, State.begin_eq s, (State.begin_head s f hn).2, ⟨l, hl.symm⟩, ?_,
    State.begin_bus_of_full⟩
  intro h3
  rw [hl, List.length_append]
  omega

end Sys2Proof.Machine
end

section
/-! SUPPORT. The registers that the modes share, and the invariant: what keeps it within an instruction, how an
instruction ends, and every step (`10_state.md` R24, R30, R47; `46_block_data_transfer.md` R318). -/

namespace Sys2Proof.Machine

/-! ### Banks -/

/-- A register other than R15 is one of User mode in the modes that do not bank it. -/
theorem banked_eq_false_iff {m : Mode} {r : Reg} (hr : r ≠ 15) :
    banked m r = false ↔ m = .usr ∨ r.val < 8 ∨ (r.val < 13 ∧ m ≠ .fiq) := by
  cases m <;> revert r <;> decide

/-- Registers of two modes have one place if they are the same register, and the mode the same or neither banks it. -/
theorem slot_eq_slot_iff {m n : Mode} {r q : Reg} (hr : r ≠ 15) (hq : q ≠ 15) :
    slot m r = slot n q ↔ r = q ∧ (m = n ∨ (banked m r = false ∧ banked n r = false)) := by
  constructor
  · intro h
    cases hb : banked m r with
    | true =>
      obtain ⟨rfl, rfl⟩ := slot_of_banked hb hq h
      exact ⟨rfl, .inl rfl⟩
    | false =>
      obtain ⟨hn, rfl⟩ := not_banked_of_slot_usr hq hr (h.symm.trans (slot_of_not_banked hr hb))
      exact ⟨rfl, .inr ⟨rfl, hn⟩⟩
  · rintro ⟨rfl, rfl | ⟨hm, hn⟩⟩
    · rfl
    · rw [slot_of_not_banked hr hm, slot_of_not_banked hr hn]

/-- R0 to R7 are shared by all modes, R8 to R12 by all but FIQ, R13 and R14 by none (`10_state.md` R24). -/
theorem shared_iff {m n : Mode} {r : Reg} (hr : r ≠ 15) :
    (m = n ∨ (banked m r = false ∧ banked n r = false)) ↔
      m = n ∨ r.val < 8 ∨ (r.val < 13 ∧ m ≠ .fiq ∧ n ≠ .fiq) := by
  rw [banked_eq_false_iff hr, banked_eq_false_iff hr]
  constructor
  · rintro (h | ⟨rfl | h8 | ⟨h13, hm⟩, rfl | h8' | ⟨h13', hn⟩⟩) <;> simp_all
  · rintro (h | h | ⟨h13, hm, hn⟩) <;> simp_all

/-- Settles O21: a write is seen where the two registers have one place. -/
theorem registerBanks : Obligations.RegisterBanks := by
  refine ⟨fun s m n r q v hr hq => ?_, fun s port ahead r => ?_⟩
  · have hplace : slot n q = slot m r ↔ r = q ∧ (m = n ∨ r.val < 8 ∨ (r.val < 13 ∧ m ≠ .fiq ∧ n ≠ .fiq)) := by
      rw [eq_comm, slot_eq_slot_iff hr hq, shared_iff hr]
    simp only [State.bankReg_setBank, hplace]
  · simp only [State.readReg, State.inHazard, Bool.and_eq_true]

/-! ### Reset -/

/-- Settles O16: every field of the reset state evaluates to its value. -/
theorem resetStateValues : Obligations.ResetStateValues := ⟨rfl, rfl, rfl, rfl, rfl, rfl⟩

/-- Settles O17: no word is fetched at reset, and the hazard mark is clear. -/
theorem invariantHoldsAtReset : Obligations.InvariantHoldsAtReset :=
  ⟨State.reset_wf, rfl, Nat.zero_le 3, nofun⟩

/-! ### Multiples of 4 -/

/-- The sum of two multiples of 4 is one. -/
theorem aligned_add {a k : Word} (ha : field a 0 2 = 0) (hk : field k 0 2 = 0) : field (a + k) 0 2 = 0 := by
  rw [← wordAddr_add a k ha hk]
  exact field_wordAddr _

/-- The length of some words is a multiple of 4. -/
theorem aligned_wordBytes (n : Nat) : field (wordBytes n) 0 2 = 0 := by
  rw [← BitVec.toNat_inj, field_low_toNat, wordBytes, BitVec.toNat_ofNat]
  simp

/-- Every vector is a multiple of 4 (`20_memory.md` R91). -/
theorem aligned_vector (x : Exception) : field x.vector 0 2 = 0 := by cases x <;> rfl

/-! ### Within an instruction -/

/-- The invariant but for the hazard mark: what each operation within an instruction keeps. The mark is set or cleared
by the end of the instruction. -/
def Sound (s : State) : Prop := Memory.wf s.mem = true ∧ field s.pc 0 2 = 0 ∧ s.pipe.length ≤ 3

section
variable {s t : State}

theorem invariant_iff_sound : Invariant s ↔ Sound s ∧ (s.hazard = true → s.cpsr.mode ≠ .usr) := by
  simp [Invariant, Sound, and_assoc]

theorem Invariant.sound (h : Invariant s) : Sound s := (invariant_iff_sound.mp h).1

/-- Without the hazard mark nothing is asked of the mode. -/
theorem Sound.invariant (h : Sound s) (hz : s.hazard = false) : Invariant s :=
  invariant_iff_sound.mpr ⟨h, by simp [hz]⟩

/-- The hazard mark may be set in a privileged mode. -/
theorem Sound.invariant_mark (h : Sound s) {u : Bool} (hu : u = true → s.cpsr.mode ≠ .usr) :
    Invariant { s with hazard := u } :=
  invariant_iff_sound.mpr ⟨h, hu⟩

/-- Soundness depends on memory, the pc and the pipeline only. -/
theorem Sound.congr (h : Sound s) (hm : t.mem = s.mem) (hp : t.pc = s.pc) (hq : t.pipe = s.pipe) : Sound t := by
  rwa [Sound, hm, hp, hq]

theorem Sound.log (h : Sound s) (e : BusEvent) : Sound (s.log e) := h

theorem Sound.load (h : Sound s) (acc : Access) : Sound (s.load acc) := h

theorem Sound.spend (h : Sound s) (k : Cycles) : Sound (s.spend k) := h

theorem Sound.setBank (h : Sound s) (m : Mode) (r : Reg) (v : Word) : Sound (s.setBank m r v) := h

theorem Sound.store (h : Sound s) (acc : Access) (v : Word) : Sound (s.store acc v) :=
  ⟨State.wf_store h.1, h.2⟩

theorem Sound.storeWords (h : Sound s) (a : Word) (vs : List Word) : Sound (s.storeWords a vs) := by
  obtain ⟨hm, hp, hq⟩ := h
  exact ⟨State.wf_storeWords hm, by simpa using hp, by simpa using hq⟩

theorem Sound.loadRegs (h : Sound s) (u ab : Bool) (a : Word) (rs : List Reg) : Sound (s.loadRegs u ab a rs) :=
  h.congr (by simp) (by simp) (by simp)

theorem Sound.loadCoproc (h : Sound s) (cp : BitVec 4) (n k : Nat) (a : Word) : Sound (s.loadCoproc cp n k a) :=
  h.congr (by simp) (by simp) (by simp)

/-- A write of R15 drops the low two bits and empties the pipeline (`10_state.md` R32). -/
theorem Sound.writeReg (h : Sound s) (r : Reg) (v : Word) : Sound (s.writeReg r v) := by
  unfold State.writeReg
  split
  · exact ⟨h.1, field_wordAddr v, Nat.zero_le 3⟩
  · exact h.setBank _ _ _

theorem Sound.writeBase (h : Sound s) (b : Bool) (rn : Reg) (v : Word) : Sound (s.writeBase b rn v) := by
  unfold State.writeBase
  split
  · exact h.writeReg rn v
  · exact h

theorem Sound.restoreBase (h : Sound s) (w : Bool) (rn : Reg) (final old : Word) :
    Sound (s.restoreBase w rn final old) := by
  unfold State.restoreBase
  split
  · exact h.writeReg rn final
  · exact h.setBank _ _ _

/-- Filling the pipeline brings it to three words at most. -/
theorem Sound.begin (h : Sound s) : Sound s.begin := by
  obtain ⟨hm, hp, hq⟩ := h
  obtain ⟨l, hl, hlen⟩ := State.begin_pipe s
  refine ⟨by simpa using hm, by simpa using hp, ?_⟩
  rw [hl, List.length_append]
  omega

/-- The start of a step leaves the hazard mark and the mode as they are. -/
theorem Invariant.begin (h : Invariant s) : Invariant s.begin := by
  obtain ⟨hs, hz⟩ := invariant_iff_sound.mp h
  exact invariant_iff_sound.mpr ⟨hs.begin, by simpa using hz⟩

/-! ### The ends of an instruction -/

theorem Sound.invariant_advance (h : Sound s) (k : Cycles) : Invariant (s.advance k) := by
  obtain ⟨hm, hp, hq⟩ := h
  refine Sound.invariant ⟨hm, aligned_add hp rfl, ?_⟩ rfl
  rw [State.advance_pipe, List.length_tail]
  omega

theorem Sound.invariant_jump (h : Sound s) (a : Word) (k : Cycles) : Invariant (s.jump a k) :=
  Sound.invariant ⟨h.1, field_wordAddr a, Nat.zero_le 3⟩ rfl

theorem Sound.invariant_raise (h : Sound s) (x : Exception) : Invariant (s.raise x) :=
  Sound.invariant ⟨h.1, aligned_vector x, Nat.zero_le 3⟩ rfl

theorem Sound.invariant_raiseDataAbort (h : Sound s) : Invariant s.raiseDataAbort :=
  Sound.invariant_raise (s := s.fetch (s.pc + 12)) h .dataAbort

theorem Sound.invariant_trapUndefined (h : Sound s) (w : Word) : Invariant (s.trapUndefined w) :=
  (h.log _).invariant_raise .undefined

/-- The mode may change where the hazard mark is clear. -/
theorem Invariant.setPsr (h : Invariant s) (hz : s.hazard = false) (p : Psr) : Invariant (s.setPsr p) :=
  Sound.invariant (s := s.setPsr p) h.sound hz

theorem Invariant.setSaved (h : Invariant s) (m : Mode) (p : SavedPsr) : Invariant (s.setSaved m p) := h

theorem Invariant.settle (h : Invariant s) : Invariant s.settle := by simpa [Invariant] using h

end

/-! ### The next state of an outcome -/

/-- The next state, if the outcome gives one, meets `P`. -/
def NextMeets (P : State → Prop) : Outcome → Prop
  | .next t => P t
  | .fault _ => True
  | .refused _ => True

/-- `NextMeets` in the words of a statement about steps. -/
theorem nextMeets_iff {P : State → Prop} {o : Outcome} : NextMeets P o ↔ ∀ t, o = .next t → P t := by
  cases o <;> simp [NextMeets]

section
variable {P : State → Prop} {s : State} {o : Outcome}

theorem NextMeets.next {t : State} (h : P t) : NextMeets P (.next t) := h

theorem NextMeets.refused (r : Refusal) : NextMeets P (.refused r) := trivial

/-- Past a guard the restriction is not broken. -/
theorem NextMeets.refuseIf {b : Bool} {r : Refusal} (h : b = false → NextMeets P o) :
    NextMeets P (refuseIf b r o) := by
  cases b with
  | false => exact h rfl
  | true => exact .refused r

theorem NextMeets.conditionally {c : Cond} (hskip : P (s.advance ⟨0, 1, 0, 0⟩)) (ho : NextMeets P o) :
    NextMeets P (conditionally c s o) := by
  cases hc : condHolds c s.cpsr with
  | false => rw [conditionally_fail s hc]; exact .next hskip
  | true => rw [conditionally_pass s hc]; exact ho

/-- Past the restrictions of LDM and STM the S bit stands in a privileged mode only. -/
theorem NextMeets.blockGuard {sb userBank w : Bool} {rn : Reg} {list : BitVec 16}
    (h : (sb = true → s.cpsr.mode ≠ .usr) → NextMeets P o) : NextMeets P (blockGuard sb userBank w rn list s o) := by
  refine .refuseIf fun _ => .refuseIf fun _ => .refuseIf fun hp => .refuseIf fun _ => h ?_
  rintro rfl
  simpa [State.privileged] using hp

theorem NextMeets.handshake {cp : BitVec 4} {w : Word} {f : CoprocData → State → Outcome}
    (absent : P (s.trapUndefined w)) (busy : P ((s.log (.offer w s.privileged s.cpsr.mode)).spend ⟨0, 0, 1, 0⟩))
    (ready : ∀ d, NextMeets P (f d (s.log (.offer w s.privileged s.cpsr.mode)))) :
    NextMeets P (handshake cp w s f) := by
  refine nextMeets_iff.mpr fun t ht => ?_
  rcases (handshake_next s).mp ht with ⟨-, rfl⟩ | ⟨-, rfl⟩ | ⟨d, -, hd⟩
  · exact absent
  · exact busy
  · exact nextMeets_iff.mp (ready d) t hd

end

/-! ### Families -/

section
variable {s : State}

theorem invariant_returnTo (h : Sound s) (a : Word) (k : Cycles) : NextMeets Invariant (s.returnTo a k) := by
  refine nextMeets_iff.mpr fun t ht => ?_
  obtain ⟨p, -, rfl⟩ := (State.returnTo_next s).mp ht
  exact (h.invariant_jump a k).setPsr rfl p

theorem invariant_testToPsr (h : Sound s) (r : AluOut) (k : Nat) : NextMeets Invariant (testToPsr r k s) := by
  refine nextMeets_iff.mpr fun t ht => ?_
  rcases (testToPsr_next s).mp ht with ⟨-, p, -, rfl⟩ | ⟨-, -, rfl⟩ | ⟨-, -, rfl⟩
  · exact (h.invariant_advance _).setPsr rfl p
  · exact h.invariant_advance _
  · exact (h.invariant_advance _).setPsr rfl _

theorem invariant_finishAlu (h : Sound s) (op : AluOp) (sf : Bool) (rd : Reg) (r : AluOut) (k : Nat) :
    NextMeets Invariant (finishAlu op sf rd r k s) := by
  refine nextMeets_iff.mpr fun t ht => ?_
  rcases (finishAlu_next s).mp ht with ⟨-, -, rfl⟩ | ⟨-, -, ht⟩ | ⟨-, -, -, ht⟩ | ⟨-, -, -, rfl⟩ | ⟨-, -, rfl⟩
  · exact (h.invariant_advance _).setPsr rfl _
  · exact nextMeets_iff.mp (invariant_testToPsr h r k) t ht
  · exact nextMeets_iff.mp (invariant_returnTo h _ _) t ht
  · exact h.invariant_jump _ _
  · exact ((h.writeReg rd _).invariant_advance _).setPsr rfl _

theorem invariant_finishMultiply (h : Sound s) (sf : Bool) (rd : Reg) (v : Word) (m : Nat) :
    NextMeets Invariant (finishMultiply sf rd v m s) :=
  .next (((h.writeReg rd v).invariant_advance _).setPsr rfl _)

theorem invariant_writePsrFlags (h : Sound s) (spsr : Bool) (v : Word) :
    NextMeets Invariant (writePsrFlags spsr v s) := by
  unfold writePsrFlags
  split
  · split
    · exact .refused _
    · exact .next ((h.invariant_advance _).setSaved _ _)
  · exact .next ((h.invariant_advance _).setPsr rfl _)

theorem invariant_writeWholeCpsr (h : Sound s) (v : Word) : NextMeets Invariant (writeWholeCpsr v s) := by
  unfold writeWholeCpsr
  split
  · split
    · exact .refused _
    · exact .next ((h.invariant_advance _).setPsr rfl _)
  · exact .next ((h.invariant_advance _).setPsr rfl _)

theorem invariant_writeWholeSpsr (h : Sound s) (v : Word) : NextMeets Invariant (writeWholeSpsr v s) := by
  unfold writeWholeSpsr
  split
  · split
    · exact .refused _
    · exact .next ((h.invariant_advance _).setSaved _ _)
  · exact .refused _

theorem invariant_loadSingle (h : Sound s) (size : Size) (p u w : Bool) (rn rd : Reg) (off : Word) :
    NextMeets Invariant (loadSingle size p u w rn rd off s) := by
  have hbase (acc : Access) (v : Word) : Sound ((s.load acc).writeBase (writesBack p w) rn v) :=
    (h.load acc).writeBase _ _ _
  simp only [loadSingle]
  split
  · exact .next ((hbase _ _).spend _).invariant_raiseDataAbort
  · split
    · exact .next ((hbase _ _).invariant_jump _ _)
    · exact .next (((hbase _ _).writeReg rd _).invariant_advance _)

theorem invariant_storeSingle (h : Sound s) (size : Size) (p u w : Bool) (rn rd : Reg) (off : Word) :
    NextMeets Invariant (storeSingle size p u w rn rd off s) := by
  have hbase (acc : Access) (x v : Word) : Sound ((s.store acc x).writeBase (writesBack p w) rn v) :=
    (h.store acc x).writeBase _ _ _
  simp only [storeSingle]
  split
  · exact .next ((hbase _ _ _).spend _).invariant_raiseDataAbort
  · exact .next ((hbase _ _ _).invariant_advance _)

/-- LDM sets the hazard mark at its end if it loads the User bank, which the S bit asks for in a privileged mode
(`46_block_data_transfer.md` R318). -/
theorem invariant_loadBlock (h : Sound s) (p u sb w : Bool) (rn : Reg) (list : BitVec 16)
    (hp : sb = true → s.cpsr.mode ≠ .usr) : NextMeets Invariant (loadBlock p u sb w rn list s) := by
  have hloaded (v a : Word) (b : Bool) : Sound ((s.writeBase w rn v).loadRegs b false a (regsOf list)) :=
    (h.writeBase w rn v).loadRegs _ _ _ _
  simp only [loadBlock]
  split
  · exact .next (((hloaded _ _ _).restoreBase _ _ _ _).spend _).invariant_raiseDataAbort
  split
  · split
    · exact invariant_returnTo (hloaded _ _ _) _ _
    · exact .next ((hloaded _ _ _).invariant_jump _ _)
  · refine .next (((hloaded _ _ _).invariant_advance _).sound.invariant_mark fun hu => ?_)
    simpa using hp (Bool.and_eq_true_iff.mp hu).1

theorem invariant_storeBlock (h : Sound s) (p u sb w : Bool) (rn : Reg) (list : BitVec 16) :
    NextMeets Invariant (storeBlock p u sb w rn list s) := by
  have hstored (a v : Word) (vs : List Word) : Sound ((s.storeWords a vs).writeBase w rn v) :=
    (h.storeWords a vs).writeBase w rn v
  simp only [storeBlock]
  split
  · exact .next ((hstored _ _ _).spend _).invariant_raiseDataAbort
  · exact .next ((hstored _ _ _).invariant_advance _)

theorem invariant_swapSingle (h : Sound s) (size : Size) (rn rd rm : Reg) :
    NextMeets Invariant (swapSingle size rn rd rm s) := by
  have hread (acc : Access) : Sound (s.load acc) := h.load acc
  simp only [swapSingle]
  split
  · refine .next (Sound.spend ?_ _).invariant_raiseDataAbort
    split
    · exact (hread _).store _ _
    · exact hread _
  split
  · exact .next (((hread _).store _ _).spend _).invariant_raiseDataAbort
  · exact .next ((((hread _).store _ _).writeReg rd _).invariant_advance _)

theorem invariant_loadToCoproc (h : Sound s) (p u w : Bool) (rn : Reg) (cp : BitVec 4) (off : Byte)
    (d : CoprocData) : NextMeets Invariant (loadToCoproc p u w rn cp off d s) := by
  have hloaded (n : Nat) (a v : Word) : Sound ((s.loadCoproc cp n 0 a).writeBase w rn v) :=
    (h.loadCoproc cp n 0 a).writeBase w rn v
  simp only [loadToCoproc]
  split
  · exact .next ((hloaded _ _ _).spend _).invariant_raiseDataAbort
  · exact .next ((hloaded _ _ _).invariant_advance _)

theorem invariant_storeFromCoproc (h : Sound s) (p u w : Bool) (rn : Reg) (off : Byte) (d : CoprocData) :
    NextMeets Invariant (storeFromCoproc p u w rn off d s) := by
  have hstored (a v : Word) (vs : List Word) : Sound ((s.storeWords a vs).writeBase w rn v) :=
    (h.storeWords a vs).writeBase w rn v
  simp only [storeFromCoproc]
  split
  · exact .next ((hstored _ _ _).spend _).invariant_raiseDataAbort
  · exact .next ((hstored _ _ _).invariant_advance _)

theorem invariant_readFromCoproc (h : Sound s) (rd : Reg) (cp : BitVec 4) (d : CoprocData) :
    NextMeets Invariant (readFromCoproc rd cp d s) := by
  simp only [readFromCoproc]
  split
  · exact .next (((h.log _).invariant_advance _).setPsr rfl _)
  · exact .next (((h.log _).writeReg rd _).invariant_advance _)

/-- The handshake: a busy coprocessor leaves the instruction to the next step, with the hazard mark as it was. -/
theorem invariant_handshake (h : Invariant s) (cp : BitVec 4) (w : Word) {f : CoprocData → State → Outcome}
    (hf : ∀ d t, Sound t → NextMeets Invariant (f d t)) : NextMeets Invariant (handshake cp w s f) :=
  .handshake (h.sound.invariant_trapUndefined w) h fun d => hf d _ (h.sound.log _)

/-- Every instruction keeps the invariant, family by family. -/
theorem invariant_exec (h : Invariant s) (i : Instr) : NextMeets Invariant (exec i s) := by
  have hs : Sound s := h.sound
  have hskip : Invariant (s.advance ⟨0, 1, 0, 0⟩) := hs.invariant_advance _
  apply Instr.family_cases (motive := fun j _ => NextMeets Invariant (exec j s)) (i := i)
  case data =>
    intro op c sf rn rd o
    rw [exec_operandForm_guarded]
    exact .conditionally hskip (.refuseIf fun _ => invariant_finishAlu hs ..)
  case transfer =>
    intro load byte c p u w rn rd o
    rw [exec_offsetForm_guarded]
    refine .conditionally hskip (.refuseIf fun _ => .refuseIf fun _ => ?_)
    cases load with
    | true => exact .refuseIf fun _ => invariant_loadSingle hs ..
    | false => exact .refuseIf fun _ => invariant_storeSingle hs ..
  case mrs =>
    intro c spsr rd
    refine .conditionally hskip (.refuseIf fun _ => ?_)
    split
    · exact .refused _
    · exact .next ((hs.writeReg rd _).invariant_advance _)
  case msrAll =>
    intro c spsr rm
    refine .conditionally hskip (.refuseIf fun _ => ?_)
    cases spsr with
    | true => exact invariant_writeWholeSpsr hs _
    | false => exact invariant_writeWholeCpsr hs _
  case msrFlags => intros; exact .conditionally hskip (.refuseIf fun _ => invariant_writePsrFlags hs ..)
  case msrFlagsImm => intros; exact .conditionally hskip (invariant_writePsrFlags hs ..)
  case mul | mla => intros; exact .conditionally hskip (.refuseIf fun _ => invariant_finishMultiply hs ..)
  case ldm => intros; exact .conditionally hskip (.blockGuard fun hp => invariant_loadBlock hs _ _ _ _ _ _ hp)
  case stm => intros; exact .conditionally hskip (.blockGuard fun _ => invariant_storeBlock hs ..)
  case b => intros; exact .conditionally hskip (.next (hs.invariant_jump _ _))
  case bl => intros; exact .conditionally hskip (.next ((hs.writeReg 14 _).invariant_jump _ _))
  case swp | swpb => intros; exact .conditionally hskip (.refuseIf fun _ => invariant_swapSingle hs ..)
  case swi => intros; exact .conditionally hskip (.next (hs.invariant_raise .swi))
  case undefined => intros; exact .conditionally hskip (.next (hs.invariant_trapUndefined _))
  case cdp | mcr =>
    intros
    exact .conditionally hskip (invariant_handshake h _ _ fun _ _ ht => .next ((ht.log _).invariant_advance _))
  case ldc =>
    intros
    exact .conditionally hskip (.refuseIf fun _ =>
      invariant_handshake h _ _ fun d _ ht => invariant_loadToCoproc ht _ _ _ _ _ _ d)
  case stc =>
    intros
    exact .conditionally hskip (.refuseIf fun _ =>
      invariant_handshake h _ _ fun d _ ht => invariant_storeFromCoproc ht _ _ _ _ _ d)
  case mrc =>
    intros
    exact .conditionally hskip (invariant_handshake h _ _ fun d _ ht => invariant_readFromCoproc ht _ _ d)

end

/-! ### Every step -/

/-- A cycle of reset goes to the word after those fetched (`70_reset_and_hazards.md` R460). -/
theorem invariant_resetCycle {s : State} (h : Sound s) : Invariant s.resetCycle := by
  obtain ⟨hm, hp, -⟩ := h
  obtain ⟨m, b, e, hwf⟩ := State.resetCycle_exists s
  rw [e]
  exact Sound.invariant ⟨hwf hm, aligned_add (aligned_add hp (aligned_wordBytes _)) rfl, Nat.zero_le 3⟩ rfl

/-- The end of reset goes to address 0 with the pipeline empty and the hazard mark clear. -/
theorem invariant_enterReset {s : State} (h : Sound s) : Invariant s.enterReset :=
  Sound.invariant ⟨by simpa using h.1, by simp [field], by simp⟩ (by simp)

/-- Settles O18, by what a step can come to. -/
theorem everyStepKeepsInvariant : Obligations.EveryStepKeepsInvariant := by
  intro s t h hstep
  obtain ⟨u, rfl, hu⟩ := step_cases hstep
  apply Invariant.settle
  rcases hu with ⟨-, rfl⟩ | ⟨-, -, rfl⟩ | ⟨-, -, ⟨x, -, rfl⟩ | rfl | ⟨i, -, hi⟩⟩
  · exact invariant_resetCycle h.sound
  · exact invariant_enterReset h.sound
  · exact h.sound.begin.invariant_raise x
  · exact h.sound.begin.invariant_advance _
  · exact nextMeets_iff.mp (invariant_exec h.begin i) u hi

end Sys2Proof.Machine
end

section
/-! SUPPORT. What a store leaves where it reaches, and what a step leaves of the words it fetched (`20_memory.md` R80,
R81, R87, R96; `10_state.md` R47). -/

namespace Sys2Proof.Machine

/-! ### Reading back what was stored -/

section
variable {s : State} {acc : Access} {v : Word}

/-- A read of plain storage finds the byte that a store left there. -/
theorem State.readByte_store (hwf : Memory.wf s.mem = true) (ha : s.aborts acc = false) {a : Word}
    (hr : acc.reaches a = true) (hw : s.writable a = true) :
    (s.store acc v).readByte a = storedByte s.bigend acc v a := by
  have hstored := Stored.store (v := v) hwf ha a hr
  rw [hw, if_pos rfl] at hstored
  rwa [State.readByte_of_writable (by simpa using hw)]

/-- A word is what its four bytes make it. -/
theorem State.wordAt_eq_of_bytes {a : Word}
    (h : ∀ k < 4, s.readByte (wordAddr a + BitVec.ofNat 32 k) = byteOf s.bigend v k) : s.wordAt a = v := by
  have h0 : s.readByte (wordAddr a) = byteOf s.bigend v 0 := by simpa using h 0 (by decide)
  have h1 : s.readByte (wordAddr a + 1) = byteOf s.bigend v 1 := h 1 (by decide)
  have h2 : s.readByte (wordAddr a + 2) = byteOf s.bigend v 2 := h 2 (by decide)
  have h3 : s.readByte (wordAddr a + 3) = byteOf s.bigend v 3 := h 3 (by decide)
  rw [State.wordAt, h0, h1, h2, h3, assembleWord_byteOf]

/-- A word stored in plain storage is read back. -/
theorem State.wordAt_store (hwf : Memory.wf s.mem = true) (ha : s.aborts acc = false) (hsize : acc.size = .word)
    (hw : ∀ a, acc.reaches a = true → s.writable a = true) : (s.store acc v).wordAt acc.addr = v := by
  refine State.wordAt_eq_of_bytes fun k hk => ?_
  obtain ⟨hword, hoffset⟩ := (addr_eq_iff acc.addr _ k hk).mp rfl
  have hr : acc.reaches (wordAddr acc.addr + BitVec.ofNat 32 k) = true := by simp [Access.reaches, hsize, hword]
  rw [State.readByte_store hwf ha hr (hw _ hr), State.store_bigend]
  simp only [storedByte, hsize, hoffset]

/-- A byte stored in plain storage is read back. -/
theorem State.readByte_store_byte (hwf : Memory.wf s.mem = true) (ha : s.aborts acc = false)
    (hsize : acc.size = .byte) (hw : ∀ a, acc.reaches a = true → s.writable a = true) :
    (s.store acc v).readByte acc.addr = v.lowByte := by
  have hr : acc.reaches acc.addr = true := by simp [Access.reaches, hsize]
  rw [State.readByte_store hwf ha hr (hw _ hr)]
  simp only [storedByte, hsize]

/-- An aborted store keeps every byte (`20_memory.md` R87). -/
theorem KeepsMemory.store_of_aborts (ha : s.aborts acc = true) : KeepsMemory s (s.store acc v) := fun a => by
  simp [State.byteAt, ha]

/-- Each of the four bytes driven in a byte write is the byte (`20_memory.md` R81). -/
theorem field_driven_byte (v : Word) {k : Nat} (hk : k < 4) : field (driven .byte v) (8 * k) 8 = v.lowByte := by
  match k, hk with
  | 0, _ | 1, _ | 2, _ | 3, _ => simp [driven, field_cat_low, field_cat_high]

end

/-- Settles O45, by what a byte is after a store. -/
theorem writesReachMemory : Obligations.WritesReachMemory := by
  intro s acc v hwf
  refine ⟨KeepsMemory.store_of_aborts, fun ha => ⟨KeepsMemoryBut.store hwf, fun _ => State.byteAt_store_kept hwf,
    fun hw => ⟨fun hsize => State.wordAt_store hwf ha hsize hw,
      fun hsize => State.readByte_store_byte hwf ha hsize hw⟩⟩, fun hsize => ?_⟩
  refine ⟨driven acc.size v, s.found acc, rfl, fun k hk => ?_⟩
  rw [hsize]
  exact field_driven_byte v hk

/-! ### The words fetched at the start of a step -/

/-- The word that a fetch finds `k` places past the instruction, with its abort mark (`10_state.md` R47). -/
def State.fetchedAt (s : State) (k : Nat) : Fetched :=
  ⟨s.wordAt (wordPlace s.pc k), s.aborts (s.fetchAccess (wordPlace s.pc k))⟩

/-- Fetches append the words that follow those in the pipeline. -/
theorem State.fetchMany_pipe_eq (s : State) (n : Nat) :
    (s.fetchMany n).pipe = s.pipe ++ (List.range' s.pipe.length n).map s.fetchedAt := by
  induction n generalizing s with
  | zero => simp [State.fetchMany]
  | succ n ih =>
    have hpipe : s.fetchNext.pipe = s.pipe ++ [s.fetchedAt s.pipe.length] := rfl
    have hfetched : s.fetchNext.fetchedAt = s.fetchedAt := rfl
    rw [State.fetchMany, ih, hfetched, hpipe, List.range'_succ]
    simp

/-- At the start of a step the pipeline is filled with the words that follow those in it (`20_memory.md` R96). -/
theorem State.begin_pipe_eq (s : State) :
    s.begin.pipe = s.pipe ++ (List.range' s.pipe.length (3 - s.pipe.length)).map s.fetchedAt :=
  State.fetchMany_pipe_eq { s with bus := [] } (3 - s.pipe.length)

/-- A word that the start of a step fetches. -/
theorem State.begin_pipe_getElem? (s : State) {k : Nat} (hl : s.pipe.length ≤ k) (hk : k < 3) :
    s.begin.pipe[k]? = some (s.fetchedAt k) := by
  rw [State.begin_pipe_eq, List.getElem?_append_right hl, List.getElem?_map, List.getElem?_range' (by omega)]
  simp only [Option.map_some]
  congr 2
  omega

/-! ### The pipeline within an instruction -/

/-- Within an instruction: the pipeline is emptied, or it is as it was and so is the pc. -/
def PipeInPlace (s t : State) : Prop := t.pipe = [] ∨ (t.pc = s.pc ∧ t.pipe = s.pipe)

/-- At the end of an instruction: the pipeline is emptied, or it has moved up to the next instruction, or it is left
to an instruction that is offered again. -/
def PipeAfter (s t : State) : Prop :=
  t.pipe = [] ∨ (t.pc = s.pc + 4 ∧ t.pipe = s.pipe.tail) ∨ (t.pc = s.pc ∧ t.pipe = s.pipe)

section
variable {s t : State}

theorem PipeInPlace.refl (s : State) : PipeInPlace s s := .inr ⟨rfl, rfl⟩

/-- A write of R15 empties the pipeline (`10_state.md` R32); one of another register leaves it. -/
theorem PipeInPlace.writeReg (h : PipeInPlace s t) (r : Reg) (v : Word) : PipeInPlace s (t.writeReg r v) := by
  by_cases hr : r = 15
  · exact .inl (by simp [State.writeReg, hr])
  · simpa [PipeInPlace, hr] using h

theorem PipeInPlace.writeBase (h : PipeInPlace s t) (b : Bool) (rn : Reg) (v : Word) :
    PipeInPlace s (t.writeBase b rn v) := by
  cases b with
  | false => exact h
  | true => exact h.writeReg rn v

theorem PipeInPlace.storeWords (h : PipeInPlace s t) (a : Word) (vs : List Word) :
    PipeInPlace s (t.storeWords a vs) := by
  simpa [PipeInPlace] using h

theorem PipeInPlace.loadRegs (h : PipeInPlace s t) (u ab : Bool) (a : Word) (rs : List Reg) :
    PipeInPlace s (t.loadRegs u ab a rs) := by
  simpa [PipeInPlace] using h

theorem PipeInPlace.loadCoproc (h : PipeInPlace s t) (cp : BitVec 4) (n k : Nat) (a : Word) :
    PipeInPlace s (t.loadCoproc cp n k a) := by
  simpa [PipeInPlace] using h

/-- The next instruction in order finds the pipeline moved up by a word (`10_state.md` R33). -/
theorem PipeInPlace.advance (h : PipeInPlace s t) (k : Cycles) : PipeAfter s (t.advance k) := by
  rcases h with hempty | ⟨hpc, hpipe⟩
  · exact .inl (by simp [hempty])
  · exact .inr (.inl ⟨by simp [hpc], by simp [hpipe]⟩)

theorem PipeAfter.of_empty (h : t.pipe = []) : PipeAfter s t := .inl h

theorem PipeAfter.setPsr (h : PipeAfter s t) (p : Psr) : PipeAfter s (t.setPsr p) := h

theorem PipeAfter.setSaved (h : PipeAfter s t) (m : Mode) (p : SavedPsr) : PipeAfter s (t.setSaved m p) := h

theorem PipeAfter.mark (h : PipeAfter s t) (u : Bool) : PipeAfter s { t with hazard := u } := h

/-- The next inputs change nothing of the pipeline. -/
theorem PipeAfter.settle (h : PipeAfter s t) : PipeAfter s t.settle := by simpa [PipeAfter] using h

end

/-! ### The pipeline at the end of an instruction -/

section
variable (s : State)

theorem pipeAfter_advance (k : Cycles) : PipeAfter s (s.advance k) := (PipeInPlace.refl s).advance k

theorem pipeAfter_writeReg_advance (r : Reg) (v : Word) (k : Cycles) : PipeAfter s ((s.writeReg r v).advance k) :=
  ((PipeInPlace.refl s).writeReg r v).advance k

/-- A return empties the pipeline, whatever came before it. -/
theorem pipeAfter_returnTo (t : State) (a : Word) (k : Cycles) : NextMeets (PipeAfter s) (t.returnTo a k) := by
  refine nextMeets_iff.mpr fun u hu => ?_
  obtain ⟨p, -, rfl⟩ := (State.returnTo_next t).mp hu
  exact .of_empty rfl

theorem pipeAfter_testToPsr (r : AluOut) (k : Nat) : NextMeets (PipeAfter s) (testToPsr r k s) := by
  refine nextMeets_iff.mpr fun t ht => ?_
  rcases (testToPsr_next s).mp ht with ⟨-, p, -, rfl⟩ | ⟨-, -, rfl⟩ | ⟨-, -, rfl⟩
  · exact (pipeAfter_advance s _).setPsr p
  · exact pipeAfter_advance s _
  · exact (pipeAfter_advance s _).setPsr _

theorem pipeAfter_finishAlu (op : AluOp) (sf : Bool) (rd : Reg) (r : AluOut) (k : Nat) :
    NextMeets (PipeAfter s) (finishAlu op sf rd r k s) := by
  refine nextMeets_iff.mpr fun t ht => ?_
  rcases (finishAlu_next s).mp ht with ⟨-, -, rfl⟩ | ⟨-, -, ht⟩ | ⟨-, -, -, ht⟩ | ⟨-, -, -, rfl⟩ | ⟨-, -, rfl⟩
  · exact (pipeAfter_advance s _).setPsr _
  · exact nextMeets_iff.mp (pipeAfter_testToPsr s r k) t ht
  · exact nextMeets_iff.mp (pipeAfter_returnTo s s _ _) t ht
  · exact .of_empty rfl
  · exact (pipeAfter_writeReg_advance s rd _ _).setPsr _

theorem pipeAfter_writePsrFlags (spsr : Bool) (v : Word) : NextMeets (PipeAfter s) (writePsrFlags spsr v s) := by
  unfold writePsrFlags
  split
  · split
    · exact .refused _
    · exact .next ((pipeAfter_advance s _).setSaved _ _)
  · exact .next ((pipeAfter_advance s _).setPsr _)

theorem pipeAfter_writeWholeCpsr (v : Word) : NextMeets (PipeAfter s) (writeWholeCpsr v s) := by
  unfold writeWholeCpsr
  split
  · split
    · exact .refused _
    · exact .next ((pipeAfter_advance s _).setPsr _)
  · exact .next ((pipeAfter_advance s _).setPsr _)

theorem pipeAfter_writeWholeSpsr (v : Word) : NextMeets (PipeAfter s) (writeWholeSpsr v s) := by
  unfold writeWholeSpsr
  split
  · split
    · exact .refused _
    · exact .next ((pipeAfter_advance s _).setSaved _ _)
  · exact .refused _

/-- An instruction that ends in a data abort, which empties the pipeline, or else with the next one in order. -/
theorem pipeAfter_abort_or_advance {s t : State} (h : PipeInPlace s t) (aborts : Bool) (u : State) (k : Cycles) :
    NextMeets (PipeAfter s) (if aborts then .next u.raiseDataAbort else .next (t.advance k)) := by
  cases aborts with
  | true => exact .next (.of_empty rfl)
  | false => exact .next (h.advance k)

theorem pipeAfter_loadSingle (size : Size) (p u w : Bool) (rn rd : Reg) (off : Word) :
    NextMeets (PipeAfter s) (loadSingle size p u w rn rd off s) := by
  have hbase (acc : Access) (v : Word) : PipeInPlace s ((s.load acc).writeBase (writesBack p w) rn v) :=
    (PipeInPlace.refl s).writeBase (t := s.load acc) _ rn v
  simp only [loadSingle]
  split
  · exact .next (.of_empty rfl)
  · split
    · exact .next (.of_empty rfl)
    · exact .next (((hbase _ _).writeReg rd _).advance _)

theorem pipeAfter_storeSingle (size : Size) (p u w : Bool) (rn rd : Reg) (off : Word) :
    NextMeets (PipeAfter s) (storeSingle size p u w rn rd off s) :=
  pipeAfter_abort_or_advance ((PipeInPlace.refl s).writeBase (t := s.store _ _) _ _ _) _ _ _

theorem pipeAfter_loadBlock (p u sb w : Bool) (rn : Reg) (list : BitVec 16) :
    NextMeets (PipeAfter s) (loadBlock p u sb w rn list s) := by
  simp only [loadBlock]
  split
  · exact .next (.of_empty rfl)
  split
  · split
    · exact pipeAfter_returnTo s ..
    · exact .next (.of_empty rfl)
  · exact .next (((((PipeInPlace.refl s).writeBase w rn _).loadRegs _ _ _ _).advance _).mark _)

theorem pipeAfter_storeBlock (p u sb w : Bool) (rn : Reg) (list : BitVec 16) :
    NextMeets (PipeAfter s) (storeBlock p u sb w rn list s) :=
  pipeAfter_abort_or_advance (((PipeInPlace.refl s).storeWords _ _).writeBase _ _ _) _ _ _

theorem pipeAfter_swapSingle (size : Size) (rn rd rm : Reg) :
    NextMeets (PipeAfter s) (swapSingle size rn rd rm s) := by
  have hswapped (r w : Access) (x : Word) : PipeInPlace s ((s.load r).store w x) := .refl s
  simp only [swapSingle]
  split
  · exact .next (.of_empty rfl)
  · exact pipeAfter_abort_or_advance ((hswapped _ _ _).writeReg rd _) _ _ _

theorem pipeAfter_loadToCoproc (p u w : Bool) (rn : Reg) (cp : BitVec 4) (off : Byte) (d : CoprocData) :
    NextMeets (PipeAfter s) (loadToCoproc p u w rn cp off d s) :=
  pipeAfter_abort_or_advance (((PipeInPlace.refl s).loadCoproc cp _ _ _).writeBase _ _ _) _ _ _

theorem pipeAfter_storeFromCoproc (p u w : Bool) (rn : Reg) (off : Byte) (d : CoprocData) :
    NextMeets (PipeAfter s) (storeFromCoproc p u w rn off d s) :=
  pipeAfter_abort_or_advance (((PipeInPlace.refl s).storeWords _ _).writeBase _ _ _) _ _ _

theorem pipeAfter_readFromCoproc (rd : Reg) (cp : BitVec 4) (d : CoprocData) :
    NextMeets (PipeAfter s) (readFromCoproc rd cp d s) := by
  simp only [readFromCoproc]
  split
  · exact .next ((pipeAfter_advance (s.log _) _).setPsr _)
  · exact .next (pipeAfter_writeReg_advance (s.log _) rd _ _)

/-- The handshake: no coprocessor traps the instruction, a busy one leaves it to the next step. -/
theorem pipeAfter_handshake (cp : BitVec 4) (w : Word) {f : CoprocData → State → Outcome}
    (hf : ∀ d t, NextMeets (PipeAfter t) (f d t)) : NextMeets (PipeAfter s) (handshake cp w s f) :=
  .handshake (.of_empty rfl) (.inr (.inr ⟨rfl, rfl⟩)) fun d => hf d (s.log _)

/-- What every instruction leaves of the pipeline, family by family. -/
theorem pipeAfter_exec (i : Instr) : NextMeets (PipeAfter s) (exec i s) := by
  have hskip : PipeAfter s (s.advance ⟨0, 1, 0, 0⟩) := pipeAfter_advance s _
  apply Instr.family_cases (motive := fun j _ => NextMeets (PipeAfter s) (exec j s)) (i := i)
  case data =>
    intro op c sf rn rd o
    rw [exec_operandForm_guarded]
    exact .conditionally hskip (.refuseIf fun _ => pipeAfter_finishAlu s ..)
  case transfer =>
    intro load byte c p u w rn rd o
    rw [exec_offsetForm_guarded]
    refine .conditionally hskip (.refuseIf fun _ => .refuseIf fun _ => ?_)
    cases load with
    | true => exact .refuseIf fun _ => pipeAfter_loadSingle s ..
    | false => exact .refuseIf fun _ => pipeAfter_storeSingle s ..
  case mrs =>
    intro c spsr rd
    refine .conditionally hskip (.refuseIf fun _ => ?_)
    split
    · exact .refused _
    · exact .next (pipeAfter_writeReg_advance s rd _ _)
  case msrAll =>
    intro c spsr rm
    refine .conditionally hskip (.refuseIf fun _ => ?_)
    cases spsr with
    | true => exact pipeAfter_writeWholeSpsr s _
    | false => exact pipeAfter_writeWholeCpsr s _
  case msrFlags => intros; exact .conditionally hskip (.refuseIf fun _ => pipeAfter_writePsrFlags s ..)
  case msrFlagsImm => intros; exact .conditionally hskip (pipeAfter_writePsrFlags s ..)
  case mul | mla => intros; exact .conditionally hskip (.refuseIf fun _ => (pipeAfter_writeReg_advance s ..).setPsr _)
  case ldm => intros; exact .conditionally hskip (.blockGuard fun _ => pipeAfter_loadBlock s ..)
  case stm => intros; exact .conditionally hskip (.blockGuard fun _ => pipeAfter_storeBlock s ..)
  case b | bl | swi | undefined => intros; exact .conditionally hskip (.next (.of_empty rfl))
  case swp | swpb => intros; exact .conditionally hskip (.refuseIf fun _ => pipeAfter_swapSingle s ..)
  case cdp | mcr =>
    intros
    exact .conditionally hskip (pipeAfter_handshake s _ _ fun _ t => .next (pipeAfter_advance (t.log _) _))
  case ldc =>
    intros
    exact .conditionally hskip (.refuseIf fun _ =>
      pipeAfter_handshake s _ _ fun d t => pipeAfter_loadToCoproc t _ _ _ _ _ _ d)
  case stc =>
    intros
    exact .conditionally hskip (.refuseIf fun _ =>
      pipeAfter_handshake s _ _ fun d t => pipeAfter_storeFromCoproc t _ _ _ _ _ d)
  case mrc =>
    intros
    exact .conditionally hskip (pipeAfter_handshake s _ _ fun d t => pipeAfter_readFromCoproc t _ _ d)

end

/-! ### Every step -/

/-- A step leaves what its instruction leaves of the pipeline filled at its start. -/
theorem pipeAfter_step {s t : State} (h : step s = .next t) : PipeAfter s.begin t := by
  obtain ⟨u, rfl, hu⟩ := step_cases h
  apply PipeAfter.settle
  rcases hu with ⟨-, rfl⟩ | ⟨-, -, rfl⟩ | ⟨-, -, ⟨x, -, rfl⟩ | rfl | ⟨i, -, hi⟩⟩
  · exact .of_empty rfl
  · exact .of_empty s.enterReset_pipe
  · exact .of_empty rfl
  · exact pipeAfter_advance s.begin _
  · exact nextMeets_iff.mp (pipeAfter_exec s.begin i) u hi

/-- Settles O59: the words are those of the pipeline filled at the start of the step. -/
theorem prefetchedWordsStay : Obligations.PrefetchedWordsStay := by
  intro s t h
  refine ⟨s.begin.pipe, ⟨_, (State.begin_pipe_eq s).symm⟩, fun k => State.begin_pipe_getElem? s, ?_⟩
  simpa only [PipeAfter, State.begin_pc] using pipeAfter_step h

end Sys2Proof.Machine
end

section
/-! SUPPORT. The encoding and the decoding of the instructions are inverse to each other (`30_encoding.md` R121, R123,
R131, R139). -/

namespace Sys2Proof

/-! ### Fields of words -/

/-- A bit of a field. -/
theorem getLsbD_field {a : Nat} (v : BitVec a) (lo n i : Nat) :
    (field v lo n).getLsbD i = (decide (i < n) && v.getLsbD (lo + i)) := by
  simp [field]

/-- A field of a field. -/
theorem field_field {a : Nat} (v : BitVec a) {lo m k n : Nat} (h : k + n ≤ m) :
    field (field v lo m) k n = field v (lo + k) n := by
  ext i hi
  simp [field, Nat.add_assoc]
  omega

/-- A field of a literal. -/
@[simp] theorem field_ofNat (a m lo n : Nat) :
    field (BitVec.ofNat a m) lo n = BitVec.ofNat n ((m % 2 ^ a) >>> lo) := by
  simp [field, BitVec.extractLsb', BitVec.toNat_ofNat]

/-- The one-bit field of a bit. -/
theorem bit_getLsbD {a : Nat} (v : BitVec a) (k : Nat) : bit (v.getLsbD k) = field v k 1 := by
  ext i hi
  obtain rfl : i = 0 := by omega
  simp [field]

/-- A flag is a one-bit field just when the bit there is that flag. -/
@[simp] theorem field_eq_bit_iff {a k : Nat} {v : BitVec a} {x : Bool} : field v k 1 = bit x ↔ v.getLsbD k = x := by
  rw [← bit_getLsbD]
  cases v.getLsbD k <;> cases x <;> decide

/-- A one-bit field holds 1 just when the bit is set. -/
@[simp] theorem field_eq_one_iff {a k : Nat} {v : BitVec a} : field v k 1 = 1#1 ↔ v.getLsbD k = true :=
  field_eq_bit_iff (x := true)

/-- A one-bit field holds 0 just when the bit is clear. -/
@[simp] theorem field_eq_zero_iff {a k : Nat} {v : BitVec a} : field v k 1 = 0#1 ↔ v.getLsbD k = false :=
  field_eq_bit_iff (x := false)

/-- A concatenation is a field when its parts are the parts of the field. -/
theorem field_eq_cat_iff {w a b c lo : Nat} {x : BitVec a} {y : BitVec b} {v : BitVec c} (h : w = a + b) :
    field v lo w = cat w x y ↔ field v (lo + b) a = x ∧ field v lo b = y := by
  subst h
  constructor
  · intro e
    have hx : field (cat (a + b) x y) b a = x := by
      rw [field_cat_high (Nat.le_refl b) (by omega), Nat.sub_self, field_self]
    have hy : field (cat (a + b) x y) 0 b = y := by
      rw [field_cat_low (by omega) (by omega), field_self]
    rw [← e, field_field _ (by omega)] at hx hy
    exact ⟨hx, hy⟩
  · rintro ⟨rfl, rfl⟩
    ext i hi
    rw [getElem_cat hi, ← BitVec.getLsbD_eq_getElem]
    simp only [getLsbD_field, hi]
    grind

/-- A word is the concatenation of its parts. -/
theorem cat_eq_iff {a b : Nat} {x : BitVec a} {y : BitVec b} {v : Word} (h : 32 = a + b) :
    cat 32 x y = v ↔ field v b a = x ∧ field v 0 b = y := by
  have e := field_eq_cat_iff (x := x) (y := y) (v := v) (lo := 0) h
  rwa [field_self, Nat.zero_add, eq_comm] at e

/-! ### The decoder -/

/-- The PSR transfer space is a test operation without S. -/
theorem psrSpace_eq (w : Word) : psrSpace w = ((opOf w).isTest && !w.getLsbD 20) := by
  have test (b : BitVec 4) : (AluOp.ofBits b).isTest = (field b 2 2 == 0b10#2) := by revert b; decide
  rw [opOf, test, field_field _ (by decide), psrSpace]

/-- Bits 27 to 25 choose the rows of the opcode table (`30_encoding.md` R123). -/
theorem decode_by_class (w : Word) :
    (field w 25 3 = 0b000#3 ∧ decode w = decodeRegisterForms w) ∨
    (field w 25 3 = 0b001#3 ∧ decode w = decodeImmediateForms w) ∨
    (field w 25 3 = 0b010#3 ∧ decode w = .ok (.transferImm (w.getLsbD 20) (w.getLsbD 22) (condOf w) (w.getLsbD 24)
      (w.getLsbD 23) (w.getLsbD 21) (regAt w 16) (regAt w 12) (field w 0 12))) ∨
    (field w 25 3 = 0b011#3 ∧ decode w = .ok (decodeRegisterTransfer w)) ∨
    (field w 25 3 = 0b100#3 ∧ decode w = .ok (decodeBlock w)) ∨
    (field w 25 3 = 0b101#3 ∧ decode w =
      .ok (if w.getLsbD 24 then .bl (condOf w) (field w 0 24) else .b (condOf w) (field w 0 24))) ∨
    (field w 25 3 = 0b110#3 ∧ decode w = .ok (decodeCoprocTransfer w)) ∨
    (field w 25 3 = 0b111#3 ∧ decode w = .ok (decodeCoprocOrSwi w)) := by
  have classes (b : BitVec 3) : b = 0 ∨ b = 1 ∨ b = 2 ∨ b = 3 ∨ b = 4 ∨ b = 5 ∨ b = 6 ∨ b = 7 := by
    revert b; decide
  unfold decode
  rcases classes (field w 25 3) with h | h | h | h | h | h | h | h <;> simp [h]

/-! ### The words of the families of instructions -/

/-- The data processing instruction and its word: the S bit of a test operation is set. -/
theorem encode_dataImm (op : AluOp) (c : Cond) (sf : Bool) (rn rd : Reg) (rot : BitVec 4) (imm : Byte) :
    encode (.dataImm op c sf rn rd rot imm) = encodeDataImm op c (op.isTest || sf) rn rd rot imm := by
  cases op <;> rfl

theorem encode_dataReg (op : AluOp) (c : Cond) (sf : Bool) (rn rd : Reg) (amt : BitVec 5) (ty : Shift) (rm : Reg) :
    encode (.dataReg op c sf rn rd amt ty rm) = encodeDataReg op c (op.isTest || sf) rn rd amt ty rm := by
  cases op <;> rfl

theorem encode_dataRsr (op : AluOp) (c : Cond) (sf : Bool) (rn rd rs : Reg) (ty : Shift) (rm : Reg) :
    encode (.dataRsr op c sf rn rd rs ty rm) = encodeDataRsr op c (op.isTest || sf) rn rd rs ty rm := by
  cases op <;> rfl

theorem encode_transferImm (load byte : Bool) (c : Cond) (p u w : Bool) (rn rd : Reg) (off : BitVec 12) :
    encode (.transferImm load byte c p u w rn rd off) = encodeTransferImm load byte c p u w rn rd off := by
  cases load <;> cases byte <;> rfl

theorem encode_transferReg (load byte : Bool) (c : Cond) (p u w : Bool) (rn rd : Reg) (amt : BitVec 5) (ty : Shift)
    (rm : Reg) :
    encode (.transferReg load byte c p u w rn rd amt ty rm) =
      encodeTransferReg load byte c p u w rn rd amt ty rm := by
  cases load <;> cases byte <;> rfl

/-! ### The word of an instruction decodes to it

One lemma for each row of the encoder. The tests of the decoder and the fields it reads are fields of the
concatenation, each within one of its parts (`field_cat_low`, `field_cat_high`, `getElem_cat`). -/

/-- The S bit of a test operation is set, or the word is in the PSR transfer space. -/
theorem decode_encodeDataImm {op : AluOp} {sf : Bool} (h : (op.isTest && !sf) = false) (c : Cond) (rn rd : Reg)
    (rot : BitVec 4) (imm : Byte) :
    decode (encodeDataImm op c sf rn rd rot imm) = .ok (.dataImm op c sf rn rd rot imm) := by
  have hp : psrSpace (encodeDataImm op c sf rn rd rot imm) = false := by
    rw [psrSpace_eq, ← h]
    simp [encodeDataImm, opOf, field_cat_low, field_cat_high, getElem_cat]
  simp only [decode, decodeImmediateForms, hp]
  simp [encodeDataImm, opOf, condOf, regAt, field_cat_low, field_cat_high, getElem_cat]

theorem decode_encodeDataReg {op : AluOp} {sf : Bool} (h : (op.isTest && !sf) = false) (c : Cond) (rn rd : Reg)
    (amt : BitVec 5) (ty : Shift) (rm : Reg) :
    decode (encodeDataReg op c sf rn rd amt ty rm) = .ok (.dataReg op c sf rn rd amt ty rm) := by
  have hp : psrSpace (encodeDataReg op c sf rn rd amt ty rm) = false := by
    rw [psrSpace_eq, ← h]
    simp [encodeDataReg, opOf, field_cat_low, field_cat_high, getElem_cat]
  simp only [decode, decodeRegisterForms, hp]
  simp [encodeDataReg, opOf, condOf, regAt, shiftOf, field_cat_low, field_cat_high, getElem_cat]

theorem decode_encodeDataRsr {op : AluOp} {sf : Bool} (h : (op.isTest && !sf) = false) (c : Cond) (rn rd rs : Reg)
    (ty : Shift) (rm : Reg) :
    decode (encodeDataRsr op c sf rn rd rs ty rm) = .ok (.dataRsr op c sf rn rd rs ty rm) := by
  have hp : psrSpace (encodeDataRsr op c sf rn rd rs ty rm) = false := by
    rw [psrSpace_eq, ← h]
    simp [encodeDataRsr, opOf, field_cat_low, field_cat_high, getElem_cat]
  simp only [decode, decodeRegisterForms, hp]
  simp [encodeDataRsr, opOf, condOf, regAt, shiftOf, field_cat_low, field_cat_high, getElem_cat]

theorem decode_encodeTransferImm (load byte : Bool) (c : Cond) (p u w : Bool) (rn rd : Reg) (off : BitVec 12) :
    decode (encodeTransferImm load byte c p u w rn rd off) = .ok (.transferImm load byte c p u w rn rd off) := by
  simp [decode, encodeTransferImm, condOf, regAt, field_cat_low, field_cat_high, getElem_cat]

theorem decode_encodeTransferReg (load byte : Bool) (c : Cond) (p u w : Bool) (rn rd : Reg) (amt : BitVec 5)
    (ty : Shift) (rm : Reg) :
    decode (encodeTransferReg load byte c p u w rn rd amt ty rm) =
      .ok (.transferReg load byte c p u w rn rd amt ty rm) := by
  simp [decode, decodeRegisterTransfer, encodeTransferReg, condOf, regAt, shiftOf, field_cat_low, field_cat_high,
    getElem_cat]

theorem decode_encodeMultiply (acc : Bool) (c : Cond) (sf : Bool) (rd rn rs rm : Reg) :
    decode (encodeMultiply acc c sf rd rn rs rm) =
      .ok (if acc then .mla c sf rd rn rs rm else .mul c sf rd rn rs rm) := by
  cases acc <;> simp [decode, decodeRegisterForms, decodeMultiplySwap, encodeMultiply, condOf, regAt, field_cat_low,
    field_cat_high, getElem_cat]

theorem decode_encodeSwap (byte : Bool) (c : Cond) (rn rd rm : Reg) :
    decode (encodeSwap byte c rn rd rm) = .ok (if byte then .swpb c rn rd rm else .swp c rn rd rm) := by
  cases byte <;> simp [decode, decodeRegisterForms, decodeMultiplySwap, encodeSwap, condOf, regAt, field_cat_low,
    field_cat_high, getElem_cat]

theorem decode_encodeMsr (flagsOnly : Bool) (c : Cond) (spsr : Bool) (rm : Reg) :
    decode (encodeMsr flagsOnly c spsr rm) = .ok (if flagsOnly then .msrFlags c spsr rm else .msrAll c spsr rm) := by
  cases flagsOnly <;> simp [decode, decodeRegisterForms, decodePsrRegister, psrSpace, encodeMsr, condOf, regAt,
    field_cat_low, field_cat_high, getElem_cat]

theorem decode_encodeBlock (load : Bool) (c : Cond) (p u sb w : Bool) (rn : Reg) (list : BitVec 16) :
    decode (encodeBlock load c p u sb w rn list) =
      .ok (if load then .ldm c p u sb w rn list else .stm c p u sb w rn list) := by
  simp [decode, decodeBlock, encodeBlock, condOf, regAt, field_cat_low, field_cat_high, getElem_cat]

theorem decode_encodeCoprocTransfer (load : Bool) (c : Cond) (p u n w : Bool) (rn : Reg) (crd cp : BitVec 4)
    (off : Byte) :
    decode (encodeCoprocTransfer load c p u n w rn crd cp off) =
      .ok (if load then .ldc c p u n w rn crd cp off else .stc c p u n w rn crd cp off) := by
  simp [decode, decodeCoprocTransfer, encodeCoprocTransfer, condOf, regAt, field_cat_low, field_cat_high, getElem_cat]

theorem decode_encodeCoprocRegister (load : Bool) (c : Cond) (opc : BitVec 3) (crn : BitVec 4) (rd : Reg)
    (cp : BitVec 4) (info : BitVec 3) (crm : BitVec 4) :
    decode (encodeCoprocRegister load c opc crn rd cp info crm) =
      .ok (if load then .mrc c opc crn rd cp info crm else .mcr c opc crn rd cp info crm) := by
  simp [decode, decodeCoprocOrSwi, encodeCoprocRegister, condOf, regAt, field_cat_low, field_cat_high, getElem_cat]

theorem decode_encode_mrs (c : Cond) (spsr : Bool) (rd : Reg) :
    decode (encode (.mrs c spsr rd)) = .ok (.mrs c spsr rd) := by
  simp [decode, decodeRegisterForms, decodePsrRegister, psrSpace, encode, condOf, regAt, field_cat_low,
    field_cat_high, getElem_cat]

theorem decode_encode_msrFlagsImm (c : Cond) (spsr : Bool) (rot : BitVec 4) (imm : Byte) :
    decode (encode (.msrFlagsImm c spsr rot imm)) = .ok (.msrFlagsImm c spsr rot imm) := by
  simp [decode, decodeImmediateForms, decodePsrImmediate, psrSpace, encode, condOf, field_cat_low,
    field_cat_high, getElem_cat]

theorem decode_encode_undefined (c : Cond) (hi : BitVec 20) (lo : BitVec 4) :
    decode (encode (.undefined c hi lo)) = .ok (.undefined c hi lo) := by
  simp [decode, decodeRegisterTransfer, encode, condOf, field_cat_low, field_cat_high, getElem_cat]

theorem decode_encode_b (c : Cond) (off : BitVec 24) : decode (encode (.b c off)) = .ok (.b c off) := by
  simp [decode, encode, condOf, field_cat_low, field_cat_high, getElem_cat]

theorem decode_encode_bl (c : Cond) (off : BitVec 24) : decode (encode (.bl c off)) = .ok (.bl c off) := by
  simp [decode, encode, condOf, field_cat_low, field_cat_high, getElem_cat]

theorem decode_encode_swi (c : Cond) (comment : BitVec 24) :
    decode (encode (.swi c comment)) = .ok (.swi c comment) := by
  simp [decode, decodeCoprocOrSwi, encode, condOf, field_cat_low, field_cat_high, getElem_cat]

theorem decode_encode_cdp (c : Cond) (opc crn crd cp : BitVec 4) (info : BitVec 3) (crm : BitVec 4) :
    decode (encode (.cdp c opc crn crd cp info crm)) = .ok (.cdp c opc crn crd cp info crm) := by
  simp [decode, decodeCoprocOrSwi, encode, condOf, field_cat_low, field_cat_high, getElem_cat]

/-! ### A word that decodes is the word of the instruction it decodes to

One lemma for each group of rows of the decoder. The word of the instruction is the word decoded when each of its parts
is the field of that word (`cat_eq_iff`, `field_eq_cat_iff`): an operand was read there, and a constant was tested
there. -/

/-- Outside the PSR transfer space the S bit of a test operation is set. -/
theorem isTest_or_getLsbD {w : Word} (h : psrSpace w = false) :
    ((opOf w).isTest || w.getLsbD 20) = w.getLsbD 20 := by
  rw [psrSpace_eq] at h
  cases hs : w.getLsbD 20 <;> simp_all

/-- A field whose upper part holds `x` and whose lowest bit is `b` holds both. -/
theorem field_eq_cat_bit {a n lo : Nat} {v : BitVec a} {x : BitVec n} {b : Bool} (hx : field v (lo + 1) n = x)
    (hb : v.getLsbD lo = b) : field v lo (n + 1) = cat (n + 1) x (bit b) :=
  (field_eq_cat_iff rfl).mpr ⟨hx, field_eq_bit_iff.mpr hb⟩

/-- Bits 7 to 4 of a multiply or swap. -/
theorem multiplySwap_field {w : Word} (h4 : w.getLsbD 4 = true) (h7 : w.getLsbD 7 = true) (h5 : field w 5 2 = 0) :
    field w 4 4 = 0b1001#4 :=
  (field_eq_cat_iff (x := 0b1#1) (y := 0b001#3) rfl).mpr
    ⟨field_eq_one_iff.mpr h7, field_eq_cat_bit (b := true) h5 h4⟩

/-- Bits 27 to 23 of a word of the PSR transfer space. -/
theorem psrSpace_field {w : Word} {x : BitVec 3} (hc : field w 25 3 = x) (hp : psrSpace w = true) :
    field w 23 5 = cat 5 x 0b10#2 := by
  simp only [psrSpace, Bool.and_eq_true, beq_iff_eq] at hp
  exact (field_eq_cat_iff rfl).mpr ⟨hc, hp.1⟩

/-- The fields tested for SWP and SWPB lie otherwise than the parts of their word: bit 22 stands apart. -/
theorem encode_decodeMultiplySwap {w : Word} {i : Instr} (h4 : w.getLsbD 4 = true) (h7 : w.getLsbD 7 = true)
    (h : decodeMultiplySwap w = .ok i) : encode i = w := by
  unfold decodeMultiplySwap at h
  split at h
  · cases h
  rename_i h5
  have h4 : field w 4 4 = 0b1001#4 := multiplySwap_field h4 h7 (by simpa using h5)
  split at h
  · have h22 : field w 22 6 = 0b000000#6 := by simp_all
    split at h <;> cases h <;> simp_all [encode, encodeMultiply, cat_eq_iff, field_eq_cat_iff, regAt, condOf]
  split at h
  · rename_i hs
    simp only [Bool.and_eq_true, beq_iff_eq] at hs
    obtain ⟨⟨h23, h20⟩, h8⟩ := hs
    split at h <;> rename_i hb
    · have h22 : field w 22 6 = 0b000101#6 := field_eq_cat_bit (b := true) h23 hb
      cases h
      simp [encode, encodeSwap, cat_eq_iff, field_eq_cat_iff, regAt, condOf, h4, h8, h20, h22]
    · have h22 : field w 22 6 = 0b000100#6 := field_eq_cat_bit (b := false) h23 (by simpa using hb)
      cases h
      simp [encode, encodeSwap, cat_eq_iff, field_eq_cat_iff, regAt, condOf, h4, h8, h20, h22]
  · cases h

theorem encode_decodePsrRegister {w : Word} {i : Instr} (hc : field w 25 3 = 0b000#3) (hp : psrSpace w = true)
    (h : decodePsrRegister w = .ok i) : encode i = w := by
  have h23 : field w 23 5 = 0b00010#5 := psrSpace_field hc hp
  unfold decodePsrRegister at h
  split at h
  · cases h
    simp_all [encode, cat_eq_iff, field_eq_cat_iff, regAt, condOf]
  split at h
  · cases h
    simp_all [encode, encodeMsr, cat_eq_iff, field_eq_cat_iff, regAt, condOf]
  split at h
  · cases h
    simp_all [encode, encodeMsr, cat_eq_iff, field_eq_cat_iff, regAt, condOf]
  · cases h

theorem encode_decodePsrImmediate {w : Word} {i : Instr} (hc : field w 25 3 = 0b001#3) (hp : psrSpace w = true)
    (h : decodePsrImmediate w = .ok i) : encode i = w := by
  have h23 : field w 23 5 = 0b00110#5 := psrSpace_field hc hp
  unfold decodePsrImmediate at h
  split at h
  · cases h
    simp_all [encode, cat_eq_iff, field_eq_cat_iff, condOf]
  · cases h

theorem encode_decodeRegisterForms {w : Word} {i : Instr} (hc : field w 25 3 = 0b000#3)
    (h : decodeRegisterForms w = .ok i) : encode i = w := by
  unfold decodeRegisterForms at h
  split at h
  · rename_i h47
    rw [Bool.and_eq_true] at h47
    exact encode_decodeMultiplySwap h47.1 h47.2 h
  split at h
  · rename_i hp
    exact encode_decodePsrRegister hc hp h
  rename_i hp
  have hs := isTest_or_getLsbD (Bool.eq_false_of_not_eq_true hp)
  split at h
  · cases h
    rw [encode_dataRsr, hs]
    simp_all [encodeDataRsr, cat_eq_iff, field_eq_cat_iff, regAt, condOf, opOf, shiftOf]
  · cases h
    rw [encode_dataReg, hs]
    simp_all [encodeDataReg, cat_eq_iff, field_eq_cat_iff, regAt, condOf, opOf, shiftOf]

theorem encode_decodeImmediateForms {w : Word} {i : Instr} (hc : field w 25 3 = 0b001#3)
    (h : decodeImmediateForms w = .ok i) : encode i = w := by
  unfold decodeImmediateForms at h
  split at h
  · rename_i hp
    exact encode_decodePsrImmediate hc hp h
  · rename_i hp
    cases h
    rw [encode_dataImm, isTest_or_getLsbD (Bool.eq_false_of_not_eq_true hp)]
    simp [encodeDataImm, cat_eq_iff, field_eq_cat_iff, regAt, condOf, opOf, hc]

theorem encode_decodeRegisterTransfer {w : Word} (h : field w 25 3 = 0b011#3) :
    encode (decodeRegisterTransfer w) = w := by
  unfold decodeRegisterTransfer
  split
  · simp_all [encode, cat_eq_iff, field_eq_cat_iff, condOf]
  · rw [encode_transferReg]
    simp_all [encodeTransferReg, cat_eq_iff, field_eq_cat_iff, regAt, condOf, shiftOf]

theorem encode_decodeBlock {w : Word} (h : field w 25 3 = 0b100#3) : encode (decodeBlock w) = w := by
  unfold decodeBlock
  split <;> simp_all [encode, encodeBlock, cat_eq_iff, field_eq_cat_iff, regAt, condOf]

theorem encode_decodeCoprocTransfer {w : Word} (h : field w 25 3 = 0b110#3) :
    encode (decodeCoprocTransfer w) = w := by
  unfold decodeCoprocTransfer
  split <;> simp_all [encode, encodeCoprocTransfer, cat_eq_iff, field_eq_cat_iff, regAt, condOf]

theorem encode_decodeCoprocOrSwi {w : Word} (h : field w 25 3 = 0b111#3) : encode (decodeCoprocOrSwi w) = w := by
  unfold decodeCoprocOrSwi
  split <;> rename_i h24
  · have h24 : field w 24 4 = 0b1111#4 := field_eq_cat_bit (b := true) h h24
    simp [encode, cat_eq_iff, field_eq_cat_iff, condOf, h24]
  have h24 : field w 24 4 = 0b1110#4 := field_eq_cat_bit (b := false) h (by simpa using h24)
  split
  · simp_all [encode, cat_eq_iff, field_eq_cat_iff, condOf]
  split <;> simp_all [encode, encodeCoprocRegister, cat_eq_iff, field_eq_cat_iff, regAt, condOf]

/-- Settles O2, row by row of the decoder. -/
theorem encodeInvertsDecode : Obligations.EncodeInvertsDecode := by
  intro w i h
  rcases decode_by_class w with ⟨hc, hd⟩ | ⟨hc, hd⟩ | ⟨hc, hd⟩ | ⟨hc, hd⟩ | ⟨hc, hd⟩ | ⟨hc, hd⟩ | ⟨hc, hd⟩ | ⟨hc, hd⟩ <;>
    rw [hd] at h
  · exact encode_decodeRegisterForms hc h
  · exact encode_decodeImmediateForms hc h
  · cases h
    rw [encode_transferImm]
    simp [encodeTransferImm, cat_eq_iff, field_eq_cat_iff, regAt, condOf, hc]
  · cases h; exact encode_decodeRegisterTransfer hc
  · cases h; exact encode_decodeBlock hc
  · cases h
    split <;> rename_i h24
    · have h24 : field w 24 4 = 0b1011#4 := field_eq_cat_bit (b := true) hc h24
      simp [encode, cat_eq_iff, field_eq_cat_iff, condOf, h24]
    · have h24 : field w 24 4 = 0b1010#4 := field_eq_cat_bit (b := false) hc (by simpa using h24)
      simp [encode, cat_eq_iff, field_eq_cat_iff, condOf, h24]
  · cases h; exact encode_decodeCoprocTransfer hc
  · cases h; exact encode_decodeCoprocOrSwi hc

end Sys2Proof

namespace Sys2Proof.Machine

/-- The instruction forgets the S bit of a test operation, which its word sets. -/
theorem decode_encode_operandForm (op : AluOp) (c : Cond) (sf : Bool) (rn rd : Reg) (o : OperandForm) :
    decode (encode (o.instr op c sf rn rd)) = .ok (o.instr op c sf rn rd) := by
  have hs : (op.isTest && !(op.isTest || sf)) = false := by cases op.isTest <;> simp
  cases o with
  | imm rot v =>
    rw [OperandForm.instr, encode_dataImm, decode_encodeDataImm hs]
    cases op <;> rfl
  | reg amt ty rm =>
    rw [OperandForm.instr, encode_dataReg, decode_encodeDataReg hs]
    cases op <;> rfl
  | rsr rs ty rm =>
    rw [OperandForm.instr, encode_dataRsr, decode_encodeDataRsr hs]
    cases op <;> rfl

theorem decode_encode_offsetForm (load byte : Bool) (c : Cond) (p u w : Bool) (rn rd : Reg) (o : OffsetForm) :
    decode (encode (o.instr load byte c p u w rn rd)) = .ok (o.instr load byte c p u w rn rd) := by
  cases o with
  | imm off => rw [OffsetForm.instr, encode_transferImm, decode_encodeTransferImm]
  | reg amt ty rm => rw [OffsetForm.instr, encode_transferReg, decode_encodeTransferReg]

/-- Settles O1, family by family. -/
theorem decodeInvertsEncode : Obligations.DecodeInvertsEncode :=
  Instr.family_cases (motive := fun i _ => decode (encode i) = .ok i)
    (data := decode_encode_operandForm)
    (transfer := decode_encode_offsetForm)
    (mrs := decode_encode_mrs)
    (msrAll := decode_encodeMsr false)
    (msrFlags := decode_encodeMsr true)
    (msrFlagsImm := decode_encode_msrFlagsImm)
    (mul := decode_encodeMultiply false)
    (mla := decode_encodeMultiply true)
    (undefined := decode_encode_undefined)
    (ldm := decode_encodeBlock true)
    (stm := decode_encodeBlock false)
    (b := decode_encode_b)
    (bl := decode_encode_bl)
    (swp := decode_encodeSwap false)
    (swpb := decode_encodeSwap true)
    (swi := decode_encode_swi)
    (cdp := decode_encode_cdp)
    (ldc := decode_encodeCoprocTransfer true)
    (stc := decode_encodeCoprocTransfer false)
    (mrc := decode_encodeCoprocRegister true)
    (mcr := decode_encodeCoprocRegister false)

end Sys2Proof.Machine
end

section
/-! SUPPORT. The words that decode to no instruction, and the step that meets one (`30_encoding.md` R123, R125, R139;
`40_condition_execution.md` R172). -/

namespace Sys2Proof

/-! ### Words under a mask -/

/-- A word agrees with `V` under the mask `M` just when it has the fields of `V` that `M` is made of, each given by
its lowest bit and its width. -/
theorem and_eq_iff_fields {w M V : Word} (L : List (Nat × Nat)) (hV : V &&& M = V)
    (hM : ∀ i < 32, M.getLsbD i = L.any fun p => decide (p.1 ≤ i) && decide (i < p.1 + p.2)) :
    w &&& M = V ↔ ∀ p ∈ L, field w p.1 p.2 = field V p.1 p.2 := by
  constructor
  · intro h p hp
    apply BitVec.eq_of_getLsbD_eq
    intro i hi
    simp only [getLsbD_field, hi, decide_true, Bool.true_and]
    by_cases hi' : p.1 + i < 32
    · have hm : M.getLsbD (p.1 + i) = true := by
        rw [hM _ hi', List.any_eq_true]
        exact ⟨p, hp, by simpa using hi⟩
      rw [← h, BitVec.getLsbD_and, hm, Bool.and_true]
    · simp [BitVec.getLsbD_of_ge _ _ (Nat.le_of_not_lt hi')]
  · intro h
    rw [← hV]
    apply BitVec.eq_of_getLsbD_eq
    intro i hi
    rw [BitVec.getLsbD_and, BitVec.getLsbD_and]
    cases hm : M.getLsbD i with
    | false => simp
    | true =>
      rw [hM i hi, List.any_eq_true] at hm
      obtain ⟨p, hp, hpi⟩ := hm
      have hf := congrArg (fun x => x.getLsbD (i - p.1)) (h p hp)
      simp only [Bool.and_eq_true, decide_eq_true_eq] at hpi
      have hd : i - p.1 < p.2 := by omega
      simp only [getLsbD_field, hd, Nat.add_sub_cancel' hpi.1, decide_true, Bool.true_and] at hf
      simp [hf]

/-- The words of multiply and swap, and of the rows U1 and U2. -/
theorem multiplySwap_mask (w : Word) : w &&& 0x0E000090#32 = 0x00000090#32 ↔
    field w 25 3 = 0 ∧ w.getLsbD 4 = true ∧ w.getLsbD 7 = true := by
  rw [and_eq_iff_fields [(25, 3), (4, 1), (7, 1)] (by decide) (by decide)]
  simp

theorem shift_mask (w : Word) : w &&& 0x00000060#32 = 0 ↔ field w 5 2 = 0 := by
  rw [and_eq_iff_fields [(5, 2)] (by decide) (by decide)]
  simp

/-- The words of multiply and swap, and of the row U2. -/
theorem multiplySwap_nibble_mask (w : Word) : w &&& 0x0E0000F0#32 = 0x00000090#32 ↔
    field w 25 3 = 0 ∧ w.getLsbD 4 = true ∧ field w 5 2 = 0 ∧ w.getLsbD 7 = true := by
  rw [and_eq_iff_fields [(25, 3), (4, 1), (5, 2), (7, 1)] (by decide) (by decide)]
  simp

theorem multiply_mask (w : Word) : w &&& 0x0FC000F0#32 = 0x00000090#32 ↔
    field w 22 6 = 0 ∧ w.getLsbD 4 = true ∧ field w 5 2 = 0 ∧ w.getLsbD 7 = true := by
  rw [and_eq_iff_fields [(22, 6), (4, 1), (5, 2), (7, 1)] (by decide) (by decide)]
  simp

theorem swap_mask (w : Word) : w &&& 0x0FB00FF0#32 = 0x01000090#32 ↔
    field w 23 5 = 0b00010#5 ∧ field w 20 2 = 0 ∧ field w 8 4 = 0 ∧
      w.getLsbD 4 = true ∧ field w 5 2 = 0 ∧ w.getLsbD 7 = true := by
  rw [and_eq_iff_fields [(23, 5), (20, 2), (8, 4), (4, 1), (5, 2), (7, 1)] (by decide) (by decide)]
  simp

/-- The PSR transfer space in both forms of operand 2. -/
theorem psrSpace_mask (w : Word) : w &&& 0x0D900000#32 = 0x01000000#32 ↔
    (field w 25 3 = 0b000#3 ∨ field w 25 3 = 0b001#3) ∧ psrSpace w = true := by
  have upper : field w 26 2 = 0b00#2 ↔ field w 25 3 = 0b000#3 ∨ field w 25 3 = 0b001#3 := by
    have (b : BitVec 3) : field b 1 2 = 0b00#2 ↔ b = 0b000#3 ∨ b = 0b001#3 := by revert b; decide
    rw [← this, field_field _ (by decide)]
  rw [and_eq_iff_fields [(26, 2), (23, 2), (20, 1)] (by decide) (by decide), ← upper]
  simp [psrSpace]

theorem mrs_mask (w : Word) : w &&& 0x0FBF0FFF#32 = 0x010F0000#32 ↔
    field w 23 5 = 0b00010#5 ∧ field w 16 6 = 0b001111#6 ∧ field w 0 12 = 0 := by
  rw [and_eq_iff_fields [(23, 5), (16, 6), (0, 12)] (by decide) (by decide)]
  simp

theorem msrAll_mask (w : Word) : w &&& 0x0FBFFFF0#32 = 0x0129F000#32 ↔
    field w 23 5 = 0b00010#5 ∧ field w 12 10 = 0b1010011111#10 ∧ field w 4 8 = 0 := by
  rw [and_eq_iff_fields [(23, 5), (12, 10), (4, 8)] (by decide) (by decide)]
  simp

theorem msrFlags_mask (w : Word) : w &&& 0x0FBFFFF0#32 = 0x0128F000#32 ↔
    field w 23 5 = 0b00010#5 ∧ field w 12 10 = 0b1010001111#10 ∧ field w 4 8 = 0 := by
  rw [and_eq_iff_fields [(23, 5), (12, 10), (4, 8)] (by decide) (by decide)]
  simp

theorem msrFlagsImm_mask (w : Word) : w &&& 0x0FBFF000#32 = 0x0328F000#32 ↔
    field w 23 5 = 0b00110#5 ∧ field w 12 10 = 0b1010001111#10 := by
  rw [and_eq_iff_fields [(23, 5), (12, 10)] (by decide) (by decide)]
  simp

/-! ### When a word decodes to no instruction -/

theorem decodeMultiplySwap_error {w : Word} {e : DecodeError} : decodeMultiplySwap w = .error e ↔
    (field w 5 2 ≠ 0 ∧ e = .unallocatedU1) ∨
    (field w 5 2 = 0 ∧ field w 22 6 ≠ 0 ∧ ¬ (field w 23 5 = 0b00010#5 ∧ field w 20 2 = 0 ∧ field w 8 4 = 0) ∧
      e = .unallocatedU2) := by
  unfold decodeMultiplySwap
  split
  · simp_all [eq_comm (b := e)]
  split
  · split <;> simp_all
  split
  · split <;> simp_all
  · simp_all [eq_comm (b := e)]

theorem decodePsrRegister_error {w : Word} {e : DecodeError} : decodePsrRegister w = .error e ↔
    ¬ (field w 16 6 = 0b001111#6 ∧ field w 0 12 = 0) ∧ ¬ (field w 12 10 = 0b1010011111#10 ∧ field w 4 8 = 0) ∧
      ¬ (field w 12 10 = 0b1010001111#10 ∧ field w 4 8 = 0) ∧ e = .unallocatedU3 := by
  unfold decodePsrRegister
  split
  · simp_all
  split
  · simp_all
  split
  · simp_all
  · simp_all [eq_comm (b := e)]

theorem decodePsrImmediate_error {w : Word} {e : DecodeError} : decodePsrImmediate w = .error e ↔
    field w 12 10 ≠ 0b1010001111#10 ∧ e = .unallocatedU3 := by
  unfold decodePsrImmediate
  split <;> simp_all [eq_comm (b := e)]

theorem decodeRegisterForms_error {w : Word} {e : DecodeError} : decodeRegisterForms w = .error e ↔
    ((w.getLsbD 4 = true ∧ w.getLsbD 7 = true) ∧ decodeMultiplySwap w = .error e) ∨
    (¬ (w.getLsbD 4 = true ∧ w.getLsbD 7 = true) ∧ psrSpace w = true ∧ decodePsrRegister w = .error e) := by
  unfold decodeRegisterForms
  split
  · simp_all
  split
  · simp_all
  split <;> simp_all

theorem decodeImmediateForms_error {w : Word} {e : DecodeError} : decodeImmediateForms w = .error e ↔
    psrSpace w = true ∧ decodePsrImmediate w = .error e := by
  unfold decodeImmediateForms
  split <;> simp_all

/-- Only the classes of the data processing rows hold words of no instruction (`30_encoding.md` R125). -/
theorem decode_error {w : Word} {e : DecodeError} : decode w = .error e ↔
    (field w 25 3 = 0b000#3 ∧ decodeRegisterForms w = .error e) ∨
    (field w 25 3 = 0b001#3 ∧ decodeImmediateForms w = .error e) := by
  rcases decode_by_class w with ⟨hc, hd⟩ | ⟨hc, hd⟩ | ⟨hc, hd⟩ | ⟨hc, hd⟩ | ⟨hc, hd⟩ | ⟨hc, hd⟩ | ⟨hc, hd⟩ | ⟨hc, hd⟩ <;>
    simp [hc, hd]

theorem decode_unallocatedU1 {w : Word} : decode w = .error .unallocatedU1 ↔
    field w 25 3 = 0 ∧ (w.getLsbD 4 = true ∧ w.getLsbD 7 = true) ∧ field w 5 2 ≠ 0 := by
  simp [decode_error, decodeRegisterForms_error, decodeImmediateForms_error, decodeMultiplySwap_error,
    decodePsrRegister_error, decodePsrImmediate_error]

theorem decode_unallocatedU2 {w : Word} : decode w = .error .unallocatedU2 ↔
    field w 25 3 = 0 ∧ (w.getLsbD 4 = true ∧ w.getLsbD 7 = true) ∧ field w 5 2 = 0 ∧ field w 22 6 ≠ 0 ∧
      ¬ (field w 23 5 = 0b00010#5 ∧ field w 20 2 = 0 ∧ field w 8 4 = 0) := by
  simp [decode_error, decodeRegisterForms_error, decodeImmediateForms_error, decodeMultiplySwap_error,
    decodePsrRegister_error, decodePsrImmediate_error]

theorem decode_unallocatedU3 {w : Word} : decode w = .error .unallocatedU3 ↔
    (field w 25 3 = 0b000#3 ∧ ¬ (w.getLsbD 4 = true ∧ w.getLsbD 7 = true) ∧ psrSpace w = true ∧
      ¬ (field w 16 6 = 0b001111#6 ∧ field w 0 12 = 0) ∧ ¬ (field w 12 10 = 0b1010011111#10 ∧ field w 4 8 = 0) ∧
      ¬ (field w 12 10 = 0b1010001111#10 ∧ field w 4 8 = 0)) ∨
    (field w 25 3 = 0b001#3 ∧ psrSpace w = true ∧ field w 12 10 ≠ 0b1010001111#10) := by
  simp [decode_error, decodeRegisterForms_error, decodeImmediateForms_error, decodeMultiplySwap_error,
    decodePsrRegister_error, decodePsrImmediate_error]

/-- A word is never too short. -/
theorem decode_ne_truncated (w : Word) : decode w ≠ .error .truncated := by
  simp [decode_error, decodeRegisterForms_error, decodeImmediateForms_error, decodeMultiplySwap_error,
    decodePsrRegister_error, decodePsrImmediate_error]

/-! ### The unallocated rows in bits -/

theorem decode_unallocatedU1_iff_mask (w : Word) : decode w = .error .unallocatedU1 ↔
    w &&& 0x0E000090#32 = 0x00000090#32 ∧ w &&& 0x00000060#32 ≠ 0 := by
  simp only [decode_unallocatedU1, multiplySwap_mask, ne_eq, shift_mask]
  tauto

theorem decode_unallocatedU2_iff_mask (w : Word) : decode w = .error .unallocatedU2 ↔
    w &&& 0x0E0000F0#32 = 0x00000090#32 ∧ w &&& 0x0FC000F0#32 ≠ 0x00000090#32 ∧
      w &&& 0x0FB00FF0#32 ≠ 0x01000090#32 := by
  simp only [decode_unallocatedU2, multiplySwap_nibble_mask, ne_eq, multiply_mask, swap_mask]
  tauto

/-- Bits 27 to 23 tell the two halves of the PSR transfer space apart: MRS and the register forms of MSR stand in the
class 000, the immediate form of MSR in the class 001. -/
theorem decode_unallocatedU3_iff_mask (w : Word) : decode w = .error .unallocatedU3 ↔
    w &&& 0x0D900000#32 = 0x01000000#32 ∧ w &&& 0x0E000090#32 ≠ 0x00000090#32 ∧
      w &&& 0x0FBF0FFF#32 ≠ 0x010F0000#32 ∧ w &&& 0x0FBFFFF0#32 ≠ 0x0129F000#32 ∧
      w &&& 0x0FBFFFF0#32 ≠ 0x0128F000#32 ∧ w &&& 0x0FBFF000#32 ≠ 0x0328F000#32 := by
  simp only [decode_unallocatedU3, psrSpace_mask, ne_eq, multiplySwap_mask, mrs_mask, msrAll_mask, msrFlags_mask,
    msrFlagsImm_mask]
  by_cases hp : psrSpace w = true
  case neg => simp [hp]
  by_cases h0 : field w 25 3 = 0b000#3
  · have h23 : field w 23 5 = 0b00010#5 := psrSpace_field h0 hp
    simp [hp, h0, h23]
  by_cases h1 : field w 25 3 = 0b001#3
  · have h23 : field w 23 5 = 0b00110#5 := psrSpace_field h1 hp
    simp [hp, h1, h23]
  · simp [h0, h1]

/-- Settles O3, by the bits of each row. -/
theorem unallocatedWordsAreU1U2U3 : Obligations.UnallocatedWordsAreU1U2U3 := fun w =>
  ⟨decode_unallocatedU1_iff_mask w, decode_unallocatedU2_iff_mask w, decode_unallocatedU3_iff_mask w,
    decode_ne_truncated w⟩

end Sys2Proof

namespace Sys2Proof.Machine

/-- A word is an instruction's just when it decodes to it. -/
theorem decode_eq_ok_iff {w : Word} {i : Instr} : decode w = .ok i ↔ encode i = w :=
  ⟨encodeInvertsDecode w i, fun h => h ▸ decodeInvertsEncode i⟩

/-- Settles O4: each word is the word of its instruction. -/
theorem specWordsDecode : Obligations.SpecWordsDecode := by
  unfold Obligations.SpecWordsDecode
  simp only [decode_eq_ok_iff]
  decide

/-- An undisturbed step that meets an unallocated word refuses it, under the condition of the word. -/
theorem step_unallocated {s : State} {f : Fetched} {e : DecodeError} (hu : Undisturbed s) (hn : NextWord s f)
    (ha : f.aborted = false) (hd : decode f.word = .error e) :
    step s = settled (conditionally (condOf f.word) s.begin (.refused .unallocated)) := by
  have hh : s.begin.head = f := (State.begin_head s f hn).1
  simp [step, boundary_undisturbed hu, dispatchWord, hh, ha, hd]

/-- Settles O6, by whether the condition of the word passes. -/
theorem unallocatedCodeIsRefused : Obligations.UnallocatedCodeIsRefused := by
  intro s f e hu hn ha hd
  rw [step_unallocated hu hn ha hd]
  split <;> rename_i hc
  · rw [conditionally_pass _ (by simpa using hc)]
    rfl
  · rw [conditionally_fail _ (by simpa using hc)]
    exact ⟨_, rfl, by simp⟩

end Sys2Proof.Machine
end

section
/-! SUPPORT. The condition of an instruction: the code that names it, when it holds, and what it leaves when it fails
(`40_condition_execution.md` R170 to R173). -/

namespace Sys2Proof.Machine

/-- The condition of a word is the one whose code stands in its top four bits (`40_condition_execution.md` R170). -/
theorem condOf_bits (w : Word) : (condOf w).bits = field w 28 4 := Cond.bits_ofBits _

/-- The table of `40_condition_execution.md` R171, by the codes of the conditions: each row speaks of one code, and the
code of NV has no row. -/
theorem condHolds_iff_code (c : Cond) (p : Psr) :
    condHolds c p = true ↔
      ((c.bits = 0b0000#4 ∧ p.z = true) ∨ (c.bits = 0b0001#4 ∧ p.z = false) ∨
        (c.bits = 0b0010#4 ∧ p.c = true) ∨ (c.bits = 0b0011#4 ∧ p.c = false) ∨
        (c.bits = 0b0100#4 ∧ p.n = true) ∨ (c.bits = 0b0101#4 ∧ p.n = false) ∨
        (c.bits = 0b0110#4 ∧ p.v = true) ∨ (c.bits = 0b0111#4 ∧ p.v = false) ∨
        (c.bits = 0b1000#4 ∧ p.c = true ∧ p.z = false) ∨ (c.bits = 0b1001#4 ∧ (p.c = false ∨ p.z = true)) ∨
        (c.bits = 0b1010#4 ∧ p.n = p.v) ∨ (c.bits = 0b1011#4 ∧ p.n ≠ p.v) ∨
        (c.bits = 0b1100#4 ∧ p.z = false ∧ p.n = p.v) ∨ (c.bits = 0b1101#4 ∧ (p.z = true ∨ p.n ≠ p.v)) ∨
        c.bits = 0b1110#4) := by
  cases c <;> simp [condHolds, Cond.bits]

/-- Every instruction runs under the condition of its word and does nothing before that is tested
(`40_condition_execution.md` R172). -/
theorem exec_eq_conditionally (i : Instr) (s : State) :
    ∃ body, exec i s = conditionally (condOf (encode i)) s body := by
  apply Instr.family_cases (motive := fun j c => ∃ body, exec j s = conditionally c s body) (i := i)
  case data => exact fun op c sf rn rd o => ⟨_, exec_operandForm_guarded s op c sf rn rd o⟩
  case transfer => exact fun load byte c p u w rn rd o => ⟨_, exec_offsetForm_guarded s load byte c p u w rn rd o⟩
  all_goals intros; exact ⟨_, rfl⟩

/-- An instruction whose condition fails is the next one after one S cycle. -/
theorem exec_of_condHolds_false {i : Instr} {s : State} (h : condHolds (condOf (encode i)) s.cpsr = false) :
    exec i s = .next (s.advance ⟨0, 1, 0, 0⟩) := by
  obtain ⟨body, hbody⟩ := exec_eq_conditionally i s
  rw [hbody, conditionally_fail s h]

/-- Moving to the next instruction is the regular end of an instruction. -/
theorem GoesOn.advance (s : State) (k : Cycles) : GoesOn s (s.advance k) k :=
  ⟨rfl, rfl, rfl, rfl, rfl, rfl, rfl, rfl, rfl, rfl⟩

/-- Moving to the next instruction keeps every general register and every SPSR. -/
theorem OnlyRegs.advance (s : State) (k : Cycles) : OnlyRegs s (s.advance k) [] := ⟨fun _ _ _ _ => rfl, rfl⟩

/-- Moving to the next instruction accesses nothing. -/
theorem NoAccess.advance (s : State) (k : Cycles) : NoAccess s (s.advance k) := ⟨fun _ => rfl, rfl⟩

/-- Settles O20: a failed condition comes to `advance`, and the codes are those of `Cond.bits`. -/
theorem failedConditionSkips : Obligations.FailedConditionSkips := by
  refine ⟨fun i s h => ⟨_, exec_of_condHolds_false h, ?_, ?_, rfl, ?_⟩, fun w p => ?_⟩
  · exact GoesOn.advance s _
  · exact OnlyRegs.advance s _
  · exact NoAccess.advance s _
  · rw [← condOf_bits w]
    exact condHolds_iff_code (condOf w) p

end Sys2Proof.Machine
end

section
/-! SUPPORT. Branches: where they go, what they leave, and what a jump after a write of a register keeps
(`41_branch.md` R180 to R182). -/

namespace Sys2Proof.Machine

/-! ### The target of a branch -/

/-- The displacement is four times the signed offset (`30_encoding.md` R130). -/
theorem branchOffset_toInt (off : BitVec 24) : (branchOffset off).toInt = 4 * off.toInt := by
  have hcat : (cat 26 off 0b00#2).toNat = 4 * off.toNat := by
    rw [cat, BitVec.setWidth_eq, BitVec.toNat_append, BitVec.toNat_zero, Nat.or_zero, Nat.shiftLeft_eq, Nat.mul_comm]
  rw [branchOffset, BitVec.toInt_signExtend_of_le (by decide), BitVec.toInt_eq_toNat_cond, hcat,
    BitVec.toInt_eq_toNat_cond]
  omega

/-- The displacement is a multiple of 4, as a target has to be (`41_branch.md` R180). -/
theorem aligned_branchOffset (off : BitVec 24) : field (branchOffset off) 0 2 = 0 := by
  rw [← BitVec.toNat_inj, field_low_toNat]
  have h := branchOffset_toInt off
  rw [BitVec.toInt_eq_toNat_cond] at h
  simp only [BitVec.ofNat_eq_ofNat, BitVec.toNat_ofNat]
  omega

/-- The target of a branch in unbounded integers (`41_branch.md` R180). -/
theorem State.branchTarget_toNat (s : State) (off : BitVec 24) :
    ((s.branchTarget off).toNat : Int) = (s.pc.toNat + 8 + 4 * off.toInt) % 2 ^ 32 := by
  rw [← branchOffset_toInt, State.branchTarget, BitVec.toNat_add, BitVec.toNat_add, BitVec.toInt_eq_toNat_cond]
  simp only [BitVec.ofNat_eq_ofNat, BitVec.toNat_ofNat]
  omega

/-- A branch at an aligned address has an aligned target (`41_branch.md` R180). -/
theorem State.wordAddr_branchTarget {s : State} (hpc : field s.pc 0 2 = 0) (off : BitVec 24) :
    wordAddr (s.branchTarget off) = s.branchTarget off :=
  wordAddr_add _ _ (aligned_add hpc rfl) (aligned_branchOffset off)

/-! ### What a write of a register changes -/

section
variable {s t : State} {r : Reg}

/-- A write of a register is inside the processor. -/
theorem KeepsOutside.writeReg (s : State) (r : Reg) (v : Word) : KeepsOutside s (s.writeReg r v) := by
  simp [KeepsOutside]

/-- A write of a register other than R15 lands there, under the hazard as a free value
(`70_reset_and_hazards.md` R470). -/
theorem Landed.writeReg (hr : r ≠ 15) (v : Word) : Landed s (s.writeReg r v) r v := by
  rw [Landed, State.bankReg_writeReg s _ _ _ _ hr, if_pos rfl]

/-- Nothing written is no register changed. -/
theorem OnlyRegs.refl (s : State) : OnlyRegs s s [] := ⟨fun _ _ _ _ => rfl, rfl⟩

/-- Only the place of the register is written (`10_state.md` R24). -/
theorem OnlyRegs.writeReg (hr : r ≠ 15) (v : Word) : OnlyRegs s (s.writeReg r v) [r] := by
  refine ⟨fun n q _ hq => ?_, State.writeReg_spsr s r v⟩
  rw [State.bankReg_writeReg s _ _ _ _ hr, if_neg (hq r (List.mem_singleton_self r))]

/-- Nothing done is no access. -/
theorem NoAccess.refl (s : State) : NoAccess s s := ⟨fun _ => rfl, rfl⟩

/-- A write of a register accesses nothing. -/
theorem NoAccess.writeReg (s : State) (r : Reg) (v : Word) : NoAccess s (s.writeReg r v) := by
  simp [NoAccess, KeepsMemory]

/-! ### A jump as the end of an instruction -/

/-- A jump ends the instruction at its target, if nothing of the outside and no cycle was touched before it. -/
theorem GoesTo.jump (h : KeepsOutside s t) (hc : t.cycles = s.cycles) (a : Word) (k : Cycles) :
    GoesTo s (t.jump a k) a k :=
  ⟨rfl, rfl, rfl, by rw [State.jump_cycles, hc], h⟩

/-- A jump writes no register but R15. -/
theorem Landed.jump {v : Word} (h : Landed s t r v) (a : Word) (k : Cycles) : Landed s (t.jump a k) r v := h

/-- A jump changes no general register and no SPSR. -/
theorem OnlyRegs.jump {rs : List Reg} (h : OnlyRegs s t rs) (a : Word) (k : Cycles) : OnlyRegs s (t.jump a k) rs := h

/-- A jump accesses nothing (`41_branch.md` R180). -/
theorem NoAccess.jump (h : NoAccess s t) (a : Word) (k : Cycles) : NoAccess s (t.jump a k) := h

end

/-! ### The two instructions -/

/-- B whose condition holds is a jump to its target (`41_branch.md` R181). -/
theorem exec_b_of_condHolds {c : Cond} {s : State} (hc : condHolds c s.cpsr = true) (off : BitVec 24) :
    exec (.b c off) s = .next (s.jump (s.branchTarget off) ⟨1, 2, 0, 0⟩) :=
  conditionally_pass s hc _

/-- BL whose condition holds writes R14 and jumps to the target B would have (`41_branch.md` R182). -/
theorem exec_bl_of_condHolds {c : Cond} {s : State} (hc : condHolds c s.cpsr = true) (off : BitVec 24) :
    exec (.bl c off) s = .next ((s.writeReg 14 (s.pc + 4)).jump (s.branchTarget off) ⟨1, 2, 0, 0⟩) :=
  conditionally_pass s hc _

/-- Settles O57: both are jumps to `branchTarget`, BL after its write of R14. -/
theorem branchesReachTarget : Obligations.BranchesReachTarget := by
  intro c off s hc hpc
  have hpcTarget := State.wordAddr_branchTarget hpc off
  have h14 : (14 : Reg) ≠ 15 := by decide
  refine ⟨s.branchTarget off, ⟨-((s.pc.toNat + 8 + 4 * off.toInt) / 2 ^ 32), ?_⟩,
    ⟨_, exec_b_of_condHolds hc off, hpcTarget, ?_, rfl, ?_, ?_⟩,
    ⟨_, exec_bl_of_condHolds hc off, hpcTarget, ?_, ?_, ?_, ?_, ?_⟩⟩
  · rw [State.branchTarget_toNat, Int.emod_def]
    ring
  · exact .jump (.refl s) rfl _ _
  · exact .jump (.refl s) _ _
  · exact .jump (.refl s) _ _
  · exact .jump (.writeReg s _ _) (State.writeReg_cycles s _ _) _ _
  · exact .jump (.writeReg h14 _) _ _
  · exact State.writeReg_cpsr s _ _
  · exact .jump (.writeReg h14 _) _ _
  · exact .jump (.writeReg s _ _) _ _

end Sys2Proof.Machine
end

section
/-! SUPPORT. The results and flags of the arithmetic logic unit, said with unbounded integers
(`42_data_processing.md` R200, R208, R209). -/

namespace Sys2Proof.Machine

/-! ### N and Z -/

/-- N is bit 31 of the result. -/
theorem AluOut.of_n (r : Word) (c v : Bool) : (AluOut.of r c v).n = r.getLsbD 31 := BitVec.msb_eq_getLsbD_last r

/-- Z is set exactly for the result 0. -/
theorem AluOut.of_z (r : Word) (c v : Bool) : (AluOut.of r c v).z = true ↔ r = 0 := beq_iff_eq

/-- N and Z are those of the result, whatever the operation. -/
theorem alu_n_z (op : AluOp) (a b : Word) (c sc v : Bool) :
    (alu op a b c sc v).n = (alu op a b c sc v).result.getLsbD 31 ∧
      ((alu op a b c sc v).z = true ↔ (alu op a b c sc v).result = 0) := by
  have hof : ∃ r c' v', alu op a b c sc v = .of r c' v' := by cases op <;> exact ⟨_, _, _, rfl⟩
  obtain ⟨r, c', v', h⟩ := hof
  rw [h]
  exact ⟨AluOut.of_n r c' v', AluOut.of_z r c' v'⟩

/-- A logical operation takes C from the shifter and leaves V (`42_data_processing.md` R208). -/
theorem alu_c_v_of_isLogical {op : AluOp} (h : op.isLogical = true) (a b : Word) (c sc v : Bool) :
    (alu op a b c sc v).c = sc ∧ (alu op a b c sc v).v = v := by
  cases op
  case and | eor | tst | teq | orr | mov | bic | mvn => exact ⟨rfl, rfl⟩
  case sub | rsb | add | adc | sbc | rsc | cmp | cmn => cases h

/-- Settles O23: N and Z are those of every operation, C and V those of a logical one. -/
theorem logicalFlags : Obligations.LogicalFlags := fun op a b c sc v h =>
  have ⟨hn, hz⟩ := alu_n_z op a b c sc v
  ⟨hn, hz, alu_c_v_of_isLogical h a b c sc v⟩

/-! ### The adder -/

/-- Adding a complement subtracts. -/
theorem add_not_add (x y k : Word) : x + ~~~y + k = x - y + k - 1 := by
  rw [BitVec.not_eq_neg_add, BitVec.ofNat_eq_ofNat (n := 32) (i := 1)]
  ring

/-- The signed value is that of one word (`42_data_processing.md` R209). -/
def FitsWord (x : Int) : Prop := -2 ^ 31 ≤ x ∧ x < 2 ^ 31

/-- C is the carry out of bit 31. -/
theorem addWithCarry_c (x y : Word) (k : Bool) :
    (addWithCarry x y k).c = true ↔ 2 ^ 32 ≤ x.toNat + y.toNat + k.toNat := decide_eq_true_iff

/-- V is that the signed sum does not fit. -/
theorem addWithCarry_v (x y : Word) (k : Bool) :
    (addWithCarry x y k).v = true ↔ ¬ FitsWord (x.toInt + y.toInt + k.toNat) := by
  have hk := k.toNat_le
  simp only [addWithCarry, AluOut.of, FitsWord, BitVec.msb_eq_decide, BitVec.toInt_eq_toNat_cond,
    BitVec.toNat_ofNat, Bool.and_eq_true, beq_iff_eq, bne_iff_ne, ne_eq, decide_eq_decide]
  omega

/-- The complement of a word as a signed number. -/
theorem toInt_not_word (y : Word) : (~~~y).toInt = -y.toInt - 1 := by
  simp only [BitVec.toInt_eq_toNat_cond, BitVec.toNat_not]
  omega

/-- C after a subtraction means that it did not borrow. -/
theorem addWithCarry_not_c (x y : Word) (k : Bool) :
    (addWithCarry x (~~~y) k).c = true ↔ y.toNat + 1 ≤ x.toNat + k.toNat := by
  rw [addWithCarry_c, BitVec.toNat_not]
  omega

/-- V after a subtraction is that the signed difference does not fit. -/
theorem addWithCarry_not_v (x y : Word) (k : Bool) :
    (addWithCarry x (~~~y) k).v = true ↔ ¬ FitsWord (x.toInt - y.toInt + k.toNat - 1) := by
  rw [addWithCarry_v, toInt_not_word]
  ring_nf

/-- Settles O22: a subtraction is the addition of a complement. -/
theorem operationTable : Obligations.OperationTable := by
  intro op a b c sc v
  refine ⟨?_, by cases op <;> decide, by cases op <;> decide, by cases op <;> rfl⟩
  cases op
  case and | eor | tst | teq | orr | mov | bic | mvn => rfl
  case add | cmn | adc => simp [alu, addWithCarry_result]
  case sub | rsb | cmp | sbc | rsc => simp [alu, addWithCarry_result, add_not_add]

/-- Settles O24: C and V are those of the adder, after a subtraction with the complement of the subtrahend. -/
theorem arithmeticFlags : Obligations.ArithmeticFlags := by
  intro op a b c sc v h
  have ⟨hn, hz⟩ := alu_n_z op a b c sc v
  refine ⟨hn, hz, ?_, ?_⟩
  · cases op
    case add | cmn => exact addWithCarry_c a b false
    case adc => exact addWithCarry_c a b c
    case sub | cmp => simpa [alu] using addWithCarry_not_c a b true
    case rsb => simpa [alu] using addWithCarry_not_c b a true
    case sbc => exact addWithCarry_not_c a b c
    case rsc => exact addWithCarry_not_c b a c
    case and | eor | tst | teq | orr | mov | bic | mvn => cases h
  · cases op
    case add | cmn => simpa [alu, FitsWord] using addWithCarry_v a b false
    case adc => exact addWithCarry_v a b c
    case sub | cmp => simpa [alu, FitsWord] using addWithCarry_not_v a b true
    case rsb => simpa [alu, FitsWord] using addWithCarry_not_v b a true
    case sbc => exact addWithCarry_not_v a b c
    case rsc => exact addWithCarry_not_v b a c
    case and | eor | tst | teq | orr | mov | bic | mvn => cases h

end Sys2Proof.Machine
end

section
/-! SUPPORT. The barrel shifter: shifts by an amount in the instruction and in a register, and rotated immediates
(`42_data_processing.md` R192 to R199). -/

namespace Sys2Proof.Machine

/-! ### The amounts -/

/-- An amount of 1 to 31 in the instruction is one of `shiftBy`. -/
theorem shiftByImmediate_of_pos {amt : BitVec 5} (h : 1 ≤ amt.toNat) (c : Bool) (ty : Shift) (m : Word) :
    shiftByImmediate c ty amt m = shiftBy ty m amt.toNat := by
  have h0 : amt ≠ 0 := by rintro rfl; simp at h
  exact if_neg h0

/-- The low byte of a register is its value modulo 256. -/
theorem toNat_lowByte (w : Word) : w.lowByte.toNat = w.toNat % 256 := BitVec.toNat_setWidth ..

/-- A register amount of 1 or more is one of `shiftBy` up to 31 and one of `shiftLong` from 32 on. -/
theorem shiftByRegister_of_pos {amount : Byte} (h : 1 ≤ amount.toNat) (c : Bool) (ty : Shift) (m : Word) :
    shiftByRegister c ty amount m =
      if amount.toNat < 32 then shiftBy ty m amount.toNat else shiftLong ty m amount.toNat := by
  have h0 : amount ≠ 0 := by rintro rfl; simp at h
  exact if_neg h0

/-- The register amounts from 32 on. -/
theorem shiftByRegister_of_le {amount : Byte} (h : 32 ≤ amount.toNat) (c : Bool) (ty : Shift) (m : Word) :
    shiftByRegister c ty amount m = shiftLong ty m amount.toNat := by
  rw [shiftByRegister_of_pos (by omega), if_neg (by omega)]

/-- The register amounts from 1 to 31. -/
theorem shiftByRegister_of_lt {amount : Byte} (h : 1 ≤ amount.toNat) (h32 : amount.toNat < 32) (c : Bool) (ty : Shift)
    (m : Word) : shiftByRegister c ty amount m = shiftBy ty m amount.toNat := by
  rw [shiftByRegister_of_pos h, if_pos h32]

/-! ### The results in numbers -/

/-- LSL multiplies. -/
theorem shiftBy_lsl_toNat (m : Word) (n : Nat) : (shiftBy .lsl m n).value.toNat = m.toNat * 2 ^ n % 2 ^ 32 := by
  simp [shiftBy, Nat.shiftLeft_eq]

/-- LSR divides. -/
theorem shiftBy_lsr_toNat (m : Word) (n : Nat) : (shiftBy .lsr m n).value.toNat = m.toNat / 2 ^ n := by
  simp [shiftBy, Nat.shiftRight_eq_div_pow]

/-- ASR divides the signed number, rounding down. -/
theorem shiftBy_asr_toInt (m : Word) (n : Nat) : (shiftBy .asr m n).value.toInt = m.toInt / 2 ^ n := by
  simp [shiftBy, Int.shiftRight_eq_div_pow]

/-- A rotation to the right takes each bit from `n` places above it. -/
theorem getLsbD_rotateRight_word (m : Word) (n : Nat) {i : Nat} (hi : i < 32) :
    (m.rotateRight n).getLsbD i = m.getLsbD ((i + n) % 32) := by
  rw [BitVec.getLsbD_rotateRight]
  by_cases h : i < 32 - n % 32
  · simp only [h, decide_true, cond_true]
    congr 1
    omega
  · simp only [h, hi, decide_true, decide_false, cond_false, Bool.true_and]
    congr 1
    omega

/-- Settles O25, by whether the amount is 0 or `shiftBy` takes it. (`shiftByImmediate` is the name of the
operation.) -/
theorem shiftByImmediate_spec : Obligations.ShiftByImmediate := by
  intro c amt m
  have hmsb : m.msb = m.getLsbD 31 := BitVec.msb_eq_getLsbD_last m
  have hzero : amt.toNat = 0 → amt = 0 := fun h => BitVec.eq_of_toNat_eq h
  refine ⟨fun h => ?_, fun h => ?_, fun h => ?_, fun h => ?_, fun h => ?_, fun h => ?_⟩
  · rw [hzero h]
    rfl
  · rw [shiftByImmediate_of_pos h]
    exact ⟨shiftBy_lsl_toNat m _, rfl⟩
  · rw [hzero h, ← hmsb]
    rfl
  · rw [shiftByImmediate_of_pos h]
    exact ⟨shiftBy_lsr_toNat m _, rfl⟩
  · rw [hzero h, ← hmsb]
    rfl
  · rw [shiftByImmediate_of_pos h]
    exact ⟨shiftBy_asr_toInt m _, rfl⟩

/-- RRX moves every bit one place down, with the C flag at the top and bit 0 as the carry
(`42_data_processing.md` R197). -/
theorem rotateExtended_bits (c : Bool) (m : Word) :
    (rotateExtended c m).value.getLsbD 31 = c ∧
      (∀ i < 31, (rotateExtended c m).value.getLsbD i = m.getLsbD (i + 1)) ∧
      (rotateExtended c m).carry = m.getLsbD 0 := by
  refine ⟨?_, fun i hi => ?_, rfl⟩
  · rw [rotateExtended, getLsbD_cat (by decide), if_neg (by decide), bit_getLsbD_zero]
  · rw [rotateExtended, getLsbD_cat (by omega), if_pos hi, getLsbD_field]
    simp [hi, Nat.add_comm]

/-- A byte extended has the bits of the byte (`00_scope.md` R7). -/
theorem getLsbD_extend (b : Byte) {i : Nat} (hi : i < 32) : (Byte.extend b).getLsbD i = b.getLsbD i := by
  simp [Byte.extend, hi]

/-- Settles O26: the value of ROR and of the rotated immediate is a rotation to the right. -/
theorem rotatedOperands : Obligations.RotatedOperands := by
  refine ⟨fun c amt m h => ?_, rotateExtended_bits, fun c rot imm => ⟨fun i hi => ?_, ?_⟩⟩
  · have hlt := amt.isLt
    have hbits (i : Nat) (hi : i < 32) := getLsbD_rotateRight_word m amt.toNat hi
    rw [shiftByImmediate_of_pos h]
    refine ⟨hbits, rfl, ?_⟩
    have htop : (31 + amt.toNat) % 32 = amt.toNat - 1 := by omega
    exact ((hbits 31 (by decide)).trans (congrArg m.getLsbD htop)).symm
  · exact (getLsbD_rotateRight_word _ _ hi).trans (getLsbD_extend imm (Nat.mod_lt _ (by decide)))
  · simp only [rotatedImmediate, BitVec.msb_eq_getLsbD_last]

/-- A rotation by 32 or more is the one by 1 to 32 that is the same modulo 32 (`42_data_processing.md` R198). -/
theorem shiftLong_ror (c : Bool) (m : Word) {n : Nat} (h : 1 ≤ n) :
    shiftLong .ror m n = shiftByRegister c .ror (BitVec.ofNat 8 ((n - 1) % 32 + 1)) m := by
  have hamt : (BitVec.ofNat 8 ((n - 1) % 32 + 1)).toNat = (n - 1) % 32 + 1 := by
    rw [BitVec.toNat_ofNat]
    omega
  by_cases h0 : n % 32 = 0
  · have h32 : (n - 1) % 32 + 1 = 32 := by omega
    rw [shiftByRegister_of_le (by omega), hamt, h32, shiftLong, if_pos h0]
    rfl
  · have hmod : (n - 1) % 32 + 1 = n % 32 := by omega
    rw [shiftByRegister_of_lt (by omega) (by omega), hamt, hmod, shiftLong, if_neg h0]

/-- Settles O27: from 32 on the amount is that of `shiftLong`, where a rotation counts modulo 32. (`shiftByRegister` is
the name of the operation.) -/
theorem shiftByRegister_spec : Obligations.ShiftByRegister := by
  intro c ty rs m
  have hn : rs.lowByte.toNat = rs.toNat % 256 := toNat_lowByte rs
  have hmsb : m.msb = m.getLsbD 31 := BitVec.msb_eq_getLsbD_last m
  refine ⟨fun h => ?_, fun h h31 => ?_, fun h => ?_, fun h => ?_⟩
  · have h0 : rs.lowByte = 0 := BitVec.eq_of_toNat_eq (hn.trans h)
    rw [h0]
    rfl
  · rw [← hn] at h h31 ⊢
    have hamt : (BitVec.ofNat 5 rs.lowByte.toNat).toNat = rs.lowByte.toNat := by
      rw [BitVec.toNat_ofNat]
      omega
    rw [shiftByRegister_of_lt h (by omega), shiftByImmediate_of_pos (by omega), hamt]
  · rw [shiftByRegister_of_le (by omega), hn, h, ← hmsb]
    cases ty <;> simp [shiftLong, signFill]
  · rw [shiftByRegister_of_le (by omega), hn, ← hmsb]
    generalize rs.toNat % 256 = n at h
    cases ty with
    | lsl | lsr => simp [shiftLong, show n ≠ 32 by omega]
    | asr => rfl
    | ror => exact shiftLong_ror c m (by omega)

end Sys2Proof.Machine
end

section
/-! SUPPORT. How a data processing instruction ends: its result in a register, in the pc or nowhere, and the CPSR
restored from an SPSR (`42_data_processing.md` R201, R206, R207, R211, R214). -/

namespace Sys2Proof.Machine

/-! ### The ends of an instruction -/

section
variable {s t : State} {r : Reg} {rs : List Reg} {k : Cycles}

/-- Moving on ends the instruction, if the pc, the pipeline, the cycles and the outside were not touched before it. -/
theorem GoesOn.advance_after (hpc : t.pc = s.pc) (hpipe : t.pipe = s.pipe) (hcycles : t.cycles = s.cycles)
    (ho : KeepsOutside s t) (k : Cycles) : GoesOn s (t.advance k) k :=
  ⟨by rw [State.advance_pc, hpc], by rw [State.advance_pipe, hpipe], rfl, by rw [State.advance_cycles, hcycles], ho⟩

/-- A write of a register other than R15 is followed by the next instruction. -/
theorem GoesOn.writeReg_advance (hr : r ≠ 15) (v : Word) (k : Cycles) :
    GoesOn s ((s.writeReg r v).advance k) k :=
  .advance_after (State.writeReg_pc s hr v) (State.writeReg_pipe s hr v) (State.writeReg_cycles s r v)
    (.writeReg s r v) k

/-- Moving on writes no general register. -/
theorem Landed.advance_after {v : Word} (h : Landed s t r v) (k : Cycles) : Landed s (t.advance k) r v := h

/-- Moving on changes no general register and no SPSR. -/
theorem OnlyRegs.advance_after (h : OnlyRegs s t rs) (k : Cycles) : OnlyRegs s (t.advance k) rs := h

/-- Moving on accesses nothing. -/
theorem NoAccess.advance_after (h : NoAccess s t) (k : Cycles) : NoAccess s (t.advance k) := h

/-! A new CPSR changes neither where the instruction goes nor a register nor memory. -/

theorem GoesOn.setPsr (h : GoesOn s t k) (p : Psr) : GoesOn s (t.setPsr p) k := h

theorem GoesTo.setPsr {a : Word} (h : GoesTo s t a k) (p : Psr) : GoesTo s (t.setPsr p) a k := h

theorem Landed.setPsr {v : Word} (h : Landed s t r v) (p : Psr) : Landed s (t.setPsr p) r v := h

theorem OnlyRegs.setPsr (h : OnlyRegs s t rs) (p : Psr) : OnlyRegs s (t.setPsr p) rs := h

theorem NoAccess.setPsr (h : NoAccess s t) (p : Psr) : NoAccess s (t.setPsr p) := h

end

/-! ### The CPSR that an SPSR restores -/

/-- A mode of Table 2 has the code it was read from (`10_state.md` R38). -/
theorem Mode.bits_of_ofBits {b : BitVec 5} {m : Mode} (h : Mode.ofBits b = some m) : m.bits = b := by
  revert b
  cases m <;> decide

/-- The CPSR restored is the one whose save the SPSR holds (`42_data_processing.md` R207). -/
theorem SavedPsr.toPsr_eq_some {p : SavedPsr} {q : Psr} : p.toPsr = some q ↔ q.save = p := by
  constructor
  · intro h
    obtain ⟨m, hm, rfl⟩ := Option.map_eq_some_iff.mp h
    rw [Psr.save, Mode.bits_of_ofBits hm]
  · rintro rfl
    exact Psr.toPsr_save q

section
variable {s : State} {p : SavedPsr} {q : Psr}

/-- Only a privileged mode has an SPSR (`10_state.md` R40). -/
theorem State.privileged_of_savedOf (h : s.savedOf s.cpsr.mode = some p) : s.privileged = true := by
  have hm : s.cpsr.mode ≠ .usr := fun hu => by simp [(State.savedOf_eq_none s).mpr hu] at h
  simp [State.privileged, hm]

/-- User mode has nothing to restore from. -/
theorem State.restored_of_none (h : s.savedOf s.cpsr.mode = none) : s.restored = .error .restoreInUserMode := by
  rw [State.restored, h]

/-- A saved mode outside Table 2 is not restored (`10_state.md` R43). -/
theorem State.restored_of_illegal (h : s.savedOf s.cpsr.mode = some p) (hp : p.toPsr = none) :
    s.restored = .error .illegalMode := by
  simp [State.restored, h, hp]

/-- A saved mode of Table 2 is restored. -/
theorem State.restored_of_some (h : s.savedOf s.cpsr.mode = some p) (hp : p.toPsr = some q) :
    s.restored = .ok q := (State.restored_ok s).mpr ⟨p, h, hp⟩

end

/-! ### The result of an operation -/

section
variable {s : State} {op : AluOp} {r : AluOut} {k : Nat}

/-- A result in a register other than R15 (`42_data_processing.md` R201). -/
theorem finishAlu_of_ne {rd : Reg} (ht : op.isTest = false) (hd : rd ≠ 15) (sf : Bool) :
    finishAlu op sf rd r k s =
      .next (((s.writeReg rd r.result).advance ⟨0, 1, k, 0⟩).setPsr (if sf then s.cpsr.withAlu r else s.cpsr)) := by
  simp [finishAlu, ht, hd]

/-- A test with Rd other than R15 (`42_data_processing.md` R201). -/
theorem finishAlu_of_isTest {rd : Reg} (ht : op.isTest = true) (hd : rd ≠ 15) (sf : Bool) :
    finishAlu op sf rd r k s = .next ((s.advance ⟨0, 1, k, 0⟩).setPsr (s.cpsr.withAlu r)) := by
  simp [finishAlu, ht, hd]

/-- A test with Rd = R15 (`42_data_processing.md` R214). -/
theorem finishAlu_test_pc (ht : op.isTest = true) (sf : Bool) : finishAlu op sf 15 r k s = testToPsr r k s := by
  simp [finishAlu, ht]

/-- A result in the pc (`42_data_processing.md` R206). -/
theorem finishAlu_pc (ht : op.isTest = false) :
    finishAlu op false 15 r k s = .next (s.jump r.result ⟨1, 2, k, 0⟩) := by
  simp [finishAlu, ht]

/-- A result in the pc that restores the CPSR (`42_data_processing.md` R207). -/
theorem finishAlu_pc_restores (ht : op.isTest = false) :
    finishAlu op true 15 r k s = s.returnTo r.result ⟨1, 2, k, 0⟩ := by
  simp [finishAlu, ht]

/-- A test with Rd = R15 restores the CPSR where there is one to restore (`42_data_processing.md` R214). -/
theorem testToPsr_of_restored {p : Psr} (h : s.restored = .ok p) :
    testToPsr r k s = .next ((s.advance ⟨0, 1, k, 0⟩).setPsr p) := by
  have hpriv : s.privileged = true := by simpa [State.privileged] using State.restored_privileged s h
  exact (testToPsr_next s).mpr (.inl ⟨hpriv, p, h, rfl⟩)

/-- In a privileged mode a test with Rd = R15 is refused where a return is (`10_state.md` R43). -/
theorem testToPsr_of_error {e : Refusal} (hpriv : s.privileged = true) (h : s.restored = .error e) :
    testToPsr r k s = .refused e := by
  rw [testToPsr, if_pos hpriv, h]

/-- In User mode a test with Rd = R15 keeps the flags or sets those of the test (`42_data_processing.md` R214). -/
theorem testToPsr_of_user (hu : s.privileged = false) :
    ∃ p, (p = s.cpsr ∨ p = s.cpsr.withAlu r) ∧ testToPsr r k s = .next ((s.advance ⟨0, 1, k, 0⟩).setPsr p) := by
  cases hkeep : Config.testKeepsFlags s.drawIndex with
  | true => exact ⟨s.cpsr, .inl rfl, (testToPsr_next s).mpr (.inr (.inl ⟨hu, hkeep, rfl⟩))⟩
  | false => exact ⟨_, .inr rfl, (testToPsr_next s).mpr (.inr (.inr ⟨hu, hkeep, rfl⟩))⟩

/-- A return restores the CPSR where there is one to restore (`42_data_processing.md` R207). -/
theorem State.returnTo_of_restored {p : Psr} (h : s.restored = .ok p) (a : Word) (c : Cycles) :
    s.returnTo a c = .next ((s.jump a c).setPsr p) := (State.returnTo_next s).mpr ⟨p, h, rfl⟩

/-- A return is refused where there is no CPSR to restore. -/
theorem State.returnTo_of_error {e : Refusal} (h : s.restored = .error e) (a : Word) (c : Cycles) :
    s.returnTo a c = .refused e := by
  rw [State.returnTo, h]

end

/-! ### The instructions -/

/-- Settles O28: the result is written, the pc moves on, and with S = 1 the flags follow. -/
theorem dataProcessingWritesRd : Obligations.DataProcessingWritesRd := by
  intro op c sf rn rd o s ht hd hl hc
  refine ⟨_, (exec_operandForm s hl hc op sf rn rd).trans (finishAlu_of_ne ht hd sf), ?_, ?_, rfl, ?_, ?_⟩
  · exact (GoesOn.writeReg_advance hd _ _).setPsr _
  · exact ((Landed.writeReg hd _).advance_after _).setPsr _
  · exact ((OnlyRegs.writeReg hd _).advance_after _).setPsr _
  · exact ((NoAccess.writeReg s rd _).advance_after _).setPsr _

/-- Settles O29: the pc moves on and the flags are set. -/
theorem testsSetFlags : Obligations.TestsSetFlags := by
  intro op c sf rn rd o s ht hd hl hc
  refine ⟨_, (exec_operandForm s hl hc op sf rn rd).trans (finishAlu_of_isTest ht hd sf), ?_, rfl, ?_, ?_⟩
  · exact (GoesOn.advance s _).setPsr _
  · exact (OnlyRegs.advance s _).setPsr _
  · exact (NoAccess.advance s _).setPsr _

/-- Settles O30, by what the SPSR of the current mode restores. (`testToPsr` is the name of the operation.) -/
theorem testToPsr_spec : Obligations.TestToPsr := by
  intro op c sf rn o s ht hl hc
  have hexec := (exec_operandForm s hl hc op sf rn 15).trans (finishAlu_test_pc ht sf)
  have hgoes (p : Psr) := (GoesOn.advance s ⟨0, 1, o.internal, 0⟩).setPsr p
  have hregs (p : Psr) := (OnlyRegs.advance s ⟨0, 1, o.internal, 0⟩).setPsr p
  have haccess (p : Psr) := (NoAccess.advance s ⟨0, 1, o.internal, 0⟩).setPsr p
  cases hs : s.savedOf s.cpsr.mode with
  | none =>
    have hu : s.privileged = false := by simp [State.privileged, (State.savedOf_eq_none s).mp hs]
    obtain ⟨p, hp, hnext⟩ := testToPsr_of_user hu
    exact ⟨_, hexec.trans hnext, hgoes p, hp, hregs p, haccess p⟩
  | some p =>
    dsimp only
    cases hp : p.toPsr with
    | none =>
      exact hexec.trans (testToPsr_of_error (State.privileged_of_savedOf hs) (State.restored_of_illegal hs hp))
    | some q =>
      exact ⟨_, hexec.trans (testToPsr_of_restored (State.restored_of_some hs hp)), hgoes q, rfl, hregs q, haccess q⟩

/-- Settles O31: the result is the target of a jump. -/
theorem resultToPc : Obligations.ResultToPc := by
  intro op c rn o s ht hl hc
  refine ⟨_, (exec_operandForm s hl hc op false rn 15).trans (finishAlu_pc ht), ?_, rfl, ?_, ?_⟩
  · exact .jump (.refl s) rfl _ _
  · exact .jump (.refl s) _ _
  · exact .jump (.refl s) _ _

/-- Settles O32, by what the SPSR of the current mode restores. -/
theorem resultToPcRestoresPsr : Obligations.ResultToPcRestoresPsr := by
  intro op c rn o s ht hl hc
  have hexec := (exec_operandForm s hl hc op true rn 15).trans (finishAlu_pc_restores ht)
  cases hs : s.savedOf s.cpsr.mode with
  | none =>
    have hmode : s.cpsr.mode = .usr := (State.savedOf_eq_none s).mp hs
    exact ⟨hmode, hexec.trans (State.returnTo_of_error (State.restored_of_none hs) _ _)⟩
  | some p =>
    dsimp only
    cases hp : p.toPsr with
    | none => exact hexec.trans (State.returnTo_of_error (State.restored_of_illegal hs hp) _ _)
    | some q =>
      obtain rfl := SavedPsr.toPsr_eq_some.mp hp
      have hnext := State.returnTo_of_restored (State.restored_of_some hs hp)
      refine ⟨_, hexec.trans (hnext _ _), ?_, rfl, rfl, rfl, ?_, ?_⟩
      · exact (GoesTo.jump (.refl s) rfl _ _).setPsr q
      · exact ((OnlyRegs.refl s).jump _ _).setPsr q
      · exact ((NoAccess.refl s).jump _ _).setPsr q

end Sys2Proof.Machine
end

section
/-! SUPPORT. PSR transfer: the word MRS reads and the PSR it stands for, and what MSR leaves in the CPSR or in the SPSR
of the current mode (`43_psr_transfer.md` R252 to R256). -/

namespace Sys2Proof.Machine

/-! ### The word of a PSR -/

/-- No mode bit is reserved (`10_state.md` R35, R38). -/
theorem SavedPsr.field_word_mode (p : SavedPsr) (reserved : Word) : field (p.word reserved) 0 5 = p.m := by
  have hmask : field (reserved &&& reservedMask) 0 5 = 0#5 := by
    rw [field, BitVec.extractLsb'_and]
    exact BitVec.and_zero
  rw [SavedPsr.word, psrWord, field, BitVec.extractLsb'_or, ← field, ← field, hmask, BitVec.or_zero]
  simp [field_cat_low]

/-- The reserved bits are apart from the defined ones (`10_state.md` R35, R39), so that the word of a PSR gives the PSR
back. -/
theorem SavedPsr.ofWord_word (p : SavedPsr) (reserved : Word) : SavedPsr.ofWord (p.word reserved) = p := by
  simp only [SavedPsr.ofWord, SavedPsr.field_word_mode]
  simp [SavedPsr.word, psrWord, getElem_cat, reservedMask]

/-- No PSR determines the reserved bits of its word (`10_state.md` R39). -/
theorem SavedPsr.getLsbD_word_reserved (p : SavedPsr) (reserved : Word) {k : Nat} (hk : (8 ≤ k ∧ k < 28) ∨ k = 5) :
    (p.word reserved).getLsbD k = reserved.getLsbD k := by
  rcases hk with ⟨h8, h28⟩ | rfl
  · have hmask : reservedMask.getLsbD k = true := by
      revert k
      decide
    rw [SavedPsr.word, psrWord, BitVec.getLsbD_or, BitVec.getLsbD_and, hmask, Bool.and_true]
    simp (disch := omega) [getElem_cat, if_pos]
  · simp [SavedPsr.word, psrWord, getElem_cat, reservedMask]

/-! ### A new SPSR changes neither where the instruction goes nor a register nor memory -/

section
variable {s t : State} {k : Cycles} {m : Mode}

theorem GoesOn.setSaved (h : GoesOn s t k) (m : Mode) (p : SavedPsr) : GoesOn s (t.setSaved m p) k := h

theorem KeepsRegs.setSaved {rs : List Reg} (h : KeepsRegs s t m rs) (n : Mode) (p : SavedPsr) :
    KeepsRegs s (t.setSaved n p) m rs := h

theorem NoAccess.setSaved (h : NoAccess s t) (m : Mode) (p : SavedPsr) : NoAccess s (t.setSaved m p) := h

/-- Of the SPSRs only that of the mode is replaced (`10_state.md` R40). -/
theorem State.savedOf_setSaved_self_and_others (hm : m ≠ .usr) (p : SavedPsr) :
    (s.setSaved m p).savedOf m = some p ∧ ∀ n, n ≠ m → (s.setSaved m p).savedOf n = s.savedOf n :=
  ⟨by rw [State.savedOf_setSaved s hm, if_pos rfl], fun n hn => by rw [State.savedOf_setSaved s hm, if_neg hn]⟩

end

/-! ### What the instructions come to -/

section
variable {s : State} {c : Cond}

/-- MRS that finds a PSR writes its word to Rd (`43_psr_transfer.md` R252). -/
theorem exec_mrs_of_some {spsr : Bool} {rd : Reg} {w : Word} (hc : condHolds c s.cpsr = true) (hd : rd ≠ 15)
    (hw : s.psrValue spsr = some w) :
    exec (.mrs c spsr rd) s = .next ((s.writeReg rd w).advance ⟨0, 1, 0, 0⟩) := by
  refine (conditionally_pass s hc _).trans ?_
  rw [beq_eq_false_iff_ne.mpr hd, refuseIf_false, hw]

/-- MRS that finds no PSR is refused (`43_psr_transfer.md` R251). -/
theorem exec_mrs_of_none {spsr : Bool} {rd : Reg} (hc : condHolds c s.cpsr = true) (hd : rd ≠ 15)
    (hw : s.psrValue spsr = none) : exec (.mrs c spsr rd) s = .refused .spsrInUserMode := by
  refine (conditionally_pass s hc _).trans ?_
  rw [beq_eq_false_iff_ne.mpr hd, refuseIf_false, hw]

/-- MSR of a whole word to the CPSR (`43_psr_transfer.md` R253). -/
theorem exec_msrAll_cpsr {rm : Reg} (hc : condHolds c s.cpsr = true) (hm : rm ≠ 15) :
    exec (.msrAll c false rm) s = writeWholeCpsr (s.readReg .rm 8 rm) s := by
  refine (conditionally_pass s hc _).trans ?_
  rw [beq_eq_false_iff_ne.mpr hm, refuseIf_false]
  rfl

/-- MSR of a whole word to an SPSR (`43_psr_transfer.md` R253). -/
theorem exec_msrAll_spsr {rm : Reg} (hc : condHolds c s.cpsr = true) (hm : rm ≠ 15) :
    exec (.msrAll c true rm) s = writeWholeSpsr (s.readReg .rm 8 rm) s := by
  refine (conditionally_pass s hc _).trans ?_
  rw [beq_eq_false_iff_ne.mpr hm, refuseIf_false]
  rfl

/-- MSR of flags from a register (`43_psr_transfer.md` R254). -/
theorem exec_msrFlags {rm : Reg} (hc : condHolds c s.cpsr = true) (hm : rm ≠ 15) (spsr : Bool) :
    exec (.msrFlags c spsr rm) s = writePsrFlags spsr (s.readReg .rm 8 rm) s := by
  refine (conditionally_pass s hc _).trans ?_
  rw [beq_eq_false_iff_ne.mpr hm, refuseIf_false]

/-- MSR of flags from a rotated immediate (`43_psr_transfer.md` R255). -/
theorem exec_msrFlagsImm (hc : condHolds c s.cpsr = true) (rot : BitVec 4) (imm : Byte) (spsr : Bool) :
    exec (.msrFlagsImm c spsr rot imm) s = writePsrFlags spsr (imm.extend.rotateRight (2 * rot.toNat)) s :=
  conditionally_pass s hc _

end

/-! ### What a word leaves in a PSR -/

section
variable {s : State} {w : Word}

/-- Flags of the SPSR of the current mode (`43_psr_transfer.md` R254). -/
theorem writePsrFlags_of_some {p : SavedPsr} (hp : s.savedOf s.cpsr.mode = some p) :
    writePsrFlags true w s = .next ((s.advance ⟨0, 1, 0, 0⟩).setSaved s.cpsr.mode (p.withTop w)) := by
  simp [writePsrFlags, hp]

/-- Flags of an SPSR in User mode (`43_psr_transfer.md` R251). -/
theorem writePsrFlags_of_none (hp : s.savedOf s.cpsr.mode = none) :
    writePsrFlags true w s = .refused .spsrInUserMode := by
  simp [writePsrFlags, hp]

/-- In User mode a word leaves the control bits of the CPSR (`43_psr_transfer.md` R256). -/
theorem writeWholeCpsr_of_user (hu : s.cpsr.mode = .usr) :
    writeWholeCpsr w s = .next ((s.advance ⟨0, 1, 0, 0⟩).setPsr (s.cpsr.withTop w)) := by
  simp [writeWholeCpsr, State.privileged, hu]

/-- User mode has no SPSR to write (`43_psr_transfer.md` R251). -/
theorem writeWholeSpsr_of_user (hu : s.cpsr.mode = .usr) : writeWholeSpsr w s = .refused .spsrInUserMode := by
  simp [writeWholeSpsr, State.privileged, hu]

/-- A mode outside Table 2 is written to no PSR (`10_state.md` R43). -/
theorem writeWhole_of_illegal (hm : s.cpsr.mode ≠ .usr) (hw : (SavedPsr.ofWord w).toPsr = none) :
    writeWholeCpsr w s = .refused .illegalMode ∧ writeWholeSpsr w s = .refused .illegalMode := by
  simp [writeWholeCpsr, writeWholeSpsr, State.privileged, hm, hw]

/-- In a privileged mode a word that names a mode is the whole CPSR or SPSR (`43_psr_transfer.md` R253). -/
theorem writeWhole_of_legal {q : Psr} (hm : s.cpsr.mode ≠ .usr) (hw : (SavedPsr.ofWord w).toPsr = some q) :
    writeWholeCpsr w s = .next ((s.advance ⟨0, 1, 0, 0⟩).setPsr q) ∧
      writeWholeSpsr w s = .next ((s.advance ⟨0, 1, 0, 0⟩).setSaved s.cpsr.mode (SavedPsr.ofWord w)) := by
  simp [writeWholeCpsr, writeWholeSpsr, State.privileged, hm, hw]

end

/-! ### The statements -/

/-- Settles O35: whichever PSR is read, its word gives its defined bits back. -/
theorem mrsReadsPsr : Obligations.MrsReadsPsr := by
  intro c rd s hc hd reads
  have hreads {spsr : Bool} {p : SavedPsr} (hp : s.psrValue spsr = some (p.word (Config.psrReserved s.drawIndex))) :
      reads (.mrs c spsr rd) p.n p.z p.c p.v p.i p.f p.m := by
    have hback := SavedPsr.ofWord_word p (Config.psrReserved s.drawIndex)
    exact ⟨_, _, exec_mrs_of_some hc hd hp, .writeReg_advance hd _ _, (Landed.writeReg hd _).advance_after _,
      congrArg SavedPsr.n hback, congrArg SavedPsr.z hback, congrArg SavedPsr.c hback, congrArg SavedPsr.v hback,
      congrArg SavedPsr.i hback, congrArg SavedPsr.f hback, congrArg SavedPsr.m hback,
      fun _ hk => p.getLsbD_word_reserved _ hk, State.writeReg_cpsr s rd _, (OnlyRegs.writeReg hd _).advance_after _,
      (NoAccess.writeReg s rd _).advance_after _⟩
  refine ⟨hreads (spsr := false) (p := s.cpsr.save) rfl, ?_⟩
  cases hs : s.savedOf s.cpsr.mode with
  | none => exact exec_mrs_of_none hc hd (by simp [State.psrValue, hs])
  | some p => exact hreads (by simp [State.psrValue, hs])

/-- Settles O36, by the mode and by whether the word names a mode of Table 2. -/
theorem msrWritesWholePsr : Obligations.MsrWritesWholePsr := by
  intro c rm s hc hr w keeps
  have hcpsr := exec_msrAll_cpsr hc hr
  have hspsr := exec_msrAll_spsr hc hr
  have hkeeps : keeps (s.advance ⟨0, 1, 0, 0⟩) := ⟨.advance s _, (OnlyRegs.advance s _).1, .advance s _⟩
  split
  case isTrue hu =>
    exact ⟨⟨_, hcpsr.trans (writeWholeCpsr_of_user hu), hkeeps, rfl, rfl⟩, hspsr.trans (writeWholeSpsr_of_user hu)⟩
  case isFalse hm =>
    split
    case h_1 hbits =>
      obtain ⟨hc', hs'⟩ := writeWhole_of_illegal hm (toPsr_ofWord_eq_none.mpr hbits)
      exact ⟨hcpsr.trans hc', hspsr.trans hs'⟩
    case h_2 m hbits =>
      have hq : (SavedPsr.ofWord w).toPsr = some _ := congrArg (Option.map _) hbits
      obtain ⟨hc', hs'⟩ := writeWhole_of_legal hm hq
      exact ⟨⟨_, hcpsr.trans hc', hkeeps, rfl, rfl⟩, _, hspsr.trans hs', hkeeps, rfl,
        State.savedOf_setSaved_self_and_others hm _⟩

/-- Settles O37: both forms write the flags of a word, and the SPSR is looked for in the current mode. -/
theorem msrWritesFlags : Obligations.MsrWritesFlags := by
  intro c rm rot imm s hc hr writes
  have hgoes := GoesOn.advance s ⟨0, 1, 0, 0⟩
  have hregs := OnlyRegs.advance s ⟨0, 1, 0, 0⟩
  have haccess := NoAccess.advance s ⟨0, 1, 0, 0⟩
  have hwrites {i : Bool → Instr} {w : Word} (hi : ∀ spsr, exec (i spsr) s = writePsrFlags spsr w s) :
      writes i w := by
    refine ⟨⟨_, hi false, hgoes.setPsr _, hregs.setPsr _, haccess.setPsr _, rfl⟩, ?_⟩
    cases hs : s.savedOf s.cpsr.mode with
    | none => exact (hi true).trans (writePsrFlags_of_none hs)
    | some p =>
      have hm : s.cpsr.mode ≠ .usr := by simpa [State.privileged] using State.privileged_of_savedOf hs
      exact ⟨_, (hi true).trans (writePsrFlags_of_some hs), hgoes.setSaved _ _, hregs.1.setSaved _ _,
        haccess.setSaved _ _, rfl, State.savedOf_setSaved_self_and_others hm _⟩
  exact ⟨hwrites (exec_msrFlags hc hr), hwrites (exec_msrFlagsImm hc rot imm)⟩

end Sys2Proof.Machine
end

section
/-! SUPPORT. Multiply and multiply-accumulate: how they end, the flags they leave, and how many internal cycles they
take (`44_multiply.md` R271 to R276). -/

namespace Sys2Proof.Machine

/-! ### The internal cycles -/

/-- The search finds the count `m` from any start up to `m`: the lower bound on `v` passes over the counts below `m`,
and the upper bound, which the last count does not need, stops at `m`. -/
theorem multiplyCyclesFrom_eq {v m fuel : Nat} (hstart : 16 - fuel ≤ m) (hm : m ≤ 16) (hlow : 2 ^ (2 * m - 3) ≤ v)
    (hhigh : m < 16 → v < 2 ^ (2 * m - 1)) : multiplyCyclesFrom v fuel = m := by
  induction fuel with
  | zero => exact Nat.le_antisymm hstart hm
  | succ fuel ih =>
    rw [multiplyCyclesFrom]
    rcases hstart.eq_or_lt with hhere | hbelow
    · rw [hhere, if_pos (hhigh (by omega))]
    · have hpass : 2 ^ (2 * (16 - (fuel + 1)) - 1) ≤ v :=
        (Nat.pow_le_pow_right (by decide) (by omega)).trans hlow
      rw [if_neg hpass.not_gt]
      exact ih (by omega)

/-- From 2 on the search gives the count. -/
theorem multiplyCycles_of_lt {w : Word} (h : 1 < w.toNat) : multiplyCycles w = multiplyCyclesFrom w.toNat 14 :=
  if_neg h.not_ge

/-- Settles O39: 1 is a case of its own, and the search finds 16 for want of a smaller count. -/
theorem multiplyCycleCount : Obligations.MultiplyCycleCount := by
  refine fun v => ⟨fun h => if_pos h, fun h => ?_, fun m h1 h16 hlow hhigh => ?_⟩
  · rw [multiplyCycles_of_lt (by omega)]
    exact multiplyCyclesFrom_eq (by decide) le_rfl h (absurd · (by decide))
  · have htwo : 2 ^ 1 ≤ v.toNat := (Nat.pow_le_pow_right (by decide) (by omega)).trans hlow
    rw [multiplyCycles_of_lt htwo]
    exact multiplyCyclesFrom_eq h1 h16.le hlow fun _ => Nat.lt_of_le_pred (by positivity) hhigh

/-! ### The result and the flags -/

section
variable {s : State} {c : Cond} {sf : Bool} {rd rs rm : Reg}

/-- MUL that passes writes the product; Rn is not looked at (`44_multiply.md` R271, R274). -/
theorem exec_mul_of_condHolds (hc : condHolds c s.cpsr = true) (hd : rd ≠ 15) (hs : rs ≠ 15) (hm : rm ≠ 15)
    (rn : Reg) :
    exec (.mul c sf rd rn rs rm) s =
      finishMultiply sf rd (s.readReg .rm 8 rm * s.readReg .rs 8 rs) (multiplyCycles (s.readReg .rs 8 rs)) s := by
  refine (conditionally_pass s hc _).trans ?_
  simp only [beq_eq_false_iff_ne.mpr hd, beq_eq_false_iff_ne.mpr hs, beq_eq_false_iff_ne.mpr hm, Bool.or_false,
    refuseIf_false]

/-- MLA that passes writes the product with Rn added (`44_multiply.md` R275). -/
theorem exec_mla_of_condHolds {rn : Reg} (hc : condHolds c s.cpsr = true) (hd : rd ≠ 15) (hn : rn ≠ 15)
    (hs : rs ≠ 15) (hm : rm ≠ 15) :
    exec (.mla c sf rd rn rs rm) s =
      finishMultiply sf rd (s.readReg .rm 8 rm * s.readReg .rs 8 rs + s.readReg .rn 8 rn)
        (multiplyCycles (s.readReg .rs 8 rs)) s := by
  refine (conditionally_pass s hc _).trans ?_
  simp only [beq_eq_false_iff_ne.mpr hd, beq_eq_false_iff_ne.mpr hn, beq_eq_false_iff_ne.mpr hs,
    beq_eq_false_iff_ne.mpr hm, Bool.or_false, refuseIf_false]

end

/-- With S = 1, N and Z are those of the result and V stays (`44_multiply.md` R273). -/
theorem Psr.withMultiply_eq (p : Psr) (w : Word) (free : Bool) :
    p.withMultiply w free = { p with n := w.getLsbD 31, z := decide (w = 0), c := free } := by
  rw [Psr.withMultiply, BitVec.msb_eq_getLsbD_last]
  rfl

/-- Settles O38: both end by writing a word, which is the exact result narrowed. -/
theorem multiplyWritesRd : Obligations.MultiplyWritesRd := by
  intro c sf rd rn rs rm s hc hd hs hm x y gives
  have hgives {i : Instr} {n : Nat} {w : Word} (hi : exec i s = finishMultiply sf rd w (multiplyCycles y) s)
      (hw : w.toNat = n % 2 ^ 32) : gives i n := by
    refine ⟨_, w, hi, hw, ?_, ?_, ⟨Config.mulCarry s.drawIndex, ?_⟩, ?_, ?_⟩
    · exact (GoesOn.writeReg_advance hd _ _).setPsr _
    · exact ((Landed.writeReg hd _).advance_after _).setPsr _
    · rw [State.setPsr_cpsr, Psr.withMultiply_eq]
    · exact ((OnlyRegs.writeReg hd _).advance_after _).setPsr _
    · exact ((NoAccess.writeReg s rd _).advance_after _).setPsr _
  refine ⟨hgives (exec_mul_of_condHolds hc hd hs hm rn) (BitVec.toNat_mul x y), fun hn => ?_⟩
  refine hgives (exec_mla_of_condHolds hc hd hn hs hm) ?_
  rw [BitVec.toNat_add, BitVec.toNat_mul, Nat.mod_add_mod]

end Sys2Proof.Machine
end

section
/-! SUPPORT. Single data transfer: a state within an instruction, where a load or a store stands before it ends, and the
bytes of a rotated word (`45_single_data_transfer.md` R281 to R295). -/

namespace Sys2Proof.Machine

/-! ### Within an instruction -/

/-- `t` is a state within the instruction that began in `s`: the registers `rs` of the current mode may have been
written and the accesses `accs` have been made; memory apart, nothing else has changed. -/
structure Within (s t : State) (rs : List Reg) (accs : List Access) : Prop where
  pc : t.pc = s.pc
  pipe : t.pipe = s.pipe
  hazard : t.hazard = s.hazard
  cpsr : t.cpsr = s.cpsr
  cycles : t.cycles = s.cycles
  outside : KeepsOutside s t
  regs : OnlyRegs s t rs
  made : Made s t accs

/-- An instruction begins with nothing done. -/
theorem Within.refl (s : State) : Within s s [] [] := ⟨rfl, rfl, rfl, rfl, rfl, .refl s, .refl s, .refl s⟩

section
variable {s t : State} {r q : Reg} {rs : List Reg} {acc : Access} {accs : List Access} {v : Word}

/-- A read adds its access. -/
theorem Within.load (h : Within s t rs accs) (ha : acc.opcode = false) : Within s (t.load acc) rs (accs ++ [acc]) :=
  ⟨h.pc, h.pipe, h.hazard, h.cpsr, h.cycles, h.outside, h.regs, h.made.trans (.load t ha)⟩

/-- A write adds its access. -/
theorem Within.store (h : Within s t rs accs) (ha : acc.opcode = false) (v : Word) :
    Within s (t.store acc v) rs (accs ++ [acc]) :=
  ⟨h.pc, h.pipe, h.hazard, h.cpsr, h.cycles, h.outside, h.regs, h.made.trans (.store t ha v)⟩

/-- A write of a register other than R15 adds the register. -/
theorem Within.writeReg (h : Within s t rs accs) (hr : r ≠ 15) (v : Word) :
    Within s (t.writeReg r v) (r :: rs) accs where
  pc := (State.writeReg_pc t hr v).trans h.pc
  pipe := (State.writeReg_pipe t hr v).trans h.pipe
  hazard := (State.writeReg_hazard t r v).trans h.hazard
  cpsr := (State.writeReg_cpsr t r v).trans h.cpsr
  cycles := (State.writeReg_cycles t r v).trans h.cycles
  outside := h.outside.trans (.writeReg t r v)
  made := h.made.congr (State.writeReg_bus t r v)
  regs := by
    obtain ⟨hregs, hspsr⟩ := h.regs
    refine ⟨fun n q hq hn => ?_, (State.writeReg_spsr t r v).trans hspsr⟩
    obtain ⟨hnr, hnrs⟩ := List.forall_mem_cons.mp hn
    rw [State.bankReg_writeReg t _ _ _ _ hr, h.cpsr, if_neg hnr]
    exact hregs n q hq hnrs

/-- A base that is written back is a register written. -/
theorem Within.writeBase (h : Within s t [] accs) {b : Bool} (hb : b = true → r ≠ 15) (v : Word) :
    Within s (t.writeBase b r v) (baseList b r) accs := by
  cases b with
  | false => exact h
  | true => exact h.writeReg (hb rfl) v

/-- A register written within an instruction lands there, under the hazard as a free value
(`70_reset_and_hazards.md` R470). -/
theorem Within.landed_writeReg (h : Within s t rs accs) (hr : r ≠ 15) (v : Word) :
    Landed s (t.writeReg r v) r v := by
  obtain ⟨-, -, -, -, -, hdraw⟩ := h.outside
  have hland := Landed.writeReg (s := t) hr v
  rwa [Landed, State.inHazard, h.hazard, h.cpsr, hdraw] at hland

/-- What has landed stays when another register is written. -/
theorem Within.landed_writeReg_of_ne (h : Within s t rs accs) (hland : Landed s t r v) (hr : r ≠ 15) (hq : q ≠ 15)
    (hne : r ≠ q) (x : Word) : Landed s (t.writeReg q x) r v := by
  have hslot : slot s.cpsr.mode r ≠ slot s.cpsr.mode q := fun he => hne (slot_injective hr hq he)
  rwa [Landed, State.bankReg_writeReg t _ _ _ _ hq, h.cpsr, if_neg hslot]

/-- A base that is written back lands. -/
theorem Within.landed_writeBase (h : Within s t rs accs) {b : Bool} (hb : b = true) (hr : r ≠ 15) (v : Word) :
    Landed s (t.writeBase b r v) r v := by
  subst hb
  exact h.landed_writeReg hr v

/-! The ends of an instruction. -/

/-- The next instruction follows. -/
theorem Within.goesOn (h : Within s t rs accs) (k : Cycles) : GoesOn s (t.advance k) k :=
  .advance_after h.pc h.pipe h.cycles h.outside k

/-- A jump ends it at its target. -/
theorem Within.goesTo (h : Within s t rs accs) (a : Word) (k : Cycles) : GoesTo s (t.jump a k) a k :=
  .jump h.outside h.cycles a k

/-- A data abort ends it with R14_abt 8 past the instruction (`60_exceptions.md` R405). -/
theorem Within.trapped (h : Within s t rs accs) (k : Cycles) :
    Trapped .dataAbort (s.pc + 8) s (t.spend k).raiseDataAbort s.cpsr.mode rs :=
  trapped_dataAbort k h.cpsr h.regs.2 h.pc h.outside h.regs.1

/-- A data abort adds its fetch in the old mode (`48_swi_undefined.md` R354). -/
theorem Within.made_raiseDataAbort (h : Within s t rs accs) (k : Cycles) :
    Made s (t.spend k).raiseDataAbort (accs ++ [s.abortFetch]) :=
  Made.raiseDataAbort (t := t.spend k) h.made h.pc h.cpsr

/-- What has landed stays when a data abort is taken, unless it stands in R14_abt. -/
theorem Landed.raiseDataAbort (h : Landed s t r v) (hslot : slot s.cpsr.mode r ≠ slot .abt 14) (k : Cycles) :
    Landed s (t.spend k).raiseDataAbort r v := by
  rw [Landed, State.bankReg_raiseDataAbort, if_neg hslot]
  exact h

end

/-! ### What a load and a store come to -/

section
variable {s : State} {o : OffsetForm} {byte : Bool} {c : Cond} {p u w : Bool} {rn rd : Reg}

/-- The state after the access of a load and the write-back of its base (`45_single_data_transfer.md` R281, R282). -/
def OffsetForm.afterLoad (o : OffsetForm) (byte p u w : Bool) (rn : Reg) (s : State) : State :=
  (s.load (o.access true byte p u w rn s)).writeBase (writesBack p w) rn (o.modified u rn s)

/-- The state after the access of a store and the write-back of its base (`45_single_data_transfer.md` R281, R282). -/
def OffsetForm.afterStore (o : OffsetForm) (byte p u w : Bool) (rn rd : Reg) (s : State) : State :=
  (s.store (o.access false byte p u w rn s) (s.readReg .rd 12 rd)).writeBase (writesBack p w) rn (o.modified u rn s)

/-- LDR and LDRB are their access and write-back followed by the data abort, the jump or the write of Rd
(`45_single_data_transfer.md` section 3). -/
theorem exec_load_eq (hc : condHolds c s.cpsr = true) (hl : o.legal = true) (hb : baseOk p w rn = true)
    (hd : byte = true → rd ≠ 15) :
    exec (o.instr true byte c p u w rn rd) s =
      if s.aborts (o.access true byte p u w rn s) then
        .next ((o.afterLoad byte p u w rn s).spend ⟨1, 1, 1, 0⟩).raiseDataAbort
      else if rd = 15 then
        .next ((o.afterLoad byte p u w rn s).jump (s.loaded (o.access true byte p u w rn s)) ⟨2, 2, 1, 0⟩)
      else
        .next (((o.afterLoad byte p u w rn s).writeReg rd (s.loaded (o.access true byte p u w rn s))).advance
          ⟨1, 1, 1, 0⟩) :=
  exec_loadForm s o byte c p u w rn rd hc hl hb hd

/-- STR and STRB are their access and write-back followed by the data abort or the next instruction
(`45_single_data_transfer.md` section 3). -/
theorem exec_store_eq (hc : condHolds c s.cpsr = true) (hl : o.legal = true) (hb : baseOk p w rn = true)
    (hd : storeOk p w rn rd = true) :
    exec (o.instr false byte c p u w rn rd) s =
      if s.aborts (o.access false byte p u w rn s) then
        .next ((o.afterStore byte p u w rn rd s).spend ⟨2, 0, 0, 0⟩).raiseDataAbort
      else .next ((o.afterStore byte p u w rn rd s).advance ⟨2, 0, 0, 0⟩) :=
  exec_storeForm s o byte c p u w rn rd hc hl hb hd

/-! The access has been made and at most the base has been written, which lands (`45_single_data_transfer.md` R282). -/

theorem within_afterLoad (hb : baseOk p w rn = true) :
    Within s (o.afterLoad byte p u w rn s) (baseList (writesBack p w) rn) [o.access true byte p u w rn s] :=
  ((Within.refl s).load rfl).writeBase (ne_of_baseOk hb) _

theorem within_afterStore (hb : baseOk p w rn = true) :
    Within s (o.afterStore byte p u w rn rd s) (baseList (writesBack p w) rn) [o.access false byte p u w rn s] :=
  ((Within.refl s).store rfl _).writeBase (ne_of_baseOk hb) _

theorem landed_afterLoad (hb : baseOk p w rn = true) (hw : writesBack p w = true) :
    Landed s (o.afterLoad byte p u w rn s) rn (o.modified u rn s) :=
  ((Within.refl s).load rfl).landed_writeBase hw (ne_of_baseOk hb hw) _

theorem landed_afterStore (hb : baseOk p w rn = true) (hw : writesBack p w = true) :
    Landed s (o.afterStore byte p u w rn rd s) rn (o.modified u rn s) :=
  ((Within.refl s).store rfl _).landed_writeBase hw (ne_of_baseOk hb hw) _

/-- Neither a load nor its write-back changes a byte. -/
@[simp] theorem afterLoad_byteAt (a : Word) : (o.afterLoad byte p u w rn s).byteAt a = s.byteAt a := by
  simp [OffsetForm.afterLoad]

/-- The write-back leaves memory as the store made it. -/
@[simp] theorem afterStore_byteAt (a : Word) :
    (o.afterStore byte p u w rn rd s).byteAt a =
      (s.store (o.access false byte p u w rn s) (s.readReg .rd 12 rd)).byteAt a := by
  simp [OffsetForm.afterStore]

/-- The data of a load: the byte extended, or the word rotated by its offset (`45_single_data_transfer.md` R289 to
R291). -/
theorem State.loaded_access (s : State) (o : OffsetForm) (byte p u w : Bool) (rn : Reg) :
    let acc := o.access true byte p u w rn s
    s.loaded acc =
      if byte then (s.readByte acc.addr).extend else (s.wordAt acc.addr).rotateRight (8 * (acc.addr.toNat % 4)) := by
  intro acc
  rw [← field_low_toNat]
  cases byte <;> rfl

end

/-! ### The statements -/

/-- Settles O40: after the access and the write-back, Rd is written last. -/
theorem loadWritesRd : Obligations.LoadWritesRd := by
  intro byte c p u w rn rd o s hc hl hb hd acc ha
  have hexec := (exec_load_eq hc hl hb fun _ => hd).trans
    ((if_neg (ne_true_of_eq_false ha)).trans (if_neg hd))
  have hafter := within_afterLoad (s := s) (o := o) (byte := byte) (u := u) hb
  have hend := hafter.writeReg hd (s.loaded acc)
  refine ⟨_, hexec, hend.goesOn _, ?_, fun hw hne => ?_, hend.cpsr, hend.regs, fun a => ?_, hend.made⟩
  · rw [← State.loaded_access]
    exact hafter.landed_writeReg hd _
  · exact hafter.landed_writeReg_of_ne (landed_afterLoad hb hw) (ne_of_baseOk hb hw) hd hne _
  · simp

/-- Settles O41: after the access and the write-back, the rotated word is the target of a jump. -/
theorem loadToPc : Obligations.LoadToPc := by
  intro c p u w rn o s hc hl hb acc ha
  have hexec := (exec_load_eq (byte := false) hc hl hb nofun).trans
    ((if_neg (ne_true_of_eq_false ha)).trans (if_pos rfl))
  have hafter := within_afterLoad (s := s) (o := o) (byte := false) (u := u) hb
  have hword : s.loaded acc = (s.wordAt acc.addr).rotateRight (8 * (acc.addr.toNat % 4)) :=
    State.loaded_access s o false p u w rn
  refine ⟨_, hexec, ?_, landed_afterLoad hb, hafter.cpsr, hafter.regs, fun a => ?_, hafter.made⟩
  · rw [← hword]
    exact hafter.goesTo _ _
  · simp

/-- Settles O42: the store decides the bytes and the write-back leaves them. -/
theorem storeWritesMemory : Obligations.StoreWritesMemory := by
  intro byte c p u w rn rd o s hc hwf hl hb hd acc ha
  have hexec := (exec_store_eq hc hl hb hd).trans (if_neg (ne_true_of_eq_false ha))
  have hafter := within_afterStore (s := s) (o := o) (byte := byte) (u := u) (rd := rd) hb
  exact ⟨_, hexec, hafter.goesOn _, fun a hr => (afterStore_byteAt a).trans (Stored.store hwf ha a hr),
    fun a hr => (afterStore_byteAt a).trans (KeepsMemoryBut.store hwf a hr), landed_afterStore hb, hafter.cpsr,
    hafter.regs, hafter.made⟩

/-- Settles O43: an aborted load and an aborted store both end with the data abort, after an access that changed no
byte and the write-back. -/
theorem singleTransferAborts : Obligations.SingleTransferAborts := by
  intro load byte c p u w rn rd o s hc hwell acc ha
  rw [wellFormed_offsetForm, Bool.and_eq_true, Bool.and_eq_true] at hwell
  obtain ⟨⟨hb, hd⟩, hl⟩ := hwell
  cases load with
  | true =>
    have hafter := within_afterLoad (s := s) (o := o) (byte := byte) (u := u) hb
    have hd15 : byte = true → rd ≠ 15 := fun hbyte => by simpa [hbyte] using hd
    exact ⟨_, (exec_load_eq hc hl hb hd15).trans (if_pos ha), hafter.trapped _, fun a => by simp,
      fun hw hslot => (landed_afterLoad hb hw).raiseDataAbort hslot _, hafter.made_raiseDataAbort _⟩
  | false =>
    have hafter := within_afterStore (s := s) (o := o) (byte := byte) (u := u) (rd := rd) hb
    exact ⟨_, (exec_store_eq hc hl hb hd).trans (if_pos ha), hafter.trapped _,
      fun a => (afterStore_byteAt a).trans (KeepsMemory.store_of_aborts ha a),
      fun hw hslot => (landed_afterStore hb hw).raiseDataAbort hslot _, hafter.made_raiseDataAbort _⟩

/-! ### The bytes of a rotated word -/

/-- A rotation by whole bytes moves each byte down by as many places. -/
theorem field_rotateRight_bytes (m : Word) (o : Nat) {k : Nat} (hk : k < 4) :
    field (m.rotateRight (8 * o)) (8 * k) 8 = field m (8 * ((k + o) % 4)) 8 := by
  ext i hi
  rw [← BitVec.getLsbD_eq_getElem, ← BitVec.getLsbD_eq_getElem, getLsbD_field, getLsbD_field,
    getLsbD_rotateRight_word _ _ (by omega)]
  congr 2
  omega

/-- The bytes of a word are those it is assembled from (`20_memory.md` R71, R72). -/
theorem byteOf_wordAt (s : State) (a : Word) {k : Nat} (hk : k < 4) :
    byteOf s.bigend (s.wordAt a) k = s.readByte (wordAddr a + BitVec.ofNat 32 k) := by
  rw [State.wordAt]
  cases s.bigend <;> match k, hk with
  | 0, _ | 1, _ | 2, _ | 3, _ => simp [byteOf, assembleWord, field_cat_low, field_cat_high]

/-- Settles O44: the rotation moves the bytes of the aligned word, whose places the byte order decides. -/
theorem loadedWordRotates : Obligations.LoadedWordRotates := by
  intro s a k hk value
  have hrotate : field value (8 * k) 8 = field (s.wordAt a) (8 * ((k + a.toNat % 4) % 4)) 8 :=
    field_rotateRight_bytes _ _ hk
  have hlt : (k + a.toNat % 4) % 4 < 4 := Nat.mod_lt _ (by decide)
  rw [hrotate]
  generalize (k + a.toNat % 4) % 4 = j at hlt
  refine ⟨fun hbig => ?_, fun hbig => ?_⟩
  · rw [← byteOf_wordAt s a hlt, hbig]
    rfl
  · have hplace : 24 - 8 * (3 - j) = 8 * j := by omega
    rw [← byteOf_wordAt s a (by omega), hbig, byteOf, if_pos rfl, hplace]

end Sys2Proof.Machine
end

section
/-! SUPPORT. Block data transfer: the registers of a list, a state within the reads of an LDM, and what LDM and STM come
to before they end (`46_block_data_transfer.md` R311 to R327). -/

namespace Sys2Proof.Machine

/-! ### Register lists -/

section
variable {list : BitVec 16} {r : Reg} {k : Nat}

/-- The registers of a list ascend (`46_block_data_transfer.md` R312). -/
theorem pairwise_regsOf (list : BitVec 16) : (regsOf list).Pairwise fun r q => r.val < q.val :=
  List.Pairwise.filter _ (by decide)

/-- A list has at most sixteen registers. -/
theorem countOf_le (list : BitVec 16) : countOf list ≤ 16 := List.length_filter_le _ allRegs

/-- A listed register is one of the list, R15 aside. -/
theorem mem_listed : r ∈ listed list ↔ r ∈ regsOf list ∧ r ≠ 15 := by
  simp [listed]

/-- The registers other than R15 stand at the same places in both lists, since R15 is the last. -/
theorem getElem?_listed (h : (regsOf list)[k]? = some r) (hr : r ≠ 15) : (listed list)[k]? = some r := by
  rw [regsOf_eq_listed] at h
  by_cases hk : k < (listed list).length
  · rwa [List.getElem?_append_left hk] at h
  · rw [List.getElem?_append_right (not_lt.mp hk)] at h
    have hmem := List.mem_of_getElem? h
    split at hmem
    · exact absurd (List.mem_singleton.mp hmem) hr
    · simp at hmem

/-- R15 is the last register of its list (`46_block_data_transfer.md` R320). -/
theorem ne_r15_of_lt (h : (regsOf list)[k]? = some r) (hk : k + 1 < countOf list) : r ≠ 15 := by
  have hlt : k < (regsOf list).length := Nat.lt_of_succ_lt hk
  have hnext : (regsOf list)[k] < (regsOf list)[k + 1]'hk :=
    (pairwise_regsOf list).rel_get_of_lt (a := ⟨k, hlt⟩) (b := ⟨k + 1, hk⟩) (Nat.lt_succ_self k)
  rw [List.getElem?_eq_getElem hlt, Option.some_inj] at h
  rintro rfl
  rw [h] at hnext
  exact absurd hnext (Fin.le_last _).not_gt

/-- The registers before a place of the list are, R15 aside, those before it in the list without R15. -/
theorem mem_take_listed (h : r ∈ (regsOf list).take k) (hr : r ≠ 15) : r ∈ (listed list).take k := by
  obtain ⟨i, hi⟩ := List.mem_iff_getElem?.mp h
  rw [List.getElem?_take] at hi
  split at hi
  case isTrue hik =>
    refine List.mem_iff_getElem?.mpr ⟨i, ?_⟩
    rw [List.getElem?_take, if_pos hik]
    exact getElem?_listed hi hr
  case isFalse => cases hi

end

/-! ### Registers kept -/

section
variable {s t v : State} {b : Mode} {rs ls : List Reg}

/-- What is kept in two steps. -/
theorem KeepsRegs.trans (h : KeepsRegs s t b rs) (h2 : KeepsRegs t v b ls) : KeepsRegs s v b (rs ++ ls) := by
  intro n q hq hn
  obtain ⟨hrs, hls⟩ := List.forall_mem_append.mp hn
  exact (h2 n q hq hls).trans (h n q hq hrs)

/-- A block load keeps what it does not name. -/
theorem KeepsRegs.loadRegs (s : State) (ub ab : Bool) (a : Word) (list : BitVec 16) :
    KeepsRegs s (s.loadRegs ub ab a (regsOf list)) (s.landBank ub) (listed list) :=
  fun n q _ hn => s.bankReg_loadRegs_of_not_mem ub ab a _ n q fun r hr h15 => hn r (mem_listed.mpr ⟨hr, h15⟩)

/-- A block load keeps what it does not name before its first abort (`46_block_data_transfer.md` R325). -/
theorem KeepsRegs.loadRegs_stop {a : Word} {j : Nat} (ub : Bool) (list : BitVec 16)
    (ha : s.aborts (s.wordAccess (wordPlace a j) false) = true) :
    KeepsRegs s (s.loadRegs ub false a (regsOf list)) (s.landBank ub) ((listed list).take j) :=
  fun n q _ hn => s.bankReg_loadRegs_stop ub a _ j n q ha fun r hr h15 => hn r (mem_take_listed hr h15)

end

/-! ### Within a block load -/

/-- `t` is a state within an LDM that began in `s`: the registers `rs` of the bank of mode `b` may have been written and
the reads `accs` have been made; nothing else has changed. -/
structure Loading (s t : State) (b : Mode) (rs : List Reg) (accs : List Access) : Prop where
  pc : t.pc = s.pc
  pipe : t.pipe = s.pipe
  hazard : t.hazard = s.hazard
  cpsr : t.cpsr = s.cpsr
  spsr : t.spsr = s.spsr
  mem : t.mem = s.mem
  cycles : t.cycles = s.cycles
  outside : KeepsOutside s t
  regs : KeepsRegs s t b rs
  made : Made s t accs

section
variable {s t : State} {b : Mode} {rs ls : List Reg} {accs : List Access} {rn : Reg} {w : Bool}

/-- A block load begins with the write-back of its base (`46_block_data_transfer.md` R317). -/
theorem Loading.writeBase (hr : rn ≠ 15) (hw : w = true → b = s.cpsr.mode) (x : Word) :
    Loading s (s.writeBase w rn x) b (baseList w rn) [] := by
  cases w with
  | false => exact ⟨rfl, rfl, rfl, rfl, rfl, rfl, rfl, .refl s, fun _ _ _ _ => rfl, .refl s⟩
  | true =>
    have h := (Within.refl s).writeReg hr x
    obtain ⟨hregs, hspsr⟩ := h.regs
    rw [hw rfl]
    exact ⟨h.pc, h.pipe, h.hazard, h.cpsr, hspsr, State.writeReg_mem s rn x, h.cycles, h.outside, hregs, h.made⟩

/-- The reads follow. -/
theorem Loading.loadRegs (h : Loading s t b rs accs) {ub ab : Bool} {a : Word} {l : List Reg}
    (hregs : KeepsRegs t (t.loadRegs ub ab a l) b ls) :
    Loading s (t.loadRegs ub ab a l) b (rs ++ ls) (accs ++ s.wordAccesses a l.length false) where
  pc := (State.loadRegs_pc t ub ab a l).trans h.pc
  pipe := (State.loadRegs_pipe t ub ab a l).trans h.pipe
  hazard := (State.loadRegs_hazard t ub ab a l).trans h.hazard
  cpsr := (State.loadRegs_cpsr t ub ab a l).trans h.cpsr
  spsr := (State.loadRegs_spsr t ub ab a l).trans h.spsr
  mem := (State.loadRegs_mem t ub ab a l).trans h.mem
  cycles := (State.loadRegs_cycles t ub ab a l).trans h.cycles
  outside := h.outside.trans (by simp [KeepsOutside])
  regs := h.regs.trans hregs
  made := by
    have haccs : t.wordAccesses a l.length false = s.wordAccesses a l.length false := by
      simp only [State.wordAccesses, State.wordAccess, State.privileged, h.cpsr]
    exact haccs ▸ h.made.trans (t.made_loadRegs ub ab a l)

/-- The base put right after an abort is what it was, or a base written back (`46_block_data_transfer.md` R325). -/
theorem Loading.restoreBase (h : Loading s t b (baseList w rn ++ ls) accs) (hr : rn ≠ 15)
    (hw : w = true → b = s.cpsr.mode) (x : Word) :
    Loading s (t.restoreBase w rn x (s.bankReg s.cpsr.mode rn)) b (baseList w rn ++ ls) accs := by
  obtain ⟨hpc, hpipe, hcpsr, hspsr, hmem, hbus, hout⟩ := t.restoreBase_fields w rn x (s.bankReg s.cpsr.mode rn) hr
  obtain ⟨hhazard, hcycles⟩ : (t.restoreBase w rn x (s.bankReg s.cpsr.mode rn)).hazard = t.hazard ∧
      (t.restoreBase w rn x (s.bankReg s.cpsr.mode rn)).cycles = t.cycles := by
    unfold State.restoreBase
    cases w <;> simp
  refine ⟨hpc.trans h.pc, hpipe.trans h.pipe, hhazard.trans h.hazard, hcpsr.trans h.cpsr, hspsr.trans h.spsr,
    hmem.trans h.mem, hcycles.trans h.cycles, h.outside.trans hout, fun n q hq hn => ?_, h.made.congr hbus⟩
  rw [State.bankReg_restoreBase _ _ _ _ _ _ _ hr, h.cpsr]
  split
  case isTrue hslot =>
    cases w with
    | false => exact (congrArg s.regs.get hslot).symm
    | true => exact absurd (hslot.trans (congrArg (slot · rn) (hw rfl).symm)) (hn rn (by simp [baseList]))
  case isFalse => exact h.regs n q hq hn

/-- The base of an aborted LDM is a base written back or what it held before (`46_block_data_transfer.md` R325). -/
theorem Loading.bankReg_restoreBase_self (h : Loading s t b rs accs) (hr : rn ≠ 15) (x old : Word) :
    (t.restoreBase w rn x old).bankReg s.cpsr.mode rn = if w then s.landValue false rn x else old := by
  obtain ⟨-, -, -, -, -, hdraw⟩ := h.outside
  rw [State.bankReg_restoreBase _ _ _ _ _ _ _ hr, h.cpsr, if_pos rfl, State.inHazard, h.hazard, h.cpsr, hdraw]
  rfl

/-- The other registers stand as they were loaded. -/
theorem Loading.bankReg_restoreBase_of_ne (h : Loading s t b rs accs) (hr : rn ≠ 15) {m : Mode} {q : Reg}
    (hq : slot m q ≠ slot s.cpsr.mode rn) (x old : Word) :
    (t.restoreBase w rn x old).bankReg m q = t.bankReg m q := by
  rw [State.bankReg_restoreBase _ _ _ _ _ _ _ hr, h.cpsr, if_neg hq]

/-- A data abort writes no register but R14_abt (`60_exceptions.md` R405). -/
theorem State.bankReg_raiseDataAbort_of_ne {m : Mode} {q : Reg} (hq : slot m q ≠ slot .abt 14) (k : Cycles) :
    (t.spend k).raiseDataAbort.bankReg m q = t.bankReg m q := by
  rw [State.bankReg_raiseDataAbort, if_neg hq, State.spend_bankReg]

/-- What a load leaves in a register of its bank, in the words of the claims. -/
theorem State.bankReg_eq_landValue_iff {ub : Bool} {q : Reg} {x : Word} :
    t.bankReg (s.landBank ub) q = s.landValue ub q x ↔
      if ub then t.bankReg .usr q = x else Landed s t q x := by
  cases ub <;> rfl

/-- A block load into the bank of the mode is an instruction that writes registers of the mode. -/
theorem Loading.within (h : Loading s t s.cpsr.mode rs accs) : Within s t rs accs :=
  ⟨h.pc, h.pipe, h.hazard, h.cpsr, h.cycles, h.outside, ⟨h.regs, h.spsr⟩, h.made⟩

/-- Reads change no byte. -/
theorem Loading.keepsMemory (h : Loading s t b rs accs) : KeepsMemory s t := fun a => by
  rw [State.byteAt, State.byteAt, h.mem]

/-- The CPSR to restore is that of the SPSR of the mode before (`46_block_data_transfer.md` R319). -/
theorem Loading.savedOf (h : Loading s t b rs accs) : t.savedOf t.cpsr.mode = s.savedOf s.cpsr.mode := by
  rw [h.cpsr]
  cases s.cpsr.mode <;> simp only [State.savedOf, h.spsr]

/-- Where no access of a transfer aborts, the transfer completes. -/
theorem NoneAborts.not_anyAborts {write : Bool} {n : Nat} {a : Word} (h : NoneAborts s write n a) :
    ¬ s.anyAborts write n a = true := ne_true_of_eq_false ((s.anyAborts_eq_false write n a).mpr h)

end

/-! ### What an LDM comes to -/

/-- The state after the write-back of the base and the reads of an LDM (`46_block_data_transfer.md` R322), `ub` telling
a load of the User bank. -/
def State.afterReads (s : State) (p u ub w : Bool) (rn : Reg) (list : BitVec 16) : State :=
  (s.writeBase w rn (s.blockEnd u rn list)).loadRegs ub false (s.blockAt p u rn list) (regsOf list)

section
variable {s : State} {c : Cond} {p u sb ub w : Bool} {rn r : Reg} {list : BitVec 16} {j k : Nat}

/-- LDM is its write-back and reads followed by the data abort, the return, the jump or the next instruction
(`46_block_data_transfer.md` R319, R320, R325). -/
theorem exec_ldm_eq (hc : condHolds c s.cpsr = true) (hl : list ≠ 0) (hr : rn ≠ 15)
    (hp : sb = true → s.cpsr.mode ≠ .usr) (hub : (sb && !list.getLsbD 15) = ub) (hw : (ub && w) = false) :
    exec (.ldm c p u sb w rn list) s =
      if s.anyAborts false (countOf list) (s.blockAt p u rn list) then
        .next ((((s.afterReads p u ub w rn list).restoreBase w rn (s.blockEnd u rn list)
          (s.bankReg s.cpsr.mode rn)).spend (ldmCycles (countOf list) false)).raiseDataAbort)
      else if list.getLsbD 15 then
        if sb then
          (s.afterReads p u ub w rn list).returnTo
            (s.wordAt (wordPlace (s.blockAt p u rn list) (countOf list - 1))) (ldmCycles (countOf list) true)
        else
          .next ((s.afterReads p u ub w rn list).jump
            (s.wordAt (wordPlace (s.blockAt p u rn list) (countOf list - 1))) (ldmCycles (countOf list) true))
      else .next { (s.afterReads p u ub w rn list).advance (ldmCycles (countOf list) false) with hazard := ub } := by
  subst hub
  exact exec_ldm s c p u sb w rn list hc hl hr hp hw

/-! What a write-back leaves of the reads that follow it. -/

@[simp] theorem State.writeBase_landBank (x : Word) : (s.writeBase w rn x).landBank ub = s.landBank ub := by
  simp [State.landBank]

@[simp] theorem State.writeBase_landValue (x y : Word) :
    (s.writeBase w rn x).landValue ub r y = s.landValue ub r y := by
  simp [State.landValue]

@[simp] theorem State.writeBase_wordAccess (x a : Word) (write : Bool) :
    (s.writeBase w rn x).wordAccess a write = s.wordAccess a write := State.writeBase_dataAccess s w rn x a .word write

/-- A User bank load, which writes no base back, is the only one into another bank than that of the mode. -/
theorem State.landBank_of_writeBack (hw : (ub && w) = false) : w = true → s.landBank ub = s.cpsr.mode := by
  rintro rfl
  rw [Bool.and_true] at hw
  rw [hw]
  rfl

/-- The reads of an LDM change its registers and its base. -/
theorem loading_afterReads (p u : Bool) (list : BitVec 16) (hr : rn ≠ 15) (hw : (ub && w) = false) :
    Loading s (s.afterReads p u ub w rn list) (s.landBank ub) (baseList w rn ++ listed list)
      (s.wordAccesses (s.blockAt p u rn list) (countOf list) false) := by
  have hbase := Loading.writeBase (s := s) hr (State.landBank_of_writeBack hw) (s.blockEnd u rn list)
  exact hbase.loadRegs (by simpa using KeepsRegs.loadRegs (s.writeBase w rn (s.blockEnd u rn list)) ub false _ list)

/-- When a read aborts, an LDM changes its base and the registers before that read (`46_block_data_transfer.md`
R325). -/
theorem loading_afterReads_stop (hr : rn ≠ 15) (hw : (ub && w) = false)
    (ha : s.aborts (s.wordAccess (wordPlace (s.blockAt p u rn list) j) false) = true) :
    Loading s (s.afterReads p u ub w rn list) (s.landBank ub) (baseList w rn ++ (listed list).take j)
      (s.wordAccesses (s.blockAt p u rn list) (countOf list) false) := by
  have hbase := Loading.writeBase (s := s) hr (State.landBank_of_writeBack hw) (s.blockEnd u rn list)
  have hstop := KeepsRegs.loadRegs_stop (s := s.writeBase w rn (s.blockEnd u rn list)) ub list (by simpa using ha)
  exact hbase.loadRegs (by simpa using hstop)

/-- A register of the list takes its word, if no read up to it aborts; it may be the base, whose write-back came
before (`46_block_data_transfer.md` R317). -/
theorem bankReg_afterReads (hk : (regsOf list)[k]? = some r) (hr : r ≠ 15)
    (ha : ∀ i ≤ k, s.aborts (s.wordAccess (wordPlace (s.blockAt p u rn list) i) false) = false) :
    (s.afterReads p u ub w rn list).bankReg (s.landBank ub) r =
      s.landValue ub r (s.wordAt (wordPlace (s.blockAt p u rn list) k)) := by
  have h := State.bankReg_loadRegs (s.writeBase w rn (s.blockEnd u rn list)) ub (s.blockAt p u rn list) _ k r hk
    (nodup_regsOf list) hr (by simpa using ha)
  simpa [State.afterReads] using h

/-- A register of the list takes its word, if no read aborts (`46_block_data_transfer.md` R322). -/
theorem bankReg_afterReads_of_noneAborts (hk : (regsOf list)[k]? = some r) (hr : r ≠ 15)
    (ha : NoneAborts s false (countOf list) (s.blockAt p u rn list)) :
    (s.afterReads p u ub w rn list).bankReg (s.landBank ub) r =
      s.landValue ub r (s.wordAt (wordPlace (s.blockAt p u rn list) k)) := by
  obtain ⟨hlt, -⟩ := List.getElem?_eq_some_iff.mp hk
  exact bankReg_afterReads hk hr fun i hi => ha i (hi.trans_lt hlt)

/-- A base that is written back and not loaded lands (`46_block_data_transfer.md` R317). -/
theorem landed_base_afterReads (hr : rn ≠ 15) (hw : w = true) (hn : rn ∉ regsOf list) :
    Landed s (s.afterReads p u false w rn list) rn (s.blockEnd u rn list) := by
  have hkeep : ∀ r ∈ regsOf list, r ≠ 15 → slot s.cpsr.mode rn ≠ slot s.cpsr.mode r :=
    fun r hmem h15 he => hn (slot_injective hr h15 he ▸ hmem)
  rw [Landed, State.afterReads, State.bankReg_loadRegs_of_not_mem]
  · exact (Within.refl s).landed_writeBase hw hr _
  · simpa [State.landBank] using hkeep

end

/-! ### What an STM comes to -/

section
variable {s t v : State} {c : Cond} {p u sb w : Bool} {rn : Reg} {list : BitVec 16}

/-- The writes of an STM make their accesses and change no register. -/
theorem within_storeWords (s : State) (a : Word) (vs : List Word) :
    Within s (s.storeWords a vs) [] (s.wordAccesses a vs.length true) where
  pc := State.storeWords_pc s a vs
  pipe := State.storeWords_pipe s a vs
  hazard := State.storeWords_hazard s a vs
  cpsr := State.storeWords_cpsr s a vs
  cycles := State.storeWords_cycles s a vs
  outside := by simp [KeepsOutside]
  regs := ⟨fun _ _ _ _ => by rw [State.bankReg, State.bankReg, State.storeWords_regs], State.storeWords_spsr s a vs⟩
  made := s.made_storeWords a vs

/-- Only the words written and the bytes of the storage count. -/
theorem WordsStored.congr {a : Word} {n : Nat} {x y : Nat → Word} (h : WordsStored s t a n x)
    (hbytes : ∀ b, v.byteAt b = t.byteAt b) (hwords : ∀ k < n, x k = y k) : WordsStored s v a n y := by
  obtain ⟨hstored, hkept⟩ := h
  refine ⟨fun k hk b hb => ?_, fun b hb => (hbytes b).trans (hkept b hb)⟩
  rw [hbytes, ← hwords k hk]
  exact hstored k hk b hb

/-- What an STM stores for a register (`46_block_data_transfer.md` R316, R318, R321). -/
def State.blockWord (s : State) (u sb w : Bool) (rn : Reg) (list : BitVec 16) (r : Reg) : Word :=
  s.storedFor sb w rn (s.readReg .rn 8 rn) (s.blockEnd u rn list) (regsOf list) r

/-- The state after the writes of an STM and the write-back of its base (`46_block_data_transfer.md` R323, R326). -/
def State.afterWrites (s : State) (p u sb w : Bool) (rn : Reg) (list : BitVec 16) : State :=
  (s.storeWords (s.blockAt p u rn list) ((regsOf list).map (s.blockWord u sb w rn list))).writeBase w rn
    (s.blockEnd u rn list)

/-- STM is its writes and write-back followed by the data abort or the next instruction
(`46_block_data_transfer.md` R323, R326). -/
theorem exec_stm_eq (hc : condHolds c s.cpsr = true) (hl : list ≠ 0) (hr : rn ≠ 15)
    (hp : sb = true → s.cpsr.mode ≠ .usr ∧ w = false) :
    exec (.stm c p u sb w rn list) s =
      if s.anyAborts true (countOf list) (s.blockAt p u rn list) then
        .next ((s.afterWrites p u sb w rn list).spend ⟨2, countOf list - 1, 0, 0⟩).raiseDataAbort
      else .next ((s.afterWrites p u sb w rn list).advance ⟨2, countOf list - 1, 0, 0⟩) :=
  exec_stm s c p u sb w rn list hc hl hr hp

/-- The writes of an STM and its write-back change at most the base. -/
theorem within_afterWrites (p u sb w : Bool) (list : BitVec 16) (hr : rn ≠ 15) :
    Within s (s.afterWrites p u sb w rn list) (baseList w rn)
      (s.wordAccesses (s.blockAt p u rn list) (countOf list) true) := by
  have h := within_storeWords s (s.blockAt p u rn list) ((regsOf list).map (s.blockWord u sb w rn list))
  rw [List.length_map] at h
  exact h.writeBase (fun _ => hr) _

/-- A base that is written back lands. -/
theorem landed_base_afterWrites (p u sb : Bool) (list : BitVec 16) (hr : rn ≠ 15) (hw : w = true) :
    Landed s (s.afterWrites p u sb w rn list) rn (s.blockEnd u rn list) :=
  (within_storeWords s _ _).landed_writeBase hw hr _

/-- The writes of an STM store its registers; the write-back leaves them. -/
theorem wordsStored_afterWrites (p u sb w : Bool) (rn : Reg) (list : BitVec 16) (hwf : Memory.wf s.mem = true) :
    WordsStored s (s.afterWrites p u sb w rn list) (s.blockAt p u rn list) (countOf list)
      fun k => s.blockWord u sb w rn list ((regsOf list).getD k 0) := by
  have hlen : ((regsOf list).map (s.blockWord u sb w rn list)).length = countOf list := List.length_map ..
  have hbound := countOf_le list
  have h := s.wordsStored (s.blockAt p u rn list) _ hwf (hlen.trans_le (by omega))
  rw [hlen] at h
  refine h.congr (fun b => State.writeBase_byteAt _ _ _ _ b) fun k hk => ?_
  have hk' : k < (regsOf list).length := hk
  simp [hk']

end

/-! ### The statements -/

/-- Settles O46: after the write-back and the reads, the last word is the target of a jump or the next instruction
follows. -/
theorem ldmLoadsRegisters : Obligations.LdmLoadsRegisters := by
  intro c p u w rn list s hc hl hr n base bytes start
  refine ⟨⟨⟨rfl, pairwise_regsOf list, mem_regsOf list⟩, by cases p <;> cases u <;> rfl, rfl⟩, fun ha => ?_⟩
  have hexec := (exec_ldm_eq (p := p) (u := u) (sb := false) (w := w) hc hl hr nofun rfl rfl).trans
    (if_neg ha.not_anyAborts)
  have hload := loading_afterReads (s := s) (ub := false) (w := w) p u list hr rfl
  have hregs : ∀ k r, (regsOf list)[k]? = some r → r ≠ 15 →
      Landed s (s.afterReads p u false w rn list) r (s.wordAt (wordPlace start k)) :=
    fun k r hk h15 => bankReg_afterReads_of_noneAborts (ub := false) hk h15 ha
  cases h15 : list.getLsbD 15 with
  | true =>
    exact ⟨_, hexec.trans (if_pos h15), hload.within.goesTo _ _, hregs, landed_base_afterReads hr,
      hload.cpsr, hload.within.regs, hload.keepsMemory, hload.made⟩
  | false =>
    exact ⟨_, hexec.trans (if_neg (ne_true_of_eq_false h15)), hload.within.goesOn _, hregs, landed_base_afterReads hr,
      hload.cpsr, hload.within.regs, hload.keepsMemory, hload.made⟩

/-- Settles O47: the return goes to the last word, with the CPSR that the SPSR of the mode before gives. -/
theorem ldmReturns : Obligations.LdmReturns := by
  intro c p u w rn list q s hc h15 hr hq n start ha
  have hl : list ≠ 0 := by
    rintro rfl
    simp at h15
  have hm : s.cpsr.mode ≠ .usr := by simpa [State.privileged] using State.privileged_of_savedOf hq
  have hub : (true && !list.getLsbD 15) = false := by rw [h15]; rfl
  have hexec := (exec_ldm_eq (p := p) (u := u) (w := w) hc hl hr (fun _ => hm) hub rfl).trans
    ((if_neg ha.not_anyAborts).trans ((if_pos h15).trans (if_pos rfl)))
  have hload := loading_afterReads (s := s) (ub := false) (w := w) p u list hr rfl
  have hsaved := hload.savedOf.trans hq
  split
  case h_1 hp => exact hexec.trans (State.returnTo_of_error (State.restored_of_illegal hsaved hp) _ _)
  case h_2 psr hp =>
    exact ⟨_, hexec.trans (State.returnTo_of_restored (State.restored_of_some hsaved hp) _ _),
      (hload.within.goesTo _ _).setPsr _, rfl,
      fun k r hk hr15 => bankReg_afterReads_of_noneAborts (ub := false) hk hr15 ha, landed_base_afterReads hr,
      hload.within.regs, hload.keepsMemory, hload.made⟩

/-- Settles O48: the reads land in the User bank, which leaves the hazard mark. -/
theorem ldmLoadsUserBank : Obligations.LdmLoadsUserBank := by
  intro c p u rn list s hc hl h15 hr hm n start ha
  have hub : (true && !list.getLsbD 15) = true := by rw [h15]; rfl
  have hexec := (exec_ldm_eq (p := p) (u := u) (w := false) hc hl hr (fun _ => hm) hub rfl).trans
    ((if_neg ha.not_anyAborts).trans (if_neg (ne_true_of_eq_false h15)))
  have hload := loading_afterReads (s := s) (ub := true) (w := false) p u list hr rfl
  have hlisted : listed list = regsOf list := by rw [regsOf_eq_listed list, h15]; simp
  refine ⟨_, hexec, congrArg (· + 4) hload.pc, congrArg List.tail hload.pipe, rfl,
    congrArg (Cycles.add · ⟨1, n, 1, 0⟩) hload.cycles, hload.outside, fun k r hk => ?_, ?_, hload.cpsr, hload.spsr,
    hload.keepsMemory, hload.made⟩
  · have hmem := List.mem_of_getElem? hk
    rw [← hlisted] at hmem
    exact bankReg_afterReads_of_noneAborts (ub := true) hk (mem_listed.mp hmem).2 ha
  · rw [← hlisted]
    exact hload.regs

/-- Settles O49: the reads stop landing at the first abort, the base is put right, and the data abort is entered. -/
theorem ldmAborts : Obligations.LdmAborts := by
  intro c p u sb w rn list j s hc hl hr hm userBank hw n start bank hj hbefore ha
  have hexec := (exec_ldm_eq (p := p) (u := u) hc hl hr hm rfl hw).trans
    (if_pos ((s.anyAborts_eq_true _ _ _).mpr ⟨j, hj, ha⟩))
  have hbank : w = true → bank = s.cpsr.mode := State.landBank_of_writeBack hw
  have hread := loading_afterReads_stop (s := s) (p := p) (u := u) hr hw ha
  have hload := hread.restoreBase hr hbank (s.blockEnd u rn list)
  refine ⟨_, hexec, trapped_dataAbort _ hload.cpsr hload.spsr hload.pc hload.outside hload.regs, hload.keepsMemory,
    fun k r hk hkr habt hrn => ?_, fun habt => ?_, Made.raiseDataAbort hload.made hload.pc hload.cpsr⟩
  · have hloaded := bankReg_afterReads (ub := userBank) (w := w) hkr (ne_r15_of_lt hkr (by omega))
      fun i hi => hbefore i (hi.trans_lt hk)
    exact State.bankReg_eq_landValue_iff.mp <|
      (State.bankReg_raiseDataAbort_of_ne habt _).trans ((hread.bankReg_restoreBase_of_ne hr hrn _ _).trans hloaded)
  · have hbase := hread.bankReg_restoreBase_self (w := w) hr (s.blockEnd u rn list) (s.bankReg s.cpsr.mode rn)
    cases w <;> exact (State.bankReg_raiseDataAbort_of_ne habt _).trans hbase

/-- Settles O50: the writes decide the bytes and the write-back leaves them, whether or not a write aborts. -/
theorem stmStoresRegisters : Obligations.StmStoresRegisters := by
  intro c p u sb w rn list s hc hwf hl hr hp n start stored
  have hafter := within_afterWrites (s := s) p u sb w list hr
  have hbase := landed_base_afterWrites (s := s) p u sb list hr (w := w)
  have hstored := wordsStored_afterWrites (s := s) p u sb w rn list hwf
  have hword : ∀ r, s.blockWord u sb w rn list r = stored r := by
    intro r
    rw [State.blockWord, State.storedFor, List.head?_eq_getElem?]
    rcases eq_or_ne r rn with rfl | hne
    · rfl
    · simp only [stored, if_neg hne]
  simp only [hword] at hstored
  have hexec := exec_stm_eq (p := p) (u := u) hc hl hr hp
  cases hany : s.anyAborts true (countOf list) (s.blockAt p u rn list) with
  | false =>
    have hnone := (s.anyAborts_eq_false _ _ _).mp hany
    refine ⟨_, hexec.trans (if_neg (ne_true_of_eq_false hany)), hstored,
      fun _ => ⟨hafter.goesOn _, hbase, hafter.cpsr, hafter.regs, hafter.made⟩, ?_⟩
    rintro ⟨k, hk, hab⟩
    exact absurd hab (ne_true_of_eq_false (hnone k hk))
  | true =>
    obtain ⟨k, hk, hab⟩ := (s.anyAborts_eq_true _ _ _).mp hany
    exact ⟨_, hexec.trans (if_pos hany), hstored, fun hnone => absurd hab (ne_true_of_eq_false (hnone k hk)),
      fun _ => ⟨hafter.made_raiseDataAbort _, hafter.trapped _, fun hw hslot => (hbase hw).raiseDataAbort hslot _⟩⟩

end Sys2Proof.Machine
end

section
/-! SUPPORT. Exceptions: the step that enters one, the two traps of an instruction, a FIQ right after a data abort, and
the return from an entry (`48_swi_undefined.md` R351 to R356; `60_exceptions.md` R404 to R440). -/

namespace Sys2Proof.Machine

/-- Settles O8, exception by exception. -/
theorem exceptionTable : Obligations.ExceptionTable := fun x => by cases x <;> rfl

/-! ### The step that enters an exception -/

section
variable {s : State}

/-- A step that comes to an exception enters it from the state before its start. -/
theorem step_enters {x : Exception} (h : boundary s = .over (.next (s.begin.raise x))) :
    ∃ t, step s = .next t ∧ Entered x (s.pc + x.returnOffset) s t :=
  ⟨_, by rw [step, h]; rfl, s.entered_begin_raise x⟩

/-- Out of reset the interrupts are looked at once the pipeline is filled (`60_exceptions.md` R415). -/
theorem boundary_out_of_reset (hl : s.inputs.resetLow = false) (h0 : s.resetCycles = 0) :
    boundary s = interruptsThenWord s.begin := by
  simp [boundary, hl, h0]

/-- An enabled FIQ comes first (`60_exceptions.md` R415, R422). -/
theorem boundary_fiq (hl : s.inputs.resetLow = false) (h0 : s.resetCycles = 0)
    (hfiq : (s.inputs.fiq && !s.cpsr.f) = true) : boundary s = .over (.next (s.begin.raise .fiq)) := by
  rw [boundary_out_of_reset hl h0, interruptsThenWord, State.begin_inputs, State.begin_cpsr, if_pos hfiq]

/-- An enabled IRQ comes next (`60_exceptions.md` R415, R421). -/
theorem boundary_irq (hl : s.inputs.resetLow = false) (h0 : s.resetCycles = 0)
    (hfiq : (s.inputs.fiq && !s.cpsr.f) = false) (hirq : (s.inputs.irq && !s.cpsr.i) = true) :
    boundary s = .over (.next (s.begin.raise .irq)) := by
  rw [boundary_out_of_reset hl h0, interruptsThenWord, State.begin_inputs, State.begin_cpsr,
    if_neg (ne_true_of_eq_false hfiq), if_pos hirq]

/-- A word whose fetch aborted comes next, whatever the word (`60_exceptions.md` R425). -/
theorem boundary_prefetchAbort {f : Fetched} (hu : Undisturbed s) (hn : NextWord s f) (ha : f.aborted = true) :
    boundary s = .over (.next (s.begin.raise .prefetchAbort)) := by
  rw [boundary_undisturbed hu, dispatchWord, (State.begin_head s f hn).1, if_pos ha]

end

/-- Settles O7: the step comes to the exception before it decodes the word. -/
theorem prefetchAbortIsTaken : Obligations.PrefetchAbortIsTaken := fun _ _ hu hn ha =>
  step_enters (boundary_prefetchAbort hu hn ha)

/-- Settles O11, by the order in which a step looks at its inputs. -/
theorem interruptsAreTaken : Obligations.InterruptsAreTaken := fun s hl h0 =>
  ⟨fun hfiq hf => step_enters (boundary_fiq hl h0 (by rw [hfiq, hf]; rfl)),
    fun hfiq hirq hi => step_enters (boundary_irq hl h0 hfiq (by rw [hirq, hi]; rfl))⟩

/-- Settles O12: the second entry keeps what the first one saved, since the two modes have their own R14 and SPSR. -/
theorem dataAbortThenFiq : Obligations.DataAbortThenFiq := by
  intro s t a hent hf hl h0 hfiq
  obtain ⟨hlink, hsaved, hcpsr, hpc, -, -, -, -, hmem, -, -, -⟩ := hent
  have htf : t.cpsr.f = false := by simp [hcpsr, hf, Exception.setsF]
  obtain ⟨u, hu, ulink, usaved, ucpsr, upc, -, -, uregs, uspsr, umem, -, -, -⟩ :=
    (interruptsAreTaken t hl h0).1 hfiq htf
  have habt : u.bankReg .abt 14 = t.bankReg .abt 14 :=
    uregs .abt 14 (by decide) fun r hr => by rw [List.mem_singleton.mp hr]; decide
  refine ⟨u, hu, ?_, usaved, by rw [ucpsr]; rfl, by rw [ucpsr], ?_, upc, habt.trans hlink,
    (uspsr .abt (by decide)).trans hsaved, fun b => (umem b).trans (hmem b)⟩
  · rw [hpc] at ulink
    exact ulink
  · rw [ucpsr]
    exact Bool.or_true _

/-! ### The traps of an instruction -/

/-- The undefined instruction trap is an entry; offering the word changes the trace only. -/
theorem State.entered_trapUndefined (s : State) (w : Word) :
    Entered .undefined (s.pc + 4) s (s.trapUndefined w) :=
  (State.entered_enter (s.log (.offer w s.privileged s.cpsr.mode)) .undefined (s.pc + 4)).congr
    rfl rfl rfl rfl rfl rfl rfl

/-- A data abort is an entry; its fetch changes the trace only. -/
theorem State.entered_raiseDataAbort (s : State) : Entered .dataAbort (s.pc + 8) s s.raiseDataAbort :=
  (State.entered_enter (s.fetch (s.pc + 12)) .dataAbort (s.pc + 8)).congr rfl rfl rfl rfl rfl rfl rfl

/-- Settles O9: SWI is the entry of its exception. -/
theorem swiEntersSupervisor : Obligations.SwiEntersSupervisor := fun _ _ s hc =>
  ⟨s.raise .swi, conditionally_pass s hc _, State.entered_enter s .swi _, rfl, rfl, .refl s⟩

/-- Settles O10: the undefined class is the trap, without a look at the answers. -/
theorem undefinedClassTraps : Obligations.UndefinedClassTraps := fun c hi lo s hc =>
  ⟨s.trapUndefined (encode (.undefined c hi lo)), conditionally_pass s hc _, s.entered_trapUndefined _, rfl, rfl,
    .refl s⟩

/-! ### The return from an exception -/

section
variable {s t : State} {x : Exception} {ret : Word}

/-- After an entry R14 reads as the address saved: the entry clears the hazard mark. -/
theorem Entered.readReg_link (h : Entered x ret s t) (port : Port) (ahead : Word) : t.readReg port ahead 14 = ret := by
  obtain ⟨hlink, -, hcpsr, -, -, hhazard, -⟩ := h
  have hmode : t.cpsr.mode = x.mode := by rw [hcpsr]
  simp [State.readReg, State.inHazard, hhazard, hmode, hlink]

/-- After an entry the CPSR to restore is that of the interrupted program. -/
theorem Entered.restored (h : Entered x ret s t) : t.restored = .ok s.cpsr := by
  obtain ⟨-, hsaved, hcpsr, -⟩ := h
  have hmode : t.cpsr.mode = x.mode := by rw [hcpsr]
  exact State.restored_of_some (hmode ▸ hsaved) (Psr.toPsr_save _)

/-- A return right after an entry gives the CPSR back and changes neither registers nor memory. -/
theorem Entered.returnTo (h : Entered x ret s t) {a : Word} (ha : wordAddr a = a) (k : Cycles) :
    ∃ u, t.returnTo a k = .next u ∧ u.pc = a ∧ u.cpsr = s.cpsr ∧ KeepsRegs s u x.mode [14] ∧ KeepsMemory s u := by
  have hreturn := State.returnTo_of_restored h.restored a k
  obtain ⟨-, -, -, -, -, -, hregs, -, hmem, -, -, -⟩ := h
  exact ⟨_, hreturn, ha, rfl, hregs, hmem⟩

/-- `MOVS PC, R14` returns to R14 (`60_exceptions.md` R440). -/
theorem exec_movs_pc (t : State) :
    exec (.movReg .al true 0 15 0 .lsl 14) t = t.returnTo (t.readReg .rm 8 14) ⟨1, 2, 0, 0⟩ :=
  (exec_operandForm t (o := .reg 0 .lsl 14) (c := .al) rfl rfl .mov true 0 15).trans (finishAlu_pc_restores rfl)

/-- `SUBS PC, R14, #imm` returns to as far before R14 (`60_exceptions.md` R440). -/
theorem exec_subs_pc (t : State) (imm : Byte) :
    exec (.subImm .al true 14 15 0 imm) t = t.returnTo (t.readReg .rn 8 14 - imm.extend) ⟨1, 2, 0, 0⟩ := by
  have hexec := (exec_operandForm t (o := .imm 0 imm) (c := .al) rfl rfl .sub true 14 15).trans
    (finishAlu_pc_restores rfl)
  have hsecond : (OperandForm.second t (.imm 0 imm)).value = imm.extend := by
    simp [OperandForm.second, rotatedImmediate, BitVec.rotateRight, BitVec.rotateRightAux]
  have hresult : ((OperandForm.imm 0 imm).outcome .sub 14 t).result = t.readReg .rn 8 14 - imm.extend := by
    rw [OperandForm.outcome, alu, hsecond, addWithCarry_result]
    simp [BitVec.sub_eq_add_neg, BitVec.neg_eq_not_add, BitVec.add_assoc, OperandForm.ahead]
  rw [hresult] at hexec
  exact hexec

end

/-- Settles O13: each return goes to the address its entry saved, less what the instruction takes off. -/
theorem returnUndoesEntry : Obligations.ReturnUndoesEntry := by
  intro s hpc
  have hself : wordAddr s.pc = s.pc := by simpa using wordAddr_add s.pc 0 hpc rfl
  have hnext : wordAddr (s.pc + 4) = s.pc + 4 := wordAddr_add s.pc 4 hpc rfl
  have hback (k : Word) : s.pc + k - k = s.pc := BitVec.add_sub_cancel _ _
  have hraise (x : Exception) : Entered x (s.pc + x.returnOffset) s (s.raise x) := State.entered_enter s x _
  have hmovs {x : Exception} (hx : x.returnOffset = 4) :
      ∃ u, exec (.movReg .al true 0 15 0 .lsl 14) (s.raise x) = .next u ∧ u.pc = s.pc + 4 ∧ u.cpsr = s.cpsr ∧
        KeepsRegs s u x.mode [14] ∧ KeepsMemory s u := by
    rw [exec_movs_pc, (hraise x).readReg_link, hx]
    exact (hraise x).returnTo hnext _
  have hsubs {x : Exception} {k : Byte} {t : State} (h : Entered x (s.pc + k.extend) s t) :
      ∃ u, exec (.subImm .al true 14 15 0 k) t = .next u ∧ u.pc = s.pc ∧ u.cpsr = s.cpsr ∧
        KeepsRegs s u x.mode [14] ∧ KeepsMemory s u := by
    rw [exec_subs_pc, h.readReg_link, hback]
    exact h.returnTo hself _
  refine ⟨fun x hx => hmovs ?_, fun x hx => hsubs ?_, hsubs (x := .dataAbort) s.entered_raiseDataAbort⟩
  · rcases List.mem_pair.mp hx with rfl | rfl <;> rfl
  · have hoffset : x.returnOffset = Byte.extend 4 := by
      revert hx
      cases x <;> decide
    rw [← hoffset]
    exact hraise x

end Sys2Proof.Machine
end

section
/-! SUPPORT. Single data swap: the two locked accesses, and how a swap ends (`47_swap.md` R340 to R346). -/

namespace Sys2Proof.Machine

/-- An access of SWP and SWPB, locked (`47_swap.md` R342, R345). -/
def State.swapAt (s : State) (byte : Bool) (rn : Reg) (write : Bool) : Access :=
  ⟨s.readReg .rn 8 rn, widthOf byte, write, false, s.privileged, s.cpsr.mode, true⟩

/-- The state after the read and the write of a swap (`47_swap.md` R342, R343). -/
def State.afterSwap (s : State) (byte : Bool) (rn rm : Reg) : State :=
  (s.load (s.swapAt byte rn false)).store (s.swapAt byte rn true) (s.readReg .rm 8 rm)

section
variable {s : State} {byte : Bool} {c : Cond} {rn rd rm : Reg}

/-- SWP and SWPB are their accesses followed by the data abort or the write of Rd (`47_swap.md` R342 to R344). -/
theorem exec_swap_eq (hc : condHolds c s.cpsr = true) (hn : rn ≠ 15) (hd : rd ≠ 15) (hm : rm ≠ 15) :
    exec (if byte then .swpb c rn rd rm else .swp c rn rd rm) s =
      if s.aborts (s.swapAt byte rn false) then
        .next (((if Config.swapWritten s.drawIndex then s.afterSwap byte rn rm
          else s.load (s.swapAt byte rn false)).spend ⟨2, 1, 1, 0⟩).raiseDataAbort)
      else if s.aborts (s.swapAt byte rn true) then
        .next (((s.afterSwap byte rn rm).spend ⟨2, 1, 1, 0⟩).raiseDataAbort)
      else
        .next (((s.afterSwap byte rn rm).writeReg rd (s.loaded (s.swapAt byte rn false))).advance ⟨2, 1, 1, 0⟩) :=
  exec_swap s byte c rn rd rm hc hn hd hm

/-- When an access of a swap aborts the write has been made, unless it is the read that aborts and the free value
leaves the write out (`47_swap.md` R344). -/
theorem exec_swap_aborts (hc : condHolds c s.cpsr = true) (hn : rn ≠ 15) (hd : rd ≠ 15) (hm : rm ≠ 15)
    (habort : s.aborts (s.swapAt byte rn false) = true ∨ s.aborts (s.swapAt byte rn true) = true) :
    let i : Instr := if byte then .swpb c rn rd rm else .swp c rn rd rm
    exec i s = .next ((s.afterSwap byte rn rm).spend ⟨2, 1, 1, 0⟩).raiseDataAbort ∨
      (s.aborts (s.swapAt byte rn false) = true ∧
        exec i s = .next ((s.load (s.swapAt byte rn false)).spend ⟨2, 1, 1, 0⟩).raiseDataAbort) := by
  intro i
  have hexec := exec_swap_eq (byte := byte) hc hn hd hm
  cases hread : s.aborts (s.swapAt byte rn false) with
  | false =>
    have hwrite := habort.resolve_left (ne_true_of_eq_false hread)
    exact .inl (hexec.trans ((if_neg (ne_true_of_eq_false hread)).trans (if_pos hwrite)))
  | true =>
    rw [if_pos hread] at hexec
    cases hfree : Config.swapWritten s.drawIndex with
    | true =>
      rw [hfree, if_pos rfl] at hexec
      exact .inl hexec
    | false =>
      rw [hfree, if_neg Bool.false_ne_true] at hexec
      exact .inr ⟨rfl, hexec⟩

/-- A swap whose two accesses were made has written no register. -/
theorem within_afterSwap (s : State) (byte : Bool) (rn rm : Reg) :
    Within s (s.afterSwap byte rn rm) [] [s.swapAt byte rn false, s.swapAt byte rn true] :=
  ((Within.refl s).load rfl).store rfl _

/-- What a swap reads, as LDR and LDRB would deliver it (`47_swap.md` R342, R343). -/
theorem State.loaded_swapAt (s : State) (byte : Bool) (rn : Reg) :
    let a := s.readReg .rn 8 rn
    s.loaded (s.swapAt byte rn false) =
      if byte then (s.readByte a).extend else (s.wordAt a).rotateRight (8 * (a.toNat % 4)) := by
  intro a
  rw [← field_low_toNat]
  cases byte <;> rfl

/-- Of the two accesses the write decides the bytes: it keeps those it does not reach; where it reaches, it takes
effect, or aborts and keeps them too. -/
theorem afterSwap_memory (hwf : Memory.wf s.mem = true) (byte : Bool) (rn rm : Reg) :
    let t := s.afterSwap byte rn rm
    (s.aborts (s.swapAt byte rn true) = true → KeepsMemory s t) ∧ KeepsMemoryBut s t (s.swapAt byte rn true) ∧
      (KeepsMemory s t ∨ Stored s t (s.swapAt byte rn true) (s.readReg .rm 8 rm)) := by
  intro t
  have hkept : s.aborts (s.swapAt byte rn true) = true → KeepsMemory s t := KeepsMemory.store_of_aborts
  refine ⟨hkept, KeepsMemoryBut.store hwf, ?_⟩
  cases ha : s.aborts (s.swapAt byte rn true) with
  | true => exact .inl (hkept ha)
  | false => exact .inr (Stored.store hwf ha)

end

/-- Settles O51: Rd is written after both accesses and leaves memory as the write made it. -/
theorem swapExchanges : Obligations.SwapExchanges := by
  intro byte c rn rd rm s hc hwf hn hd hm a acc i hread hwrite
  have hexec := (exec_swap_eq (byte := byte) hc hn hd hm).trans
    ((if_neg (ne_true_of_eq_false hread)).trans (if_neg (ne_true_of_eq_false hwrite)))
  have hswap := within_afterSwap s byte rn rm
  have hend := hswap.writeReg hd (s.loaded (s.swapAt byte rn false))
  refine ⟨_, hexec, hend.goesOn _, ?_, fun b hb => ?_, fun b hb => ?_, hend.cpsr, hend.regs, hend.made⟩
  · rw [← State.loaded_swapAt]
    exact hswap.landed_writeReg hd _
  · exact (State.writeReg_byteAt _ _ _ b).trans (Stored.store hwf hwrite b hb)
  · exact (State.writeReg_byteAt _ _ _ b).trans (KeepsMemoryBut.store hwf b hb)

/-- Settles O52, by whether the write is made. -/
theorem swapAborts : Obligations.SwapAborts := by
  intro byte c rn rd rm s hc hwf hn hd hm a acc i habort
  rcases exec_swap_aborts hc hn hd hm habort with hexec | ⟨hread, hexec⟩
  · have hswap := within_afterSwap s byte rn rm
    obtain ⟨hkept, hbut, hplace⟩ := afterSwap_memory hwf byte rn rm
    exact ⟨_, hexec, hswap.trapped _, hkept, hbut, hplace, .inl (hswap.made_raiseDataAbort _)⟩
  · have hload := (Within.refl s).load (acc := s.swapAt byte rn false) rfl
    exact ⟨_, hexec, hload.trapped _, fun _ _ => rfl, fun _ _ => rfl, .inl fun _ => rfl,
      .inr ⟨hread, hload.made_raiseDataAbort _⟩⟩

end Sys2Proof.Machine
end

section
/-! SUPPORT. Coprocessor instructions: the handshake, the register transfers, and the transfers of words with the data
abort or the next instruction at their end (`49_coprocessor.md` R361 to R384). -/

namespace Sys2Proof.Machine

/-! ### The handshake -/

section
variable {s : State} {cp : BitVec 4} {w : Word} {f : CoprocData → State → Outcome}

/-- Where no coprocessor answers the trap is taken (`49_coprocessor.md` R363). -/
theorem handshake_absent (h : s.response cp w = .absent) : handshake cp w s f = .next (s.trapUndefined w) := by
  simp [handshake, h]

/-- A busy coprocessor lets one internal cycle pass (`49_coprocessor.md` R364). -/
theorem handshake_busy (h : s.response cp w = .busy) :
    handshake cp w s f = .next ((s.log (.offer w s.privileged s.cpsr.mode)).spend ⟨0, 0, 1, 0⟩) := by
  simp [handshake, h]

/-- With no coprocessor of its number an instruction is not answered (`49_coprocessor.md` R361). -/
theorem State.response_absent (h : ∀ r ∈ s.inputs.coprocs, r.cp ≠ cp) : s.response cp w = .absent := by
  have hnone : s.inputs.coprocs.find? (fun r => r.answers cp w s) = none := by
    refine List.find?_eq_none.mpr fun r hr => ?_
    simp [CoprocRule.answers, h r hr]
  rw [State.response, hnone]

/-- A base with W = 1 other than R15 breaks no restriction (`49_coprocessor.md` R371). -/
theorem coproc_base_ok {rn : Reg} {w : Bool} (hr : rn ≠ 15 ∨ w = false) : (rn == 15 && w) = false := by
  rcases hr with h | h <;> simp [h]

/-- LDC is a handshake over its word. -/
theorem exec_ldc_eq_handshake {c : Cond} {p u n w : Bool} {rn : Reg} {crd : BitVec 4} {off : Byte}
    (hc : condHolds c s.cpsr = true) (hr : rn ≠ 15 ∨ w = false) :
    let i := Instr.ldc c p u n w rn crd cp off
    exec i s = handshake cp (encode i) s (loadToCoproc p u w rn cp off) :=
  (conditionally_pass s hc _).trans (by rw [coproc_base_ok hr, refuseIf_false])

/-- STC is a handshake over its word. -/
theorem exec_stc_eq_handshake {c : Cond} {p u n w : Bool} {rn : Reg} {crd : BitVec 4} {off : Byte}
    (hc : condHolds c s.cpsr = true) (hr : rn ≠ 15 ∨ w = false) :
    let i := Instr.stc c p u n w rn crd cp off
    exec i s = handshake cp (encode i) s (storeFromCoproc p u w rn off) :=
  (conditionally_pass s hc _).trans (by rw [coproc_base_ok hr, refuseIf_false])

/-- Each of the five coprocessor instructions is a handshake over its word. -/
theorem exec_coproc_eq_handshake {c : Cond} {opc crn crd cp : BitVec 4} {info : BitVec 3} {crm : BitVec 4}
    {p u n w : Bool} {rn rd : Reg} {off : Byte} {opc3 : BitVec 3} (hc : condHolds c s.cpsr = true)
    (hr : rn ≠ 15 ∨ w = false) {i : Instr}
    (hi : i ∈ [Instr.cdp c opc crn crd cp info crm, .ldc c p u n w rn crd cp off, .stc c p u n w rn crd cp off,
      .mrc c opc3 crn rd cp info crm, .mcr c opc3 crn rd cp info crm]) :
    ∃ f, exec i s = handshake cp (encode i) s f := by
  simp only [List.mem_cons, List.not_mem_nil, or_false] at hi
  rcases hi with rfl | rfl | rfl | rfl | rfl
  case inr.inl => exact ⟨_, exec_ldc_eq_handshake hc hr⟩
  case inr.inr.inl => exact ⟨_, exec_stc_eq_handshake hc hr⟩
  all_goals exact ⟨_, conditionally_pass s hc _⟩

end

/-- Settles O53, by the answer to the instruction. -/
theorem coprocessorHandshake : Obligations.CoprocessorHandshake := by
  intro c opc crn crd cp info crm p u n w rn rd off opc3 s hc hr i hi offered
  obtain ⟨f, hexec⟩ := exec_coproc_eq_handshake hc hr hi
  refine ⟨fun habsent => ?_, fun hbusy => hexec.trans (handshake_busy hbusy), State.response_absent⟩
  exact ⟨_, hexec.trans (handshake_absent habsent), s.entered_trapUndefined _, rfl, rfl⟩

/-! ### Within a coprocessor instruction -/

section
variable {s t v : State} {rs ls : List Reg} {accs accs' : List Access} {e : BusEvent}

/-- One part of an instruction after another. -/
theorem Within.trans (h : Within s t rs accs) (h2 : Within t v ls accs') : Within s v (rs ++ ls) (accs ++ accs') where
  pc := h2.pc.trans h.pc
  pipe := h2.pipe.trans h.pipe
  hazard := h2.hazard.trans h.hazard
  cpsr := h2.cpsr.trans h.cpsr
  cycles := h2.cycles.trans h.cycles
  outside := h.outside.trans h2.outside
  regs := by
    obtain ⟨hregs, hspsr⟩ := h.regs
    obtain ⟨hregs2, hspsr2⟩ := h2.regs
    exact ⟨hregs.trans (h.cpsr ▸ hregs2), hspsr2.trans hspsr⟩
  made := h.made.trans h2.made

/-- An event that is no access adds none. -/
theorem Within.log (h : Within s t rs accs) (he : e.made = none) : Within s (t.log e) rs accs :=
  ⟨h.pc, h.pipe, h.hazard, h.cpsr, h.cycles, h.outside, h.regs, by
    simpa using h.made.trans (u := t.log e) (m := []) ⟨[e], rfl, by simp [he]⟩⟩

/-- The reads of an LDC make their accesses and change no register (`49_coprocessor.md` R373). -/
theorem within_loadCoproc (s : State) (cp : BitVec 4) (n k : Nat) (a : Word) :
    Within s (s.loadCoproc cp n k a) [] (s.wordAccesses a n false) where
  pc := State.loadCoproc_pc s cp n k a
  pipe := State.loadCoproc_pipe s cp n k a
  hazard := State.loadCoproc_hazard s cp n k a
  cpsr := State.loadCoproc_cpsr s cp n k a
  cycles := State.loadCoproc_cycles s cp n k a
  outside := by simp [KeepsOutside]
  regs := ⟨fun _ _ _ _ => by rw [State.bankReg, State.bankReg, State.loadCoproc_regs], State.loadCoproc_spsr s cp n k a⟩
  made := s.made_loadCoproc cp n k a

/-- Nor do they change a byte. -/
theorem State.loadCoproc_byteAt (s : State) (cp : BitVec 4) (n k : Nat) (a b : Word) :
    (s.loadCoproc cp n k a).byteAt b = s.byteAt b := by
  rw [State.byteAt, State.byteAt, State.loadCoproc_mem]

/-- The state in which a coprocessor that is ready finds its instruction offered (`49_coprocessor.md` R363). -/
def State.offered (s : State) (i : Instr) : State := s.log (.offer (encode i) s.privileged s.cpsr.mode)

/-- The offer is no access. -/
theorem within_offered (s : State) (i : Instr) : Within s (s.offered i) [] [] := (Within.refl s).log rfl

end

/-! ### The register transfers -/

section
variable {s : State} {c : Cond} {opc crn crd cp : BitVec 4} {info : BitVec 3} {crm : BitVec 4} {rd : Reg}
  {opc3 : BitVec 3} {d : CoprocData}

/-- CDP is committed, and the next instruction follows (`49_coprocessor.md` R368). -/
theorem exec_cdp_ready (hc : condHolds c s.cpsr = true)
    (hd : s.response cp (encode (.cdp c opc crn crd cp info crm)) = .ready d) :
    let i := Instr.cdp c opc crn crd cp info crm
    exec i s = .next (((s.offered i).log (.coprocOperation cp (encode i))).advance ⟨0, 1, 0, 0⟩) :=
  (conditionally_pass s hc _).trans (handshake_ready hd)

/-- MCR gives the coprocessor Rd (`49_coprocessor.md` R379). -/
theorem exec_mcr_ready (hc : condHolds c s.cpsr = true)
    (hd : s.response cp (encode (.mcr c opc3 crn rd cp info crm)) = .ready d) :
    let i := Instr.mcr c opc3 crn rd cp info crm
    exec i s = .next (((s.offered i).log (.coprocWrite cp (s.readReg .rd 12 rd))).advance ⟨1, 0, 0, 1⟩) :=
  (conditionally_pass s hc _).trans (handshake_ready hd)

/-- MRC takes the word of the coprocessor, in Rd or for R15 as the flags (`49_coprocessor.md` R376, R378). -/
theorem exec_mrc_ready (hc : condHolds c s.cpsr = true)
    (hd : s.response cp (encode (.mrc c opc3 crn rd cp info crm)) = .ready d) :
    let i := Instr.mrc c opc3 crn rd cp info crm
    let t := (s.offered i).log (.coprocRead cp d.result)
    exec i s =
      if rd = 15 then .next ((t.advance ⟨0, 1, 1, 1⟩).setPsr (s.cpsr.withTop d.result))
      else .next ((t.writeReg rd d.result).advance ⟨0, 1, 1, 1⟩) :=
  (conditionally_pass s hc _).trans (handshake_ready hd)

/-- R15 is transferred as the instruction plus 12 (`49_coprocessor.md` R379). -/
theorem State.readReg_eq_ite (s : State) (port : Port) (ahead : Word) (r : Reg) :
    s.readReg port ahead r = if r = 15 then s.pc + ahead else s.readReg port ahead r := by
  split
  case isTrue h => rw [State.readReg, if_pos h]
  case isFalse => rfl

end

/-- Settles O54: after the offer and the coprocessor's part the pc moves on; only MRC writes a register or the flags. -/
theorem registerTransfersWithCoprocessor : Obligations.RegisterTransfersWithCoprocessor := by
  intro c opc crn crd cp info crm rd opc3 d s hc offered idle cdp mcr mrc
  refine ⟨fun hd => ?_, fun hd => ?_, fun hd => ?_⟩
  · have hend := (within_offered s cdp).log (e := .coprocOperation cp (encode cdp)) rfl
    exact ⟨_, exec_cdp_ready hc hd, hend.goesOn _, ⟨hend.cpsr, hend.regs, fun _ => rfl⟩,
      List.append_assoc s.bus [_] [_]⟩
  · have hend := (within_offered s mcr).log (e := .coprocWrite cp (s.readReg .rd 12 rd)) rfl
    refine ⟨_, exec_mcr_ready hc hd, hend.goesOn _, ⟨hend.cpsr, hend.regs, fun _ => rfl⟩, ?_⟩
    rw [← State.readReg_eq_ite]
    exact List.append_assoc s.bus [_] [_]
  · have hread := (within_offered s mrc).log (e := .coprocRead cp d.result) rfl
    have hbus : s.bus ++ [offered mrc] ++ [.coprocRead cp d.result] = s.bus ++ [offered mrc, .coprocRead cp d.result] :=
      List.append_assoc s.bus [_] [_]
    have hexec := exec_mrc_ready hc hd
    by_cases h15 : rd = 15
    · refine ⟨_, hexec.trans (if_pos h15), (hread.goesOn _).setPsr _, fun _ => rfl, hbus, ?_⟩
      rw [if_pos h15]
      exact ⟨rfl, hread.regs⟩
    · have hend := hread.writeReg h15 d.result
      refine ⟨_, hexec.trans (if_neg h15), hend.goesOn _, fun a => State.writeReg_byteAt _ _ _ a,
        (State.writeReg_bus _ _ _).trans hbus, ?_⟩
      rw [if_neg h15]
      exact ⟨hend.cpsr, hread.landed_writeReg h15 _, hend.regs⟩

/-! ### The transfers of words -/

/-- The offset counts words (`30_encoding.md` R136). -/
theorem coprocOffset_eq (off : Byte) : coprocOffset off = off.extend <<< 2 := by
  ext i hi
  by_cases h : i < 10
  · simp [coprocOffset, getElem_cat, Byte.extend, h]
  · simp [coprocOffset, getElem_cat, Byte.extend, h]
    grind

section
variable {s t : State} {rn : Reg} {w write : Bool} {n : Nat} {start final : Word} {k : Cycles}

/-- A transfer of words ends in the data abort, if one of them aborts, or with the next instruction. -/
def State.endTransfer (t : State) (aborts : Bool) (k : Cycles) : State :=
  if aborts then (t.spend k).raiseDataAbort else t.advance k

/-- The end of a transfer leaves memory as the transfer made it. -/
@[simp] theorem State.endTransfer_byteAt (aborts : Bool) (a : Word) :
    (t.endTransfer aborts k).byteAt a = t.byteAt a := by
  cases aborts <;> rfl

/-- The end of a transfer leaves the events of the transfer in the trace. -/
theorem State.mem_bus_endTransfer {e : BusEvent} (h : e ∈ t.bus) (aborts : Bool) :
    e ∈ (t.endTransfer aborts k).bus := by
  cases aborts with
  | false => exact h
  | true => exact List.mem_append_left _ h

/-- A transfer whose base lands goes on if no word aborts, and is trapped, after all its accesses, if one does. -/
theorem endTransfer_spec (h : Within s t (baseList w rn) (s.wordAccesses start n write))
    (hbase : w = true → Landed s t rn final) (k : Cycles) :
    let v := t.endTransfer (s.anyAborts write n start) k
    (NoneAborts s write n start →
      GoesOn s v k ∧ (w = true → Landed s v rn final) ∧ v.cpsr = s.cpsr ∧ OnlyRegs s v (baseList w rn) ∧
        Made s v (s.wordAccesses start n write)) ∧
    ((∃ j < n, s.aborts (s.wordAccess (wordPlace start j) write) = true) →
      Made s v (s.wordAccesses start n write ++ [s.abortFetch]) ∧
      Trapped .dataAbort (s.pc + 8) s v s.cpsr.mode (baseList w rn) ∧
        (w = true → slot s.cpsr.mode rn ≠ slot .abt 14 → Landed s v rn final)) := by
  refine ⟨fun hnone => ?_, fun hsome => ?_⟩
  · rw [(s.anyAborts_eq_false write n start).mpr hnone]
    exact ⟨h.goesOn k, hbase, h.cpsr, h.regs, h.made⟩
  · rw [(s.anyAborts_eq_true write n start).mpr hsome]
    exact ⟨h.made_raiseDataAbort k, h.trapped k, fun hw hslot => (hbase hw).raiseDataAbort hslot k⟩

end

section
variable {s : State} {c : Cond} {p u l w : Bool} {rn : Reg} {crd cp : BitVec 4} {off : Byte} {d : CoprocData}

/-- The first address of a transfer of words with a coprocessor (`49_coprocessor.md` R370). -/
def State.coprocStart (s : State) (p u : Bool) (rn : Reg) (off : Byte) : Word :=
  transferAddress p u (s.readReg .rn 8 rn) (off.extend <<< 2)

/-- The base that such a transfer writes back (`49_coprocessor.md` R371). -/
def State.coprocFinal (s : State) (u : Bool) (rn : Reg) (off : Byte) : Word :=
  offsetBase u (s.readReg .rn 8 rn) (off.extend <<< 2)

/-- The state after the reads of an LDC and the write-back of its base (`49_coprocessor.md` R371, R373). -/
def State.afterCoprocReads (s : State) (i : Instr) (p u w : Bool) (rn : Reg) (cp : BitVec 4) (off : Byte) (n : Nat) :
    State :=
  ((s.offered i).loadCoproc cp n 0 (s.coprocStart p u rn off)).writeBase w rn (s.coprocFinal u rn off)

/-- The state after the writes of an STC and the write-back of its base (`49_coprocessor.md` R371, R374). -/
def State.afterCoprocWrites (s : State) (i : Instr) (p u w : Bool) (rn : Reg) (off : Byte) (words : List Word) :
    State :=
  ((s.offered i).storeWords (s.coprocStart p u rn off) words).writeBase w rn (s.coprocFinal u rn off)

/-- The offer does not count for what aborts. -/
theorem State.anyAborts_offered (s : State) (i : Instr) (write : Bool) (n : Nat) (a : Word) :
    (s.offered i).anyAborts write n a = s.anyAborts write n a := by
  rw [Bool.eq_iff_iff, State.anyAborts_eq_true, State.anyAborts_eq_true]
  rfl

/-- LDC is its reads and write-back and the end of a transfer (`49_coprocessor.md` R373, R375). -/
theorem exec_ldc_ready (hc : condHolds c s.cpsr = true) (hr : rn ≠ 15 ∨ w = false)
    (hd : s.response cp (encode (.ldc c p u l w rn crd cp off)) = .ready d) :
    let i := Instr.ldc c p u l w rn crd cp off
    let n := d.loadExtra + 1
    exec i s = .next ((s.afterCoprocReads i p u w rn cp off n).endTransfer
      (s.anyAborts false n (s.coprocStart p u rn off)) ⟨2, n - 1, 0, 0⟩) := by
  intro i n
  have hexec : exec i s = loadToCoproc p u w rn cp off d (s.offered i) :=
    (exec_ldc_eq_handshake hc hr).trans (handshake_ready hd)
  rw [hexec, loadToCoproc, coprocOffset_eq, State.endTransfer, ← State.anyAborts_offered s i]
  exact (apply_ite Host.Outcome.next _ _ _).symm

/-- STC is its writes and write-back and the end of a transfer (`49_coprocessor.md` R374, R375). -/
theorem exec_stc_ready (hc : condHolds c s.cpsr = true) (hr : rn ≠ 15 ∨ w = false)
    (hd : s.response cp (encode (.stc c p u l w rn crd cp off)) = .ready d) :
    let i := Instr.stc c p u l w rn crd cp off
    let words := d.storeFirst :: d.storeRest
    exec i s = .next ((s.afterCoprocWrites i p u w rn off words).endTransfer
      (s.anyAborts true words.length (s.coprocStart p u rn off)) ⟨2, words.length - 1, 0, 0⟩) := by
  intro i words
  have hexec : exec i s = storeFromCoproc p u w rn off d (s.offered i) :=
    (exec_stc_eq_handshake hc hr).trans (handshake_ready hd)
  rw [hexec, storeFromCoproc, coprocOffset_eq, State.endTransfer, ← State.anyAborts_offered s i]
  exact (apply_ite Host.Outcome.next _ _ _).symm

end

/-- Settles O55: the reads and the write-back come before either end. -/
theorem ldcLoadsCoprocessor : Obligations.LdcLoadsCoprocessor := by
  intro c p u l w rn crd cp off d s hc hr i hd n offset start final
  have hbase : w = true → rn ≠ 15 := fun hw => hr.resolve_right (ne_false_of_eq_true hw)
  have hread := (within_offered s i).trans (within_loadCoproc (s.offered i) cp n 0 start)
  obtain ⟨hgoes, htraps⟩ := endTransfer_spec (start := start) (n := n) (write := false)
    (hread.writeBase hbase final) (fun hw => hread.landed_writeBase hw (hbase hw) final) ⟨2, n - 1, 0, 0⟩
  refine ⟨_, exec_ldc_ready hc hr hd, fun a => ?_, fun k hk ha => ?_, hgoes, htraps⟩
  · exact (State.endTransfer_byteAt _ a).trans
      ((State.writeBase_byteAt _ _ _ _ a).trans (State.loadCoproc_byteAt (s.offered i) cp n 0 start a))
  · refine State.mem_bus_endTransfer ?_ _
    have hmem := State.mem_loadCoproc (s.offered i) cp n 0 start k hk ha
    rw [Nat.zero_add] at hmem
    rw [State.afterCoprocReads, State.writeBase_bus]
    exact hmem

/-- Settles O56: the writes decide the bytes; the write-back and either end leave them. -/
theorem stcStoresCoprocessor : Obligations.StcStoresCoprocessor := by
  intro c p u l w rn crd cp off d s hc hr hwf i hd words hlen offset start final
  have hbase : w = true → rn ≠ 15 := fun hw => hr.resolve_right (ne_false_of_eq_true hw)
  have hwrite := (within_offered s i).trans (within_storeWords (s.offered i) start words)
  obtain ⟨hgoes, htraps⟩ := endTransfer_spec (start := start) (n := words.length) (write := true)
    (hwrite.writeBase hbase final) (fun hw => hwrite.landed_writeBase hw (hbase hw) final)
    ⟨2, words.length - 1, 0, 0⟩
  refine ⟨_, exec_stc_ready hc hr hd, ?_, hgoes, htraps⟩
  refine WordsStored.congr (t := (s.offered i).storeWords start words)
    ((s.offered i).wordsStored start words hwf hlen) (fun b => ?_) fun _ _ => rfl
  exact (State.endTransfer_byteAt _ b).trans (State.writeBase_byteAt _ _ _ _ b)

end Sys2Proof.Machine
end

section
/-! SUPPORT. What an instruction can change beyond the registers of its mode: it leaves the outside of the processor as
it is, and in User mode the control bits and the privileged registers too, unless it enters an exception
(`60_exceptions.md` R401, R402; `70_reset_and_hazards.md` R491). -/

namespace Sys2Proof.Machine

/-! ### Within an instruction -/

/-- `t` is a state within the instruction that began in `s`, whatever registers of its mode and of the User bank were
written and whatever was stored. -/
structure Inside (s t : State) : Prop where
  cpsr : t.cpsr = s.cpsr
  spsr : t.spsr = s.spsr
  outside : KeepsOutside s t
  foreign : ∀ m r, banked m r = true → m ≠ s.cpsr.mode → t.bankReg m r = s.bankReg m r

section
variable {s t v : State}

theorem Inside.refl (s : State) : Inside s s := ⟨rfl, rfl, .refl s, fun _ _ _ _ => rfl⟩

/-- The registers may be as they were, and only the inside of the processor or the storage may have changed. -/
theorem Inside.congr (h : Inside s t) (hregs : v.regs = t.regs) (hcpsr : v.cpsr = t.cpsr) (hspsr : v.spsr = t.spsr)
    (hout : KeepsOutside t v) : Inside s v := by
  refine ⟨hcpsr.trans h.cpsr, hspsr.trans h.spsr, h.outside.trans hout, fun m r hb hm => ?_⟩
  rw [State.bankReg, hregs]
  exact h.foreign m r hb hm

/-- A banked register of another mode is not the register written. -/
theorem Inside.setBank (h : Inside s t) {b : Mode} {q : Reg} (hb : b = .usr ∨ b = s.cpsr.mode) (hq : q ≠ 15)
    (x : Word) : Inside s (t.setBank b q x) := by
  refine ⟨h.cpsr, h.spsr, h.outside, fun m r hr hm => ?_⟩
  rw [State.bankReg_setBank, if_neg]
  · exact h.foreign m r hr hm
  · intro hslot
    obtain ⟨rfl, rfl⟩ := slot_of_banked hr hq hslot
    rcases hb with rfl | rfl
    · simp [banked] at hr
    · exact hm rfl

/-- A write of a register goes to the bank of the mode, or to the pc. -/
theorem Inside.writeReg (h : Inside s t) (r : Reg) (x : Word) : Inside s (t.writeReg r x) := by
  unfold State.writeReg
  split
  case isTrue => exact h.congr rfl rfl rfl (.refl t)
  case isFalse hr => exact h.setBank (.inr (by rw [h.cpsr])) hr _

theorem Inside.writeBase (h : Inside s t) (b : Bool) (rn : Reg) (x : Word) : Inside s (t.writeBase b rn x) := by
  cases b with
  | false => exact h
  | true => exact h.writeReg rn x

theorem Inside.restoreBase (h : Inside s t) {rn : Reg} (hr : rn ≠ 15) (w : Bool) (final old : Word) :
    Inside s (t.restoreBase w rn final old) := by
  cases w with
  | false => exact h.setBank (.inr (by rw [h.cpsr])) hr old
  | true => exact h.writeReg rn final

theorem Inside.log (h : Inside s t) (e : BusEvent) : Inside s (t.log e) :=
  h.congr rfl rfl rfl (.refl t)

theorem Inside.load (h : Inside s t) (acc : Access) : Inside s (t.load acc) :=
  h.congr rfl rfl rfl (.refl t)

theorem Inside.store (h : Inside s t) (acc : Access) (x : Word) : Inside s (t.store acc x) :=
  h.congr rfl rfl rfl (.refl t)

theorem Inside.spend (h : Inside s t) (k : Cycles) : Inside s (t.spend k) :=
  h.congr rfl rfl rfl (.refl t)

theorem Inside.advance (h : Inside s t) (k : Cycles) : Inside s (t.advance k) :=
  h.congr rfl rfl rfl (.refl t)

theorem Inside.jump (h : Inside s t) (a : Word) (k : Cycles) : Inside s (t.jump a k) :=
  h.congr rfl rfl rfl (.refl t)

theorem Inside.mark (h : Inside s t) (u : Bool) : Inside s { t with hazard := u } :=
  h.congr rfl rfl rfl (.refl t)

theorem Inside.storeWords (h : Inside s t) (a : Word) (xs : List Word) : Inside s (t.storeWords a xs) :=
  h.congr (by simp) (by simp) (by simp) (by simp [KeepsOutside])

theorem Inside.loadCoproc (h : Inside s t) (cp : BitVec 4) (n k : Nat) (a : Word) :
    Inside s (t.loadCoproc cp n k a) :=
  h.congr (by simp) (by simp) (by simp) (by simp [KeepsOutside])

/-- The reads of an LDM land in the bank of the mode or in the User bank. -/
theorem Inside.loadRegs (h : Inside s t) (u ab : Bool) (a : Word) (rs : List Reg) :
    Inside s (t.loadRegs u ab a rs) := by
  refine ⟨(State.loadRegs_cpsr t u ab a rs).trans h.cpsr, (State.loadRegs_spsr t u ab a rs).trans h.spsr,
    h.outside.trans (by simp [KeepsOutside]), fun m r hb hm => ?_⟩
  rw [State.bankReg_loadRegs_of_not_mem]
  · exact h.foreign m r hb hm
  · intro q _ hq hslot
    obtain ⟨hbank, rfl⟩ := slot_of_banked hb hq hslot
    cases u with
    | false => exact hm (hbank.symm.trans (congrArg Psr.mode h.cpsr))
    | true =>
      subst hbank
      simp [State.landBank, banked] at hb

/-- Filling the pipeline changes the pipeline and the trace. -/
theorem Inside.begin (s : State) : Inside s s.begin :=
  (Inside.refl s).congr (by simp) (by simp) (by simp) (by simp [KeepsOutside])

end

/-! ### The end of an instruction -/

/-- `t` is still in User mode, with the control bits and the privileged registers of `s` (`60_exceptions.md` R401). -/
def StaysUser (s t : State) : Prop :=
  t.cpsr.mode = .usr ∧ t.cpsr.i = s.cpsr.i ∧ t.cpsr.f = s.cpsr.f ∧ t.spsr = s.spsr ∧
    ∀ m r, banked m r = true → t.bankReg m r = s.bankReg m r

/-- `t` has entered an exception other than reset, which changed of the privileged registers R14 and the SPSR of its
mode (`60_exceptions.md` R402). -/
def LeavesUser (s t : State) : Prop :=
  ∃ x : Exception, x ≠ .reset ∧ t.pc = x.vector ∧
    t.cpsr = { s.cpsr with mode := x.mode, i := true, f := s.cpsr.f || x.setsF } ∧
    t.savedOf x.mode = some s.cpsr.save ∧ (∀ m, m ≠ x.mode → t.savedOf m = s.savedOf m) ∧
    ∀ m r, banked m r = true → ¬ (m = x.mode ∧ r = 14) → t.bankReg m r = s.bankReg m r

/-- How an instruction that began in `s` may end: the outside is kept, and User mode is confined. -/
structure Ends (s t : State) : Prop where
  outside : KeepsOutside s t
  confined : s.cpsr.mode = .usr → StaysUser s t ∨ LeavesUser s t

/-- Two CPSRs with the same mode, I and F. -/
def SameControl (p q : Psr) : Prop := q.mode = p.mode ∧ q.i = p.i ∧ q.f = p.f

theorem SameControl.withFlags (p : Psr) (n z c v : Bool) : SameControl p (p.withFlags n z c v) := ⟨rfl, rfl, rfl⟩

section
variable {s t : State}

/-- A CPSR with the old control bits does not leave User mode. -/
theorem Inside.ends_setPsr (h : Inside s t) {p : Psr} (hp : SameControl t.cpsr p) : Ends s (t.setPsr p) := by
  refine ⟨h.outside, fun hu => .inl ?_⟩
  obtain ⟨hmode, hi, hf⟩ := hp
  rw [h.cpsr] at hmode hi hf
  refine ⟨hmode.trans hu, hi, hf, h.spsr, fun m r hb => h.foreign m r hb ?_⟩
  rintro rfl
  simp [hu, banked] at hb

/-- An instruction may end wherever it stands. -/
theorem Inside.ends (h : Inside s t) : Ends s t := h.ends_setPsr (p := t.cpsr) ⟨rfl, rfl, rfl⟩

/-- An exception is entered with the CPSR of the start of the instruction. -/
theorem Inside.ends_enter (h : Inside s t) {x : Exception} (hx : x ≠ .reset) (a : Word) : Ends s (t.enter x a) := by
  refine ⟨h.outside, fun hu => .inr ⟨x, hx, rfl, ?_, ?_, fun m hm => ?_, fun m r hb hne => ?_⟩⟩
  · rw [State.enter_cpsr, h.cpsr]
    rfl
  · rw [State.savedOf_enter, if_pos rfl, h.cpsr]
  · rw [State.savedOf_enter, if_neg hm]
    cases m <;> simp only [State.savedOf, h.spsr]
  · rw [State.bankReg_enter, if_neg]
    · refine h.foreign m r hb ?_
      rintro rfl
      simp [hu, banked] at hb
    · intro hslot
      obtain ⟨hm, hr⟩ := slot_of_banked hb (by decide) hslot
      exact hne ⟨hm.symm, hr.symm⟩

theorem Inside.ends_raise (h : Inside s t) {x : Exception} (hx : x ≠ .reset) : Ends s (t.raise x) := h.ends_enter hx _

theorem Inside.ends_raiseDataAbort (h : Inside s t) : Ends s t.raiseDataAbort :=
  (Inside.log h _).ends_raise (x := .dataAbort) (by decide)

theorem Inside.ends_trapUndefined (h : Inside s t) (w : Word) : Ends s (t.trapUndefined w) :=
  (h.log _).ends_raise (x := .undefined) (by decide)

/-- Of an instruction in a privileged mode only the outside matters. -/
theorem Ends.of_privileged (hm : s.cpsr.mode ≠ .usr) (h : KeepsOutside s t) : Ends s t := ⟨h, fun hu => absurd hu hm⟩

end

/-! ### Families -/

section
variable {s t : State}

/-- User mode has no SPSR to return with. -/
theorem Inside.mode_ne_of_restored (h : Inside s t) {p : Psr} (hp : t.restored = .ok p) : s.cpsr.mode ≠ .usr := by
  rw [← h.cpsr]
  exact State.restored_privileged t hp

theorem ends_returnTo (h : Inside s t) (a : Word) (k : Cycles) : NextMeets (Ends s) (t.returnTo a k) := by
  refine nextMeets_iff.mpr fun u hu => ?_
  obtain ⟨p, hp, rfl⟩ := (State.returnTo_next t).mp hu
  exact .of_privileged (h.mode_ne_of_restored hp) h.outside

theorem ends_testToPsr (h : Inside s t) (r : AluOut) (k : Nat) : NextMeets (Ends s) (testToPsr r k t) := by
  refine nextMeets_iff.mpr fun u hu => ?_
  rcases (testToPsr_next t).mp hu with ⟨-, p, hp, rfl⟩ | ⟨-, -, rfl⟩ | ⟨-, -, rfl⟩
  · exact .of_privileged (h.mode_ne_of_restored hp) h.outside
  · exact (h.advance _).ends
  · exact (h.advance _).ends_setPsr (.withFlags ..)

theorem ends_finishAlu (h : Inside s t) (op : AluOp) (sf : Bool) (rd : Reg) (r : AluOut) (k : Nat) :
    NextMeets (Ends s) (finishAlu op sf rd r k t) := by
  refine nextMeets_iff.mpr fun u hu => ?_
  rcases (finishAlu_next t).mp hu with ⟨-, -, rfl⟩ | ⟨-, -, hu⟩ | ⟨-, -, -, hu⟩ | ⟨-, -, -, rfl⟩ | ⟨-, -, rfl⟩
  · exact (h.advance _).ends_setPsr (.withFlags ..)
  · exact nextMeets_iff.mp (ends_testToPsr h r k) u hu
  · exact nextMeets_iff.mp (ends_returnTo h _ _) u hu
  · exact (h.jump _ _).ends
  · refine ((h.writeReg rd _).advance _).ends_setPsr ?_
    cases sf <;> simp [SameControl, Psr.withAlu, Psr.withFlags]

theorem ends_finishMultiply (h : Inside s t) (sf : Bool) (rd : Reg) (x : Word) (m : Nat) :
    NextMeets (Ends s) (finishMultiply sf rd x m t) := by
  refine .next (((h.writeReg rd x).advance _).ends_setPsr ?_)
  cases sf <;> simp [SameControl, Psr.withMultiply, Psr.withFlags]

theorem ends_writePsrFlags (h : Inside s t) (spsr : Bool) (x : Word) :
    NextMeets (Ends s) (writePsrFlags spsr x t) := by
  unfold writePsrFlags
  split
  · split
    case h_1 => exact .refused _
    case h_2 p hp =>
      have hm : s.cpsr.mode ≠ .usr := by simpa [State.privileged, h.cpsr] using State.privileged_of_savedOf hp
      exact .next (.of_privileged hm h.outside)
  · exact .next ((h.advance _).ends_setPsr (.withFlags ..))

theorem ends_writeWholeCpsr (h : Inside s t) (x : Word) : NextMeets (Ends s) (writeWholeCpsr x t) := by
  unfold writeWholeCpsr
  split
  case isTrue hp =>
    have hm : s.cpsr.mode ≠ .usr := by simpa [State.privileged, h.cpsr] using hp
    split
    · exact .refused _
    · exact .next (.of_privileged hm h.outside)
  case isFalse => exact .next ((h.advance _).ends_setPsr (.withFlags ..))

theorem ends_writeWholeSpsr (h : Inside s t) (x : Word) : NextMeets (Ends s) (writeWholeSpsr x t) := by
  unfold writeWholeSpsr
  split
  case isTrue hp =>
    have hm : s.cpsr.mode ≠ .usr := by simpa [State.privileged, h.cpsr] using hp
    split
    · exact .refused _
    · exact .next (.of_privileged hm h.outside)
  case isFalse => exact .refused _

/-- An instruction that ends in a data abort, or else with the next one in order. -/
theorem ends_abort_or_advance {u v : State} (hu : Inside s u) (hv : Inside s v) (aborts : Bool) (k k' : Cycles) :
    NextMeets (Ends s) (if aborts then .next (u.spend k).raiseDataAbort else .next (v.advance k')) := by
  cases aborts with
  | true => exact .next (hu.spend k).ends_raiseDataAbort
  | false => exact .next (hv.advance k').ends

theorem ends_loadSingle (h : Inside s t) (size : Size) (p u w : Bool) (rn rd : Reg) (off : Word) :
    NextMeets (Ends s) (loadSingle size p u w rn rd off t) := by
  have hbase (acc : Access) (x : Word) : Inside s ((t.load acc).writeBase (writesBack p w) rn x) :=
    (h.load acc).writeBase _ _ _
  simp only [loadSingle]
  split
  · exact .next ((hbase _ _).spend _).ends_raiseDataAbort
  · split
    · exact .next ((hbase _ _).jump _ _).ends
    · exact .next (((hbase _ _).writeReg rd _).advance _).ends

theorem ends_storeSingle (h : Inside s t) (size : Size) (p u w : Bool) (rn rd : Reg) (off : Word) :
    NextMeets (Ends s) (storeSingle size p u w rn rd off t) := by
  have hbase (acc : Access) (x y : Word) : Inside s ((t.store acc x).writeBase (writesBack p w) rn y) :=
    (h.store acc x).writeBase _ _ _
  exact ends_abort_or_advance (hbase _ _ _) (hbase _ _ _) _ _ _

/-- Putting the base right after an abort needs a base that has a place among the registers. -/
theorem ends_loadBlock (h : Inside s t) (p u sb w : Bool) {rn : Reg} (hr : rn ≠ 15) (list : BitVec 16) :
    NextMeets (Ends s) (loadBlock p u sb w rn list t) := by
  have hloaded (x a : Word) (b : Bool) : Inside s ((t.writeBase w rn x).loadRegs b false a (regsOf list)) :=
    (h.writeBase w rn x).loadRegs _ _ _ _
  simp only [loadBlock]
  split
  · exact .next (((hloaded _ _ _).restoreBase hr _ _ _).spend _).ends_raiseDataAbort
  split
  · split
    · exact ends_returnTo (hloaded _ _ _) _ _
    · exact .next ((hloaded _ _ _).jump _ _).ends
  · exact .next (((hloaded _ _ _).advance _).mark _).ends

theorem ends_storeBlock (h : Inside s t) (p u sb w : Bool) (rn : Reg) (list : BitVec 16) :
    NextMeets (Ends s) (storeBlock p u sb w rn list t) := by
  have hstored (a x : Word) (xs : List Word) : Inside s ((t.storeWords a xs).writeBase w rn x) :=
    (h.storeWords a xs).writeBase w rn x
  exact ends_abort_or_advance (hstored _ _ _) (hstored _ _ _) _ _ _

theorem ends_swapSingle (h : Inside s t) (size : Size) (rn rd rm : Reg) :
    NextMeets (Ends s) (swapSingle size rn rd rm t) := by
  have hread (acc : Access) : Inside s (t.load acc) := h.load acc
  simp only [swapSingle]
  split
  · refine .next (Inside.spend ?_ _).ends_raiseDataAbort
    split
    · exact (hread _).store _ _
    · exact hread _
  · exact ends_abort_or_advance ((hread _).store _ _) (((hread _).store _ _).writeReg rd _) _ _ _

theorem ends_loadToCoproc (h : Inside s t) (p u w : Bool) (rn : Reg) (cp : BitVec 4) (off : Byte) (d : CoprocData) :
    NextMeets (Ends s) (loadToCoproc p u w rn cp off d t) := by
  have hloaded (n : Nat) (a x : Word) : Inside s ((t.loadCoproc cp n 0 a).writeBase w rn x) :=
    (h.loadCoproc cp n 0 a).writeBase w rn x
  exact ends_abort_or_advance (hloaded _ _ _) (hloaded _ _ _) _ _ _

theorem ends_storeFromCoproc (h : Inside s t) (p u w : Bool) (rn : Reg) (off : Byte) (d : CoprocData) :
    NextMeets (Ends s) (storeFromCoproc p u w rn off d t) := by
  have hstored (a x : Word) (xs : List Word) : Inside s ((t.storeWords a xs).writeBase w rn x) :=
    (h.storeWords a xs).writeBase w rn x
  exact ends_abort_or_advance (hstored _ _ _) (hstored _ _ _) _ _ _

theorem ends_readFromCoproc (h : Inside s t) (rd : Reg) (cp : BitVec 4) (d : CoprocData) :
    NextMeets (Ends s) (readFromCoproc rd cp d t) := by
  simp only [readFromCoproc]
  split
  · exact .next (((h.log _).advance _).ends_setPsr (.withFlags ..))
  · exact .next (((h.log _).writeReg rd _).advance _).ends

/-- The handshake: no coprocessor traps the instruction, a busy one leaves all but the trace and the cycles. -/
theorem ends_handshake (h : Inside s t) (cp : BitVec 4) (w : Word) {f : CoprocData → State → Outcome}
    (hf : ∀ d v, Inside s v → NextMeets (Ends s) (f d v)) : NextMeets (Ends s) (handshake cp w t f) :=
  .handshake (h.ends_trapUndefined w) ((h.log _).spend _).ends fun d => hf d _ (h.log _)

/-- Past the restrictions of LDM and STM the base is not R15. -/
theorem nextMeets_blockGuard_of_base {P : State → Prop} {o : Outcome} {sb userBank w : Bool} {rn : Reg}
    {list : BitVec 16} (h : rn ≠ 15 → NextMeets P o) : NextMeets P (blockGuard sb userBank w rn list s o) :=
  .refuseIf fun _ => .refuseIf fun hr => .refuseIf fun _ => .refuseIf fun _ => h (by simpa using hr)

/-- How every instruction may end, family by family. -/
theorem ends_exec (h : Inside s t) (i : Instr) : NextMeets (Ends s) (exec i t) := by
  have hskip : Ends s (t.advance ⟨0, 1, 0, 0⟩) := (h.advance _).ends
  apply Instr.family_cases (motive := fun j _ => NextMeets (Ends s) (exec j t)) (i := i)
  case data =>
    intro op c sf rn rd o
    rw [exec_operandForm_guarded]
    exact .conditionally hskip (.refuseIf fun _ => ends_finishAlu h ..)
  case transfer =>
    intro load byte c p u w rn rd o
    rw [exec_offsetForm_guarded]
    refine .conditionally hskip (.refuseIf fun _ => .refuseIf fun _ => ?_)
    cases load with
    | true => exact .refuseIf fun _ => ends_loadSingle h ..
    | false => exact .refuseIf fun _ => ends_storeSingle h ..
  case mrs =>
    intro c spsr rd
    refine .conditionally hskip (.refuseIf fun _ => ?_)
    split
    · exact .refused _
    · exact .next ((h.writeReg rd _).advance _).ends
  case msrAll =>
    intro c spsr rm
    refine .conditionally hskip (.refuseIf fun _ => ?_)
    cases spsr with
    | true => exact ends_writeWholeSpsr h _
    | false => exact ends_writeWholeCpsr h _
  case msrFlags => intros; exact .conditionally hskip (.refuseIf fun _ => ends_writePsrFlags h ..)
  case msrFlagsImm => intros; exact .conditionally hskip (ends_writePsrFlags h ..)
  case mul | mla => intros; exact .conditionally hskip (.refuseIf fun _ => ends_finishMultiply h ..)
  case ldm => intros; exact .conditionally hskip (nextMeets_blockGuard_of_base fun hr => ends_loadBlock h _ _ _ _ hr _)
  case stm => intros; exact .conditionally hskip (nextMeets_blockGuard_of_base fun _ => ends_storeBlock h ..)
  case b => intros; exact .conditionally hskip (.next (h.jump _ _).ends)
  case bl => intros; exact .conditionally hskip (.next ((h.writeReg 14 _).jump _ _).ends)
  case swp | swpb => intros; exact .conditionally hskip (.refuseIf fun _ => ends_swapSingle h ..)
  case swi => intros; exact .conditionally hskip (.next (h.ends_raise (x := .swi) (by decide)))
  case undefined => intros; exact .conditionally hskip (.next (h.ends_trapUndefined _))
  case cdp | mcr =>
    intros
    exact .conditionally hskip (ends_handshake h _ _ fun _ _ hv => .next ((hv.log _).advance _).ends)
  case ldc =>
    intros
    exact .conditionally hskip (.refuseIf fun _ =>
      ends_handshake h _ _ fun d _ hv => ends_loadToCoproc hv _ _ _ _ _ _ d)
  case stc =>
    intros
    exact .conditionally hskip (.refuseIf fun _ =>
      ends_handshake h _ _ fun d _ hv => ends_storeFromCoproc hv _ _ _ _ _ d)
  case mrc =>
    intros
    exact .conditionally hskip (ends_handshake h _ _ fun d _ hv => ends_readFromCoproc hv _ _ d)

end

/-! ### Every step -/

section
variable {s t : State}

/-- Out of reset a step ends as an instruction does, before the next inputs are taken. -/
theorem step_ends (h : step s = .next t) (hl : s.inputs.resetLow = false) (h0 : s.resetCycles = 0) :
    ∃ u, t = u.settle ∧ Ends s u := by
  obtain ⟨u, rfl, hu⟩ := step_cases h
  refine ⟨u, rfl, ?_⟩
  have hbegin := Inside.begin s
  rcases hu with ⟨hlow, -⟩ | ⟨-, h2, -⟩ | ⟨-, -, ⟨x, hx, rfl⟩ | rfl | ⟨i, -, hi⟩⟩
  · simp [hl] at hlow
  · omega
  · refine hbegin.ends_raise ?_
    rintro rfl
    simp at hx
  · exact (hbegin.advance _).ends
  · exact nextMeets_iff.mp (ends_exec hbegin i) u hi

/-! The next inputs touch nothing that the processor holds. -/

theorem StaysUser.settle (h : StaysUser s t) : StaysUser s t.settle := by
  simpa [StaysUser, State.bankReg] using h

theorem LeavesUser.settle (h : LeavesUser s t) : LeavesUser s t.settle := by
  simpa [LeavesUser, State.bankReg, State.savedOf] using h

end

/-- Settles O58, by how a step out of reset ends. -/
theorem userModeIsConfined : Obligations.UserModeIsConfined := by
  intro s t h hu hl h0
  obtain ⟨u, rfl, hends⟩ := step_ends h hl h0
  rcases hends.confined hu with hstays | hleaves
  · exact .inl hstays.settle
  · exact .inr hleaves.settle

end Sys2Proof.Machine
end

section
/-! SUPPORT. What every step keeps and takes from outside, the cycles and the end of reset, and the branch to itself
that ends a run (`70_reset_and_hazards.md` R460, R461, R490, R491). -/

namespace Sys2Proof.Machine

/-! ### The outside -/

/-- The byte order, the memory map, the inputs, those to come and the number of the step are kept. -/
def KeepsSettings (s t : State) : Prop :=
  t.bigend = s.bigend ∧ t.memoryMap = s.memoryMap ∧ t.inputs = s.inputs ∧ t.schedule = s.schedule ∧
    t.drawIndex = s.drawIndex

section
variable {s t : State}

/-- What an instruction keeps is more by the reset count. -/
theorem KeepsOutside.settings (h : KeepsOutside s t) : KeepsSettings s t := by
  obtain ⟨hbig, hmap, hin, hsched, -, hdraw⟩ := h
  exact ⟨hbig, hmap, hin, hsched, hdraw⟩

theorem keepsSettings_resetCycle (s : State) : KeepsSettings s s.resetCycle := by
  obtain ⟨m, b, e, -⟩ := State.resetCycle_exists s
  rw [e]
  exact ⟨rfl, rfl, rfl, rfl, rfl⟩

theorem keepsSettings_enterReset (s : State) : KeepsSettings s s.enterReset := by simp [KeepsSettings]

/-- Before the next inputs are taken a step has kept its settings. -/
theorem step_keepsSettings (h : step s = .next t) : ∃ u, t = u.settle ∧ KeepsSettings s u := by
  obtain ⟨u, rfl, hu⟩ := step_cases h
  refine ⟨u, rfl, ?_⟩
  have hbegin := Inside.begin s
  rcases hu with ⟨-, rfl⟩ | ⟨-, -, rfl⟩ | ⟨-, -, ⟨x, -, rfl⟩ | rfl | ⟨i, -, hi⟩⟩
  · exact keepsSettings_resetCycle s
  · exact keepsSettings_enterReset s
  · exact hbegin.outside.settings
  · exact hbegin.outside.settings
  · exact (nextMeets_iff.mp (ends_exec hbegin i) u hi).outside.settings

/-- With no inputs to come the inputs stay. -/
theorem State.settle_of_nil (h : s.schedule = []) : s.settle = { s with drawIndex := s.drawIndex + 1 } := by
  rw [State.settle, h]

/-- The next inputs are the first of those to come. -/
theorem State.settle_of_cons {x : Inputs} {xs : List Inputs} (h : s.schedule = x :: xs) :
    s.settle = { s with inputs := x, schedule := xs, drawIndex := s.drawIndex + 1 } := by
  rw [State.settle, h]

end

/-- Settles O19: a step keeps its settings and then takes the next inputs. -/
theorem everyStepTakesNextInputs : Obligations.EveryStepTakesNextInputs := by
  intro s t h
  obtain ⟨u, rfl, hbig, hmap, hin, hsched, hdraw⟩ := step_keepsSettings h
  refine ⟨by simpa using hbig, by simpa using hmap, by simpa using hdraw, fun hnil => ?_, fun x xs hcons => ?_⟩
  · rw [State.settle_of_nil (hsched.trans hnil)]
    exact ⟨hin, hsched.trans hnil⟩
  · rw [State.settle_of_cons (hsched.trans hcons)]
    exact ⟨rfl, rfl⟩

/-! ### Reset -/

section
variable {s : State}

/-- The one event of a fetch: A[1:0] apart, its address is the one asked for (`20_memory.md` R77). -/
theorem State.fetch_event (s : State) (a : Word) :
    ∃ x d before ab, wordAddr x = wordAddr a ∧ (s.fetch a).bus = s.bus ++
      [.access ⟨x, .word, false, true, s.privileged, s.cpsr.mode, false⟩ d before ab] :=
  ⟨_, _, _, _, s.wordAddr_fetchAddr a, rfl⟩

/-- A write that did not take effect has nothing to undo. -/
theorem State.undoWrites_of_no_write (k : Nat) {es : List BusEvent}
    (h : ∀ acc d b ab, BusEvent.access acc d b ab ∈ es → acc.write = false ∨ ab = true) : s.undoWrites k es = s := by
  induction es generalizing k with
  | nil => rfl
  | cons e es ih =>
    have hhead : s.undoWrite k e = s := by
      cases e with
      | access acc d b ab => rcases h acc d b ab (by simp) with hw | hab <;> simp [State.undoWrite, *]
      | offer | coprocOperation | coprocLoad | coprocRead | coprocWrite => rfl
    rw [State.undoWrites, hhead]
    exact ih _ fun acc d b ab hmem => h acc d b ab (List.mem_cons_of_mem e hmem)

/-- The memory that a cycle of reset leaves: before the first one the writes of the last step may be undone
(`70_reset_and_hazards.md` R462). -/
def State.resetMemory (s : State) : Memory := if s.resetCycles = 0 then (s.undoWrites 0 s.bus).mem else s.mem

/-- A cycle of reset is a dummy fetch (`70_reset_and_hazards.md` R460). -/
theorem State.resetCycle_eq (s : State) :
    s.resetCycle = { s with
      mem := s.resetMemory
      bus := (({ s with mem := s.resetMemory, bus := [] } : State).fetch s.dummyAddr).bus
      pc := s.dummyAddr + 4, pipe := [], hazard := false, resetCycles := s.resetCycles + 1
      cycles := s.cycles.add ⟨0, 1, 0, 0⟩ } := by
  obtain ⟨hundo, -⟩ := State.undoWrites_eq s 0 s.bus
  unfold State.resetCycle State.resetMemory
  split
  · rw [hundo]
    rfl
  · rfl

/-- Memory is kept in the later cycles of reset, and in the first one after a step that wrote nothing. -/
theorem State.resetMemory_eq (h : s.resetCycles ≠ 0 ∨
    ∀ acc d b ab, BusEvent.access acc d b ab ∈ s.bus → acc.write = false ∨ ab = true) : s.resetMemory = s.mem := by
  unfold State.resetMemory
  split
  case isTrue h0 => rw [State.undoWrites_of_no_write 0 (h.resolve_left (not_not.mpr h0))]
  case isFalse => rfl

/-- A step with `nRESET` low is a cycle of reset. -/
theorem step_resetLow (h : s.inputs.resetLow = true) : step s = .next s.resetCycle.settle := by
  simp [step, boundary, h, settled]

/-- A step whose `nRESET` went high after two cycles or more is the end of reset. -/
theorem step_resetReleased (h : s.inputs.resetLow = false) (h2 : 2 ≤ s.resetCycles) :
    step s = .next s.enterReset.settle := by
  have h0 : s.resetCycles ≠ 0 := by omega
  simp [step, boundary, h, h0, not_lt.mpr h2, settled]

/-- A step whose `nRESET` went high after one cycle stops (`70_reset_and_hazards.md` R461). -/
theorem step_resetTooShort (h : s.inputs.resetLow = false) (h1 : s.resetCycles = 1) :
    step s = .fault .resetPulseTooShort := by
  simp [step, boundary, h, h1, settled]

/-- The end of reset enters Supervisor mode with I and F set, whatever the flags drawn (`10_state.md` R50). -/
theorem State.enterReset_control (s : State) :
    s.enterReset.cpsr.mode = .svc ∧ s.enterReset.cpsr.i = true ∧ s.enterReset.cpsr.f = true ∧
      s.enterReset.resetCycles = 0 :=
  ⟨rfl, rfl, Bool.or_true _, rfl⟩

end

/-- Settles O14: the cycle is its dummy fetch, and only writes of the step before are undone. -/
theorem resetLowOnlyFetches : Obligations.ResetLowOnlyFetches := by
  intro s hl next
  obtain ⟨x, d, before, ab, hx, hbus⟩ :=
    ({ s with mem := s.resetMemory, bus := [] } : State).fetch_event s.dummyAddr
  refine ⟨_, step_resetLow hl, ?_⟩
  rw [State.resetCycle_eq, State.settle_eq]
  exact ⟨rfl, rfl, rfl, rfl, rfl, rfl, ⟨x, d, before, ab, hx, hbus⟩, State.resetMemory_eq⟩

/-- Settles O15: the entry of reset, whose one access is the fetch it begins with. -/
theorem resetReleased : Obligations.ResetReleased := by
  intro s hl
  refine ⟨step_resetTooShort hl, fun h2 => ⟨_, step_resetReleased hl h2, ?_⟩⟩
  obtain ⟨x, d, before, ab, hx, hbus⟩ := ({ s with bus := [] } : State).fetch_event s.dummyAddr
  obtain ⟨hmode, hi, hf, h0⟩ := s.enterReset_control
  rw [State.settle_eq]
  exact ⟨s.enterReset_pc, hmode, hi, hf, s.enterReset_pipe, s.enterReset_mem, h0, s.enterReset_bigend,
    x, d, before, ab, hx, hbus⟩

/-! ### The branch to itself -/

section
variable {s t v : State}

theorem SameArchitecture.refl (s : State) : SameArchitecture s s := ⟨rfl, rfl, rfl, rfl, rfl, rfl, rfl, rfl⟩

theorem SameArchitecture.trans (h : SameArchitecture s t) (h2 : SameArchitecture t v) : SameArchitecture s v := by
  obtain ⟨a1, a2, a3, a4, a5, a6, a7, a8⟩ := h
  obtain ⟨b1, b2, b3, b4, b5, b6, b7, b8⟩ := h2
  exact ⟨b1.trans a1, b2.trans a2, b3.trans a3, b4.trans a4, b5.trans a5, b6.trans a6, b7.trans a7, b8.trans a8⟩

/-- `B .` goes back to its own address (`41_branch.md` R181). -/
theorem State.branchTarget_self (s : State) : s.branchTarget 0xFFFFFE#24 = s.pc := by
  have hoffset : branchOffset 0xFFFFFE#24 = -8 := by decide
  rw [State.branchTarget, hoffset, BitVec.add_assoc]
  exact BitVec.add_zero _

/-- An undisturbed `B .` empties the pipeline and clears the hazard mark, and nothing else of what the processor
holds. -/
theorem step_branchToItself (hpc : field s.pc 0 2 = 0) (hu : Undisturbed s)
    (hn : NextWord s ⟨0xEAFFFFFE#32, false⟩) :
    ∃ t, step s = .next t ∧ SameArchitecture { s with pipe := [], hazard := false } t := by
  obtain ⟨hdecode, -⟩ := specWordsDecode
  have hexec := exec_b_of_condHolds (c := .al) (s := s.begin) rfl 0xFFFFFE#24
  have haligned : wordAddr s.pc = s.pc := by simpa using wordAddr_add s.pc 0 hpc rfl
  refine ⟨_, (step_undisturbed hu hn rfl hdecode).trans (congrArg settled hexec), ?_⟩
  simp [SameArchitecture, State.branchTarget_self, haligned]

/-- `B .` stands in the storage at the pc with nothing fetched, and none of the inputs now and to come is in its way. -/
structure Spinning (s : State) : Prop where
  aligned : field s.pc 0 2 = 0
  pipe : s.pipe = []
  hazard : s.hazard = false
  word : s.wordAt s.pc = 0xEAFFFFFE#32
  inside : ∀ k < 4, s.kindAt (s.pc + BitVec.ofNat 32 k) ≠ .external
  inputs : ∀ x ∈ s.inputs :: s.schedule, let u : State := { s with inputs := x }
    Undisturbed u ∧ u.aborts (u.fetchAccess u.pc) = false

/-- A byte of the storage reads as it stands there, whatever the environment answers (`20_memory.md` R90). -/
theorem State.readByte_of_not_external {a : Word} (h : s.kindAt a ≠ .external) : s.readByte a = s.byteAt a := by
  unfold State.readByte
  cases hk : s.kindAt a with
  | storage | readOnly => rfl
  | external => exact absurd hk h

/-- A word of the storage depends on the storage, the memory map and the byte order only. -/
theorem wordAt_congr {a : Word} (ha : wordAddr a = a) (hin : ∀ k < 4, s.kindAt (a + BitVec.ofNat 32 k) ≠ .external)
    (hmem : t.mem = s.mem) (hmap : t.memoryMap = s.memoryMap) (hbig : t.bigend = s.bigend) :
    t.wordAt a = s.wordAt a := by
  have hbyte : ∀ k < 4, t.readByte (a + BitVec.ofNat 32 k) = s.readByte (a + BitVec.ofNat 32 k) := by
    intro k hk
    have hkind : t.kindAt (a + BitVec.ofNat 32 k) = s.kindAt (a + BitVec.ofNat 32 k) := by
      rw [State.kindAt, State.kindAt, hmap]
    rw [State.readByte_of_not_external (hin k hk), State.readByte_of_not_external (hkind ▸ hin k hk), State.byteAt,
      State.byteAt, hmem]
  have h0 : t.readByte a = s.readByte a := by simpa using hbyte 0 (by decide)
  have h1 : t.readByte (a + 1) = s.readByte (a + 1) := hbyte 1 (by decide)
  have h2 : t.readByte (a + 2) = s.readByte (a + 2) := hbyte 2 (by decide)
  have h3 : t.readByte (a + 3) = s.readByte (a + 3) := hbyte 3 (by decide)
  rw [State.wordAt, State.wordAt, ha, h0, h1, h2, h3, hbig]

/-- The inputs after a step are among those before it. -/
theorem step_inputs_subset (h : step s = .next t) : t.inputs :: t.schedule ⊆ s.inputs :: s.schedule := by
  obtain ⟨-, -, -, hnil, hcons⟩ := everyStepTakesNextInputs s t h
  cases hs : s.schedule with
  | nil =>
    obtain ⟨hin, hsched⟩ := hnil hs
    rw [hin, hsched]
    exact List.Subset.refl _
  | cons x xs =>
    obtain ⟨hin, hsched⟩ := hcons x xs hs
    rw [hin, hsched]
    exact List.subset_cons_self _ _

/-- The word at the pc is the next one, and its fetch does not abort. -/
theorem Spinning.undisturbed_nextWord (h : Spinning s) : Undisturbed s ∧ NextWord s ⟨0xEAFFFFFE#32, false⟩ := by
  obtain ⟨hu, habort⟩ := h.inputs s.inputs (List.mem_cons_self ..)
  exact ⟨hu, .inl ⟨h.pipe, by rw [h.word]; exact congrArg _ habort.symm⟩⟩

/-- A step from `B .` leads to `B .`, with the processor as it was. -/
theorem Spinning.next (h : Spinning s) : ∃ t, step s = .next t ∧ SameArchitecture s t ∧ Spinning t := by
  obtain ⟨hu, hn⟩ := h.undisturbed_nextWord
  obtain ⟨t, hstep, hregs, hpc, hcpsr, hspsr, hmem, hpipe, hhazard, hreset⟩ := step_branchToItself h.aligned hu hn
  obtain ⟨hbig, hmap, -⟩ := everyStepTakesNextInputs s t hstep
  have haligned : wordAddr s.pc = s.pc := by simpa using wordAddr_add s.pc 0 h.aligned rfl
  refine ⟨t, hstep, ⟨hregs, hpc, hcpsr, hspsr, hmem, hpipe.trans h.pipe.symm, hhazard.trans h.hazard.symm, hreset⟩,
    ⟨?_, hpipe, hhazard, ?_, fun k hk => ?_, fun x hx => ?_⟩⟩
  · rw [hpc]
    exact h.aligned
  · rw [hpc]
    exact (wordAt_congr haligned h.inside hmem hmap hbig).trans h.word
  · rw [hpc, State.kindAt, hmap]
    exact h.inside k hk
  · have hold := h.inputs x (step_inputs_subset hstep hx)
    simpa [Undisturbed, State.aborts, State.fetchAccess, State.privileged, hpc, hcpsr, hreset] using hold

/-- A run at `B .` has ended. -/
theorem Spinning.ended (h : Spinning s) : Ended s := by
  intro n
  induction n generalizing s with
  | zero => exact ⟨s, rfl, .refl s⟩
  | succ n ih =>
    obtain ⟨t, hstep, hsame, hspin⟩ := h.next
    obtain ⟨v, hrun, hsame2⟩ := ih hspin
    exact ⟨v, by rw [runFor, hstep]; exact hrun, hsame.trans hsame2⟩

end

/-- Settles O60: one step keeps what the processor holds, and the next one finds the same. -/
theorem branchToItselfEndsRun : Obligations.BranchToItselfEndsRun := fun _ hpc =>
  ⟨step_branchToItself hpc, fun hpipe hhazard hword hin hinputs =>
    (Spinning.mk hpc hpipe hhazard hword hin hinputs).ended⟩

end Sys2Proof.Machine
end
